-- ==== Sys2Proof/Word.lean ====
section
/-! DEFINITION. The byte of the wire and the token. Everything else the manual counts (minutes, amps, slots) is a
number; see INVENTORY.md, "Instructions". -/

namespace Sys2Proof

/-- One byte of a frame (R170, R171). -/
abbrev Byte := BitVec 8

/-- A vehicle token: 8 bytes, compared and never interpreted (01 section 1.1, R7). -/
abbrev Token := BitVec 64

end Sys2Proof
end

