-- ==== Sys2Proof/Config.lean ====
section
/-! DEFINITION. The sizes and bounds the manual fixes for this part, each with the rule that gives it. The manual
leaves no result of a command open, so no free value stands here (INVENTORY.md, "What the manual leaves open"). -/

namespace Sys2Proof.Config

/-- Slots of the record pool (01 section 1.1, R22). -/
abbrev poolSize : Nat := 640
/-- Bays of the level (00_scope.md). -/
abbrev bayCount : Nat := 96
/-- Bay modules, module k serving bays 8k to 8k+7 (00_scope.md, R100). -/
abbrev moduleCount : Nat := 12
/-- Feeders F0 to F3 (07 section 7.1). -/
abbrev feederCount : Nat := 4
/-- Entries the relocation list can hold (R104). -/
def listSize : Nat := 128
/-- Live records a timeline can hold (R24, R26). -/
def timelineSize : Nat := 10
/-- Live records a token can have (R27). -/
def tokenSize : Nat := 3
/-- A start lies at most this many minutes ahead: seven days (R32). -/
def horizon : Nat := 10080
/-- Generations run 0..63 (R5). -/
def generations : Nat := 64
/-- Moves holds at this value (R2). -/
def movesMax : Nat := 7
/-- The level minute holds at this value (R64). -/
def minuteMax : Nat := 4294967295
/-- The largest minute SET CLOCK accepts (R65). -/
def setClockMax : Nat := 4000000000
/-- Crystal periods from one minute boundary to the next (R64). -/
def minutePeriods : Nat := 1966080
/-- Crystal periods in the 5 seconds of a module's silence count (R100), of 32,768 periods each. -/
def silencePeriods : Nat := 163840
/-- The least grant a post accepts, and the cap of a session under TRICKLE (R118). -/
def leastGrant : Nat := 6
/-- The longest request body (R159, R161). -/
def bodyMax : Nat := 512
/-- Settled tickets in one pool report (R19). -/
def pageSize : Nat := 64
/-- What IDENTIFY answers (R158). -/
def partCode : Nat := 9600
/-- What IDENTIFY answers (R158). -/
def revision : Nat := 3
/-- Minute boundaries on a multiple of this are rebalance boundaries (R126). -/
def rebalancePeriod : Nat := 5

end Sys2Proof.Config
end

