-- ==== Sys2Proof/Syntax.lean ====
section
/-! DEFINITION. The commands: one constructor per row of spec/opcode_table.json, with the row's operands. -/

namespace Sys2Proof

/-- A bay number, 0..95. -/
abbrev BayNo := Fin Config.bayCount
/-- A bay module, 0..11. -/
abbrev ModuleNo := Fin Config.moduleCount

/-- The two host ports (R49, R171). -/
inductive Port where
  | site
  | ramp
  deriving DecidableEq, Repr

/-- A request as it stands in a port's request slot: the fields of its frame (R171). A ramp frame carries no class
field; its request is of class PUBLIC and `cls` holds the code of PUBLIC (R49). -/
structure Request where
  tag  : Byte
  kind : Byte
  cls  : Byte
  body : List Byte
  deriving DecidableEq, Repr

/-- The handle of a record: slot and generation, as a request or a record carries it (01 section 1.2). -/
structure Ticket where
  slot : Nat
  gen  : Nat
  deriving DecidableEq, Repr

/-- A module's report: for bay 8k+i, bit i of each field (R100). -/
structure ModuleReport where
  presence : BitVec 8
  fault    : BitVec 8
  done     : BitVec 8
  deriving DecidableEq, Repr

/-- The blocks that raise notices (10 section 10.5, column "Raised by"). -/
inductive Sender where
  | bayUnit
  | book
  | zoneMap
  | supplyUnit
  | allocator
  | sitePort
  | rampPort
  deriving DecidableEq, Repr

/-- A raise of an event flag, or of one member of a set (R164). -/
inductive Raise where
  | intruder (b : BayNo)
  | unregistered (b : BayNo)
  | postFault (b : BayNo)
  | overstay (b : BayNo)
  | moduleLost (k : ModuleNo)
  | relocated
  | stranded
  | accessFault
  | supplyChanged
  | budgetCut
  | frameError
  | portOverrun
  deriving DecidableEq, Repr

/-- The commands. A request row is the service turn in which the request engine serves that request from that port's
slot (R162, R163); a message row is the receiving block's taking of that message; a boundary row is the named block's
taking of its oldest boundary. An internal event that is not due changes nothing (log 1). -/
inductive Instr where
  -- requests on records and bookings
  | bookBay (port : Port) (r : Request)
  | bookZone (port : Port) (r : Request)
  | bookNow (port : Port) (r : Request)
  | extendRecord (port : Port) (r : Request)
  | cancel (port : Port) (r : Request)
  | claim (port : Port) (r : Request)
  | lookupTicket (port : Port) (r : Request)
  | findToken (port : Port) (r : Request)
  | listBay (port : Port) (r : Request)
  | endSession (port : Port) (r : Request)
  | collect (port : Port) (r : Request)
  | poolStatus (port : Port) (r : Request)
  -- zones
  | writeZone (port : Port) (r : Request)
  | readZone (port : Port) (r : Request)
  | readAccessFault (port : Port) (r : Request)
  | clearAccessFault (port : Port) (r : Request)
  -- bays
  | configureBay (port : Port) (r : Request)
  | enableBay (port : Port) (r : Request)
  | disableBay (port : Port) (r : Request)
  | clearFault (port : Port) (r : Request)
  | readBay (port : Port) (r : Request)
  -- feeders
  | setBudget (port : Port) (r : Request)
  | setReserveCeiling (port : Port) (r : Request)
  | readFeeder (port : Port) (r : Request)
  -- supply and groups
  | setGroupLevel (port : Port) (r : Request)
  | selectSupply (port : Port) (r : Request)
  | switchSupply (port : Port) (r : Request)
  | readSupply (port : Port) (r : Request)
  -- level
  | setClock (port : Port) (r : Request)
  | setParameters (port : Port) (r : Request)
  | openLevel (port : Port) (r : Request)
  | restartLevel (port : Port) (r : Request)
  | restartAllocation (port : Port) (r : Request)
  -- notices and identity
  | readNotices (port : Port) (r : Request)
  | clearNotices (port : Port) (r : Request)
  | setNoticeMask (port : Port) (r : Request)
  | identify (port : Port) (r : Request)
  | unknownRequest (port : Port) (r : Request)
  -- relocation turns
  | relocationStepBayEntry
  | relocationStepRecordEntry
  -- ports; `bytes` of a write are those after 0x01, of a ramp frame those after 0x7E, of a bad transfer all of them
  | siteWrite (bytes : List Byte)
  | siteRead (shifted : Nat)
  | siteBadTransfer (bytes : List Byte)
  | rampFrame (bytes : List Byte)
  | rampByteTimeout
  | rampResponseSent
  -- bay link
  | modulePoll
  | moduleReport (k : ModuleNo) (rep : ModuleReport)
  | moduleFound (k : ModuleNo) (rep : ModuleReport)
  | moduleLost (k : ModuleNo)
  -- boundaries
  | minuteBoundary
  | deadlinePass
  | claimWindowCount
  | claimWindowExpiry (b : BayNo)
  | settleCount
  | settleExpiry
  | rebalanceBoundary
  -- lines
  | mainsOkFall
  | mainsOkRise
  | drChange (high : Bool)
  | alarmChange (high : Bool)
  | powerOnReset
  -- messages
  | sessionRequest (b : BayNo) (draw : Nat)
  | release (b : BayNo)
  | hold (b : BayNo)
  | unhold (b : BayNo)
  | endServing (b : BayNo)
  | removeRecordEntry (t : Ticket)
  | noticeRaise (sender : Sender) (what : Raise)
  | rampFrameStart
  | resetRelease (mainsOk dr alarm : Bool)
  deriving DecidableEq, Repr

end Sys2Proof
end

