-- ==== Sys2Proof/WellFormed.lean ====
section
/-! DEFINITION. Which terms of Instr are commands the outside or the part can produce. `exec` does not rely on it: an
ill-formed command is never due, or changes nothing (log 1). -/

namespace Sys2Proof

/-- The kind number of each request row (10 section 10.4); none for the rows that are no requests. RESTART has two
rows of kind 32; UNKNOWN_REQUEST has every kind that names no request (R163). -/
def Instr.kindOk : Instr → Option (Nat → Bool)
  | .bookBay _ _ => some (· == 1)
  | .bookZone _ _ => some (· == 2)
  | .bookNow _ _ => some (· == 3)
  | .extendRecord _ _ => some (· == 4)
  | .cancel _ _ => some (· == 5)
  | .claim _ _ => some (· == 6)
  | .lookupTicket _ _ => some (· == 7)
  | .findToken _ _ => some (· == 8)
  | .listBay _ _ => some (· == 9)
  | .endSession _ _ => some (· == 10)
  | .collect _ _ => some (· == 11)
  | .poolStatus _ _ => some (· == 12)
  | .writeZone _ _ => some (· == 13)
  | .readZone _ _ => some (· == 14)
  | .readAccessFault _ _ => some (· == 15)
  | .clearAccessFault _ _ => some (· == 16)
  | .configureBay _ _ => some (· == 17)
  | .enableBay _ _ => some (· == 18)
  | .disableBay _ _ => some (· == 19)
  | .clearFault _ _ => some (· == 20)
  | .readBay _ _ => some (· == 21)
  | .setBudget _ _ => some (· == 22)
  | .setReserveCeiling _ _ => some (· == 23)
  | .readFeeder _ _ => some (· == 24)
  | .setGroupLevel _ _ => some (· == 25)
  | .selectSupply _ _ => some (· == 26)
  | .switchSupply _ _ => some (· == 27)
  | .readSupply _ _ => some (· == 28)
  | .setClock _ _ => some (· == 29)
  | .setParameters _ _ => some (· == 30)
  | .openLevel _ _ => some (· == 31)
  | .restartLevel _ _ => some (· == 32)
  | .restartAllocation _ _ => some (· == 32)
  | .readNotices _ _ => some (· == 33)
  | .clearNotices _ _ => some (· == 34)
  | .setNoticeMask _ _ => some (· == 35)
  | .identify _ _ => some (· == 36)
  | .unknownRequest _ _ => some (fun k => k == 0 || decide (36 < k))
  | .relocationStepBayEntry | .relocationStepRecordEntry => none
  | .siteWrite _ | .siteRead _ | .siteBadTransfer _ => none
  | .rampFrame _ | .rampByteTimeout | .rampResponseSent => none
  | .modulePoll | .moduleReport _ _ | .moduleFound _ _ | .moduleLost _ => none
  | .minuteBoundary | .deadlinePass | .claimWindowCount | .claimWindowExpiry _ => none
  | .settleCount | .settleExpiry | .rebalanceBoundary => none
  | .mainsOkFall | .mainsOkRise | .drChange _ | .alarmChange _ | .powerOnReset => none
  | .sessionRequest _ _ | .release _ | .hold _ | .unhold _ | .endServing _ => none
  | .removeRecordEntry _ | .noticeRaise _ _ | .rampFrameStart | .resetRelease _ _ _ => none

/-- The port and request of a request row. -/
def Instr.request : Instr → Option (Port × Request)
  | .bookBay p r => some (p, r)
  | .bookZone p r => some (p, r)
  | .bookNow p r => some (p, r)
  | .extendRecord p r => some (p, r)
  | .cancel p r => some (p, r)
  | .claim p r => some (p, r)
  | .lookupTicket p r => some (p, r)
  | .findToken p r => some (p, r)
  | .listBay p r => some (p, r)
  | .endSession p r => some (p, r)
  | .collect p r => some (p, r)
  | .poolStatus p r => some (p, r)
  | .writeZone p r => some (p, r)
  | .readZone p r => some (p, r)
  | .readAccessFault p r => some (p, r)
  | .clearAccessFault p r => some (p, r)
  | .configureBay p r => some (p, r)
  | .enableBay p r => some (p, r)
  | .disableBay p r => some (p, r)
  | .clearFault p r => some (p, r)
  | .readBay p r => some (p, r)
  | .setBudget p r => some (p, r)
  | .setReserveCeiling p r => some (p, r)
  | .readFeeder p r => some (p, r)
  | .setGroupLevel p r => some (p, r)
  | .selectSupply p r => some (p, r)
  | .switchSupply p r => some (p, r)
  | .readSupply p r => some (p, r)
  | .setClock p r => some (p, r)
  | .setParameters p r => some (p, r)
  | .openLevel p r => some (p, r)
  | .restartLevel p r => some (p, r)
  | .restartAllocation p r => some (p, r)
  | .readNotices p r => some (p, r)
  | .clearNotices p r => some (p, r)
  | .setNoticeMask p r => some (p, r)
  | .identify p r => some (p, r)
  | .unknownRequest p r => some (p, r)
  | .relocationStepBayEntry | .relocationStepRecordEntry => none
  | .siteWrite _ | .siteRead _ | .siteBadTransfer _ => none
  | .rampFrame _ | .rampByteTimeout | .rampResponseSent => none
  | .modulePoll | .moduleReport _ _ | .moduleFound _ _ | .moduleLost _ => none
  | .minuteBoundary | .deadlinePass | .claimWindowCount | .claimWindowExpiry _ => none
  | .settleCount | .settleExpiry | .rebalanceBoundary => none
  | .mainsOkFall | .mainsOkRise | .drChange _ | .alarmChange _ | .powerOnReset => none
  | .sessionRequest _ _ | .release _ | .hold _ | .unhold _ | .endServing _ => none
  | .removeRecordEntry _ | .noticeRaise _ _ | .rampFrameStart | .resetRelease _ _ _ => none

/-- A request a port slot can hold: a body of at most 512 bytes, and class PUBLIC on the ramp port (R159, R161, R49). -/
def Request.fitsPort (p : Port) (r : Request) : Bool :=
  decide (r.body.length ≤ Config.bodyMax) && (p == .site || r.cls == 1#8)

/-- Well-formed: the operands are values the row's event can carry. -/
def Instr.wf (i : Instr) : Bool :=
  (match i.request, i.kindOk with
    | some (p, r), some kind => kind r.kind.toNat && r.fitsPort p
    | _, _ => true) &&
  match i with
  | .siteBadTransfer (b :: _) => b != 1#8 && b != 2#8            -- R159: neither a write nor a read
  | .rampFrame (_ :: _ :: h :: l :: rest) =>                     -- R161: complete, or failed at its length
      let n := h.toNat * 256 + l.toNat
      if n ≤ Config.bodyMax then rest.length == n + 2 else rest.isEmpty
  | .rampFrame _ => false
  | .restartLevel _ r => r.body != [2#8]                         -- R153: scope ALLOCATION is the other row's
  | .restartAllocation _ r => r.body != [1#8]
  | .sessionRequest _ draw => decide (6 ≤ draw ∧ draw ≤ 80)      -- 01 section 1.1, draw
  | .removeRecordEntry t => decide (t.slot < Config.poolSize ∧ t.gen < Config.generations)
  | _ => true

end Sys2Proof
end

