-- ==== Sys2Proof/Machine/State.lean ====
section
/-! DEFINITION. The state of the part: every register, table, list, queue, flag and line the manual gives it, block by
block, and the queue of commands waiting. Plain data. Values of the power-on state stand with the types. -/

namespace Sys2Proof.Machine

/-- A slot of the record pool (01). -/
abbrev Slot := Fin Config.poolSize
/-- A feeder F0..F3 (07). -/
abbrev FeederNo := Fin Config.feederCount
/-- A zone Z0..Z7 of a class (03). -/
abbrev ZoneNo := Fin 8
/-- A curtailment group C1..C3, as 0..2 (08). -/
abbrev GroupNo := Fin 3

/-- Requester class (R49). -/
inductive Class where
  | pub
  | fleet
  | operator
  deriving DecidableEq, Repr

/-! ## Level clock, boundaries, level control -/

/-- The level clock (R64): the level minute, the clock-set flag, and the crystal periods since the last boundary. -/
structure Clock where
  minute : Nat
  isSet  : Bool
  phase  : Nat
  deriving DecidableEq, Repr

/-- Boundaries delivered by the clock and not yet taken, by the block that takes them; oldest first (R67, R155). -/
structure Boundaries where
  book   : List Nat
  bays   : List Nat
  supply : List Nat
  alloc  : List Nat
  deriving DecidableEq, Repr

/-- R149. -/
inductive LevelState where
  | configuring
  | opened
  deriving DecidableEq, Repr

/-- The level parameters (09 section 9.2). -/
structure Params where
  holdLead     : Nat
  turnoverGap  : Nat
  defaultGrace : Nat
  claimWindow  : Nat
  settle       : Nat
  poolLow      : Nat
  deriving DecidableEq, Repr

/-! ## Zone map -/

inductive Direction where
  | up
  | down
  deriving DecidableEq, Repr

inductive Access where
  | closed
  | view
  | book
  deriving DecidableEq, Repr

/-- A zone descriptor (03 section 3.3). -/
structure Descriptor where
  base      : BayNo
  length    : Nat
  direction : Direction
  access    : Access
  used      : Bool
  deriving DecidableEq, Repr

inductive ZoneFault where
  | notMapped
  | outOfZone
  | readOnly
  deriving DecidableEq, Repr

/-- The requests that pass through the zone map (03 section 3.4). -/
inductive ZoneRequest where
  | bookBay
  | bookZone
  | bookNow
  | listBay
  deriving DecidableEq, Repr

/-- What the access fault record shows while valid (03 section 3.4). -/
structure Capture where
  cause   : ZoneFault
  request : ZoneRequest
  cls     : Class
  zone    : ZoneNo
  index   : Option Nat
  port    : Port
  minute  : Nat
  deriving DecidableEq, Repr

/-- The zone map: descriptors by class and zone (class * 8 + zone), and the access fault record: valid is
`captured.isSome`, and while it is not valid every field but more is absent (R56). -/
structure ZoneMap where
  descriptors : Vector Descriptor 24
  captured    : Option Capture
  more        : Bool
  deriving DecidableEq, Repr

/-! ## Book -/

inductive RecState where
  | booked
  | held
  | session
  | parked
  | overstay
  | settled
  deriving DecidableEq, Repr

/-- A settled record's outcome (01 section 1.1). -/
inductive Result where
  | completed
  | noShow
  | cancelled
  | preempted
  | revoked
  deriving DecidableEq, Repr

/-- The cause beside an outcome (R3, R9). -/
inductive Cause where
  | bayLost
  | postFault
  | bayDisabled
  | linkLost
  deriving DecidableEq, Repr

/-- How the creating request named its bay (01 section 1.1). -/
inductive OriginZone where
  | zone (z : ZoneNo)
  | direct
  deriving DecidableEq, Repr

/-- A reservation record (01 section 1.1). -/
structure Record where
  ticket       : Ticket
  token        : Token
  bay          : BayNo
  originClass  : Class
  originZone   : OriginZone
  originPort   : Port
  accessible   : Bool
  start        : Nat
  length       : Nat
  grace        : Nat
  draw         : Nat
  state        : RecState
  moves        : Nat
  relocPending : Bool
  outcome      : Option Result
  cause        : Option Cause
  arrival      : Option Nat
  departure    : Option Nat
  dwell        : Option Nat
  overstay     : Option Nat
  deriving DecidableEq, Repr

/-- One entry of the token index: a token's live records in ascending start (R27). -/
structure TokenEntry where
  token : Token
  slots : List Slot
  deriving DecidableEq, Repr

/-- The book (01, 02). `timelines` and token entries list slots in ascending start of their records; `tokens` is kept in
ascending token and `settled` in ascending slot, so that equal collections are equal data. -/
structure Book where
  pool       : Vector (Option Record) Config.poolSize
  gens       : Vector Nat Config.poolSize
  free       : List Slot
  timelines  : Vector (List Slot) Config.bayCount
  tokens     : List TokenEntry
  settled    : List Slot
  heldReport : Vector Bool Config.bayCount
  deriving DecidableEq, Repr

/-! ## Relocation engine -/

/-- The reason of a BAY entry (06 section 6.1). -/
inductive Reason where
  | closed
  | fault
  | disabled
  deriving DecidableEq, Repr

/-- An entry of the relocation list (06 section 6.1). -/
inductive Entry where
  | bay (b : BayNo) (reason : Reason)
  | record (t : Ticket)
  deriving DecidableEq, Repr

/-! ## Bay unit -/

inductive BayClass where
  | standard
  | accessible
  | fleet
  deriving DecidableEq, Repr

/-- Effective actions, in increasing severity (R144). -/
inductive Action where
  | continue
  | trickle
  | stop
  | close
  deriving DecidableEq, Repr

/-- A bay's configuration (05 section 5.1). -/
structure BayConfig where
  feeder   : FeederNo
  cls      : BayClass
  maxDraw  : Nat
  groups   : Vector Bool 3
  quiet    : Action
  clear    : Action
  autocut  : Bool
  rejoin   : Bool
  deriving DecidableEq, Repr

inductive BayState where
  | disabled
  | faulted
  | vacant
  | awaiting
  | unclaimed
  | squatted
  | serving
  deriving DecidableEq, Repr

inductive FaultCause where
  | postFault
  | linkLost
  deriving DecidableEq, Repr

inductive Origin where
  | awaiting
  | vacant
  deriving DecidableEq, Repr

inductive Sign where
  | out
  | closed
  | reserved
  | inUse
  | free
  deriving DecidableEq, Repr

/-- A bay entry (R82), but for its post command, which stands with the allocator that writes it (log 26). -/
structure Bay where
  config     : BayConfig
  state      : BayState
  presence   : Bool
  faultLine  : Bool
  sticky     : Bool
  faultCause : Option FaultCause
  heldMark   : Bool
  window     : Nat
  origin     : Option Origin
  action     : Action
  sign       : Sign
  deriving DecidableEq, Repr

/-- A module is OFFLINE, or ONLINE with its silence count: crystal periods since its last report (R100). -/
inductive ModuleState where
  | offline
  | online (silence : Nat)
  deriving DecidableEq, Repr

/-- A post command: enabled or disabled, with a limit in amps (R84). -/
structure PostCommand where
  enabled : Bool
  limit   : Nat
  deriving DecidableEq, Repr

/-- A poll as it goes out on the bay link (R100). -/
structure Poll where
  target   : ModuleNo
  commands : List PostCommand
  signs    : List Sign
  deriving DecidableEq, Repr

structure BayUnit where
  bays     : Vector Bay Config.bayCount
  modules  : Vector ModuleState Config.moduleCount
  nextPoll : ModuleNo
  lastPoll : Option Poll
  deriving DecidableEq, Repr

/-! ## Power allocator -/

inductive SupplyState where
  | mains
  | returning
  | reserve
  | halt
  deriving DecidableEq, Repr

inductive Phase where
  | queued
  | charging
  | suspended
  deriving DecidableEq, Repr

/-- A session entry; its bay is its place in the table (07 section 7.2). -/
structure Session where
  feeder : FeederNo
  draw   : Nat
  cap    : Nat
  grant  : Nat
  phase  : Phase
  deriving DecidableEq, Repr

/-- A feeder entry (07 section 7.1): `grants` oldest first, `queue` head first. -/
structure Feeder where
  budget        : Nat
  staged        : Nat
  switchPending : Bool
  reserve       : Nat
  grants        : List BayNo
  queue         : List BayNo
  deriving DecidableEq, Repr

/-- The power allocator, with its copies of the supply state and of the effective actions (08) and the post commands it
alone writes (R84). -/
structure Allocator where
  feeders  : Vector Feeder Config.feederCount
  sessions : Vector (Option Session) Config.bayCount
  posts    : Vector PostCommand Config.bayCount
  supply   : SupplyState
  actions  : Vector Action Config.bayCount
  deriving DecidableEq, Repr

/-! ## Supply and group unit -/

inductive Target where
  | mains
  | reserve
  | halt
  deriving DecidableEq, Repr

/-- Group levels, ordered (R142). -/
inductive GroupLevel where
  | normal
  | quiet
  | clear
  deriving DecidableEq, Repr

/-- The supply and group unit (08): lines as last taken, true for high. -/
structure SupplyUnit where
  state   : SupplyState
  target  : Target
  counter : Nat
  mainsOk : Bool
  dr      : Bool
  alarm   : Bool
  sites   : Vector GroupLevel 3
  actions : Vector Action Config.bayCount
  deriving DecidableEq, Repr

/-! ## Notice unit and messages on their way -/

/-- The notice unit (10 section 10.5): sets by member, event flags, level flags, the mask by cause number, ATTN. -/
structure Notices where
  intruder       : BitVec 96
  unregistered   : BitVec 96
  postFault      : BitVec 96
  overstay       : BitVec 96
  moduleLost     : BitVec 12
  relocated      : Bool
  stranded       : Bool
  accessFault    : Bool
  supplyChanged  : Bool
  budgetCut      : Bool
  frameError     : Bool
  portOverrun    : Bool
  poolLow        : Bool
  settledWaiting : Bool
  mask           : BitVec 16
  attn           : Bool
  deriving DecidableEq, Repr

/-- Messages from the book to the bay unit (R86, R89). -/
inductive BayMsg where
  | hold (b : BayNo)
  | unhold (b : BayNo)
  | endServing (b : BayNo)
  deriving DecidableEq, Repr

/-- Messages from the book to the power allocator (R117). -/
inductive AllocMsg where
  | sessionRequest (b : BayNo) (draw : Nat)
  | release (b : BayNo)
  deriving DecidableEq, Repr

/-- Messages sent and not yet taken, oldest first (R155). -/
structure Mail where
  toBays  : List BayMsg
  toAlloc : List AllocMsg
  toReloc : List Ticket
  raises  : List (Sender × Raise)
  deriving DecidableEq, Repr

/-! ## The blocks behind the ports -/

/-- All blocks but the two ports and the arbiter. -/
structure Blocks where
  clock      : Clock
  boundaries : Boundaries
  level      : LevelState
  params     : Params
  zones      : ZoneMap
  book       : Book
  reloc      : List Entry
  bays       : BayUnit
  alloc      : Allocator
  supply     : SupplyUnit
  notices    : Notices
  mail       : Mail
  deriving DecidableEq, Repr

/-! ## Ports and arbiter -/

/-- A request slot's content: the request, and whether its service turn has been taken (R160, R161). -/
structure Waiting where
  request : Request
  served  : Bool
  deriving DecidableEq, Repr

/-- A response before its frame is formed (R171). -/
structure Response where
  tag    : Byte
  kind   : Byte
  status : Byte
  body   : List Byte
  deriving DecidableEq, Repr

/-- The site port (R160); `spiOut` is what the last read or write transfer shifted out on SPI_OUT. -/
structure SitePort where
  slot     : Option Waiting
  response : Option Response
  ready    : Bool
  spiOut   : List Byte
  deriving DecidableEq, Repr

/-- The ramp port (R161): receiving or hunting, the request slot, and the frame being transmitted on RAMP_TX. -/
structure RampPort where
  receiving : Bool
  slot      : Option Waiting
  tx        : Option (List Byte)
  deriving DecidableEq, Repr

/-- The arbiter's sources (R162). -/
inductive Source where
  | site
  | ramp
  | relocation
  deriving DecidableEq, Repr

/-- The whole machine. `resetLow` is the RESET line held low (R157); `pending` is the queue of commands waiting. -/
structure State where
  blocks     : Blocks
  site       : SitePort
  ramp       : RampPort
  lastServed : Source
  resetLow   : Bool
  pending    : List Instr
  deriving DecidableEq, Repr

/-- Reasons to stop. There is none: the manual gives every command an effect and calls none undefined, so no meaning
faults. -/
inductive Fault where
  deriving DecidableEq, Repr

/-- Reasons to refuse. -/
inductive Refusal where
  /-- Raised by an arm of `exec` whose command has no meaning yet; no arm raises it. Safe. -/
  | notModelled (mnemonic : String)
  deriving DecidableEq, Repr

/-! ## Power-on values -/

/-- R64. -/
def Clock.powerOn : Clock := { minute := 0, isSet := false, phase := 0 }

/-- R157: nothing is in flight. -/
def Boundaries.powerOn : Boundaries := { book := [], bays := [], supply := [], alloc := [] }

/-- 09 section 9.2. -/
def Params.powerOn : Params :=
  { holdLead := 15, turnoverGap := 10, defaultGrace := 15, claimWindow := 5, settle := 3, poolLow := 32 }

/-- R63. -/
def Descriptor.powerOn : Descriptor :=
  { base := 0, length := 1, direction := .up, access := .closed, used := false }

/-- R63. -/
def ZoneMap.powerOn : ZoneMap :=
  { descriptors := Vector.replicate 24 .powerOn, captured := none, more := false }

/-- R22, R173. -/
def Book.powerOn : Book :=
  { pool := Vector.replicate Config.poolSize none
    gens := Vector.replicate Config.poolSize 0
    free := List.finRange Config.poolSize
    timelines := Vector.replicate Config.bayCount []
    tokens := []
    settled := []
    heldReport := Vector.replicate Config.bayCount false }

/-- R80, column "Power-on". -/
def BayConfig.powerOn : BayConfig :=
  { feeder := 0, cls := .standard, maxDraw := 32, groups := Vector.replicate 3 false
    quiet := .continue, clear := .stop, autocut := true, rejoin := false }

/-- R103. -/
def Bay.powerOn : Bay :=
  { config := .powerOn, state := .disabled, presence := false, faultLine := false, sticky := false
    faultCause := none, heldMark := false, window := 0, origin := none, action := .continue, sign := .out }

/-- R103; the module polled first is log 5. -/
def BayUnit.powerOn : BayUnit :=
  { bays := Vector.replicate Config.bayCount .powerOn
    modules := Vector.replicate Config.moduleCount .offline
    nextPoll := 0, lastPoll := none }

/-- R133. -/
def Feeder.powerOn : Feeder :=
  { budget := 0, staged := 0, switchPending := false, reserve := 0, grants := [], queue := [] }

/-- R133, R103, R148. -/
def Allocator.powerOn : Allocator :=
  { feeders := Vector.replicate Config.feederCount .powerOn
    sessions := Vector.replicate Config.bayCount none
    posts := Vector.replicate Config.bayCount { enabled := false, limit := 0 }
    supply := .halt
    actions := Vector.replicate Config.bayCount .continue }

/-- R134, R148; the line levels are those the end of the reset reads (log 4). -/
def SupplyUnit.powerOn (mainsOk dr alarm : Bool) : SupplyUnit :=
  { state := .halt, target := .mains, counter := 0, mainsOk, dr, alarm
    sites := Vector.replicate 3 .normal
    actions := Vector.replicate Config.bayCount .continue }

/-- R164, R165: everything clear, the fourteen causes enabled, ATTN low. -/
def Notices.powerOn : Notices :=
  { intruder := 0, unregistered := 0, postFault := 0, overstay := 0, moduleLost := 0
    relocated := false, stranded := false, accessFault := false, supplyChanged := false
    budgetCut := false, frameError := false, portOverrun := false
    poolLow := false, settledWaiting := false, mask := 0x3FFF#16, attn := false }

/-- R157: messages between blocks are lost. -/
def Mail.powerOn : Mail := { toBays := [], toAlloc := [], toReloc := [], raises := [] }

/-- R157, the table. -/
def Blocks.powerOn (mainsOk dr alarm : Bool) : Blocks :=
  { clock := .powerOn, boundaries := .powerOn, level := .configuring, params := .powerOn, zones := .powerOn
    book := .powerOn, reloc := [], bays := .powerOn, alloc := .powerOn
    supply := .powerOn mainsOk dr alarm, notices := .powerOn, mail := .powerOn }

/-- R160. -/
def SitePort.powerOn : SitePort := { slot := none, response := none, ready := false, spiOut := [] }

/-- R161. -/
def RampPort.powerOn : RampPort := { receiving := false, slot := none, tx := none }

/-- The machine right after reset: RESET has returned high (R157), the source served last is RELOCATION (R162), and
the three lines read low (log 4: the manual leaves their levels to the outside). -/
def State.reset : State :=
  { blocks := .powerOn false false false, site := .powerOn, ramp := .powerOn
    lastServed := .relocation, resetLow := false, pending := [] }

end Sys2Proof.Machine
end

