-- ==== Sys2Proof/Machine/Wire.lean ====
section
/-! DEFINITION. The wire: byte order, the CRC, the frames of the two ports, and the code of every enumerated value
(R159, R161, R170, R171, R172). -/

namespace Sys2Proof.Machine

/-! ## Numbers -/

/-- `k` bytes of a number, most significant first (R170). -/
def be : Nat → Nat → List Byte
  | 0, _ => []
  | k + 1, v => BitVec.ofNat 8 (v / 256 ^ k) :: be k v

/-- The number whose bytes, most significant first, these are (R170). -/
def beNat (bs : List Byte) : Nat := bs.foldl (fun a b => a * 256 + b.toNat) 0

/-- `k` bytes of a bay set: byte 0 first, bit 0 the least significant of its byte (R170). -/
def le : Nat → Nat → List Byte
  | 0, _ => []
  | k + 1, v => BitVec.ofNat 8 v :: le k (v / 256)

/-- The number of a bay set's bytes (R170). -/
def leNat : List Byte → Nat
  | [] => 0
  | b :: bs => b.toNat + 256 * leNat bs

/-- Yes or no, set or clear, ON or OFF, ONLINE or OFFLINE (R170); a line's high or low likewise (log 17). -/
def flag (b : Bool) : List Byte := [if b then 1#8 else 0#8]

/-- An enumerated value (R170): its code, or 0 where absent. -/
def enum {α : Type} (code : α → Nat) (v : Option α) : List Byte := [BitVec.ofNat 8 ((v.map code).getD 0)]

/-- An optional number of `k` bytes: a presence byte, then the number, 0 when absent (R170). -/
def optNum (k : Nat) (v : Option Nat) : List Byte := flag v.isSome ++ be k (v.getD 0)

/-- A list: a 1-byte count, then the items (R172). -/
def items {α : Type} (item : α → List Byte) (xs : List α) : List Byte :=
  be 1 xs.length ++ (xs.map item).flatten

/-! ## Codes of enumerated values: from 1 in the order of the table that lists the values (R170) -/

def Class.code : Class → Nat
  | .pub => 1 | .fleet => 2 | .operator => 3
def portCode : Port → Nat
  | .site => 1 | .ramp => 2
def RecState.code : RecState → Nat
  | .booked => 1 | .held => 2 | .session => 3 | .parked => 4 | .overstay => 5 | .settled => 6
def Result.code : Result → Nat
  | .completed => 1 | .noShow => 2 | .cancelled => 3 | .preempted => 4 | .revoked => 5
def Cause.code : Cause → Nat
  | .bayLost => 1 | .postFault => 2 | .bayDisabled => 3 | .linkLost => 4
def Phase.code : Phase → Nat
  | .queued => 1 | .charging => 2 | .suspended => 3
def BayClass.code : BayClass → Nat
  | .standard => 1 | .accessible => 2 | .fleet => 3
def Action.code : Action → Nat
  | .continue => 1 | .trickle => 2 | .stop => 3 | .close => 4
def BayState.code : BayState → Nat
  | .disabled => 1 | .faulted => 2 | .vacant => 3 | .awaiting => 4 | .unclaimed => 5 | .squatted => 6 | .serving => 7
def FaultCause.code : FaultCause → Nat
  | .postFault => 1 | .linkLost => 2
def Origin.code : Origin → Nat
  | .awaiting => 1 | .vacant => 2
def Sign.code : Sign → Nat
  | .out => 1 | .closed => 2 | .reserved => 3 | .inUse => 4 | .free => 5
def Reason.code : Reason → Nat
  | .closed => 1 | .fault => 2 | .disabled => 3
def Direction.code : Direction → Nat
  | .up => 1 | .down => 2
def Access.code : Access → Nat
  | .closed => 1 | .view => 2 | .book => 3
def ZoneFault.code : ZoneFault → Nat
  | .notMapped => 1 | .outOfZone => 2 | .readOnly => 3
def ZoneRequest.code : ZoneRequest → Nat
  | .bookBay => 1 | .bookZone => 2 | .bookNow => 3 | .listBay => 4
def SupplyState.code : SupplyState → Nat
  | .mains => 1 | .returning => 2 | .reserve => 3 | .halt => 4
def Target.code : Target → Nat
  | .mains => 1 | .reserve => 2 | .halt => 3
def GroupLevel.code : GroupLevel → Nat
  | .normal => 1 | .quiet => 2 | .clear => 3
def LevelState.code : LevelState → Nat
  | .configuring => 1 | .opened => 2

def Class.ofCode : Nat → Option Class
  | 1 => some .pub | 2 => some .fleet | 3 => some .operator | _ => none
def BayClass.ofCode : Nat → Option BayClass
  | 1 => some .standard | 2 => some .accessible | 3 => some .fleet | _ => none
def Action.ofCode : Nat → Option Action
  | 1 => some .continue | 2 => some .trickle | 3 => some .stop | 4 => some .close | _ => none
def Direction.ofCode : Nat → Option Direction
  | 1 => some .up | 2 => some .down | _ => none
def Access.ofCode : Nat → Option Access
  | 1 => some .closed | 2 => some .view | 3 => some .book | _ => none
def Target.ofCode : Nat → Option Target
  | 1 => some .mains | 2 => some .reserve | 3 => some .halt | _ => none
def GroupLevel.ofCode : Nat → Option GroupLevel
  | 1 => some .normal | 2 => some .quiet | 3 => some .clear | _ => none

/-- The status codes of the response frame (10 section 10.3). -/
inductive Status where
  | ok | unknownRequest | badField | classDenied | notOpen | wrongLevelState | clockUnset | accessAbort
  | classMismatch | bayUnavailable | conflict | bayFull | poolFull | tokenLimit | tokenConflict | tooFar
  | tooLate | tooEarly | noSuchTicket | staleTicket | wrongState | noVehicle | bayOccupied | notSettled
  | bayActive | relocating | faultActive | noFit
  deriving DecidableEq, Repr

/-- The status table (10 section 10.3). -/
def Status.code : Status → Nat
  | .ok => 0 | .unknownRequest => 1 | .badField => 2 | .classDenied => 3 | .notOpen => 4 | .wrongLevelState => 5
  | .clockUnset => 6 | .accessAbort => 7 | .classMismatch => 8 | .bayUnavailable => 9 | .conflict => 10
  | .bayFull => 11 | .poolFull => 12 | .tokenLimit => 13 | .tokenConflict => 14 | .tooFar => 15 | .tooLate => 16
  | .tooEarly => 17 | .noSuchTicket => 18 | .staleTicket => 19 | .wrongState => 20 | .noVehicle => 21
  | .bayOccupied => 22 | .notSettled => 23 | .bayActive => 24 | .relocating => 25 | .faultActive => 26 | .noFit => 27

/-! ## CRC and frames -/

/-- One bit of the CRC: shift left, and subtract the polynomial 0x1021 where a bit falls out (R159). -/
def crcBit (c : BitVec 16) : BitVec 16 := if c.msb then (c <<< 1) ^^^ 0x1021#16 else c <<< 1

/-- One byte of the CRC, most significant bit first (R159). -/
def crcByte (c : BitVec 16) (b : Byte) : BitVec 16 :=
  crcBit (crcBit (crcBit (crcBit (crcBit (crcBit (crcBit (crcBit (c ^^^ (b.setWidth 16 <<< 8)))))))))

/-- The 16-bit check of R159: initial value 0xFFFF, no reflection, no final XOR. -/
def crc16 (bs : List Byte) : BitVec 16 := bs.foldl crcByte 0xFFFF#16

/-- The check value as it closes a frame, most significant byte first (R170). -/
def crcBytes (bs : List Byte) : List Byte := be 2 (crc16 bs).toNat

/-- Bytes closed by their check. -/
def sealed (bs : List Byte) : List Byte := bs ++ crcBytes bs

/-- A site request frame (R171). -/
def siteFrame (r : Request) : List Byte :=
  sealed ([r.tag, r.kind, r.cls] ++ be 2 r.body.length ++ r.body)

/-- A ramp request frame after its start byte (R171). -/
def rampFrameBytes (r : Request) : List Byte :=
  sealed ([r.tag, r.kind] ++ be 2 r.body.length ++ r.body)

/-- A response frame as the site port shifts it out; on the ramp port the same bytes follow the start byte (R171). -/
def Response.frame (r : Response) : List Byte :=
  sealed ([r.tag, r.kind, r.status] ++ be 2 r.body.length ++ r.body)

/-- What a read shifts out while READY is low: tag 0, kind 0, status OK, body length 0 (R160). -/
def Response.empty : Response := { tag := 0, kind := 0, status := 0, body := [] }

/-- The frame check shared by the ports: `head` bytes stand before the 2-byte body length. It passes when the body
length is at most 512, the bytes are as many as it calls for, and the check matches (R159, R161). -/
def frameBody (head : Nat) (bs : List Byte) : Option (List Byte) :=
  let n := beNat ((bs.drop head).take 2)
  if head + 2 ≤ bs.length ∧ n ≤ Config.bodyMax ∧ bs.length = head + 2 + n + 2 ∧
      crcBytes (bs.take (head + 2 + n)) = bs.drop (head + 2 + n)
  then some ((bs.drop (head + 2)).take n) else none

/-- The request a site write carries, where its frame passes the check (R159). -/
def parseSite (bs : List Byte) : Option Request :=
  match bs with
  | tag :: kind :: cls :: _ => (frameBody 3 bs).map fun body => { tag, kind, cls, body }
  | _ => none

/-- The request a ramp frame carries, of class PUBLIC (R161, R49). -/
def parseRamp (bs : List Byte) : Option Request :=
  match bs with
  | tag :: kind :: _ => (frameBody 2 bs).map fun body => { tag, kind, cls := 1#8, body }
  | _ => none

/-- The bytes after the start byte make a whole ramp frame: as many as the body length calls for, or just the header
where the body length is above 512 and fails the frame (R161). -/
def rampComplete (bs : List Byte) : Bool :=
  let n := beNat ((bs.drop 2).take 2)
  decide (4 ≤ bs.length) && decide (bs.length = if n ≤ Config.bodyMax then 4 + n + 2 else 4)

end Sys2Proof.Machine
end

