-- ==== Sys2Proof/Machine/Flags.lean ====
section
/-! DEFINITION. What the part computes as a flag or a level: the order of actions and group levels, the sign aspect, the
causes that are set, ATTN, and the pool conditions. -/

namespace Sys2Proof.Machine

/-! ## Orders (R142, R144) -/

/-- The higher of two actions: CONTINUE, TRICKLE, STOP, CLOSE (R144). -/
def Action.max (a b : Action) : Action := if a.code ≤ b.code then b else a

/-- The higher of two group levels: NORMAL, QUIET, CLEAR (R142). -/
def GroupLevel.max (a b : GroupLevel) : GroupLevel := if a.code ≤ b.code then b else a

/-- The action allows a session current: CONTINUE or TRICKLE (R120, R125). -/
def Action.runs : Action → Bool
  | .continue | .trickle => true
  | .stop | .close => false

/-! ## Record and bay states -/

/-- SESSION, PARKED and OVERSTAY: the vehicle states (01 section 1.3). -/
def RecState.vehicle : RecState → Bool
  | .session | .parked | .overstay => true
  | .booked | .held | .settled => false

/-- BOOKED or HELD: the states relocation moves (R2, R109). -/
def RecState.pending : RecState → Bool
  | .booked | .held => true
  | .session | .parked | .overstay | .settled => false

/-- DISABLED or FAULTED. -/
def BayState.outOfService : BayState → Bool
  | .disabled | .faulted => true
  | .vacant | .awaiting | .unclaimed | .squatted | .serving => false

/-- UNCLAIMED, SQUATTED or SERVING: a vehicle stands in the bay (R72, R110). -/
def BayState.occupied : BayState → Bool
  | .unclaimed | .squatted | .serving => true
  | .disabled | .faulted | .vacant | .awaiting => false

/-- The sign aspect (R83). -/
def signOf (state : BayState) (action : Action) : Sign :=
  if state.outOfService then .out
  else if action = .close then .closed
  else match state with
    | .awaiting => .reserved
    | .unclaimed | .squatted | .serving => .inUse
    | .disabled | .faulted | .vacant => .free

/-! ## Notice causes (10 section 10.5) -/

/-- The causes in the order of their numbers, each with whether it is set: its flag is set or it has a member. -/
def Notices.causes (n : Notices) : List Bool :=
  [n.intruder != 0, n.unregistered != 0, n.postFault != 0, n.overstay != 0, n.moduleLost != 0, n.relocated,
   n.stranded, n.accessFault, n.supplyChanged, n.budgetCut, n.frameError, n.portOverrun, n.poolLow, n.settledWaiting]

/-- Bit n is the n-th of the list, bit 0 first. -/
def bits : List Bool → Nat
  | [] => 0
  | b :: bs => (if b then 1 else 0) + 2 * bits bs

/-- The cause summary of the notice report: cause n in bit n (R170, R172). -/
def Notices.summary (n : Notices) : BitVec 16 := BitVec.ofNat 16 (bits n.causes)

/-- At least one cause is both set and enabled (R165). -/
def Notices.wantsAttn (n : Notices) : Bool := n.summary &&& n.mask != 0

/-- ATTN recomputed, as in every event that changes a flag, a member or the mask (R165). -/
def Notices.refresh (n : Notices) : Notices := { n with attn := n.wantsAttn }

/-- A raise taken: the flag or member is set (R164). -/
def Notices.take (n : Notices) (r : Raise) : Notices :=
  (match r with
    | .intruder b => { n with intruder := n.intruder ||| BitVec.twoPow 96 b }
    | .unregistered b => { n with unregistered := n.unregistered ||| BitVec.twoPow 96 b }
    | .postFault b => { n with postFault := n.postFault ||| BitVec.twoPow 96 b }
    | .overstay b => { n with overstay := n.overstay ||| BitVec.twoPow 96 b }
    | .moduleLost k => { n with moduleLost := n.moduleLost ||| BitVec.twoPow 12 k }
    | .relocated => { n with relocated := true }
    | .stranded => { n with stranded := true }
    | .accessFault => { n with accessFault := true }
    | .supplyChanged => { n with supplyChanged := true }
    | .budgetCut => { n with budgetCut := true }
    | .frameError => { n with frameError := true }
    | .portOverrun => { n with portOverrun := true }).refresh

/-- The level flags follow their conditions (R20, R164). -/
def Notices.setLevels (n : Notices) (poolLow settledWaiting : Bool) : Notices :=
  { n with poolLow, settledWaiting }.refresh

/-- DISABLE BAY clears the bay's members of the four bay sets (R98). -/
def Notices.clearBay (n : Notices) (b : BayNo) : Notices :=
  let keep := ~~~(BitVec.twoPow 96 b)
  { n with intruder := n.intruder &&& keep, unregistered := n.unregistered &&& keep
           postFault := n.postFault &&& keep, overstay := n.overstay &&& keep }.refresh

/-- CLEAR NOTICES on a named set: all its members, or those of the selection where one is present (R168). -/
def clearMembers {w : Nat} (named : Bool) (selection : Option (BitVec w)) (set : BitVec w) : BitVec w :=
  if named then (match selection with | none => 0#w | some sel => set &&& ~~~sel) else set

/-- CLEAR NOTICES: named event flags and named sets' members are cleared; the level flags keep following their
conditions (R168, R20). -/
def Notices.clearNamed (n : Notices) (sel : BitVec 16) (bays : Option (BitVec 96)) (modules : Option (BitVec 12)) :
    Notices :=
  { n with
    intruder := clearMembers (sel.getLsbD 0) bays n.intruder
    unregistered := clearMembers (sel.getLsbD 1) bays n.unregistered
    postFault := clearMembers (sel.getLsbD 2) bays n.postFault
    overstay := clearMembers (sel.getLsbD 3) bays n.overstay
    moduleLost := clearMembers (sel.getLsbD 4) modules n.moduleLost
    relocated := n.relocated && !sel.getLsbD 5
    stranded := n.stranded && !sel.getLsbD 6
    accessFault := n.accessFault && !sel.getLsbD 7
    supplyChanged := n.supplyChanged && !sel.getLsbD 8
    budgetCut := n.budgetCut && !sel.getLsbD 9
    frameError := n.frameError && !sel.getLsbD 10
    portOverrun := n.portOverrun && !sel.getLsbD 11 }.refresh

/-! ## Pool conditions (R20) -/

/-- POOL_LOW holds while the free count is at most the threshold. -/
def Book.poolLow (k : Book) (threshold : Nat) : Bool := decide (k.free.length ≤ threshold)

/-- SETTLED_WAITING holds while the settled count is at least 1. -/
def Book.settledWaiting (k : Book) : Bool := !k.settled.isEmpty

end Sys2Proof.Machine
end

