-- ==== Sys2Proof/Machine/Ops.lean ====
section
/-! DEFINITION. The named updates of the state, the messages between blocks, the ports' slots, the arbiter, and the
service turn of a request (R162, R163). -/

namespace Sys2Proof.Machine

/-! ## Updates -/

/-- One place of a table rewritten. -/
def setAt {α : Type} {n : Nat} (v : Vector α n) (i : Fin n) (x : α) : Vector α n := v.set i.val x i.isLt

def Blocks.withClock (p : Blocks) (x : Clock) : Blocks := { p with clock := x }
def Blocks.withBoundaries (p : Blocks) (x : Boundaries) : Blocks := { p with boundaries := x }
def Blocks.withLevel (p : Blocks) (x : LevelState) : Blocks := { p with level := x }
def Blocks.withParams (p : Blocks) (x : Params) : Blocks := { p with params := x }
def Blocks.withZones (p : Blocks) (x : ZoneMap) : Blocks := { p with zones := x }
def Blocks.withBook (p : Blocks) (x : Book) : Blocks := { p with book := x }
def Blocks.withReloc (p : Blocks) (x : List Entry) : Blocks := { p with reloc := x }
def Blocks.withBays (p : Blocks) (x : BayUnit) : Blocks := { p with bays := x }
def Blocks.withAlloc (p : Blocks) (x : Allocator) : Blocks := { p with alloc := x }
def Blocks.withSupply (p : Blocks) (x : SupplyUnit) : Blocks := { p with supply := x }
def Blocks.withNotices (p : Blocks) (x : Notices) : Blocks := { p with notices := x }
def Blocks.withMail (p : Blocks) (x : Mail) : Blocks := { p with mail := x }

def State.withBlocks (s : State) (x : Blocks) : State := { s with blocks := x }
def State.withSite (s : State) (x : SitePort) : State := { s with site := x }
def State.withRamp (s : State) (x : RampPort) : State := { s with ramp := x }
def State.withServed (s : State) (x : Source) : State := { s with lastServed := x }

/-- The current level minute, which a request or event reads once (R66). -/
def Blocks.now (p : Blocks) : Nat := p.clock.minute

/-- The bay entry of a bay. -/
def Blocks.bay (p : Blocks) (b : BayNo) : Bay := p.bays.bays[b]

/-- A bay entry rewritten. -/
def Blocks.setBay (p : Blocks) (b : BayNo) (x : Bay) : Blocks :=
  p.withBays { p.bays with bays := setAt p.bays.bays b x }

/-! ## Messages on their way (R11, R86, R117, R155, R164) -/

/-- A raise sent to the notice unit (R164). -/
def Blocks.raise (p : Blocks) (sender : Sender) (what : Raise) : Blocks :=
  p.withMail { p.mail with raises := p.mail.raises ++ [(sender, what)] }

/-- A message from the book to the allocator (R117). -/
def Blocks.sendAlloc (p : Blocks) (m : AllocMsg) : Blocks :=
  p.withMail { p.mail with toAlloc := p.mail.toAlloc ++ [m] }

/-- The book's message that a settled record's RECORD entry leaves the list (R11). -/
def Blocks.sendRemoval (p : Blocks) (t : Ticket) : Blocks :=
  p.withMail { p.mail with toReloc := p.mail.toReloc ++ [t] }

/-- A message from the book to the bay unit (R86, R89). -/
def Blocks.sendBay (p : Blocks) (m : BayMsg) : Blocks :=
  p.withMail { p.mail with toBays := p.mail.toBays ++ [m] }

/-- The held report of a bay: the last of HOLD and UNHOLD sent for it was HOLD (R173). -/
def Blocks.report (p : Blocks) (b : BayNo) (held : Bool) : Blocks :=
  p.withBook { p.book with heldReport := setAt p.book.heldReport b held }

/-- HOLD sent, and recorded in the held report at once (R173). -/
def Blocks.sendHold (p : Blocks) (b : BayNo) : Blocks := (p.report b true).sendBay (.hold b)

/-- UNHOLD sent, and recorded in the held report at once (R173). -/
def Blocks.sendUnhold (p : Blocks) (b : BayNo) : Blocks := (p.report b false).sendBay (.unhold b)

/-- The pool conditions re-evaluated and reported to the notice unit in the same event (R20, R164). -/
def Blocks.evalPool (p : Blocks) : Blocks :=
  p.withNotices (p.notices.setLevels (p.book.poolLow p.params.poolLow) p.book.settledWaiting)

/-! ## Ports and arbiter -/

/-- The request a port's slot holds and that has not been served (R162). -/
def unserved : Option Waiting → Option Request
  | some ⟨r, false⟩ => some r
  | some ⟨_, true⟩ => none
  | none => none

/-- The request waiting at a port. -/
def State.waitingAt (s : State) : Port → Option Request
  | .site => unserved s.site.slot
  | .ramp => unserved s.ramp.slot

/-- The source that a port is at the arbiter. -/
def sourceOf : Port → Source
  | .site => .site
  | .ramp => .ramp

/-- A source is waiting when its work is ready (R162, R104). -/
def State.sourceWaits (s : State) : Source → Bool
  | .site => (s.waitingAt .site).isSome
  | .ramp => (s.waitingAt .ramp).isSome
  | .relocation => !s.blocks.reloc.isEmpty

/-- The sources in rotation, the one after `last` first (R162). -/
def rotation : Source → List Source
  | .site => [.ramp, .relocation, .site]
  | .ramp => [.relocation, .site, .ramp]
  | .relocation => [.site, .ramp, .relocation]

/-- The source the next service turn goes to: the first waiting after the last served (R162). -/
def State.nextTurn (s : State) : Option Source := (rotation s.lastServed).find? s.sourceWaits

/-- The service turn for this request at this port is the next one: RESET is high, the arbiter's choice is the port, and
its slot holds the request unserved (R157, R162). -/
def State.turnDue (s : State) (port : Port) (r : Request) : Bool :=
  !s.resetLow && s.nextTurn == some (sourceOf port) && s.waitingAt port == some r

/-- The relocation engine's turn is the next one (R109, R162). -/
def State.relocationDue (s : State) : Bool := !s.resetLow && s.nextTurn == some .relocation

/-! ## The service turn of a request (R162, R163) -/

/-- What judging a request gives: the blocks after it, the status and the body of the response. -/
structure Answer where
  blocks : Blocks
  status : Status
  body   : List Byte
  deriving DecidableEq, Repr

/-- A refusal with an empty body, which changes nothing (R163). -/
def refuse (p : Blocks) (st : Status) : Answer := { blocks := p, status := st, body := [] }

/-- An acceptance with its report. -/
def accept (p : Blocks) (report : List Byte) : Answer := { blocks := p, status := .ok, body := report }

/-- The response carries the request's tag and kind unchanged (R163). -/
def responseTo (r : Request) (a : Answer) : Response :=
  { tag := r.tag, kind := r.kind, status := BitVec.ofNat 8 a.status.code, body := a.body }

/-- The end of a service turn: at the site port the response waits in the response slot with READY high, the request
slot staying occupied (R160); at the ramp port it is transmitted at once (R161). The arbiter remembers the source. -/
def State.finishTurn (s : State) (port : Port) (r : Request) (a : Answer) : State :=
  let s := (s.withBlocks a.blocks).withServed (sourceOf port)
  match port with
  | .site => s.withSite { s.site with slot := some ⟨r, true⟩, response := some (responseTo r a), ready := true }
  | .ramp => s.withRamp { s.ramp with slot := some ⟨r, true⟩, tx := some (0x7E#8 :: (responseTo r a).frame) }

/-- The class of a request as its port gives it: PUBLIC on the ramp port, the class field on the site port, where a
value that names no class gives none (R49). -/
def classAt (port : Port) (r : Request) : Option Class :=
  match port with
  | .site => Class.ofCode r.cls.toNat
  | .ramp => some .pub

/-- Who may send a request, by port and class (R50). -/
abbrev Permission := Port → Class → Bool

/-- BOOK BAY to LIST BAY: every class, either port. -/
def everyone : Permission := fun _ _ => true
/-- COLLECT, POOL STATUS: FLEET and OPERATOR on the site port. -/
def fleetAndOperator : Permission := fun port c => port == .site && c != .pub
/-- IDENTIFY: every class on the site port. -/
def siteOnly : Permission := fun port _ => port == .site
/-- All other requests: OPERATOR on the site port. -/
def operatorOnly : Permission := fun port c => port == .site && c == .operator

/-- No body in a refusal (R163). -/
def noBody : Blocks → List Byte := fun _ => []

/-- The port and class check, first of every known request's checks, and then the request's own judgement (R49, R50,
R163). `refused` is the body a refusal by this check carries: empty, but for the requests whose refusals carry a report. -/
def judged (may : Permission) (refused : Blocks → List Byte) (judge : Port → Class → List Byte → Blocks → Answer)
    (port : Port) (r : Request) (p : Blocks) : Answer :=
  match classAt port r with
  | none => { blocks := p, status := .classDenied, body := refused p }
  | some c =>
    if may port c then judge port c r.body p else { blocks := p, status := .classDenied, body := refused p }

/-- The service turn of one kind of request. Where the turn is not due, or the request is not of this row, nothing
changes (log 1). -/
def serve (isRow : Request → Bool) (may : Permission) (refused : Blocks → List Byte)
    (judge : Port → Class → List Byte → Blocks → Answer) (port : Port) (r : Request) (s : State) :
    Host.Outcome State Fault Refusal :=
  if s.turnDue port r && isRow r then .next (s.finishTurn port r (judged may refused judge port r s.blocks))
  else .next s

/-- The request is of kind `k` (10 section 10.4). -/
def ofKind (k : Nat) : Request → Bool := fun r => r.kind.toNat == k

/-- An event taken while RESET is high; while it is low the part takes none (R157). -/
def whileRunning (f : State → State) (s : State) : Host.Outcome State Fault Refusal :=
  .next (if s.resetLow then s else f s)

/-- The same, for an event at the blocks behind the ports. -/
def atBlocks (f : Blocks → Blocks) (s : State) : Host.Outcome State Fault Refusal :=
  whileRunning (fun s => s.withBlocks (f s.blocks)) s

/-- Checks in order, each with the refusal it gives: the first that fails decides (R30). -/
def firstRefusal (checks : List (Bool × Status)) : Option Status :=
  (checks.find? (fun c => !c.1)).map (·.2)

/-- The length check of a request that carries no field: any body but the empty one is refused BAD_FIELD directly after
the port and class check (R163). -/
def withNoField (bad : Blocks → List Byte) (judge : Port → Class → Blocks → Answer) (port : Port) (c : Class)
    (body : List Byte) (p : Blocks) : Answer :=
  if body.isEmpty then judge port c p else { blocks := p, status := .badField, body := bad p }

end Sys2Proof.Machine
end

