-- ==== Sys2Proof/Machine/BookOps.lean ====
section
/-! DEFINITION. The book's own work: tickets, timelines, the token index, the gap rule, the fit of records to bays,
creation and settlement (01, 02). -/

namespace Sys2Proof.Machine

/-! ## Reading the book -/

/-- The record in a slot, live or settled. -/
def Book.rec? (k : Book) (sl : Slot) : Option Record := k.pool[sl]

/-- First minute after the window (00_scope.md, "Window"). -/
def Record.endMinute (r : Record) : Nat := r.start + r.length

/-- The slots of a bay's timeline, in ascending start. -/
def Book.slotsOn (k : Book) (b : BayNo) : List Slot := k.timelines[b]

/-- The records of a bay's timeline, in ascending start (R24). -/
def Book.timeline (k : Book) (b : BayNo) : List Record := (k.slotsOn b).filterMap k.rec?

/-- The slots of a bay's timeline whose record meets a condition. -/
def Book.slotsWhere (k : Book) (b : BayNo) (cond : RecState → Bool) : List Slot :=
  (k.slotsOn b).filter fun sl => (k.rec? sl).any fun r => cond r.state

/-- The bay's timeline holds a HELD record. -/
def Book.hasHeld (k : Book) (b : BayNo) : Bool := !(k.slotsWhere b (· == .held)).isEmpty

/-- The BOOKED and HELD records of a bay, in ascending start (R105, R109). -/
def Book.pendingOn (k : Book) (b : BayNo) : List Slot := k.slotsWhere b RecState.pending

/-- The bay's record in a vehicle state (R4, R89). -/
def Book.servingOn (k : Book) (b : BayNo) : Option Slot := (k.slotsWhere b RecState.vehicle).head?

/-- The slot a number names, where it is below 640. -/
def slotOf (n : Nat) : Option Slot := if h : n < Config.poolSize then some ⟨n, h⟩ else none

/-- Ticket resolution (R6, R7): the first case that applies gives the answer. -/
def Book.resolve (k : Book) (c : Class) (t : Ticket) (token : Token) : Except Status (Slot × Record) :=
  match slotOf t.slot with
  | none => .error .noSuchTicket
  | some sl =>
    if t.gen ≠ k.gens[sl] then .error .staleTicket
    else match k.rec? sl with
      | none => .error .noSuchTicket
      | some r => if c ≠ .operator ∧ token ≠ r.token then .error .noSuchTicket else .ok (sl, r)

/-- The slots in a token's entry of the token index; none where it has no entry (R27). -/
def Book.tokenSlots (k : Book) (t : Token) : List Slot :=
  ((k.tokens.find? fun e => e.token == t).map (·.slots)).getD []

/-- The live records of a token, in ascending start (R15, R27). -/
def Book.tokenRecords (k : Book) (t : Token) : List Record := (k.tokenSlots t).filterMap k.rec?

/-! ## Windows -/

/-- Two windows overlap when each starts before the other ends (R33). -/
def overlaps (s1 e1 s2 e2 : Nat) : Bool := decide (s1 < e2) && decide (s2 < e1)

/-- The gap rule against the two neighbours of a new window (R25): the predecessor is the last record whose start is at
or before the new start, the successor the first whose start is after it. -/
def fitsGap (gap start len : Nat) (tl : List Record) : Bool :=
  (((tl.filter fun r => decide (r.start ≤ start)).getLast?).all fun r => decide (r.endMinute + gap ≤ start)) &&
  (((tl.filter fun r => decide (start < r.start)).head?).all fun r => decide (start + len + gap ≤ r.start))

/-- A record fits a bay by class and accessible need (R28). -/
def fits (c : Class) (accessible : Bool) : BayClass → Bool
  | .standard => !accessible
  | .accessible => accessible || c == .operator
  | .fleet => !accessible && c != .pub

/-- The token has a place left (R27, R33). -/
def Book.tokenHasRoom (k : Book) (t : Token) : Bool := decide ((k.tokenSlots t).length < Config.tokenSize)

/-- The window overlaps none of the token's windows (R27, R33). -/
def Book.tokenIsFree (k : Book) (t : Token) (start len : Nat) : Bool :=
  (k.tokenRecords t).all fun r => !overlaps start (start + len) r.start r.endMinute

/-- The timeline has a place left (R26). -/
def Book.bayHasRoom (k : Book) (b : BayNo) : Bool := decide ((k.slotsOn b).length < Config.timelineSize)

/-! ## Writing the book -/

/-- A record rewritten in its slot. -/
def Book.put (k : Book) (sl : Slot) (r : Record) : Book := { k with pool := setAt k.pool sl (some r) }

/-- The start of a slot's record. -/
def Book.startOf (k : Book) (sl : Slot) : Nat := ((k.rec? sl).map (·.start)).getD 0

/-- A slot inserted after every slot with an earlier start and before every one with a later (R24, R27). -/
def insertByStart (startOf : Slot → Nat) (start : Nat) (sl : Slot) : List Slot → List Slot
  | [] => [sl]
  | x :: xs => if startOf x ≤ start then x :: insertByStart startOf start sl xs else sl :: x :: xs

/-- A record's slot joins a timeline (R24). -/
def Book.joinTimeline (k : Book) (b : BayNo) (start : Nat) (sl : Slot) : Book :=
  { k with timelines := setAt k.timelines b (insertByStart k.startOf start sl (k.slotsOn b)) }

/-- A record's slot leaves a timeline; the others keep their order (R24, R10). -/
def Book.leaveTimeline (k : Book) (b : BayNo) (sl : Slot) : Book :=
  { k with timelines := setAt k.timelines b ((k.slotsOn b).filter (· != sl)) }

/-- A slot joins a token's entry, which is made where the token has none (R27). Entries stand in ascending token. -/
def joinEntry (startOf : Slot → Nat) (t : Token) (start : Nat) (sl : Slot) : List TokenEntry → List TokenEntry
  | [] => [{ token := t, slots := [sl] }]
  | e :: es =>
    if e.token = t then { e with slots := insertByStart startOf start sl e.slots } :: es
    else if e.token < t then e :: joinEntry startOf t start sl es
    else { token := t, slots := [sl] } :: e :: es

/-- A slot leaves a token's entry, which ceases to exist when the last leaves (R27). -/
def leaveEntry (t : Token) (sl : Slot) : List TokenEntry → List TokenEntry
  | [] => []
  | e :: es =>
    if e.token = t then
      match e.slots.filter (· != sl) with
      | [] => es
      | x :: xs => { e with slots := x :: xs } :: es
    else e :: leaveEntry t sl es

/-- A slot joins the settled set, kept in ascending slot. -/
def insertSlot (sl : Slot) : List Slot → List Slot
  | [] => [sl]
  | x :: xs => if x < sl then x :: insertSlot sl xs else sl :: x :: xs

/-- Creation (R1): the slot at the head of the free list takes the record with the slot's generation as its ticket, and
the record joins its timeline and its token's entry. None where no slot is free. -/
def Book.create (k : Book) (r : Record) : Option (Book × Record) :=
  match k.free with
  | [] => none
  | sl :: rest =>
    let r := { r with ticket := { slot := sl.val, gen := k.gens[sl] } }
    let k := { k with free := rest }.put sl r
    let k := k.joinTimeline r.bay r.start sl
    some ({ k with tokens := joinEntry k.startOf r.token r.start sl k.tokens }, r)

/-- The record as settlement leaves it (R10, R4): outcome and cause, and for COMPLETED departure, dwell and overstay at
minute `m`; relocation-pending becomes no. -/
def Record.settledWith (r : Record) (o : Result) (c : Option Cause) (m : Nat) : Record :=
  { r with
    state := .settled
    outcome := some o
    cause := c
    relocPending := false
    departure := if o = .completed then some m else r.departure
    dwell := if o = .completed then some (m - r.arrival.getD m) else r.dwell
    overstay := if o = .completed then some (m - r.endMinute) else r.overstay }

/-- The book's changes at settlement (R10): the record is settled, leaves its timeline and its token's entry, and joins
the settled set. A settled record is not settled again (R9). -/
def Book.settle (k : Book) (sl : Slot) (o : Result) (c : Option Cause) (m : Nat) : Book :=
  match k.rec? sl with
  | none => k
  | some r =>
    if r.state = .settled then k
    else
      let k := (k.put sl (r.settledWith o c m)).leaveTimeline r.bay sl
      { k with tokens := leaveEntry r.token sl k.tokens, settled := insertSlot sl k.settled }

/-- The next generation: from 63 to 0 (R5). -/
def nextGen (g : Nat) : Nat := if g + 1 < Config.generations then g + 1 else 0

/-- COLLECT at the book (R18): the record leaves the settled set, its slot joins the free list at the tail and its
generation advances. -/
def Book.collect (k : Book) (sl : Slot) : Book :=
  { k with
    pool := setAt k.pool sl none
    gens := setAt k.gens sl (nextGen k.gens[sl])
    free := k.free ++ [sl]
    settled := k.settled.filter (· != sl) }

/-- RESTART LEVEL at the book (R23, R173): every slot that held a record advances its generation, and every collection
is as after power-on. -/
def Book.restart (k : Book) : Book :=
  { Book.powerOn with gens := Vector.ofFn fun sl => if (k.rec? sl).isSome then nextGen k.gens[sl] else k.gens[sl] }

/-! ## Settlement with its messages (R10, R11, R20) -/

/-- Settlement of a record: the book's changes, the pool conditions, STRANDED for cause BAY_LOST, and the messages of
R11. `quiet` holds back UNHOLD, as the deadline pass does, which compares each bay's holds once at its end (R75). -/
def Blocks.settle (p : Blocks) (quiet : Bool) (sl : Slot) (o : Result) (c : Option Cause) : Blocks :=
  match p.book.rec? sl with
  | none => p
  | some r =>
    if r.state = .settled then p
    else
      let p := (p.withBook (p.book.settle sl o c p.now)).evalPool
      let p := if c = some .bayLost then p.raise .book .stranded else p
      let p := if r.state = .session then p.sendAlloc (.release r.bay) else p
      let p := if r.state = .held ∧ quiet = false ∧ p.book.hasHeld r.bay = false then p.sendUnhold r.bay else p
      let p := if r.relocPending then p.sendRemoval r.ticket else p
      if o = .revoked ∧ r.state.vehicle then p.sendBay (.endServing r.bay) else p

/-- A record rewritten at the book. -/
def Blocks.putRecord (p : Blocks) (sl : Slot) (r : Record) : Blocks := p.withBook (p.book.put sl r)

end Sys2Proof.Machine
end

