-- ==== Sys2Proof/Machine/AllocOps.lean ====
section
/-! DEFINITION. The power allocator's own work (07): ceilings, placing a session, release, serving the queue, the cut, the
top-up, HALT, curtailment and the rebuild. The max draws of the bays are read from their configurations by the caller. -/

namespace Sys2Proof.Machine

/-! ## Reading -/

def Allocator.feeder (a : Allocator) (f : FeederNo) : Feeder := a.feeders[f]
def Allocator.session (a : Allocator) (b : BayNo) : Option Session := a.sessions[b]
def Allocator.action (a : Allocator) (b : BayNo) : Action := a.actions[b]

/-- The effective ceiling of a feeder entry under a supply state (R116). -/
def Feeder.ceiling (x : Feeder) : SupplyState → Nat
  | .mains => x.budget
  | .reserve | .returning => min x.budget x.reserve
  | .halt => 0

/-- The effective ceiling of a feeder (R116). -/
def Allocator.ceiling (a : Allocator) (f : FeederNo) : Nat := (a.feeder f).ceiling a.supply

/-- The grant of a bay's session; 0 where it has none. -/
def Allocator.grantOf (a : Allocator) (b : BayNo) : Nat := ((a.session b).map (·.grant)).getD 0

/-- The granted total: the sum of the grants of the feeder's sessions. Every grant above 0 stands on the grant list
(R116, R117), so the sum runs over that list (log 27). -/
def Allocator.granted (a : Allocator) (f : FeederNo) : Nat := ((a.feeder f).grants.map a.grantOf).sum

/-- Effective ceiling less granted total (R116). -/
def Allocator.headroom (a : Allocator) (f : FeederNo) : Nat := a.ceiling f - a.granted f

/-- The cap of a session: 6 under TRICKLE, else the lesser of its draw and its bay's max draw (R118). -/
def capFor (action : Action) (draw maxDraw : Nat) : Nat :=
  if action = .trickle then Config.leastGrant else min draw maxDraw

/-- The post command of a session: enabled exactly while CHARGING, with the grant as limit (R84). -/
def postFor : Option Session → PostCommand
  | some s => if s.phase = .charging then { enabled := true, limit := s.grant } else { enabled := false, limit := 0 }
  | none => { enabled := false, limit := 0 }

/-! ## Writing -/

def Allocator.setFeeder (a : Allocator) (f : FeederNo) (x : Feeder) : Allocator :=
  { a with feeders := setAt a.feeders f x }

/-- A session created, changed or removed, with its bay's post command written in the same event (R84, R119). -/
def Allocator.putSession (a : Allocator) (b : BayNo) (o : Option Session) : Allocator :=
  { a with sessions := setAt a.sessions b o, posts := setAt a.posts b (postFor o) }

/-- The session's bay joins the tail of its feeder's grant list. -/
def Allocator.joinGrants (a : Allocator) (f : FeederNo) (b : BayNo) : Allocator :=
  a.setFeeder f { a.feeder f with grants := (a.feeder f).grants ++ [b] }

/-- The session's bay joins the tail of its feeder's wait queue. -/
def Allocator.joinQueue (a : Allocator) (f : FeederNo) (b : BayNo) : Allocator :=
  a.setFeeder f { a.feeder f with queue := (a.feeder f).queue ++ [b] }

/-- The bay leaves its feeder's lists; the others keep their order (R121). -/
def Allocator.leaveLists (a : Allocator) (f : FeederNo) (b : BayNo) : Allocator :=
  a.setFeeder f { a.feeder f with
    grants := (a.feeder f).grants.filter (· != b), queue := (a.feeder f).queue.filter (· != b) }

/-! ## Requests, queue service, release -/

/-- Placing a session by the table of R120: the cap is computed, and the first case that applies decides. -/
def Allocator.place (a : Allocator) (b : BayNo) (maxDraw : Nat) (s : Session) : Allocator :=
  let s := { s with cap := capFor (a.action b) s.draw maxDraw }
  if (a.action b).runs = false ∨ a.supply = .halt then
    a.putSession b (some { s with grant := 0, phase := .suspended })
  else if (a.feeder s.feeder).queue = [] ∧ Config.leastGrant ≤ a.headroom s.feeder then
    (a.putSession b (some { s with grant := min s.cap (a.headroom s.feeder), phase := .charging })).joinGrants s.feeder b
  else (a.putSession b (some { s with grant := 0, phase := .queued })).joinQueue s.feeder b

/-- A session request of the book (R120): an entry is created with the draw and the bay's feeder, or the bay's SUSPENDED
entry is used. An entry in another phase does not arise, since its release was sent before (R117, log 28). -/
def Allocator.request (a : Allocator) (b : BayNo) (draw : Nat) (config : BayConfig) : Allocator :=
  match a.session b with
  | none => a.place b config.maxDraw { feeder := config.feeder, draw, cap := 0, grant := 0, phase := .suspended }
  | some s => if s.phase = .suspended then a.place b config.maxDraw s else a

/-- One step of serving the queue: the head leaves it and is granted the lesser of its cap and the headroom (R122). -/
def Allocator.serveOne (f : FeederNo) (a : Allocator) (b : BayNo) : Allocator :=
  if Config.leastGrant ≤ a.headroom f then
    match a.session b with
    | none => a
    | some s =>
      ((a.leaveLists f b).putSession b (some { s with grant := min s.cap (a.headroom f), phase := .charging })).joinGrants f b
  else a

/-- Serving a feeder's wait queue, head first, while the headroom is at least 6 (R122). -/
def Allocator.serveQueue (a : Allocator) (f : FeederNo) : Allocator :=
  (a.feeder f).queue.foldl (Allocator.serveOne f) a

/-- A release (R121): the session leaves its list, the entry is removed, and the feeder's queue is served. -/
def Allocator.release (a : Allocator) (b : BayNo) : Allocator :=
  match a.session b with
  | none => a
  | some s => ((a.leaveLists s.feeder b).putSession b none).serveQueue s.feeder

/-! ## The cut and the top-up -/

/-- Trim of one grant: lowered toward 6 by as much as the remaining excess needs (R123, step 1). -/
def Allocator.trimOne (f : FeederNo) (a : Allocator) (b : BayNo) : Allocator :=
  match a.session b with
  | none => a
  | some s =>
    a.putSession b (some { s with grant := s.grant - min (s.grant - Config.leastGrant) (a.granted f - a.ceiling f) })

/-- Requeue of one session while the granted total exceeds the ceiling: off the grant list with grant 0, QUEUED, at the
front of the wait queue (R123, step 2). -/
def Allocator.requeueOne (f : FeederNo) (a : Allocator) (b : BayNo) : Allocator :=
  if a.ceiling f < a.granted f then
    match a.session b with
    | none => a
    | some s =>
      let a := (a.leaveLists f b).putSession b (some { s with grant := 0, phase := .queued })
      a.setFeeder f { a.feeder f with queue := b :: (a.feeder f).queue }
  else a

/-- The trim and the requeue of a cut, newest grant first (R123, steps 1 and 2). -/
def Allocator.cut (a : Allocator) (f : FeederNo) : Allocator :=
  let a := (a.feeder f).grants.reverse.foldl (Allocator.trimOne f) a
  (a.feeder f).grants.reverse.foldl (Allocator.requeueOne f) a

/-- Top-up of one grant: raised toward its cap by the lesser of what is missing and the headroom (R126, step 4). -/
def Allocator.topUpOne (f : FeederNo) (a : Allocator) (b : BayNo) : Allocator :=
  match a.session b with
  | none => a
  | some s => a.putSession b (some { s with grant := s.grant + min (s.cap - s.grant) (a.headroom f) })

/-- The top-up, oldest grant first (R126, step 4). -/
def Allocator.topUp (a : Allocator) (f : FeederNo) : Allocator :=
  (a.feeder f).grants.foldl (Allocator.topUpOne f) a

/-- The switch of a staged budget (R126, step 1). -/
def Allocator.switchBudget (a : Allocator) (f : FeederNo) : Allocator :=
  if (a.feeder f).switchPending then
    a.setFeeder f { a.feeder f with budget := (a.feeder f).staged, switchPending := false }
  else a

/-! ## HALT and the rebuild -/

/-- A bay's session, if any, made SUSPENDED with grant 0, and its post command disabled. -/
def Allocator.suspendOne (a : Allocator) (b : BayNo) : Allocator :=
  a.putSession b ((a.session b).map fun s => { s with grant := 0, phase := .suspended })

/-- A feeder's lists emptied. -/
def Allocator.clearLists (a : Allocator) (f : FeederNo) : Allocator :=
  a.setFeeder f { a.feeder f with grants := [], queue := [] }

/-- Every session SUSPENDED with grant 0, every list emptied, every post command disabled (R125, R132). -/
def Allocator.suspendAll (a : Allocator) : Allocator :=
  let a := (List.finRange Config.feederCount).foldl Allocator.clearLists a
  (List.finRange Config.bayCount).foldl Allocator.suspendOne a

/-- A SUSPENDED session makes its own session request (R120), where `may` allows its bay's action. -/
def Allocator.resumeOne (configs : BayNo → BayConfig) (may : Action → Bool) (a : Allocator) (b : BayNo) : Allocator :=
  match a.session b with
  | none => a
  | some s => if s.phase = .suspended ∧ may (a.action b) then a.place b (configs b).maxDraw s else a

/-- Exit from HALT: the SUSPENDED sessions whose bays are at CONTINUE or TRICKLE, in ascending bay order (R125). -/
def Allocator.resumeAll (a : Allocator) (configs : BayNo → BayConfig) : Allocator :=
  (List.finRange Config.bayCount).foldl (Allocator.resumeOne configs Action.runs) a

/-- RESTART ALLOCATION: everything given back, then every session placed in ascending bay order (R132). -/
def Allocator.rebuild (a : Allocator) (configs : BayNo → BayConfig) : Allocator :=
  (List.finRange Config.bayCount).foldl (Allocator.resumeOne configs fun _ => true) a.suspendAll

/-- RESTART LEVEL at the allocator: no sessions, empty lists, disabled posts, switch-pending clear, the new actions (R133,
R148). -/
def Allocator.restart (a : Allocator) (actions : Vector Action Config.bayCount) : Allocator :=
  { a with
    feeders := a.feeders.map fun x => { x with switchPending := false, grants := [], queue := [] }
    sessions := Vector.replicate Config.bayCount none
    posts := Vector.replicate Config.bayCount (postFor none)
    actions := actions }

/-! ## Curtailment -/

/-- A change of a bay's effective action at the allocator (R129): the action is noted, the session's cap recomputed, and
the session trimmed to 6, suspended, resumed or left by the table. -/
def Allocator.curtail (a : Allocator) (b : BayNo) (new : Action) (maxDraw : Nat) : Allocator :=
  let old := a.action b
  let a := { a with actions := setAt a.actions b new }
  match a.session b with
  | none => a
  | some s =>
    let s := { s with cap := capFor new s.draw maxDraw }
    if old.runs = false ∧ new.runs = true ∧ s.phase = .suspended then a.place b maxDraw s
    else if old.runs = true ∧ new.runs = false ∧ s.phase ≠ .suspended then
      ((a.leaveLists s.feeder b).putSession b (some { s with grant := 0, phase := .suspended })).serveQueue s.feeder
    else if new = .trickle ∧ s.phase = .charging then
      (a.putSession b (some { s with grant := min s.grant Config.leastGrant })).serveQueue s.feeder
    else a.putSession b (some s)

end Sys2Proof.Machine
end

