-- ==== Sys2Proof/Machine/ZoneOps.lean ====
section
/-! DEFINITION. The zone map's own work: descriptors, translation, the access fault record, the used flag (03). -/

namespace Sys2Proof.Machine

/-- The place of a class's zone in the descriptor table. -/
def descriptorIndex (c : Class) (z : ZoneNo) : Fin 24 :=
  ⟨(c.code - 1) * 8 + z.val, by have := z.isLt; cases c <;> simp only [Class.code] <;> omega⟩

/-- The descriptor of a class's zone (R52). -/
def ZoneMap.descriptor (m : ZoneMap) (c : Class) (z : ZoneNo) : Descriptor := m.descriptors[descriptorIndex c z]

def ZoneMap.setDescriptor (m : ZoneMap) (c : Class) (z : ZoneNo) (d : Descriptor) : ZoneMap :=
  { m with descriptors := setAt m.descriptors (descriptorIndex c z) d }

/-- A bay number, where it lies in 0..95. -/
def bayOf (n : Nat) : Option BayNo := if h : n < Config.bayCount then some ⟨n, h⟩ else none

/-- The bay an index translates to: base + index for UP, base - index for DOWN; none outside 0..95 (R53, step 3). -/
def Descriptor.bayAt (d : Descriptor) (index : Nat) : Option BayNo :=
  match d.direction with
  | .up => bayOf (d.base.val + index)
  | .down => if index ≤ d.base.val then bayOf (d.base.val - index) else none

/-- The bays of a zone in ascending index, passing over those outside 0..95 (R37, R62). -/
def Descriptor.run (d : Descriptor) : List BayNo := (List.range d.length).filterMap d.bayAt

/-- BOOK allows a booking (R53, step 4). -/
def Access.allowsBooking : Access → Bool
  | .book => true
  | .closed | .view => false

/-- VIEW and BOOK allow LIST BAY (R53, step 4). -/
def Access.allowsList : Access → Bool
  | .view | .book => true
  | .closed => false

/-- Translation of a zone and an index, with its checks in order (R53). -/
def Descriptor.translate (d : Descriptor) (allows : Access → Bool) (index : Nat) : Except ZoneFault BayNo :=
  if d.access = .closed then .error .notMapped
  else if d.length ≤ index then .error .outOfZone
  else match d.bayAt index with
    | none => .error .outOfZone
    | some b => if allows d.access then .ok b else .error .readOnly

/-- The check of BOOK ZONE's descriptor as a whole (R54). -/
def Descriptor.wholeFault (d : Descriptor) : Option ZoneFault :=
  match d.access with
  | .closed => some .notMapped
  | .view => some .readOnly
  | .book => none

/-- A zone fault offered to the access fault record: captured, with ACCESS_FAULT raised, where the record is clear; else
only `more` is set (R56). -/
def Blocks.offerFault (p : Blocks) (x : Capture) : Blocks :=
  if p.zones.captured.isSome then p.withZones { p.zones with more := true }
  else (p.withZones { p.zones with captured := some x }).raise .zoneMap .accessFault

/-- A request answered ACCESS_ABORT, the body carrying the fault (R55, R172). -/
def accessAbort (p : Blocks) (x : Capture) : Answer :=
  { blocks := p.offerFault x, status := .accessAbort, body := enum ZoneFault.code (some x.cause) }

/-- The used flag set on the descriptor of a class's zone; DIRECT sets none (R58, R34). -/
def Blocks.markUsed (p : Blocks) (c : Class) : OriginZone → Blocks
  | .zone z => p.withZones (p.zones.setDescriptor c z { p.zones.descriptor c z with used := true })
  | .direct => p

/-- CLEAR ACCESS FAULT (R57). -/
def ZoneMap.clearFault (m : ZoneMap) : ZoneMap := { m with captured := none, more := false }

/-- RESTART LEVEL at the zone map (R63). -/
def ZoneMap.restart (m : ZoneMap) : ZoneMap :=
  { descriptors := m.descriptors.map fun d => { d with used := false }, captured := none, more := false }

end Sys2Proof.Machine
end

