-- ==== Sys2Proof/Machine/BayOps.lean ====
section
/-! DEFINITION. The bay unit's own work and the loss of a bay with the relocation entries it makes due (05, 06). -/

namespace Sys2Proof.Machine

/-! ## One bay entry -/

/-- The sign recomputed, as in every event that changes the state or the effective action (R83). -/
def Bay.resign (x : Bay) : Bay := { x with sign := signOf x.state x.action }

/-- Entry to UNCLAIMED: the claim window is loaded with the parameter `win` (R87). -/
def Bay.unclaim (x : Bay) (o : Origin) (win : Nat) : Bay :=
  { x with state := .unclaimed, origin := some o, window := win, faultCause := none }.resign

/-- Entry to a state in which no window runs and no origin or fault cause is held (R82, R87). -/
def Bay.enter (x : Bay) (st : BayState) : Bay :=
  { x with state := st, origin := none, window := 0, faultCause := none }.resign

/-- The resting state, from the presence level and the held mark (05 section 5.2). -/
def Bay.rest (x : Bay) (win : Nat) : Bay :=
  if x.presence then x.unclaim (if x.heldMark then .awaiting else .vacant) win
  else x.enter (if x.heldMark then .awaiting else .vacant)

/-- SERVE (R89). -/
def Bay.serve (x : Bay) : Bay := x.enter .serving

/-- HOLD taken (R86). -/
def Bay.hold (x : Bay) : Bay :=
  let x := { x with heldMark := true }
  if x.state = .vacant then x.enter .awaiting else x

/-- UNHOLD taken (R86). -/
def Bay.unhold (x : Bay) : Bay :=
  let x := { x with heldMark := false }
  if x.state = .awaiting then x.enter .vacant else x

/-- END taken (R89): SERVING becomes UNCLAIMED with origin VACANT; in every other state it is discarded. -/
def Bay.endServing (x : Bay) (win : Nat) : Bay := if x.state = .serving then x.unclaim .vacant win else x

/-- The post faulted, or the module was lost: FAULTED with its cause, OUT (R95). -/
def Bay.fault (x : Bay) (c : FaultCause) : Bay :=
  { x with state := .faulted, origin := none, window := 0, faultCause := some c }.resign

/-- One minute off a running claim window (R87): at 0 the bay becomes SQUATTED with its origin kept. -/
def Bay.countWindow (x : Bay) : Bay :=
  if x.state = .unclaimed then
    if x.window ≤ 1 then { x with state := .squatted, window := 0 }.resign else { x with window := x.window - 1 }
  else x

/-- The bay's window expires at the next boundary the bay unit takes (R87). -/
def Bay.windowExpires (x : Bay) : Bool := x.state == .unclaimed && decide (x.window ≤ 1)

/-- The effective action written to the bay entry (R145). -/
def Bay.setAction (x : Bay) (a : Action) : Bay := { x with action := a }.resign

/-- RESTART LEVEL at a bay entry (R103): the held mark is cleared, and the bay is DISABLED, FAULTED or in its resting
state by rejoin, under the recomputed action. -/
def Bay.restart (x : Bay) (a : Action) (win : Nat) : Bay :=
  let x := { x with heldMark := false, action := a }
  if x.config.rejoin = false then { x with sticky := false }.enter .disabled
  else if x.state.outOfService then x.resign
  else x.rest win

/-! ## The relocation list (06) -/

/-- The reason of the BAY entry listed for a bay (R104). -/
def Entry.reasonFor (b : BayNo) : Entry → Option Reason
  | .bay b' r => if b' = b then some r else none
  | .record _ => none

/-- The BAY entry of a bay, by its reason; none where the list holds none. -/
def Blocks.bayEntry (p : Blocks) (b : BayNo) : Option Reason := p.reloc.findSome? (Entry.reasonFor b)

/-- The reason after a new cause (R105, the table). -/
def Reason.update : Reason → Reason → Reason
  | .closed, .fault => .fault
  | .closed, .disabled => .disabled
  | .fault, .disabled => .disabled
  | old, _ => old

/-- The reason of a bay's entry changed. -/
def Entry.withCause (b : BayNo) (new : Reason) : Entry → Entry
  | .bay b' r => if b' = b then .bay b' (r.update new) else .bay b' r
  | .record t => .record t

/-- A bay lost or closed (R105, R108, R146): an entry already listed has its reason changed; else, where the timeline
holds BOOKED or HELD records, an entry is appended, or on a full list the records are settled CANCELLED with cause
BAY_LOST in ascending start. -/
def Blocks.bayEntryDue (p : Blocks) (b : BayNo) (reason : Reason) : Blocks :=
  if (p.bayEntry b).isSome then p.withReloc (p.reloc.map (Entry.withCause b reason))
  else if p.book.pendingOn b = [] then p
  else if p.reloc.length < Config.listSize then p.withReloc (p.reloc ++ [.bay b reason])
  else (p.book.pendingOn b).foldl (fun p sl => p.settle false sl .cancelled (some .bayLost)) p

/-- The bay's BAY entry of reason CLOSED leaves the list, when the close is lifted (R107, R146). -/
def Blocks.liftClose (p : Blocks) (b : BayNo) : Blocks :=
  p.withReloc (p.reloc.filter (· != .bay b .closed))

/-- Check 5 of the booking order, its first three conditions (R31). -/
def Blocks.available (p : Blocks) (b : BayNo) : Bool :=
  !(p.bay b).state.outOfService && (p.bay b).action != .close && (p.bayEntry b).isNone

/-! ## Loss of a bay (R95) -/

/-- How a bay is lost. -/
inductive Loss where
  | postFault
  | linkLost
  | disabled
  deriving DecidableEq, Repr

/-- The cause of the vehicle record's preemption (R9, R95). -/
def Loss.cause : Loss → Cause
  | .postFault => .postFault
  | .linkLost => .linkLost
  | .disabled => .bayDisabled

/-- The reason of the BAY entry (R105). -/
def Loss.reason : Loss → Reason
  | .postFault | .linkLost => .fault
  | .disabled => .disabled

/-- The bay entry after the loss (R95). -/
def Bay.lost (x : Bay) : Loss → Bay
  | .postFault => x.fault .postFault
  | .linkLost => x.fault .linkLost
  | .disabled => x.enter .disabled

/-- A bay lost: the bay entry leaves service, its vehicle record is settled PREEMPTED, and its BOOKED and HELD records
come under a BAY entry (R95, R105). -/
def Blocks.loseBay (p : Blocks) (b : BayNo) (l : Loss) : Blocks :=
  let p := p.setBay b ((p.bay b).lost l)
  let p := match p.book.servingOn b with
    | some sl => p.settle false sl .preempted (some l.cause)
    | none => p
  p.bayEntryDue b l.reason

end Sys2Proof.Machine
end

