-- ==== Sys2Proof/Machine/SupplyOps.lean ====
section
/-! DEFINITION. The supply and group unit's own work, and what its changes do at the allocator, the bay unit, the book and
the notice unit in the same event (07, 08). -/

namespace Sys2Proof.Machine

/-! ## Cuts and ceilings (R119, R123, R124) -/

/-- The configuration of each bay. -/
def Blocks.configs (p : Blocks) : BayNo → BayConfig := fun b => (p.bay b).config

/-- The cut, where the granted total exceeds the effective ceiling: trim, requeue, and BUDGET_CUT raised (R123). -/
def Blocks.cutFeeder (p : Blocks) (f : FeederNo) : Blocks :=
  if p.alloc.ceiling f < p.alloc.granted f then (p.withAlloc (p.alloc.cut f)).raise .allocator .budgetCut else p

/-- A feeder's ceiling has changed from `old`: a fall below the granted total runs the cut, a rise serves the queue
(R124). -/
def Blocks.ceilingChanged (p : Blocks) (f : FeederNo) (old : Nat) : Blocks :=
  if old < p.alloc.ceiling f then p.withAlloc (p.alloc.serveQueue f)
  else if p.alloc.ceiling f < old then p.cutFeeder f
  else p

/-- The four steps of a rebalance boundary at one feeder (R126). -/
def Blocks.rebalanceFeeder (p : Blocks) (f : FeederNo) : Blocks :=
  let p := (p.withAlloc (p.alloc.switchBudget f)).cutFeeder f
  let p := p.withAlloc (p.alloc.serveQueue f)
  p.withAlloc (p.alloc.topUp f)

/-- The rebalance boundary's work, F0 to F3 (R126). -/
def Blocks.rebalance (p : Blocks) : Blocks := (List.finRange Config.feederCount).foldl Blocks.rebalanceFeeder p

/-! ## Supply state (R134, R135) -/

/-- The change raises SUPPLY_CHANGED: it changes which ceiling applies (R135, the table). -/
def supplyChangeTold (old new : SupplyState) : Bool :=
  match old, new with
  | .returning, .reserve => false
  | .reserve, .returning => false
  | _, _ => old != new

/-- The allocator's part of a change of supply state: HALT entry, HALT exit, or each feeder's cut or service under its
new ceiling (R124, R125, R135). -/
def Blocks.allocSupply (p : Blocks) (new : SupplyState) : Blocks :=
  let old := p.alloc
  let p := p.withAlloc { p.alloc with supply := new }
  if new = .halt then p.withAlloc p.alloc.suspendAll
  else if old.supply = .halt then p.withAlloc (p.alloc.resumeAll p.configs)
  else (List.finRange Config.feederCount).foldl (fun p f => p.ceilingChanged f (old.ceiling f)) p

/-- A change of supply state, one event at the supply and group unit, the allocator and the notice unit (R135). The
settle counter is loaded on entry to RETURNING and is 0 in every other state (R134). Where the state stays, nothing
happens. -/
def Blocks.setSupply (p : Blocks) (new : SupplyState) : Blocks :=
  if p.supply.state = new then p
  else
    let old := p.supply.state
    let p := p.withSupply { p.supply with
      state := new, counter := if new = .returning then p.params.settle else 0 }
    let p := p.allocSupply new
    if supplyChangeTold old new then p.withNotices (p.notices.take .supplyChanged) else p

/-! ## Groups and effective actions (R142 to R146) -/

/-- The effective level of a group (R142). -/
def SupplyUnit.level (u : SupplyUnit) (g : GroupNo) : GroupLevel :=
  GroupLevel.max (GroupLevel.max u.sites[g] (if g = 0 ∧ u.dr then .quiet else .normal))
    (if u.alarm then .clear else .normal)

/-- The action a group level maps to by a bay's configuration (R144). -/
def BayConfig.mapLevel (c : BayConfig) : GroupLevel → Action
  | .normal => .continue
  | .quiet => c.quiet
  | .clear => c.clear

/-- The effective action of a bay: the highest of those its groups' levels map to; CONTINUE in no group (R144). -/
def SupplyUnit.actionFor (u : SupplyUnit) (c : BayConfig) : Action :=
  (List.finRange 3).foldl (fun a g => if c.groups[g] then a.max (c.mapLevel (u.level g)) else a) .continue

/-- A bay's effective action becomes `new`: one event at the supply and group unit, the allocator, the bay unit and the
book, whose part is to answer a close reached or lifted (R145, R146). Where the action stays, nothing happens. -/
def Blocks.setAction (p : Blocks) (b : BayNo) (new : Action) : Blocks :=
  let old := p.supply.actions[b]
  if old = new then p
  else
    let p := p.withSupply { p.supply with actions := setAt p.supply.actions b new }
    let p := p.withAlloc (p.alloc.curtail b new (p.bay b).config.maxDraw)
    let p := p.setBay b ((p.bay b).setAction new)
    if new = .close then p.bayEntryDue b .closed
    else if old = .close then p.liftClose b
    else p

/-- The effective action of one bay recomputed (R144). -/
def Blocks.recompute (p : Blocks) (b : BayNo) : Blocks := p.setAction b (p.supply.actionFor (p.bay b).config)

/-- The bays that belong to one of the groups recomputed, in ascending bay order (R144, R145). -/
def Blocks.recomputeMembers (p : Blocks) (among : GroupNo → Bool) : Blocks :=
  (List.finRange Config.bayCount).foldl
    (fun p b =>
      if (List.finRange 3).any fun g => among g && (p.bay b).config.groups[g] then p.recompute b else p) p

/-! ## Modules (R101, R102) -/

/-- The bays 8k to 8k+7 of a module, ascending. -/
def moduleBays (k : ModuleNo) : List BayNo :=
  (List.finRange 8).map fun i => ⟨8 * k.val + i.val, by have := k.isLt; have := i.isLt; simp only [Config.moduleCount, Config.bayCount] at *; omega⟩

def Blocks.setModule (p : Blocks) (k : ModuleNo) (m : ModuleState) : Blocks :=
  p.withBays { p.bays with modules := setAt p.bays.modules k m }

/-- A module is ONLINE. -/
def ModuleState.isOnline : ModuleState → Bool
  | .online _ => true
  | .offline => false

def Blocks.moduleState (p : Blocks) (k : ModuleNo) : ModuleState := p.bays.modules[k]

/-- The module that serves a bay. -/
def moduleOf (b : BayNo) : ModuleNo := ⟨b.val / 8, by have := b.isLt; simp only [Config.moduleCount, Config.bayCount] at *; omega⟩

/-- A bay of a lost module: in service it is lost with cause LINK_LOST, whatever its autocut, and gets its sticky flag;
already FAULTED it gets the flag and keeps its cause; DISABLED it stays (R101). -/
def Blocks.loseModuleBay (p : Blocks) (b : BayNo) : Blocks :=
  if (p.bay b).state = .disabled then p
  else
    let inService := !(p.bay b).state.outOfService
    let p := p.setBay b { p.bay b with sticky := true }
    if inService then p.loseBay b .linkLost else p

/-- The silence count of an ONLINE module expires (R101). That its eight bays are taken in ascending order is the model's
choice: R101, R95, R105 and R108 give no order (log 31). -/
def Blocks.loseModule (p : Blocks) (k : ModuleNo) : Blocks :=
  match p.moduleState k with
  | .offline => p
  | .online _ =>
    ((moduleBays k).foldl Blocks.loseModuleBay (p.setModule k .offline)).raise .bayUnit (.moduleLost k)

/-! ## The clock (R64, R67) -/

/-- A minute boundary: the level minute advances, holding at its greatest value, a new minute begins, and the boundary is
delivered to the book, the bay unit and the supply unit, and to the allocator where the minute is a multiple of 5
(R64, R67, R126). -/
def Blocks.minuteBoundary (p : Blocks) : Blocks :=
  let m := min (p.clock.minute + 1) Config.minuteMax
  let q := p.boundaries
  (p.withClock { p.clock with minute := m, phase := 0 }).withBoundaries
    { book := q.book ++ [m], bays := q.bays ++ [m], supply := q.supply ++ [m]
      alloc := if m % Config.rebalancePeriod = 0 then q.alloc ++ [m] else q.alloc }

/-- One crystal period at a module's silence count, which expires after 5 seconds (R100, R101). -/
def Blocks.tickModule (p : Blocks) (k : ModuleNo) : Blocks :=
  match p.moduleState k with
  | .offline => p
  | .online n =>
    if Config.silencePeriods ≤ n + 1 then p.loseModule k else p.setModule k (.online (n + 1))

/-- One crystal period: the silence counts, then the minute phase, whose last period is the boundary (R64, log 2). -/
def Blocks.tick (p : Blocks) : Blocks :=
  let p := (List.finRange Config.moduleCount).foldl Blocks.tickModule p
  if Config.minutePeriods ≤ p.clock.phase + 1 then p.minuteBoundary
  else p.withClock { p.clock with phase := p.clock.phase + 1 }

/-- The tick of the whole machine; while RESET is low nothing runs (R157). -/
def tick (s : State) : State := if s.resetLow then s else s.withBlocks s.blocks.tick

end Sys2Proof.Machine
end

