-- ==== Sys2Proof/Machine/Reports.lean ====
section
/-! DEFINITION. The reports of the responses, byte by byte (R170, R172 and the rule that gives each report). -/

namespace Sys2Proof.Machine

def ticketBytes (t : Ticket) : List Byte := be 2 t.slot ++ be 1 t.gen
def tokenBytes (t : Token) : List Byte := be 8 t.toNat
def bayByte (b : BayNo) : List Byte := be 1 b.val
def originZoneByte : OriginZone → List Byte
  | .zone z => be 1 z.val
  | .direct => be 1 255

/-- The message is a session request for the bay. -/
def AllocMsg.opens (b : BayNo) : AllocMsg → Bool
  | .sessionRequest b' _ => b' == b
  | .release _ => false

/-- The session of a record as its reports show it: the allocator's entry for a record in SESSION. Absent in any other
state, and absent while the session request is still on its way (R14, R117). -/
def Blocks.sessionOf (p : Blocks) (r : Record) : Option Session :=
  if r.state = .session ∧ !p.mail.toAlloc.any (AllocMsg.opens r.bay)
  then p.alloc.session r.bay else none

/-- The record report, 55 bytes (R172). -/
def recordReport (p : Blocks) (r : Record) : List Byte :=
  ticketBytes r.ticket ++ tokenBytes r.token ++ bayByte r.bay ++ be 1 r.originClass.code ++
  originZoneByte r.originZone ++ be 1 (portCode r.originPort) ++ flag r.accessible ++ be 4 r.start ++
  be 2 r.length ++ be 2 r.grace ++ be 2 r.draw ++ be 1 r.state.code ++ be 1 r.moves ++ flag r.relocPending ++
  enum Result.code r.outcome ++ enum Cause.code r.cause ++
  optNum 4 r.arrival ++ optNum 4 r.departure ++ optNum 4 r.dwell ++ optNum 4 r.overstay ++
  enum Phase.code ((p.sessionOf r).map (·.phase)) ++ optNum 2 ((p.sessionOf r).map (·.grant))

/-- The record report of the record in a slot as it stands. -/
def slotReport (p : Blocks) (sl : Slot) : List Byte :=
  match p.book.rec? sl with
  | some r => recordReport p r
  | none => []

/-- One item of FIND TOKEN's list: ticket, bay, start, length, state (R15). -/
def tokenItem (r : Record) : List Byte :=
  ticketBytes r.ticket ++ bayByte r.bay ++ be 4 r.start ++ be 2 r.length ++ be 1 r.state.code

/-- The token list (R15). -/
def tokenReport (p : Blocks) (t : Token) : List Byte := items tokenItem (p.book.tokenRecords t)

/-- The availability of the timeline report: 1 OPEN, else a reason check 5 would fail (R48, R170). A bay under a BAY entry
is reported RELOCATING (R104, R115) whatever its state and its action. That this goes before R48's "first reason" is the
model's choice (log 29). -/
def Blocks.availability (p : Blocks) (b : BayNo) : Nat :=
  if (p.bayEntry b).isSome then 5
  else if (p.bay b).state = .disabled then 2
  else if (p.bay b).state = .faulted then 3
  else if (p.bay b).action = .close then 4
  else 1

/-- A field of `n` bytes that a report may leave absent and for which R170 gives no encoding of absence: a presence byte,
then the field, zero bytes when absent (R172). -/
def present (shown : Bool) (field : List Byte) : List Byte :=
  flag shown ++ if shown then field else List.replicate field.length 0#8

/-- One item of the timeline report: start, length, state, then ticket, origin class and token as far as the requester's
class is shown them (R48, log 19). -/
def timelineItem (c : Class) (r : Record) : List Byte :=
  be 4 r.start ++ be 2 r.length ++ be 1 r.state.code ++
  present (c == .operator || (c == .fleet && r.originClass == .fleet)) (ticketBytes r.ticket) ++
  enum Class.code (if c = .operator then some r.originClass else none) ++
  present (c == .operator) (tokenBytes r.token)

/-- The timeline report (R48). Its number of records is the count byte of its list (log 19). -/
def timelineReport (p : Blocks) (c : Class) (b : BayNo) : List Byte :=
  bayByte b ++ be 1 (p.bay b).config.cls.code ++ be 1 (p.bay b).state.code ++ be 1 (p.availability b) ++
  items (timelineItem c) (p.book.timeline b)

/-- Live records in a state. -/
def Book.countIn (k : Book) (st : RecState) : Nat :=
  (k.pool.toList.filter fun o => o.any fun r => r.state == st).length

/-- The settled records the requester is shown: for FLEET, those of origin class FLEET (R19). -/
def Book.shownSettled (k : Book) (c : Class) (fromSlot : Nat) : List Record :=
  (k.settled.filter fun sl => decide (fromSlot ≤ sl.val)).filterMap fun sl =>
    (k.rec? sl).bind fun r => if c = .fleet ∧ r.originClass ≠ .fleet then none else some r

/-- The pool report (R19). That the next slot is a 2-byte number, as a slot in a ticket (R170), is the model's reading,
since no rule gives the width of a slot by itself (log 30). -/
def poolReport (p : Blocks) (c : Class) (fromSlot : Nat) : List Byte :=
  let shown := p.book.shownSettled c fromSlot
  let page := shown.take Config.pageSize
  let next := if shown.length ≤ Config.pageSize then none else page.getLast?.map fun r => r.ticket.slot + 1
  be 2 p.book.free.length ++
  be 2 (p.book.countIn .booked) ++ be 2 (p.book.countIn .held) ++ be 2 (p.book.countIn .session) ++
  be 2 (p.book.countIn .parked) ++ be 2 (p.book.countIn .overstay) ++
  be 2 p.book.settled.length ++ be 2 p.params.poolLow ++
  flag (p.book.poolLow p.params.poolLow) ++ flag p.book.settledWaiting ++
  items (fun r => ticketBytes r.ticket) page ++ optNum 2 next

/-- A descriptor: base, length, direction, access, used (R61). -/
def descriptorReport (d : Descriptor) : List Byte :=
  bayByte d.base ++ be 2 d.length ++ be 1 d.direction.code ++ be 1 d.access.code ++ flag d.used

/-- The access fault record: valid, cause, request, class, zone, index, port, level minute, more (03 section 3.4). -/
def accessFaultReport (m : ZoneMap) : List Byte :=
  let x := m.captured
  flag x.isSome ++ enum ZoneFault.code (x.map (·.cause)) ++ enum ZoneRequest.code (x.map (·.request)) ++
  enum Class.code (x.map (·.cls)) ++ optNum 1 (x.map (·.zone.val)) ++ optNum 1 (x.bind (·.index)) ++
  enum portCode (x.map (·.port)) ++ optNum 4 (x.map (·.minute)) ++ flag m.more

/-- The bay report, 25 bytes (R99, R172). -/
def bayReport (p : Blocks) (b : BayNo) : List Byte :=
  let x := p.bay b
  let post := p.alloc.posts[b]
  bayByte b ++ be 1 x.config.feeder.val ++ be 1 x.config.cls.code ++ be 2 x.config.maxDraw ++
  be 1 (bits x.config.groups.toList) ++ be 1 x.config.quiet.code ++ be 1 x.config.clear.code ++
  flag x.config.autocut ++ flag x.config.rejoin ++ be 1 x.state.code ++ flag x.presence ++ flag x.faultLine ++
  flag x.sticky ++ enum FaultCause.code x.faultCause ++ flag x.heldMark ++ be 1 x.window ++
  enum Origin.code x.origin ++ be 1 x.action.code ++ flag post.enabled ++ be 2 post.limit ++ be 1 x.sign.code ++
  flag (p.moduleState (moduleOf b)).isOnline ++ enum Reason.code (p.bayEntry b)

/-- One item of a feeder report's lists: bay, grant where the list shows it, cap (R131). -/
def grantItem (a : Allocator) (withGrant : Bool) (b : BayNo) : List Byte :=
  bayByte b ++ (if withGrant then be 2 (a.grantOf b) else []) ++ be 2 (((a.session b).map (·.cap)).getD 0)

/-- The SUSPENDED sessions on a feeder, in ascending bay order (R131). -/
def Allocator.suspendedOn (a : Allocator) (f : FeederNo) : List BayNo :=
  (List.finRange Config.bayCount).filter fun b =>
    (a.session b).any fun s => s.feeder == f && s.phase == .suspended

/-- The feeder report (R131). -/
def feederReport (a : Allocator) (f : FeederNo) : List Byte :=
  let x := a.feeder f
  be 1 f.val ++ be 2 x.budget ++ be 2 x.staged ++ flag x.switchPending ++ be 2 x.reserve ++ be 1 a.supply.code ++
  be 2 (a.ceiling f) ++ be 2 (a.granted f) ++ be 2 (a.headroom f) ++
  items (grantItem a true) x.grants ++ items (grantItem a false) x.queue ++ items (grantItem a false) (a.suspendedOn f)

/-- Bays that are members of a group (R141). -/
def Blocks.membersOf (p : Blocks) (g : GroupNo) : Nat :=
  (p.bays.bays.toList.filter fun x => x.config.groups[g]).length

/-- One group of the supply report: site level, effective level, members (R141). -/
def groupReport (p : Blocks) (g : GroupNo) : List Byte :=
  be 1 p.supply.sites[g].code ++ be 1 (p.supply.level g).code ++ be 2 (p.membersOf g)

/-- Bays whose effective action is `a` (R141). -/
def Blocks.countAction (p : Blocks) (a : Action) : Nat := (p.supply.actions.toList.filter (· == a)).length

/-- The supply report (R141). -/
def supplyReport (p : Blocks) : List Byte :=
  let u := p.supply
  be 1 u.state.code ++ be 1 u.target.code ++ be 2 u.counter ++ be 2 p.params.settle ++
  flag u.mainsOk ++ flag u.dr ++ flag u.alarm ++
  groupReport p 0 ++ groupReport p 1 ++ groupReport p 2 ++
  be 2 (p.countAction .continue) ++ be 2 (p.countAction .trickle) ++ be 2 (p.countAction .stop) ++
  be 2 (p.countAction .close)

/-- The clock report: level minute and clock-set flag (R65). -/
def clockReport (p : Blocks) : List Byte := be 4 p.clock.minute ++ flag p.clock.isSet

/-- The level report: level state, level minute, clock-set flag, the six parameters (R149). -/
def levelReport (p : Blocks) : List Byte :=
  be 1 p.level.code ++ be 4 p.clock.minute ++ flag p.clock.isSet ++ be 2 p.params.holdLead ++
  be 2 p.params.turnoverGap ++ be 2 p.params.defaultGrace ++ be 1 p.params.claimWindow ++ be 2 p.params.settle ++
  be 2 p.params.poolLow

/-- The notice report, 54 bytes (R167, R172). -/
def noticeReport (n : Notices) : List Byte :=
  be 2 n.summary.toNat ++ be 2 n.mask.toNat ++ le 12 n.intruder.toNat ++ le 12 n.unregistered.toNat ++
  le 12 n.postFault.toNat ++ le 12 n.overstay.toNat ++ be 2 n.moduleLost.toNat

/-- Identity: part code, revision, bay count, pool size (R158). -/
def identityReport : List Byte :=
  be 2 Config.partCode ++ be 2 Config.revision ++ be 2 Config.bayCount ++ be 2 Config.poolSize

end Sys2Proof.Machine
end

