-- ==== Sys2Proof/Machine/Operands.lean ====
section
/-! DEFINITION. The bodies of the requests: their fields in the order each rule lists them, encoded as R170 gives, with the
field range check of each request (none: refused BAD_FIELD). A body whose length is not the one its fields call for
fails the same check (R163). -/

namespace Sys2Proof.Machine

/-- The number in the `k` bytes at an offset. -/
def field (body : List Byte) (off k : Nat) : Nat := beNat ((body.drop off).take k)

/-- A yes-or-no field: 1 or 0, any other byte names nothing. -/
def yesNo : Nat → Option Bool
  | 0 => some false
  | 1 => some true
  | _ => none

/-- An optional number at an offset: its presence byte, then `k` bytes (R170). A presence byte that is neither 0 nor 1
names nothing; the number beside a 0 is not read (log 16). -/
def optField (body : List Byte) (off k : Nat) : Option (Option Nat) :=
  (yesNo (field body off 1)).map fun there => if there then some (field body (off + 1) k) else none

/-- The token in the 8 bytes at an offset. -/
def tokenField (body : List Byte) (off : Nat) : Token := BitVec.ofNat 64 (field body off 8)

/-- The ticket in the 3 bytes at an offset. -/
def ticketField (body : List Byte) (off : Nat) : Ticket :=
  { slot := field body off 2, gen := field body (off + 2) 1 }

/-- The code of DIRECT in a zone field (R170). -/
def directCode : Nat := 255

/-- How a request names its bay: a zone and an index, or DIRECT and a bay number (R51). -/
inductive BayRef where
  | zone (z : ZoneNo) (index : Nat)
  | direct (b : BayNo)
  deriving DecidableEq, Repr

/-- The zone field and the byte after it (R170): none where the zone field names neither a zone nor DIRECT, or a DIRECT bay
number is above 95 (R29, R51). The index is not judged here. -/
def bayRef (zone sel : Nat) : Option BayRef :=
  if h : zone < 8 then some (.zone ⟨zone, h⟩ sel)
  else if zone = directCode then (bayOf sel).map .direct
  else none

/-- The origin zone of a record the reference names (R1). -/
def BayRef.originZone : BayRef → OriginZone
  | .zone z _ => .zone z
  | .direct _ => .direct

/-- The fields the three booking requests share. -/
structure Booking where
  token      : Token
  start      : Nat
  length     : Nat
  grace      : Option Nat
  draw       : Nat
  accessible : Bool
  deriving DecidableEq, Repr

/-- The ranges of 02 section 2.4 (R29). -/
def Booking.inRange (f : Booking) : Bool :=
  f.token != 0 && f.start % 5 == 0 && decide (15 ≤ f.length ∧ f.length ≤ 720) && f.length % 5 == 0 &&
  f.grace.all (fun g => decide (g ≤ 60)) && decide (6 ≤ f.draw ∧ f.draw ≤ 80)

/-- BOOK BAY: token, zone, index or bay, start, length, grace, draw, accessible; 22 bytes (02 section 2.4). -/
def bookBayFields (body : List Byte) : Option (BayRef × Booking) :=
  if body.length ≠ 22 then none
  else
    (bayRef (field body 8 1) (field body 9 1)).bind fun ref =>
    (optField body 16 2).bind fun grace =>
    (yesNo (field body 21 1)).bind fun accessible =>
      let f : Booking :=
        { token := tokenField body 0, start := field body 10 4, length := field body 14 2
          grace, draw := field body 19 2, accessible }
      if f.inRange then some (ref, f) else none

/-- BOOK ZONE: token, zone, start, length, grace, draw, accessible; 21 bytes. DIRECT is out of range (R29). -/
def bookZoneFields (body : List Byte) : Option (ZoneNo × Booking) :=
  if body.length ≠ 21 then none
  else if h : field body 8 1 < 8 then
    (optField body 15 2).bind fun grace =>
    (yesNo (field body 20 1)).bind fun accessible =>
      let f : Booking :=
        { token := tokenField body 0, start := field body 9 4, length := field body 13 2
          grace, draw := field body 18 2, accessible }
      if f.inRange then some (⟨field body 8 1, h⟩, f) else none
  else none

/-- BOOK NOW: token, zone, index or bay, length, draw, accessible; 15 bytes. Its start is the minute `m` rounded down to a
multiple of 5, its grace the default (02 section 2.4, R38). -/
def bookNowFields (m : Nat) (body : List Byte) : Option (BayRef × Booking) :=
  if body.length ≠ 15 then none
  else
    (bayRef (field body 8 1) (field body 9 1)).bind fun ref =>
    (yesNo (field body 14 1)).bind fun accessible =>
      let f : Booking :=
        { token := tokenField body 0, start := m - m % 5, length := field body 10 2
          grace := none, draw := field body 12 2, accessible }
      if f.inRange then some (ref, f) else none

/-- A body of length `n` whose byte at `off` names DIRECT (R51). A body of another length names no field (log 15). -/
def namesDirect (n off : Nat) (body : List Byte) : Bool := body.length == n && field body off 1 == directCode

/-- The token of a request that names a ticket: eight zero bytes are a token left out for OPERATOR, and out of range for
PUBLIC and FLEET (R7). -/
def tokenOk (c : Class) (t : Token) : Bool := c == .operator || t != 0

/-- A ticket and a token; 11 bytes (CANCEL, CLAIM, LOOKUP TICKET, COLLECT: R45, R90, R14, R18). -/
def ticketFields (c : Class) (body : List Byte) : Option (Ticket × Token) :=
  if body.length = 11 ∧ tokenOk c (tokenField body 3) then some (ticketField body 0, tokenField body 3) else none

/-- EXTEND: ticket, token, extension 5..240 in multiples of 5; 13 bytes (R43). -/
def extendFields (c : Class) (body : List Byte) : Option (Ticket × Token × Nat) :=
  let ext := field body 11 2
  if body.length = 13 ∧ tokenOk c (tokenField body 3) ∧ 5 ≤ ext ∧ ext ≤ 240 ∧ ext % 5 = 0
  then some (ticketField body 0, tokenField body 3, ext) else none

/-- END SESSION: a ticket, and the token field that every request naming a ticket carries, of any value, since the request
is OPERATOR's and compares none; 11 bytes (R7, R16). The field's place is read from the other requests (log 14). -/
def endSessionFields (body : List Byte) : Option Ticket :=
  if body.length = 11 then some (ticketField body 0) else none

/-- FIND TOKEN: a token, not all zero; 8 bytes (R15). -/
def findTokenFields (body : List Byte) : Option Token :=
  if body.length = 8 ∧ tokenField body 0 ≠ 0 then some (tokenField body 0) else none

/-- LIST BAY: zone, index or bay; 2 bytes (R47). -/
def listBayFields (body : List Byte) : Option BayRef :=
  if body.length = 2 then bayRef (field body 0 1) (field body 1 1) else none

/-- POOL STATUS: a starting slot, 0..639 (R19). That the slot is sent in 2 bytes, as it stands in a ticket (R170), is the
model's reading, since R19 gives no width (log 30). -/
def poolStatusFields (body : List Byte) : Option Nat :=
  if body.length = 2 ∧ field body 0 2 < Config.poolSize then some (field body 0 2) else none

/-- READ ZONE: class, zone; 2 bytes (R61). -/
def readZoneFields (body : List Byte) : Option (Class × ZoneNo) :=
  if body.length ≠ 2 then none
  else if h : field body 1 1 < 8 then (Class.ofCode (field body 0 1)).map fun c => (c, ⟨field body 1 1, h⟩)
  else none

/-- WRITE ZONE: class, zone, base, length, direction, access; 7 bytes (R59). The descriptor as written has its used flag
clear. -/
def writeZoneFields (body : List Byte) : Option (Class × ZoneNo × Descriptor) :=
  if body.length ≠ 7 then none
  else if h : field body 1 1 < 8 then
    (Class.ofCode (field body 0 1)).bind fun c =>
    (bayOf (field body 2 1)).bind fun base =>
    (Direction.ofCode (field body 5 1)).bind fun direction =>
    (Access.ofCode (field body 6 1)).bind fun access =>
      if 1 ≤ field body 3 2 ∧ field body 3 2 ≤ 32 then
        some (c, ⟨field body 1 1, h⟩, { base, length := field body 3 2, direction, access, used := false })
      else none
  else none

/-- A request that names a bay and nothing more; 1 byte (R96 to R99). -/
def bayFields (body : List Byte) : Option BayNo := if body.length = 1 then bayOf (field body 0 1) else none

/-- A feeder number, where it is one of F0..F3. -/
def feederOf (n : Nat) : Option FeederNo := if h : n < Config.feederCount then some ⟨n, h⟩ else none

/-- Group membership: C1, C2, C3 in bits 0, 1, 2; a byte with another bit names nothing (R170). -/
def groupsOf (n : Nat) : Option (Vector Bool 3) :=
  if n < 8 then some #v[n.testBit 0, n.testBit 1, n.testBit 2] else none

/-- CONFIGURE BAY: bay, feeder, class, max draw, groups, quiet action, clear action, autocut, rejoin; 10 bytes (R81). -/
def configureFields (body : List Byte) : Option (BayNo × BayConfig) :=
  if body.length ≠ 10 then none
  else
    (bayOf (field body 0 1)).bind fun b =>
    (feederOf (field body 1 1)).bind fun feeder =>
    (BayClass.ofCode (field body 2 1)).bind fun cls =>
    (groupsOf (field body 5 1)).bind fun groups =>
    (Action.ofCode (field body 6 1)).bind fun quiet =>
    (Action.ofCode (field body 7 1)).bind fun clear =>
    (yesNo (field body 8 1)).bind fun autocut =>
    (yesNo (field body 9 1)).bind fun rejoin =>
      if 6 ≤ field body 3 2 ∧ field body 3 2 ≤ 80 then
        some (b, { feeder, cls, maxDraw := field body 3 2, groups, quiet, clear, autocut, rejoin })
      else none

/-- SET BUDGET and SET RESERVE CEILING: feeder, amps 0..1000; 3 bytes (R127, R128). -/
def feederAmps (body : List Byte) : Option (FeederNo × Nat) :=
  if body.length = 3 ∧ field body 1 2 ≤ 1000 then (feederOf (field body 0 1)).map fun f => (f, field body 1 2)
  else none

/-- READ FEEDER: feeder; 1 byte (R131). -/
def feederFields (body : List Byte) : Option FeederNo := if body.length = 1 then feederOf (field body 0 1) else none

/-- A group C1..C3 by its code 1..3 (R170). -/
def groupOf (n : Nat) : Option GroupNo := if h : 1 ≤ n ∧ n ≤ 3 then some ⟨n - 1, by omega⟩ else none

/-- SET GROUP LEVEL: group, level; 2 bytes (R143). -/
def groupFields (body : List Byte) : Option (GroupNo × GroupLevel) :=
  if body.length ≠ 2 then none
  else (groupOf (field body 0 1)).bind fun g => (GroupLevel.ofCode (field body 1 1)).map fun l => (g, l)

/-- SELECT SUPPLY: target; 1 byte (R136). -/
def targetFields (body : List Byte) : Option Target := if body.length = 1 then Target.ofCode (field body 0 1) else none

/-- SET CLOCK: a level minute up to 4,000,000,000; 4 bytes (R65). -/
def clockFields (body : List Byte) : Option Nat :=
  if body.length = 4 ∧ field body 0 4 ≤ Config.setClockMax then some (field body 0 4) else none

/-- An optional number within a range: absent, or present and in it (R151). -/
def optIn (lo hi : Nat) (v : Option (Option Nat)) : Option (Option Nat) :=
  v.bind fun o => if o.all (fun n => decide (lo ≤ n ∧ n ≤ hi)) then some o else none

/-- SET PARAMETERS: hold lead, turnover gap, default grace, claim window, settle, pool-low threshold, each optional; 17
bytes (R151). The result is the parameters after the write: an absent one keeps its value. -/
def parameterFields (old : Params) (body : List Byte) : Option Params :=
  if body.length ≠ 17 then none
  else
    (optIn 0 60 (optField body 0 2)).bind fun holdLead =>
    (optIn 0 30 (optField body 3 2)).bind fun turnoverGap =>
    (optIn 0 60 (optField body 6 2)).bind fun defaultGrace =>
    (optIn 1 15 (optField body 9 1)).bind fun claimWindow =>
    (optIn 1 15 (optField body 11 2)).bind fun settle =>
    (optIn 0 255 (optField body 14 2)).map fun poolLow =>
      { holdLead := holdLead.getD old.holdLead, turnoverGap := turnoverGap.getD old.turnoverGap
        defaultGrace := defaultGrace.getD old.defaultGrace, claimWindow := claimWindow.getD old.claimWindow
        settle := settle.getD old.settle, poolLow := poolLow.getD old.poolLow }

/-- A scope of RESTART. -/
inductive Scope where
  | level
  | allocation
  deriving DecidableEq, Repr

/-- RESTART: scope; 1 byte (R153). -/
def scopeFields (body : List Byte) : Option Scope :=
  if body.length ≠ 1 then none
  else match field body 0 1 with
    | 1 => some .level
    | 2 => some .allocation
    | _ => none

/-- A selection of causes, in 2 bytes: bits 0..13 (R168). -/
def causesOf (n : Nat) : Option (BitVec 16) := if n < 2 ^ 14 then some (BitVec.ofNat 16 n) else none

/-- The optional bay selection at an offset: presence byte, 12 bytes (R170). -/
def baysField (body : List Byte) (off : Nat) : Option (Option (BitVec 96)) :=
  (yesNo (field body off 1)).map fun there =>
    if there then some (BitVec.ofNat 96 (leNat ((body.drop (off + 1)).take 12))) else none

/-- The optional module selection at an offset: presence byte, 2 bytes; bits 0..11 (R168, R170). -/
def modulesField (body : List Byte) (off : Nat) : Option (Option (BitVec 12)) :=
  (optField body off 2).bind fun o => if o.all (fun n => decide (n < 2 ^ 12)) then some (o.map (BitVec.ofNat 12)) else none

/-- CLEAR NOTICES: cause selection, bay selection, module selection; 18 bytes (R168). -/
def clearFields (body : List Byte) : Option (BitVec 16 × Option (BitVec 96) × Option (BitVec 12)) :=
  if body.length ≠ 18 then none
  else
    (causesOf (field body 0 2)).bind fun sel =>
    (baysField body 2).bind fun bays =>
    (modulesField body 15).map fun modules => (sel, bays, modules)

/-- SET NOTICE MASK: mask; 2 bytes (R169). -/
def maskFields (body : List Byte) : Option (BitVec 16) := if body.length = 2 then causesOf (field body 0 2) else none

end Sys2Proof.Machine
end

