-- ==== Sys2Proof/Machine/BayLink.lean ====
section
/-! DEFINITION. The bay link: polls, reports with the presence, fault and done events they yield, found and lost modules
(05). -/

namespace Sys2Proof.Machine

/-! ## Events of one bay -/

/-- A departure (R92): the bay takes its resting state, and its vehicle record, if any, is settled COMPLETED. -/
def Blocks.departure (p : Blocks) (b : BayNo) : Blocks :=
  let p := p.setBay b ((p.bay b).rest p.params.claimWindow)
  match p.book.servingOn b with
  | some sl => p.settle false sl .completed none
  | none => p

/-- A presence event (R85): the level is updated in every state, with the further effect of the table. -/
def Blocks.presenceEvent (p : Blocks) (b : BayNo) (on : Bool) : Blocks :=
  let p := p.setBay b { p.bay b with presence := on }
  let x := p.bay b
  let win := p.params.claimWindow
  match x.state, on with
  | .vacant, true => p.setBay b (x.unclaim .vacant win)
  | .awaiting, true => p.setBay b (x.unclaim .awaiting win)
  | .unclaimed, false => p.setBay b (x.rest win)
  | .squatted, false => p.setBay b (x.rest win)
  | .serving, false => p.departure b
  | _, _ => p

/-- A fault event (R94): the level is updated; fault ON sets the sticky flag and POST_FAULT but in DISABLED, and with
autocut takes an in-service bay out of service. -/
def Blocks.faultEvent (p : Blocks) (b : BayNo) (on : Bool) : Blocks :=
  let p := p.setBay b { p.bay b with faultLine := on }
  if on = false ∨ (p.bay b).state = .disabled then p
  else
    let p := (p.setBay b { p.bay b with sticky := true }).raise .bayUnit (.postFault b)
    if (p.bay b).state ≠ .faulted ∧ (p.bay b).config.autocut then p.loseBay b .postFault else p

/-- A done report (R93): taken on only where the bay is SERVING with its post enabled and its record in SESSION, which
becomes PARKED and releases its session. -/
def Blocks.doneReport (p : Blocks) (b : BayNo) : Blocks :=
  if (p.bay b).state = .serving ∧ p.alloc.posts[b].enabled then
    match p.book.servingOn b with
    | none => p
    | some sl =>
      match p.book.rec? sl with
      | none => p
      | some r =>
        if r.state = .session then (p.putRecord sl { r with state := .parked }).sendAlloc (.release b) else p
  else p

/-- The events one report yields for one of its bays: a fault event before a presence event (R100), then the done report
(log 12). A level equal to the one held is no event. -/
def Blocks.reportBay (p : Blocks) (b : BayNo) (presence fault done : Bool) : Blocks :=
  let p := if fault != (p.bay b).faultLine then p.faultEvent b fault else p
  let p := if presence != (p.bay b).presence then p.presenceEvent b presence else p
  if done then p.doneReport b else p

/-! ## Reports -/

/-- The bay of a module's i-th place. -/
def bayAt (k : ModuleNo) (i : Fin 8) : BayNo :=
  ⟨8 * k.val + i.val, by have := k.isLt; have := i.isLt; simp only [Config.moduleCount, Config.bayCount] at *; omega⟩

/-- A report of an ONLINE module (R100): its silence count restarts, and its bays' events are taken in ascending order. -/
def Blocks.onlineReport (p : Blocks) (k : ModuleNo) (rep : ModuleReport) : Blocks :=
  (List.finRange 8).foldl
    (fun p i => p.reportBay (bayAt k i) (rep.presence.getLsbD i) (rep.fault.getLsbD i) (rep.done.getLsbD i))
    (p.setModule k (.online 0))

/-- A report of an OFFLINE module, the found event (R102): ONLINE, and the levels written without events. -/
def Blocks.foundReport (p : Blocks) (k : ModuleNo) (rep : ModuleReport) : Blocks :=
  (List.finRange 8).foldl
    (fun p i => p.setBay (bayAt k i)
      { p.bay (bayAt k i) with presence := rep.presence.getLsbD i, faultLine := rep.fault.getLsbD i })
    (p.setModule k (.online 0))

/-- A report as the module's state takes it (R100 to R102). -/
def Blocks.takeReport (p : Blocks) (k : ModuleNo) (rep : ModuleReport) : Blocks :=
  match p.moduleState k with
  | .online _ => p.onlineReport k rep
  | .offline => p.foundReport k rep

/-! ## Polls -/

/-- The poll of the next module in turn, with the post commands and signs of its bays as they stand (R100, R83, R84). -/
def Blocks.poll (p : Blocks) : Blocks :=
  let k := p.bays.nextPoll
  p.withBays { p.bays with
    lastPoll := some
      { target := k
        commands := (moduleBays k).map fun b => p.alloc.posts[b]
        signs := (moduleBays k).map fun b => (p.bay b).sign }
    nextPoll := k + 1 }

def execModulePoll (s : State) : Host.Outcome State Fault Refusal := atBlocks Blocks.poll s

/-- An answer of a module, ONLINE by the row; where its silence has expired first, it is a found event (R101). -/
def execModuleReport (k : ModuleNo) (rep : ModuleReport) (s : State) : Host.Outcome State Fault Refusal :=
  atBlocks (fun p => p.takeReport k rep) s

/-- A report of a module, OFFLINE by the row; the module's state decides how it is taken (R102). -/
def execModuleFound (k : ModuleNo) (rep : ModuleReport) (s : State) : Host.Outcome State Fault Refusal :=
  atBlocks (fun p => p.takeReport k rep) s

/-- The silence count of a module expires; an OFFLINE module has none (R100, R101). -/
def execModuleLost (k : ModuleNo) (s : State) : Host.Outcome State Fault Refusal := atBlocks (fun p => p.loseModule k) s

end Sys2Proof.Machine
end

