-- ==== Sys2Proof/Machine/BayRequests.lean ====
section
/-! DEFINITION. The requests at the bay unit: CONFIGURE BAY, ENABLE BAY, DISABLE BAY, CLEAR FAULT, READ BAY (05). -/

namespace Sys2Proof.Machine

/-- The eight fields of a bay replaced, and its effective action recomputed at once (R80, R81). -/
def Blocks.configure (p : Blocks) (b : BayNo) (config : BayConfig) : Blocks :=
  (p.setBay b { p.bay b with config := config }).recompute b

/-- CONFIGURE BAY (R81), of a DISABLED bay alone. -/
def judgeConfigureBay (_port : Port) (_c : Class) (body : List Byte) (p : Blocks) : Answer :=
  match configureFields body with
  | none => refuse p .badField
  | some (b, config) =>
    if (p.bay b).state ≠ .disabled then refuse p .bayActive
    else
      let p := p.configure b config
      accept p (bayReport p b)

/-- The fault line is ON, or the bay's module is OFFLINE (R96, R97). -/
def Blocks.fieldFault (p : Blocks) (b : BayNo) : Bool :=
  (p.bay b).faultLine || !(p.moduleState (moduleOf b)).isOnline

/-- A bay taken to its resting state (R97). -/
def Blocks.enable (p : Blocks) (b : BayNo) : Blocks := p.setBay b ((p.bay b).rest p.params.claimWindow)

/-- ENABLE BAY (R97). -/
def judgeEnableBay (_port : Port) (_c : Class) (body : List Byte) (p : Blocks) : Answer :=
  match bayFields body with
  | none => refuse p .badField
  | some b =>
    match firstRefusal [((p.bayEntry b).isNone, .relocating), ((p.bay b).state == .disabled, .bayActive),
        (!p.fieldFault b, .faultActive)] with
    | some st => refuse p st
    | none =>
      let p := p.enable b
      accept p (bayReport p b)

/-- A bay disabled (R98): a loss with cause BAY_DISABLED on a bay not DISABLED; the sticky flag, the fault cause and the
bay's four notice members are cleared. On a DISABLED bay the members are cleared and nothing else changes. -/
def Blocks.disable (p : Blocks) (b : BayNo) : Blocks :=
  let p :=
    if (p.bay b).state = .disabled then p
    else
      let p := p.loseBay b .disabled
      p.setBay b { p.bay b with sticky := false, faultCause := none }
  p.withNotices (p.notices.clearBay b)

/-- DISABLE BAY (R98). -/
def judgeDisableBay (_port : Port) (_c : Class) (body : List Byte) (p : Blocks) : Answer :=
  match bayFields body with
  | none => refuse p .badField
  | some b =>
    let p := p.disable b
    accept p (bayReport p b)

/-- The sticky flag cleared, and a FAULTED bay returned to its resting state (R96). -/
def Blocks.clearFault (p : Blocks) (b : BayNo) : Blocks :=
  let x := { p.bay b with sticky := false }
  p.setBay b (if x.state = .faulted then x.rest p.params.claimWindow else x)

/-- CLEAR FAULT (R96). -/
def judgeClearFault (_port : Port) (_c : Class) (body : List Byte) (p : Blocks) : Answer :=
  match bayFields body with
  | none => refuse p .badField
  | some b =>
    match firstRefusal [((p.bayEntry b).isNone, .relocating), ((p.bay b).state != .disabled, .wrongState),
        (!p.fieldFault b, .faultActive)] with
    | some st => refuse p st
    | none =>
      let p := p.clearFault b
      accept p (bayReport p b)

/-- READ BAY (R99). -/
def judgeReadBay (_port : Port) (_c : Class) (body : List Byte) (p : Blocks) : Answer :=
  match bayFields body with
  | none => refuse p .badField
  | some b => accept p (bayReport p b)

def execConfigureBay (port : Port) (r : Request) (s : State) : Host.Outcome State Fault Refusal :=
  serve (ofKind 17) operatorOnly noBody judgeConfigureBay port r s

def execEnableBay (port : Port) (r : Request) (s : State) : Host.Outcome State Fault Refusal :=
  serve (ofKind 18) operatorOnly noBody judgeEnableBay port r s

def execDisableBay (port : Port) (r : Request) (s : State) : Host.Outcome State Fault Refusal :=
  serve (ofKind 19) operatorOnly noBody judgeDisableBay port r s

def execClearFault (port : Port) (r : Request) (s : State) : Host.Outcome State Fault Refusal :=
  serve (ofKind 20) operatorOnly noBody judgeClearFault port r s

def execReadBay (port : Port) (r : Request) (s : State) : Host.Outcome State Fault Refusal :=
  serve (ofKind 21) operatorOnly noBody judgeReadBay port r s

end Sys2Proof.Machine
end

