-- ==== Sys2Proof/Machine/Booking.lean ====
section
/-! DEFINITION. The booking requests, EXTEND, CANCEL, CLAIM and LIST BAY (02, 05 section 5.4). -/

namespace Sys2Proof.Machine

/-! ## Accepting a booking (R34, R35, R39) -/

/-- The record a booking fills from its request, before it has a slot (R1): state, arrival and grace as given. -/
def newRecord (port : Port) (c : Class) (oz : OriginZone) (b : BayNo) (f : Booking) (grace : Nat) (st : RecState)
    (arrival : Option Nat) : Record :=
  { ticket := { slot := 0, gen := 0 }, token := f.token, bay := b, originClass := c, originZone := oz
    originPort := port, accessible := f.accessible, start := f.start, length := f.length, grace := grace
    draw := f.draw, state := st, moves := 0, relocPending := false, outcome := none, cause := none
    arrival := arrival, departure := none, dwell := none, overstay := none }

/-- HELD where the start less the hold lead is at or before the current minute, else BOOKED (R1, R35). -/
def Blocks.stateAtBooking (p : Blocks) (start : Nat) : RecState :=
  if p.now < start - p.params.holdLead then .booked else .held

/-- A record created and placed, its descriptor's used flag set, the pool conditions re-evaluated, and HOLD told to the bay
unit where the record is the bay's first HELD one (R34, R35). The free list is not empty here (check 10). -/
def admitHeld (p : Blocks) (r : Record) : Answer :=
  match p.book.create r with
  | none => refuse p .poolFull
  | some (k, r') =>
    let first := !p.book.hasHeld r.bay
    let p := ((p.withBook k).markUsed r.originClass r.originZone).evalPool
    let p := if r.state = .held ∧ first then p.sendHold r.bay else p
    accept p (recordReport p r')

/-- A record created in SESSION by BOOK NOW: as `admitHeld`, with SERVE at the bay unit in the same event and the session
request sent to the allocator (R39). -/
def admitServing (p : Blocks) (r : Record) : Answer :=
  match p.book.create r with
  | none => refuse p .poolFull
  | some (k, r') =>
    let p := ((p.withBook k).markUsed r.originClass r.originZone).evalPool
    let p := (p.setBay r.bay (p.bay r.bay).serve).sendAlloc (.sessionRequest r.bay r.draw)
    accept p (recordReport p r')

/-! ## Naming the bay (check 4) -/

/-- The bay a reference names: a zone is translated and checked for access, DIRECT is taken as it is (R30, R51, R53). -/
def resolveBay (p : Blocks) (c : Class) (allows : Access → Bool) : BayRef → Except ZoneFault BayNo
  | .zone z index => (p.zones.descriptor c z).translate allows index
  | .direct b => .ok b

/-- What the access fault record is offered for a faulting reference (R56). -/
def captureOf (p : Blocks) (kind : ZoneRequest) (port : Port) (c : Class) (ref : BayRef) (x : ZoneFault) : Capture :=
  { cause := x, request := kind, cls := c
    zone := match ref with | .zone z _ => z | .direct _ => 0
    index := match ref with | .zone _ i => some i | .direct _ => none
    port := port, minute := p.now }

/-! ## The checks on the token, the pool and the bay (R30) -/

/-- Checks 9 and 10: the token's limit, then its windows, then the free list. -/
def tokenAndPool (p : Blocks) (f : Booking) : List (Bool × Status) :=
  [(p.book.tokenHasRoom f.token, .tokenLimit), (p.book.tokenIsFree f.token f.start f.length, .tokenConflict),
   (!p.book.free.isEmpty, .poolFull)]

/-- Checks 11 and 12: the timeline's count, then the gap. -/
def timelineChecks (p : Blocks) (b : BayNo) (f : Booking) : List (Bool × Status) :=
  [(p.book.bayHasRoom b, .bayFull),
   (fitsGap p.params.turnoverGap f.start f.length (p.book.timeline b), .conflict)]

/-- Checks 7 and 8: the start against the current minute (R32). -/
def startChecks (p : Blocks) (f : Booking) : List (Bool × Status) :=
  [(decide (p.now ≤ f.start), .tooLate), (decide (f.start ≤ p.now + Config.horizon), .tooFar)]

/-! ## BOOK BAY -/

/-- Checks 5 to 12 of BOOK BAY (R30). -/
def bookBayChecks (p : Blocks) (c : Class) (b : BayNo) (f : Booking) : List (Bool × Status) :=
  [(p.available b, .bayUnavailable), (fits c f.accessible (p.bay b).config.cls, .classMismatch)] ++
  startChecks p f ++ tokenAndPool p f ++ timelineChecks p b f

/-- BOOK BAY by its twelve checks (R30), after the port and class part of check 1. -/
def judgeBookBay (port : Port) (c : Class) (body : List Byte) (p : Blocks) : Answer :=
  if c ≠ .operator ∧ namesDirect 22 8 body then refuse p .classDenied
  else if p.level ≠ .opened then refuse p .notOpen
  else match bookBayFields body with
    | none => refuse p .badField
    | some (ref, f) =>
      match resolveBay p c Access.allowsBooking ref with
      | .error x => accessAbort p (captureOf p .bookBay port c ref x)
      | .ok b =>
        match firstRefusal (bookBayChecks p c b f) with
        | some st => refuse p st
        | none =>
          admitHeld p (newRecord port c ref.originZone b f (f.grace.getD p.params.defaultGrace)
            (p.stateAtBooking f.start) none)

/-! ## BOOK ZONE -/

/-- A candidate passes checks 5, 6, 11 and 12 (R37). -/
def zoneCandidate (p : Blocks) (c : Class) (f : Booking) (b : BayNo) : Bool :=
  p.available b && fits c f.accessible (p.bay b).config.cls && p.book.bayHasRoom b &&
  fitsGap p.params.turnoverGap f.start f.length (p.book.timeline b)

/-- BOOK ZONE: the zone-wide checks, then the search in ascending index (R36, R37, R54). -/
def judgeBookZone (port : Port) (c : Class) (body : List Byte) (p : Blocks) : Answer :=
  if p.level ≠ .opened then refuse p .notOpen
  else match bookZoneFields body with
    | none => refuse p .badField
    | some (z, f) =>
      let d := p.zones.descriptor c z
      match d.wholeFault with
      | some x =>
        accessAbort p { cause := x, request := .bookZone, cls := c, zone := z, index := none, port, minute := p.now }
      | none =>
        match firstRefusal (startChecks p f ++ tokenAndPool p f) with
        | some st => refuse p st
        | none =>
          match d.run.find? (zoneCandidate p c f) with
          | none => refuse p .noFit
          | some b =>
            admitHeld p (newRecord port c (.zone z) b f (f.grace.getD p.params.defaultGrace)
              (p.stateAtBooking f.start) none)

/-! ## BOOK NOW -/

/-- Checks 5, 6 and 9 to 12 of BOOK NOW: check 5 has a fourth condition, check 7 is skipped and check 8 always passes
(R38). -/
def bookNowChecks (p : Blocks) (c : Class) (b : BayNo) (f : Booking) : List (Bool × Status) :=
  [(p.available b, .bayUnavailable), ((p.bay b).state != .serving, .bayOccupied),
   (fits c f.accessible (p.bay b).config.cls, .classMismatch)] ++ tokenAndPool p f ++ timelineChecks p b f

/-- BOOK NOW: SESSION where a vehicle stands in the bay, HELD where none does (R38, R39). -/
def judgeBookNow (port : Port) (c : Class) (body : List Byte) (p : Blocks) : Answer :=
  if c ≠ .operator ∧ namesDirect 15 8 body then refuse p .classDenied
  else if p.level ≠ .opened then refuse p .notOpen
  else match bookNowFields p.now body with
    | none => refuse p .badField
    | some (ref, f) =>
      match resolveBay p c Access.allowsBooking ref with
      | .error x => accessAbort p (captureOf p .bookNow port c ref x)
      | .ok b =>
        match firstRefusal (bookNowChecks p c b f) with
        | some st => refuse p st
        | none =>
          if (p.bay b).state.occupied then
            admitServing p (newRecord port c ref.originZone b f p.params.defaultGrace .session (some p.now))
          else admitHeld p (newRecord port c ref.originZone b f p.params.defaultGrace .held none)

/-! ## EXTEND -/

/-- Steps 4 to 7 of EXTEND (R43): state, length, the successor on the timeline, the token's other windows. -/
def extendChecks (p : Blocks) (sl : Slot) (r : Record) (ext : Nat) : List (Bool × Status) :=
  let after := (p.book.timeline r.bay).filter fun x => decide (r.start < x.start)
  let others := ((p.book.tokenSlots r.token).filter (· != sl)).filterMap p.book.rec?
  [(r.state != .overstay && r.state != .settled, .wrongState),
   (decide (r.length + ext ≤ 720), .badField),
   (after.head?.all fun x => decide (r.endMinute + ext + p.params.turnoverGap ≤ x.start), .conflict),
   (others.all fun x => !overlaps r.start (r.endMinute + ext) x.start x.endMinute, .tokenConflict)]

/-- A record's window lengthened (R43). -/
def Blocks.extend (p : Blocks) (sl : Slot) (r : Record) (ext : Nat) : Blocks :=
  p.putRecord sl { r with length := r.length + ext }

/-- EXTEND (R43). -/
def judgeExtend (_port : Port) (c : Class) (body : List Byte) (p : Blocks) : Answer :=
  match extendFields c body with
  | none => refuse p .badField
  | some (t, token, ext) =>
    match p.book.resolve c t token with
    | .error st => refuse p st
    | .ok (sl, r) =>
      match firstRefusal (extendChecks p sl r ext) with
      | some st => refuse p st
      | none =>
        let p := p.extend sl r ext
        accept p (slotReport p sl)

/-! ## CANCEL -/

/-- CANCEL (R45): a BOOKED or HELD record is settled CANCELLED with no cause. R46 says that the response to the request that
did not settle the record reports the record as it stands; that a refused CANCEL nonetheless has the empty body of R163,
its status alone telling that the record is no longer pending, is the model's reading (log 34). -/
def judgeCancel (_port : Port) (c : Class) (body : List Byte) (p : Blocks) : Answer :=
  match ticketFields c body with
  | none => refuse p .badField
  | some (t, token) =>
    match p.book.resolve c t token with
    | .error st => refuse p st
    | .ok (sl, r) =>
      if r.state.pending then
        let p := p.settle false sl .cancelled none
        accept p (slotReport p sl)
      else refuse p .wrongState

/-! ## CLAIM -/

/-- Steps 4 to 8 of CLAIM (R90). -/
def claimChecks (p : Blocks) (r : Record) : List (Bool × Status) :=
  let x := p.bay r.bay
  [(r.state != .booked, .tooEarly), (r.state == .held, .wrongState), (x.presence, .noVehicle),
   (x.state != .serving, .bayOccupied), (!x.state.outOfService && x.action != .close, .bayUnavailable)]

/-- A record claimed (R90): SESSION with arrival, the RECORD entry removed, SERVE at the bay unit, the session request
sent; no message tells the bay unit that the hold is gone (R173). -/
def Blocks.claim (p : Blocks) (sl : Slot) (r : Record) : Blocks :=
  let p := p.putRecord sl { r with state := .session, arrival := some p.now, relocPending := false }
  let p := if r.relocPending then p.withReloc (p.reloc.filter (· != .record r.ticket)) else p
  (p.setBay r.bay (p.bay r.bay).serve).sendAlloc (.sessionRequest r.bay r.draw)

/-- CLAIM (R90). -/
def judgeClaim (_port : Port) (c : Class) (body : List Byte) (p : Blocks) : Answer :=
  match ticketFields c body with
  | none => refuse p .badField
  | some (t, token) =>
    match p.book.resolve c t token with
    | .error st => refuse p st
    | .ok (sl, r) =>
      match firstRefusal (claimChecks p r) with
      | some st => refuse p st
      | none =>
        let p := p.claim sl r
        accept p (slotReport p sl)

/-! ## LIST BAY -/

/-- LIST BAY (R47, R48). -/
def judgeListBay (port : Port) (c : Class) (body : List Byte) (p : Blocks) : Answer :=
  if c ≠ .operator ∧ namesDirect 2 0 body then refuse p .classDenied
  else match listBayFields body with
    | none => refuse p .badField
    | some ref =>
      match resolveBay p c Access.allowsList ref with
      | .error x => accessAbort p (captureOf p .listBay port c ref x)
      | .ok b => accept p (timelineReport p c b)

/-! ## The service turns -/

def execBookBay (port : Port) (r : Request) (s : State) : Host.Outcome State Fault Refusal :=
  serve (ofKind 1) everyone noBody judgeBookBay port r s

def execBookZone (port : Port) (r : Request) (s : State) : Host.Outcome State Fault Refusal :=
  serve (ofKind 2) everyone noBody judgeBookZone port r s

def execBookNow (port : Port) (r : Request) (s : State) : Host.Outcome State Fault Refusal :=
  serve (ofKind 3) everyone noBody judgeBookNow port r s

def execExtend (port : Port) (r : Request) (s : State) : Host.Outcome State Fault Refusal :=
  serve (ofKind 4) everyone noBody judgeExtend port r s

def execCancel (port : Port) (r : Request) (s : State) : Host.Outcome State Fault Refusal :=
  serve (ofKind 5) everyone noBody judgeCancel port r s

def execClaim (port : Port) (r : Request) (s : State) : Host.Outcome State Fault Refusal :=
  serve (ofKind 6) everyone noBody judgeClaim port r s

def execListBay (port : Port) (r : Request) (s : State) : Host.Outcome State Fault Refusal :=
  serve (ofKind 9) everyone noBody judgeListBay port r s

end Sys2Proof.Machine
end

