-- ==== Sys2Proof/Machine/LevelRequests.lean ====
section
/-! DEFINITION. The requests at the level clock and the level control, and IDENTIFY and UNKNOWN REQUEST (04, 09, R163). -/

namespace Sys2Proof.Machine

/-- A refusal whose response carries a report (R163). -/
def refuseWith (p : Blocks) (st : Status) (report : List Byte) : Answer := { blocks := p, status := st, body := report }

/-- The level minute written, the clock-set flag set, the minute phase restarted (R65). -/
def Blocks.setClock (p : Blocks) (m : Nat) : Blocks := p.withClock { minute := m, isSet := true, phase := 0 }

/-- SET CLOCK (R65): accepted in CONFIGURING, it writes the minute, sets the flag and restarts the minute phase. Its
response carries the clock report, accepted and refused alike. -/
def judgeSetClock (_port : Port) (_c : Class) (body : List Byte) (p : Blocks) : Answer :=
  if p.level ≠ .configuring then refuseWith p .wrongLevelState (clockReport p)
  else match clockFields body with
    | none => refuseWith p .badField (clockReport p)
    | some m =>
      let p := p.setClock m
      accept p (clockReport p)

/-- The parameters written, with POOL_LOW re-evaluated in the same event (R20, R151, R152). -/
def Blocks.setParams (p : Blocks) (q : Params) : Blocks := (p.withParams q).evalPool

/-- SET PARAMETERS (R151): the present parameters written; POOL_LOW is re-evaluated in the same event (R20, R152). -/
def judgeSetParameters (_port : Port) (_c : Class) (body : List Byte) (p : Blocks) : Answer :=
  if p.level ≠ .configuring then refuseWith p .wrongLevelState (levelReport p)
  else match parameterFields p.params body with
    | none => refuseWith p .badField (levelReport p)
    | some q =>
      let p := p.setParams q
      accept p (levelReport p)

/-- OPEN LEVEL (R150). -/
def judgeOpenLevel (_port : Port) (_c : Class) (p : Blocks) : Answer :=
  match firstRefusal [(p.level == .configuring, .wrongLevelState), (p.clock.isSet, .clockUnset)] with
  | some st => refuseWith p st (levelReport p)
  | none =>
    let p := p.withLevel .opened
    accept p (levelReport p)

/-- The supply and group unit after RESTART LEVEL: site levels NORMAL (R148), effective actions recomputed. -/
def SupplyUnit.restart (u : SupplyUnit) (bays : Vector Bay Config.bayCount) : SupplyUnit :=
  let u := { u with sites := Vector.replicate 3 .normal }
  { u with actions := bays.map fun x => u.actionFor x.config }

/-- The notice unit after RESTART LEVEL: every flag and member clear, the mask kept (R164). -/
def Notices.restart (n : Notices) : Notices := { Notices.powerOn with mask := n.mask }

/-- RESTART LEVEL, block by block (R154): also R23, R63, R103, R104, R133, R148, R149, R164, and R155 for the messages on
their way, which it discards. The clock, the parameters, the supply and the boundaries on their way are kept. -/
def Blocks.restartLevel (p : Blocks) : Blocks :=
  let supply := p.supply.restart p.bays.bays
  let bays := Vector.ofFn fun b : BayNo => (p.bay b).restart supply.actions[b] p.params.claimWindow
  Blocks.evalPool
    { p with
      level := .configuring
      zones := p.zones.restart
      book := p.book.restart
      reloc := []
      bays := { p.bays with bays }
      alloc := p.alloc.restart supply.actions
      supply
      notices := p.notices.restart
      mail := Mail.powerOn }

/-- RESTART ALLOCATION: the power allocator alone (R132, R156). -/
def Blocks.restartAllocation (p : Blocks) : Blocks := p.withAlloc (p.alloc.rebuild p.configs)

/-- RESTART (R153): the scope decides. -/
def judgeRestart (body : List Byte) (p : Blocks) : Answer :=
  match scopeFields body with
  | none => refuse p .badField
  | some .level =>
    let p := p.restartLevel
    accept p (levelReport p)
  | some .allocation =>
    let p := p.restartAllocation
    accept p (levelReport p)

/-- The row RESTART_LEVEL: a RESTART that does not name scope ALLOCATION. One that names neither scope is refused alike
by both rows (log 21). -/
def restartLevelRow : Request → Bool := fun r => r.kind.toNat == 32 && r.body != [2#8]

/-- The row RESTART_ALLOCATION: a RESTART that does not name scope LEVEL (log 21). -/
def restartAllocationRow : Request → Bool := fun r => r.kind.toNat == 32 && r.body != [1#8]

/-- IDENTIFY (R158). -/
def judgeIdentify (_port : Port) (_c : Class) (p : Blocks) : Answer := accept p identityReport

/-- A kind that names no request of the catalogue, kind 0 included (R163). -/
def unknownKind : Request → Bool := fun r => r.kind.toNat == 0 || decide (36 < r.kind.toNat)

def execSetClock (port : Port) (r : Request) (s : State) : Host.Outcome State Fault Refusal :=
  serve (ofKind 29) operatorOnly clockReport judgeSetClock port r s

def execSetParameters (port : Port) (r : Request) (s : State) : Host.Outcome State Fault Refusal :=
  serve (ofKind 30) operatorOnly levelReport judgeSetParameters port r s

def execOpenLevel (port : Port) (r : Request) (s : State) : Host.Outcome State Fault Refusal :=
  serve (ofKind 31) operatorOnly levelReport (withNoField levelReport judgeOpenLevel) port r s

def execRestartLevel (port : Port) (r : Request) (s : State) : Host.Outcome State Fault Refusal :=
  serve restartLevelRow operatorOnly noBody (fun _ _ => judgeRestart) port r s

def execRestartAllocation (port : Port) (r : Request) (s : State) : Host.Outcome State Fault Refusal :=
  serve restartAllocationRow operatorOnly noBody (fun _ _ => judgeRestart) port r s

def execIdentify (port : Port) (r : Request) (s : State) : Host.Outcome State Fault Refusal :=
  serve (ofKind 36) siteOnly noBody (withNoField noBody judgeIdentify) port r s

/-- The kind check comes before every other, the port and class check included (R163). -/
def execUnknownRequest (port : Port) (r : Request) (s : State) : Host.Outcome State Fault Refusal :=
  if s.turnDue port r && unknownKind r then .next (s.finishTurn port r (refuse s.blocks .unknownRequest))
  else .next s

end Sys2Proof.Machine
end

