-- ==== Sys2Proof/Machine/Lines.lean ====
section
/-! DEFINITION. The lines: MAINS_OK, DR, ALARM and RESET (08, R157). -/

namespace Sys2Proof.Machine

/-- A filtered fall of MAINS_OK (R139): in MAINS the forced fall to RETURNING, in RETURNING the counter reloaded. A level
already low is no fall. -/
def Blocks.mainsOkFall (p : Blocks) : Blocks :=
  if p.supply.mainsOk then
    let p := p.withSupply { p.supply with mainsOk := false }
    match p.supply.state with
    | .mains => p.setSupply .returning
    | .returning => p.withSupply { p.supply with counter := p.params.settle }
    | .reserve | .halt => p
  else p

/-- A filtered rise of MAINS_OK updates the level (R139). -/
def Blocks.mainsOkRise (p : Blocks) : Blocks := p.withSupply { p.supply with mainsOk := true }

/-- A filtered edge of DR: the members of C1 are recomputed (R142, R144). -/
def Blocks.drChange (p : Blocks) (high : Bool) : Blocks :=
  (p.withSupply { p.supply with dr := high }).recomputeMembers (· == 0)

/-- A filtered edge of ALARM: the members of any group are recomputed (R142, R144). -/
def Blocks.alarmChange (p : Blocks) (high : Bool) : Blocks :=
  (p.withSupply { p.supply with alarm := high }).recomputeMembers fun _ => true

/-- Power-up, or RESET held low: every block in its power-on state, and no event taken until the line returns high (R157).
The queue of commands waiting is the outside's and stays. -/
def powerOnReset (s : State) : State :=
  { State.reset with resetLow := true, pending := s.pending }

/-- RESET returns high (R157): the lines are sampled (R134, R148), and the first minute's phase starts (R64). -/
def resetRelease (mainsOk dr alarm : Bool) (s : State) : State :=
  if s.resetLow then
    let p := s.blocks
    { s.withBlocks ((p.withSupply { p.supply with mainsOk, dr, alarm }).withClock { p.clock with phase := 0 }) with
      resetLow := false }
  else s

def execMainsOkFall (s : State) : Host.Outcome State Fault Refusal := atBlocks Blocks.mainsOkFall s

def execMainsOkRise (s : State) : Host.Outcome State Fault Refusal := atBlocks Blocks.mainsOkRise s

def execDrChange (high : Bool) (s : State) : Host.Outcome State Fault Refusal := atBlocks (fun p => p.drChange high) s

def execAlarmChange (high : Bool) (s : State) : Host.Outcome State Fault Refusal :=
  atBlocks (fun p => p.alarmChange high) s

def execPowerOnReset (s : State) : Host.Outcome State Fault Refusal := .next (powerOnReset s)

def execResetRelease (mainsOk dr alarm : Bool) (s : State) : Host.Outcome State Fault Refusal :=
  .next (resetRelease mainsOk dr alarm s)

end Sys2Proof.Machine
end

