-- ==== Sys2Proof/Machine/Messages.lean ====
section
/-! DEFINITION. The messages between blocks, taken by their receivers: a message is taken where it is the oldest of those
its sender sent to that block; otherwise nothing changes (R86, R117, R164, log 1). -/

namespace Sys2Proof.Machine

/-- The bay unit takes the book's oldest message, where it is `m`. -/
def Blocks.takeBay (p : Blocks) (m : BayMsg) (effect : Blocks → Blocks) : Blocks :=
  match p.mail.toBays with
  | [] => p
  | m' :: rest => if m' = m then effect (p.withMail { p.mail with toBays := rest }) else p

/-- The allocator takes the book's oldest message, where it is `m`. -/
def Blocks.takeAlloc (p : Blocks) (m : AllocMsg) (effect : Blocks → Blocks) : Blocks :=
  match p.mail.toAlloc with
  | [] => p
  | m' :: rest => if m' = m then effect (p.withMail { p.mail with toAlloc := rest }) else p

/-- A session request taken (R120). -/
def Blocks.takeRequest (p : Blocks) (b : BayNo) (draw : Nat) : Blocks :=
  p.takeAlloc (.sessionRequest b draw) fun p => p.withAlloc (p.alloc.request b draw (p.bay b).config)

/-- A release taken (R121). -/
def Blocks.takeRelease (p : Blocks) (b : BayNo) : Blocks :=
  p.takeAlloc (.release b) fun p => p.withAlloc (p.alloc.release b)

/-- HOLD taken (R86). -/
def Blocks.takeHold (p : Blocks) (b : BayNo) : Blocks :=
  p.takeBay (.hold b) fun p => p.setBay b (p.bay b).hold

/-- UNHOLD taken (R86). -/
def Blocks.takeUnhold (p : Blocks) (b : BayNo) : Blocks :=
  p.takeBay (.unhold b) fun p => p.setBay b (p.bay b).unhold

/-- END taken (R89). -/
def Blocks.takeEnd (p : Blocks) (b : BayNo) : Blocks :=
  p.takeBay (.endServing b) fun p => p.setBay b ((p.bay b).endServing p.params.claimWindow)

/-- The removal of a settled record's RECORD entry taken; where a step has removed it first, the message is discarded
(R107). -/
def Blocks.takeRemoval (p : Blocks) (t : Ticket) : Blocks :=
  match p.mail.toReloc with
  | [] => p
  | t' :: rest =>
    if t' = t then (p.withMail { p.mail with toReloc := rest }).withReloc (p.reloc.filter (· != .record t)) else p

/-- The notice unit takes a sender's oldest raise, where it is `what` (R164). -/
def Blocks.takeRaise (p : Blocks) (sender : Sender) (what : Raise) : Blocks :=
  if p.mail.raises.find? (fun x => x.1 == sender) = some (sender, what) then
    (p.withMail { p.mail with raises := p.mail.raises.erase (sender, what) }).withNotices (p.notices.take what)
  else p

def execSessionRequest (b : BayNo) (draw : Nat) (s : State) : Host.Outcome State Fault Refusal :=
  atBlocks (fun p => p.takeRequest b draw) s

def execRelease (b : BayNo) (s : State) : Host.Outcome State Fault Refusal := atBlocks (fun p => p.takeRelease b) s

def execHold (b : BayNo) (s : State) : Host.Outcome State Fault Refusal := atBlocks (fun p => p.takeHold b) s

def execUnhold (b : BayNo) (s : State) : Host.Outcome State Fault Refusal := atBlocks (fun p => p.takeUnhold b) s

def execEnd (b : BayNo) (s : State) : Host.Outcome State Fault Refusal := atBlocks (fun p => p.takeEnd b) s

def execRemoveRecordEntry (t : Ticket) (s : State) : Host.Outcome State Fault Refusal :=
  atBlocks (fun p => p.takeRemoval t) s

def execNoticeRaise (sender : Sender) (what : Raise) (s : State) : Host.Outcome State Fault Refusal :=
  atBlocks (fun p => p.takeRaise sender what) s

end Sys2Proof.Machine
end

