-- ==== Sys2Proof/Machine/NoticeRequests.lean ====
section
/-! DEFINITION. The requests at the notice unit: READ NOTICES, CLEAR NOTICES, SET NOTICE MASK (10 section 10.5). -/

namespace Sys2Proof.Machine

/-- READ NOTICES (R167). -/
def judgeReadNotices (_port : Port) (_c : Class) (p : Blocks) : Answer := accept p (noticeReport p.notices)

/-- CLEAR NOTICES (R168). -/
def judgeClearNotices (_port : Port) (_c : Class) (body : List Byte) (p : Blocks) : Answer :=
  match clearFields body with
  | none => refuse p .badField
  | some (sel, bays, modules) =>
    let p := p.withNotices (p.notices.clearNamed sel bays modules)
    accept p (noticeReport p.notices)

/-- The mask replaced and ATTN recomputed (R169). -/
def Blocks.setMask (p : Blocks) (mask : BitVec 16) : Blocks := p.withNotices { p.notices with mask := mask }.refresh

/-- SET NOTICE MASK (R169). -/
def judgeSetMask (_port : Port) (_c : Class) (body : List Byte) (p : Blocks) : Answer :=
  match maskFields body with
  | none => refuse p .badField
  | some mask =>
    let p := p.setMask mask
    accept p (noticeReport p.notices)

def execReadNotices (port : Port) (r : Request) (s : State) : Host.Outcome State Fault Refusal :=
  serve (ofKind 33) operatorOnly noBody (withNoField noBody judgeReadNotices) port r s

def execClearNotices (port : Port) (r : Request) (s : State) : Host.Outcome State Fault Refusal :=
  serve (ofKind 34) operatorOnly noBody judgeClearNotices port r s

def execSetNoticeMask (port : Port) (r : Request) (s : State) : Host.Outcome State Fault Refusal :=
  serve (ofKind 35) operatorOnly noBody judgeSetMask port r s

end Sys2Proof.Machine
end

