-- ==== Sys2Proof/Machine/Ports.lean ====
section
/-! DEFINITION. The transfers of the site port and the frames of the ramp port (10 sections 10.1, 10.2). -/

namespace Sys2Proof.Machine

/-- A raise by a port. -/
def State.raise (s : State) (sender : Sender) (what : Raise) : State := s.withBlocks (s.blocks.raise sender what)

/-- A write transfer checked when SPI_SEL rises (R159, R160): a frame that fails raises FRAME_ERROR, one that meets an
occupied slot raises PORT_OVERRUN, else it is placed in the slot. 0x00 is shifted out for every byte. -/
def siteWrite (bytes : List Byte) (s : State) : State :=
  let s := s.withSite { s.site with spiOut := List.replicate (bytes.length + 1) 0#8 }
  match parseSite bytes with
  | none => s.raise .sitePort .frameError
  | some r =>
    if s.site.slot.isSome then s.raise .sitePort .portOverrun
    else s.withSite { s.site with slot := some ⟨r, false⟩ }

/-- The bytes a read shifts out: the frame from its first byte, and 0x00 after its last. R160 gives the 0x00 after a
response; after the empty frame it gives nothing, and 0x00 there is the model's choice (log 7). -/
def shiftedOut (frame : List Byte) (n : Nat) : List Byte :=
  frame.take n ++ List.replicate (n - frame.length) 0#8

/-- A read transfer of `n` bytes shifted out (R160): with READY high the response, which a complete read takes out of its
slot together with the request; with READY low the empty frame, and nothing changes. -/
def siteRead (n : Nat) (s : State) : State :=
  match s.site.ready, s.site.response with
  | true, some resp =>
    let out := shiftedOut resp.frame n
    if resp.frame.length ≤ n then
      s.withSite { slot := none, response := none, ready := false, spiOut := out }
    else s.withSite { s.site with spiOut := out }
  | _, _ => s.withSite { s.site with spiOut := shiftedOut Response.empty.frame n }

/-- The transfer's first byte makes it a write or a read (R159). -/
def isTransfer : List Byte → Bool
  | [] => false
  | b :: _ => b == 1#8 || b == 2#8

/-- A transfer of no bytes, or whose first byte is neither 0x01 nor 0x02, is discarded and raises FRAME_ERROR (R159). -/
def siteBadTransfer (bytes : List Byte) (s : State) : State :=
  if isTransfer bytes then s else s.raise .sitePort .frameError

/-- 0x7E while hunting starts a frame (R161). -/
def rampFrameStart (s : State) : State := s.withRamp { s.ramp with receiving := true }

/-- A ramp frame taken whole while receiving (R161). Bytes that make no whole frame are no such event. Either way the
receiver returns to hunting. -/
def rampFrame (bytes : List Byte) (s : State) : State :=
  if s.ramp.receiving && rampComplete bytes then
    let s := s.withRamp { s.ramp with receiving := false }
    match parseRamp bytes with
    | none => s.raise .rampPort .frameError
    | some r =>
      if s.ramp.slot.isSome then s.raise .rampPort .portOverrun
      else s.withRamp { s.ramp with slot := some ⟨r, false⟩ }
  else s

/-- More than 5 ms between two bytes of a frame fails it (R161). -/
def rampByteTimeout (s : State) : State :=
  if s.ramp.receiving then (s.withRamp { s.ramp with receiving := false }).raise .rampPort .frameError else s

/-- The last byte of the response has been sent: the slot is emptied (R161). -/
def rampResponseSent (s : State) : State :=
  if s.ramp.tx.isSome then s.withRamp { s.ramp with slot := none, tx := none } else s

def execSiteWrite (bytes : List Byte) (s : State) : Host.Outcome State Fault Refusal := whileRunning (siteWrite bytes) s

def execSiteRead (shifted : Nat) (s : State) : Host.Outcome State Fault Refusal := whileRunning (siteRead shifted) s

def execSiteBadTransfer (bytes : List Byte) (s : State) : Host.Outcome State Fault Refusal :=
  whileRunning (siteBadTransfer bytes) s

def execRampFrame (bytes : List Byte) (s : State) : Host.Outcome State Fault Refusal := whileRunning (rampFrame bytes) s

def execRampByteTimeout (s : State) : Host.Outcome State Fault Refusal := whileRunning rampByteTimeout s

def execRampResponseSent (s : State) : Host.Outcome State Fault Refusal := whileRunning rampResponseSent s

def execRampFrameStart (s : State) : Host.Outcome State Fault Refusal := whileRunning rampFrameStart s

end Sys2Proof.Machine
end

