-- ==== Sys2Proof/Machine/Power.lean ====
section
/-! DEFINITION. The requests at the power allocator and at the supply and group unit (07, 08). -/

namespace Sys2Proof.Machine

/-- A budget staged, with switch-pending set (R127). -/
def Blocks.stageBudget (p : Blocks) (f : FeederNo) (amps : Nat) : Blocks :=
  p.withAlloc (p.alloc.setFeeder f { p.alloc.feeder f with staged := amps, switchPending := true })

/-- SET BUDGET (R127). -/
def judgeSetBudget (_port : Port) (_c : Class) (body : List Byte) (p : Blocks) : Answer :=
  match feederAmps body with
  | none => refuse p .badField
  | some (f, amps) =>
    let p := p.stageBudget f amps
    accept p (feederReport p.alloc f)

/-- A reserve ceiling written, and under RESERVE or RETURNING acting at once (R128). -/
def Blocks.setReserve (p : Blocks) (f : FeederNo) (amps : Nat) : Blocks :=
  (p.withAlloc (p.alloc.setFeeder f { p.alloc.feeder f with reserve := amps })).ceilingChanged f (p.alloc.ceiling f)

/-- SET RESERVE CEILING (R128). -/
def judgeSetReserveCeiling (_port : Port) (_c : Class) (body : List Byte) (p : Blocks) : Answer :=
  match feederAmps body with
  | none => refuse p .badField
  | some (f, amps) =>
    let p := p.setReserve f amps
    accept p (feederReport p.alloc f)

/-- READ FEEDER (R131). -/
def judgeReadFeeder (_port : Port) (_c : Class) (body : List Byte) (p : Blocks) : Answer :=
  match feederFields body with
  | none => refuse p .badField
  | some f => accept p (feederReport p.alloc f)

/-- A group's site level written, and the actions of its members recomputed (R143). -/
def Blocks.setGroupLevel (p : Blocks) (g : GroupNo) (l : GroupLevel) : Blocks :=
  (p.withSupply { p.supply with sites := setAt p.supply.sites g l }).recomputeMembers (· == g)

/-- SET GROUP LEVEL (R143). -/
def judgeSetGroupLevel (_port : Port) (_c : Class) (body : List Byte) (p : Blocks) : Answer :=
  match groupFields body with
  | none => refuse p .badField
  | some (g, l) =>
    let p := p.setGroupLevel g l
    accept p (supplyReport p)

/-- The target written (R136). -/
def Blocks.selectSupply (p : Blocks) (t : Target) : Blocks := p.withSupply { p.supply with target := t }

/-- SELECT SUPPLY (R136). -/
def judgeSelectSupply (_port : Port) (_c : Class) (body : List Byte) (p : Blocks) : Answer :=
  match targetFields body with
  | none => refuse p .badField
  | some t =>
    let p := p.selectSupply t
    accept p (supplyReport p)

/-- The supply state after SWITCH SUPPLY (R137, the table). -/
def switched : Target → SupplyState → SupplyState
  | .mains, .reserve => .returning
  | .mains, .halt => .returning
  | .mains, .mains => .mains
  | .mains, .returning => .returning
  | .reserve, _ => .reserve
  | .halt, _ => .halt

/-- The target applied to the supply state (R137). -/
def Blocks.switchSupply (p : Blocks) : Blocks := p.setSupply (switched p.supply.target p.supply.state)

/-- SWITCH SUPPLY (R137). -/
def judgeSwitchSupply (_port : Port) (_c : Class) (p : Blocks) : Answer :=
  let p := p.switchSupply
  accept p (supplyReport p)

/-- READ SUPPLY (R141). -/
def judgeReadSupply (_port : Port) (_c : Class) (p : Blocks) : Answer := accept p (supplyReport p)

def execSetBudget (port : Port) (r : Request) (s : State) : Host.Outcome State Fault Refusal :=
  serve (ofKind 22) operatorOnly noBody judgeSetBudget port r s

def execSetReserveCeiling (port : Port) (r : Request) (s : State) : Host.Outcome State Fault Refusal :=
  serve (ofKind 23) operatorOnly noBody judgeSetReserveCeiling port r s

def execReadFeeder (port : Port) (r : Request) (s : State) : Host.Outcome State Fault Refusal :=
  serve (ofKind 24) operatorOnly noBody judgeReadFeeder port r s

def execSetGroupLevel (port : Port) (r : Request) (s : State) : Host.Outcome State Fault Refusal :=
  serve (ofKind 25) operatorOnly noBody judgeSetGroupLevel port r s

def execSelectSupply (port : Port) (r : Request) (s : State) : Host.Outcome State Fault Refusal :=
  serve (ofKind 26) operatorOnly noBody judgeSelectSupply port r s

def execSwitchSupply (port : Port) (r : Request) (s : State) : Host.Outcome State Fault Refusal :=
  serve (ofKind 27) operatorOnly noBody (withNoField noBody judgeSwitchSupply) port r s

def execReadSupply (port : Port) (r : Request) (s : State) : Host.Outcome State Fault Refusal :=
  serve (ofKind 28) operatorOnly noBody (withNoField noBody judgeReadSupply) port r s

end Sys2Proof.Machine
end

