-- ==== Sys2Proof/Machine/Records.lean ====
section
/-! DEFINITION. The requests on records and the pool: LOOKUP TICKET, FIND TOKEN, END SESSION, COLLECT, POOL STATUS (01
section 1.6). -/

namespace Sys2Proof.Machine

/-- LOOKUP TICKET (R14). -/
def judgeLookup (_port : Port) (c : Class) (body : List Byte) (p : Blocks) : Answer :=
  match ticketFields c body with
  | none => refuse p .badField
  | some (t, token) =>
    match p.book.resolve c t token with
    | .error st => refuse p st
    | .ok (_, r) => accept p (recordReport p r)

/-- FIND TOKEN (R15). -/
def judgeFindToken (_port : Port) (_c : Class) (body : List Byte) (p : Blocks) : Answer :=
  match findTokenFields body with
  | none => refuse p .badField
  | some t => accept p (tokenReport p t)

/-- END SESSION (R16): a live record in any state is settled REVOKED; the token is not compared. -/
def judgeEndSession (_port : Port) (c : Class) (body : List Byte) (p : Blocks) : Answer :=
  match endSessionFields body with
  | none => refuse p .badField
  | some t =>
    match p.book.resolve c t 0 with
    | .error st => refuse p st
    | .ok (sl, r) =>
      if r.state = .settled then refuse p .wrongState
      else
        let p := p.settle false sl .revoked none
        accept p (slotReport p sl)

/-- A settled record collected, with the pool conditions re-evaluated (R18, R20). -/
def Blocks.collect (p : Blocks) (sl : Slot) : Blocks := (p.withBook (p.book.collect sl)).evalPool

/-- COLLECT (R18). -/
def judgeCollect (_port : Port) (c : Class) (body : List Byte) (p : Blocks) : Answer :=
  match ticketFields c body with
  | none => refuse p .badField
  | some (t, token) =>
    match p.book.resolve c t token with
    | .error st => refuse p st
    | .ok (sl, r) =>
      if c = .fleet ∧ r.originClass ≠ .fleet then refuse p .noSuchTicket
      else if r.state ≠ .settled then refuse p .notSettled
      else accept (p.collect sl) (recordReport p r)

/-- POOL STATUS (R19). -/
def judgePoolStatus (_port : Port) (c : Class) (body : List Byte) (p : Blocks) : Answer :=
  match poolStatusFields body with
  | none => refuse p .badField
  | some fromSlot => accept p (poolReport p c fromSlot)

def execLookupTicket (port : Port) (r : Request) (s : State) : Host.Outcome State Fault Refusal :=
  serve (ofKind 7) everyone noBody judgeLookup port r s

def execFindToken (port : Port) (r : Request) (s : State) : Host.Outcome State Fault Refusal :=
  serve (ofKind 8) everyone noBody judgeFindToken port r s

def execEndSession (port : Port) (r : Request) (s : State) : Host.Outcome State Fault Refusal :=
  serve (ofKind 10) operatorOnly noBody judgeEndSession port r s

def execCollect (port : Port) (r : Request) (s : State) : Host.Outcome State Fault Refusal :=
  serve (ofKind 11) fleetAndOperator noBody judgeCollect port r s

def execPoolStatus (port : Port) (r : Request) (s : State) : Host.Outcome State Fault Refusal :=
  serve (ofKind 12) fleetAndOperator noBody judgePoolStatus port r s

end Sys2Proof.Machine
end

