-- ==== Sys2Proof/Machine/Relocation.lean ====
section
/-! DEFINITION. The relocation engine's turns: the step on a BAY entry and on a RECORD entry (06 section 6.2). -/

namespace Sys2Proof.Machine

/-! ## The target search (R62, R111) -/

/-- The bays a record's origin zone gives: its origin descriptor's run as it stands, none where it is CLOSED, and every bay
for DIRECT (R62). -/
def originRun (p : Blocks) (r : Record) : List BayNo :=
  match r.originZone with
  | .zone z =>
    if (p.zones.descriptor r.originClass z).access = .closed then [] else (p.zones.descriptor r.originClass z).run
  | .direct => List.finRange Config.bayCount

/-- The candidate bays of a record: those of its origin zone, less the bay it leaves (R62, R111). -/
def candidates (p : Blocks) (r : Record) : List BayNo := (originRun p r).filter (· != r.bay)

/-- A candidate is eligible (R111): available, fitting, with room and a gap, and VACANT for a HELD record whose start has
come. -/
def eligible (p : Blocks) (r : Record) (b : BayNo) : Bool :=
  p.available b && fits r.originClass r.accessible (p.bay b).config.cls && p.book.bayHasRoom b &&
  fitsGap p.params.turnoverGap r.start r.length (p.book.timeline b) &&
  (!(r.state == .held && decide (r.start ≤ p.now)) || (p.bay b).state == .vacant)

/-- The first eligible candidate. -/
def target (p : Blocks) (r : Record) : Option BayNo := (candidates p r).find? (eligible p r)

/-! ## Moving and stranding (R112, R113) -/

/-- The record after a move (R112, R2). -/
def Record.movedTo (r : Record) (b : BayNo) : Record :=
  { r with bay := b, moves := min (r.moves + 1) Config.movesMax, relocPending := false }

/-- The move at the book: off the old timeline, onto the new one at the place its start fixes (R112, R24). -/
def Book.move (k : Book) (sl : Slot) (r : Record) (b : BayNo) : Book :=
  ((k.leaveTimeline r.bay sl).put sl (r.movedTo b)).joinTimeline b r.start sl

/-- A record moved to its target: the book, its RECORD entry, the used flag, HOLD and UNHOLD for a HELD record, and
RELOCATED (R112). That the HOLD is sent before the UNHOLD is the model's choice (log 33). -/
def Blocks.moveRecord (p : Blocks) (sl : Slot) (r : Record) (b : BayNo) : Blocks :=
  let first := !p.book.hasHeld b
  let p := (p.withBook (p.book.move sl r b)).markUsed r.originClass r.originZone
  let p := if r.relocPending then p.withReloc (p.reloc.filter (· != .record r.ticket)) else p
  let p := if r.state = .held ∧ first then p.sendHold b else p
  let p := if r.state = .held ∧ p.book.hasHeld r.bay = false then p.sendUnhold r.bay else p
  p.raise .book .relocated

/-- A record moved to its target, or settled CANCELLED with cause BAY_LOST where the search finds none (R112, R113). -/
def Blocks.relocate (p : Blocks) (sl : Slot) (r : Record) : Blocks :=
  match target p r with
  | some b => p.moveRecord sl r b
  | none => p.settle false sl .cancelled (some .bayLost)

/-! ## The steps -/

/-- A step on the BAY entry at the head (R109): the earliest BOOKED or HELD record is moved or settled and the entry
stays, or, where there is none, the entry leaves the list. -/
def Blocks.stepBay (p : Blocks) (b : BayNo) : Blocks :=
  match p.book.pendingOn b with
  | [] => p.withReloc p.reloc.tail
  | sl :: _ =>
    match p.book.rec? sl with
    | none => p
    | some r => p.relocate sl r

/-- The record a RECORD entry names, where its ticket still names one (R110). -/
def Book.byTicket (k : Book) (t : Ticket) : Option (Slot × Record) :=
  (slotOf t.slot).bind fun sl => (k.rec? sl).bind fun r => if r.ticket = t then some (sl, r) else none

/-- A step on the RECORD entry at the head (R110). Whatever it does, the entry leaves the list and relocation-pending
becomes no. -/
def Blocks.stepRecord (p : Blocks) (t : Ticket) : Blocks :=
  match p.book.byTicket t with
  | none => p.withReloc p.reloc.tail
  | some (sl, r) =>
    if r.state = .held ∧ (p.bay r.bay).state.occupied then
      let q := p.relocate sl r
      q.withReloc (q.reloc.filter (· != .record t))
    else
      (p.putRecord sl { r with relocPending := false }).withReloc p.reloc.tail

/-! ## The service turns -/

/-- The turn ends with RELOCATION remembered as the source served last (R162). -/
def State.finishStep (s : State) (p : Blocks) : State := (s.withBlocks p).withServed .relocation

def execRelocationStepBayEntry (s : State) : Host.Outcome State Fault Refusal :=
  match s.relocationDue, s.blocks.reloc with
  | true, .bay b _ :: _ => .next (s.finishStep (s.blocks.stepBay b))
  | _, _ => .next s

def execRelocationStepRecordEntry (s : State) : Host.Outcome State Fault Refusal :=
  match s.relocationDue, s.blocks.reloc with
  | true, .record t :: _ => .next (s.finishStep (s.blocks.stepRecord t))
  | _, _ => .next s

end Sys2Proof.Machine
end

