-- ==== Sys2Proof/Machine/Time.lean ====
section
/-! DEFINITION. The minute boundary at the clock and at each block that keeps time (04, R87, R126, R138). -/

namespace Sys2Proof.Machine

/-! ## The deadline pass (R68 to R75) -/

/-- Check 1: BOOKED becomes HELD at its hold lead (R70). -/
def Blocks.checkHoldLead (m : Nat) (sl : Slot) (p : Blocks) : Blocks :=
  match p.book.rec? sl with
  | none => p
  | some r =>
    if r.state = .booked ∧ r.start - p.params.holdLead ≤ m then p.putRecord sl { r with state := .held } else p

/-- Check 2: HELD is settled NO_SHOW at its grace's end (R71). -/
def Blocks.checkGrace (m : Nat) (sl : Slot) (p : Blocks) : Blocks :=
  match p.book.rec? sl with
  | none => p
  | some r => if r.state = .held ∧ r.start + r.grace ≤ m then p.settle true sl .noShow none else p

/-- Check 3: HELD at its start on an occupied bay goes to relocation, or on a full list is settled (R72, R106, R108). -/
def Blocks.checkOccupied (m : Nat) (sl : Slot) (p : Blocks) : Blocks :=
  match p.book.rec? sl with
  | none => p
  | some r =>
    if r.state = .held ∧ r.start ≤ m ∧ (p.bay r.bay).state.occupied ∧ r.relocPending = false ∧
        (p.bayEntry r.bay).isNone then
      if p.reloc.length < Config.listSize then
        (p.putRecord sl { r with relocPending := true }).withReloc (p.reloc ++ [.record r.ticket])
      else p.settle true sl .cancelled (some .bayLost)
    else p

/-- Check 4: SESSION or PARKED becomes OVERSTAY at its end; a session is released (R73). -/
def Blocks.checkEnd (m : Nat) (sl : Slot) (p : Blocks) : Blocks :=
  match p.book.rec? sl with
  | none => p
  | some r =>
    if (r.state = .session ∨ r.state = .parked) ∧ r.endMinute ≤ m then
      let p := p.putRecord sl { r with state := .overstay }
      let p := if r.state = .session then p.sendAlloc (.release r.bay) else p
      p.raise .book (.overstay r.bay)
    else p

/-- The four checks on one record, in order (R69). -/
def Blocks.passRecord (m : Nat) (p : Blocks) (sl : Slot) : Blocks :=
  (((p.checkHoldLead m sl).checkGrace m sl).checkOccupied m sl).checkEnd m sl

/-- The comparison as the pass leaves a bay (R75, R173). -/
def Blocks.compareHeld (p : Blocks) (b : BayNo) : Blocks :=
  match p.book.heldReport[b], p.book.hasHeld b with
  | false, true => p.sendHold b
  | true, false => p.sendUnhold b
  | _, _ => p

/-- The pass over one bay: the records of its timeline as it stood, in ascending start (R69). -/
def Blocks.passBay (m : Nat) (p : Blocks) (b : BayNo) : Blocks :=
  ((p.book.slotsOn b).foldl (Blocks.passRecord m) p).compareHeld b

/-- The deadline pass for minute `m`, bays 0 to 95 (R69). -/
def Blocks.deadlinePass (m : Nat) (p : Blocks) : Blocks :=
  (List.finRange Config.bayCount).foldl (Blocks.passBay m) p

/-- The book takes its oldest boundary: a pass while the level is OPEN, else nothing (R68). -/
def Blocks.bookBoundary (p : Blocks) : Blocks :=
  match p.boundaries.book with
  | [] => p
  | m :: rest =>
    let p := p.withBoundaries { p.boundaries with book := rest }
    if p.level = .opened then p.deadlinePass m else p

/-! ## The bay unit's boundary (R87) -/

/-- The raise of a window that expires: INTRUDER where the vehicle came to a held bay, else UNREGISTERED (R87). -/
def expiryRaise (b : BayNo) : Option Origin → Raise
  | some .awaiting => .intruder b
  | some .vacant => .unregistered b
  | none => .unregistered b

/-- One bay at the bay unit's boundary. -/
def Blocks.countBay (p : Blocks) (b : BayNo) : Blocks :=
  let x := p.bay b
  let p := p.setBay b x.countWindow
  if x.windowExpires then p.raise .bayUnit (expiryRaise b x.origin) else p

/-- The bay unit takes its oldest boundary: every claim window counts down, and those that reach 0 expire in the same
event (R87). That the bays are taken in ascending order, which orders the raises of several that expire at one boundary,
is the model's choice: R87 gives no order among the bays (log 32). -/
def Blocks.bayBoundary (p : Blocks) : Blocks :=
  match p.boundaries.bays with
  | [] => p
  | _ :: rest =>
    (List.finRange Config.bayCount).foldl Blocks.countBay (p.withBoundaries { p.boundaries with bays := rest })

/-! ## The supply and group unit's boundary (R138) -/

/-- The supply unit takes its oldest boundary: in RETURNING with MAINS_OK high the counter falls by one, and at 0 the state
becomes MAINS in the same event (R138). -/
def Blocks.supplyBoundary (p : Blocks) : Blocks :=
  match p.boundaries.supply with
  | [] => p
  | _ :: rest =>
    let p := p.withBoundaries { p.boundaries with supply := rest }
    if p.supply.state = .returning ∧ p.supply.mainsOk then
      if p.supply.counter ≤ 1 then p.setSupply .mains
      else p.withSupply { p.supply with counter := p.supply.counter - 1 }
    else p

/-- The next boundary the supply unit takes brings the counter to 0. -/
def Blocks.settleExpires (p : Blocks) : Bool :=
  p.supply.state == .returning && p.supply.mainsOk && decide (p.supply.counter ≤ 1)

/-! ## The allocator's boundary (R126) -/

/-- The allocator takes its oldest rebalance boundary. -/
def Blocks.allocBoundary (p : Blocks) : Blocks :=
  match p.boundaries.alloc with
  | [] => p
  | _ :: rest => (p.withBoundaries { p.boundaries with alloc := rest }).rebalance

/-! ## The commands -/

def execMinuteBoundary (s : State) : Host.Outcome State Fault Refusal := atBlocks Blocks.minuteBoundary s

def execDeadlinePass (s : State) : Host.Outcome State Fault Refusal := atBlocks Blocks.bookBoundary s

def execClaimWindowCount (s : State) : Host.Outcome State Fault Refusal := atBlocks Blocks.bayBoundary s

/-- The bay unit's boundary at which the window of bay `b` reaches 0: the same event as CLAIM_WINDOW_COUNT, taken where
that window does expire (R87, log 11). -/
def execClaimWindowExpiry (b : BayNo) (s : State) : Host.Outcome State Fault Refusal :=
  atBlocks (fun p => if (p.bay b).windowExpires then p.bayBoundary else p) s

def execSettleCount (s : State) : Host.Outcome State Fault Refusal := atBlocks Blocks.supplyBoundary s

/-- The supply unit's boundary at which the settle counter reaches 0: the same event as SETTLE_COUNT, taken where the
counter does reach 0 (R138, log 11). -/
def execSettleExpiry (s : State) : Host.Outcome State Fault Refusal :=
  atBlocks (fun p => if p.settleExpires then p.supplyBoundary else p) s

def execRebalanceBoundary (s : State) : Host.Outcome State Fault Refusal := atBlocks Blocks.allocBoundary s

end Sys2Proof.Machine
end

