-- ==== Sys2Proof/Machine/Zones.lean ====
section
/-! DEFINITION. The requests at the zone map: WRITE ZONE, READ ZONE, READ ACCESS FAULT, CLEAR ACCESS FAULT (03). -/

namespace Sys2Proof.Machine

/-- WRITE ZONE (R59): the four fields are replaced and the used flag cleared. -/
def judgeWriteZone (_port : Port) (_c : Class) (body : List Byte) (p : Blocks) : Answer :=
  match writeZoneFields body with
  | none => refuse p .badField
  | some (c, z, d) => accept (p.withZones (p.zones.setDescriptor c z d)) (descriptorReport d)

/-- READ ZONE (R61). -/
def judgeReadZone (_port : Port) (_c : Class) (body : List Byte) (p : Blocks) : Answer :=
  match readZoneFields body with
  | none => refuse p .badField
  | some (c, z) => accept p (descriptorReport (p.zones.descriptor c z))

/-- READ ACCESS FAULT (R57). -/
def judgeReadAccessFault (_port : Port) (_c : Class) (p : Blocks) : Answer := accept p (accessFaultReport p.zones)

/-- CLEAR ACCESS FAULT (R57): the record as it stood, and cleared. -/
def judgeClearAccessFault (_port : Port) (_c : Class) (p : Blocks) : Answer :=
  accept (p.withZones p.zones.clearFault) (accessFaultReport p.zones)

def execWriteZone (port : Port) (r : Request) (s : State) : Host.Outcome State Fault Refusal :=
  serve (ofKind 13) operatorOnly noBody judgeWriteZone port r s

def execReadZone (port : Port) (r : Request) (s : State) : Host.Outcome State Fault Refusal :=
  serve (ofKind 14) operatorOnly noBody judgeReadZone port r s

def execReadAccessFault (port : Port) (r : Request) (s : State) : Host.Outcome State Fault Refusal :=
  serve (ofKind 15) operatorOnly noBody (withNoField noBody judgeReadAccessFault) port r s

def execClearAccessFault (port : Port) (r : Request) (s : State) : Host.Outcome State Fault Refusal :=
  serve (ofKind 16) operatorOnly noBody (withNoField noBody judgeClearAccessFault) port r s

end Sys2Proof.Machine
end

