-- ==== Sys2Proof/Machine/Dispatch.lean ====
section
/-! DEFINITION. One arm per command, each one call of its meaning. -/

namespace Sys2Proof.Machine

/-- The effect of a command on everything but the queue. -/
def exec (i : Instr) (s : State) : Host.Outcome State Fault Refusal :=
  match i with
  | .bookBay port r => Sys2Proof.Machine.execBookBay port r s
  | .bookZone port r => Sys2Proof.Machine.execBookZone port r s
  | .bookNow port r => Sys2Proof.Machine.execBookNow port r s
  | .extendRecord port r => Sys2Proof.Machine.execExtend port r s
  | .cancel port r => Sys2Proof.Machine.execCancel port r s
  | .claim port r => Sys2Proof.Machine.execClaim port r s
  | .lookupTicket port r => Sys2Proof.Machine.execLookupTicket port r s
  | .findToken port r => Sys2Proof.Machine.execFindToken port r s
  | .listBay port r => Sys2Proof.Machine.execListBay port r s
  | .endSession port r => Sys2Proof.Machine.execEndSession port r s
  | .collect port r => Sys2Proof.Machine.execCollect port r s
  | .poolStatus port r => Sys2Proof.Machine.execPoolStatus port r s
  | .writeZone port r => Sys2Proof.Machine.execWriteZone port r s
  | .readZone port r => Sys2Proof.Machine.execReadZone port r s
  | .readAccessFault port r => Sys2Proof.Machine.execReadAccessFault port r s
  | .clearAccessFault port r => Sys2Proof.Machine.execClearAccessFault port r s
  | .configureBay port r => Sys2Proof.Machine.execConfigureBay port r s
  | .enableBay port r => Sys2Proof.Machine.execEnableBay port r s
  | .disableBay port r => Sys2Proof.Machine.execDisableBay port r s
  | .clearFault port r => Sys2Proof.Machine.execClearFault port r s
  | .readBay port r => Sys2Proof.Machine.execReadBay port r s
  | .setBudget port r => Sys2Proof.Machine.execSetBudget port r s
  | .setReserveCeiling port r => Sys2Proof.Machine.execSetReserveCeiling port r s
  | .readFeeder port r => Sys2Proof.Machine.execReadFeeder port r s
  | .setGroupLevel port r => Sys2Proof.Machine.execSetGroupLevel port r s
  | .selectSupply port r => Sys2Proof.Machine.execSelectSupply port r s
  | .switchSupply port r => Sys2Proof.Machine.execSwitchSupply port r s
  | .readSupply port r => Sys2Proof.Machine.execReadSupply port r s
  | .setClock port r => Sys2Proof.Machine.execSetClock port r s
  | .setParameters port r => Sys2Proof.Machine.execSetParameters port r s
  | .openLevel port r => Sys2Proof.Machine.execOpenLevel port r s
  | .restartLevel port r => Sys2Proof.Machine.execRestartLevel port r s
  | .restartAllocation port r => Sys2Proof.Machine.execRestartAllocation port r s
  | .readNotices port r => Sys2Proof.Machine.execReadNotices port r s
  | .clearNotices port r => Sys2Proof.Machine.execClearNotices port r s
  | .setNoticeMask port r => Sys2Proof.Machine.execSetNoticeMask port r s
  | .identify port r => Sys2Proof.Machine.execIdentify port r s
  | .unknownRequest port r => Sys2Proof.Machine.execUnknownRequest port r s
  | .relocationStepBayEntry => Sys2Proof.Machine.execRelocationStepBayEntry s
  | .relocationStepRecordEntry => Sys2Proof.Machine.execRelocationStepRecordEntry s
  | .siteWrite bytes => Sys2Proof.Machine.execSiteWrite bytes s
  | .siteRead shifted => Sys2Proof.Machine.execSiteRead shifted s
  | .siteBadTransfer bytes => Sys2Proof.Machine.execSiteBadTransfer bytes s
  | .rampFrame bytes => Sys2Proof.Machine.execRampFrame bytes s
  | .rampByteTimeout => Sys2Proof.Machine.execRampByteTimeout s
  | .rampResponseSent => Sys2Proof.Machine.execRampResponseSent s
  | .modulePoll => Sys2Proof.Machine.execModulePoll s
  | .moduleReport k rep => Sys2Proof.Machine.execModuleReport k rep s
  | .moduleFound k rep => Sys2Proof.Machine.execModuleFound k rep s
  | .moduleLost k => Sys2Proof.Machine.execModuleLost k s
  | .minuteBoundary => Sys2Proof.Machine.execMinuteBoundary s
  | .deadlinePass => Sys2Proof.Machine.execDeadlinePass s
  | .claimWindowCount => Sys2Proof.Machine.execClaimWindowCount s
  | .claimWindowExpiry b => Sys2Proof.Machine.execClaimWindowExpiry b s
  | .settleCount => Sys2Proof.Machine.execSettleCount s
  | .settleExpiry => Sys2Proof.Machine.execSettleExpiry s
  | .rebalanceBoundary => Sys2Proof.Machine.execRebalanceBoundary s
  | .mainsOkFall => Sys2Proof.Machine.execMainsOkFall s
  | .mainsOkRise => Sys2Proof.Machine.execMainsOkRise s
  | .drChange high => Sys2Proof.Machine.execDrChange high s
  | .alarmChange high => Sys2Proof.Machine.execAlarmChange high s
  | .powerOnReset => Sys2Proof.Machine.execPowerOnReset s
  | .sessionRequest b draw => Sys2Proof.Machine.execSessionRequest b draw s
  | .release b => Sys2Proof.Machine.execRelease b s
  | .hold b => Sys2Proof.Machine.execHold b s
  | .unhold b => Sys2Proof.Machine.execUnhold b s
  | .endServing b => Sys2Proof.Machine.execEnd b s
  | .removeRecordEntry t => Sys2Proof.Machine.execRemoveRecordEntry t s
  | .noticeRaise sender what => Sys2Proof.Machine.execNoticeRaise sender what s
  | .rampFrameStart => Sys2Proof.Machine.execRampFrameStart s
  | .resetRelease mainsOk dr alarm => Sys2Proof.Machine.execResetRelease mainsOk dr alarm s

end Sys2Proof.Machine
end

