-- ==== Sys2Proof/Safety.lean ====
section
/-! DEFINITION. What is true of the part between any two events: the invariants the manual's rules state, block by block;
and what one event does, in the words the statements use. -/

namespace Sys2Proof.Machine

/-! ## Reset -/

/-- While RESET is low every block holds its power-on state (R157). -/
def State.ResetHeld (s : State) : Prop :=
  s.resetLow = true →
    s.blocks = Blocks.powerOn false false false ∧ s.site = SitePort.powerOn ∧ s.ramp = RampPort.powerOn ∧
    s.lastServed = .relocation

/-! ## Ports -/

/-- The slot holds a request whose service turn has been taken. -/
def servedSlot (slot : Option Waiting) : Bool := slot.any (·.served)

/-- READY is high exactly while a response waits, which is while the slot's request has been served (R160); the ramp
port transmits exactly while its slot's request has been served (R161). -/
def State.PortsSound (s : State) : Prop :=
  s.site.ready = s.site.response.isSome ∧ s.site.response.isSome = servedSlot s.site.slot ∧
  s.ramp.tx.isSome = servedSlot s.ramp.slot

/-! ## Copies and derived lines -/

/-- Every post command is the one its bay's session asks for (R84). -/
def Allocator.PostsAgree (a : Allocator) : Prop := ∀ b : BayNo, a.posts[b] = postFor (a.session b)

/-- The copies of the effective actions equal the supply unit's: the allocator's and every bay entry's (R145). -/
def Blocks.ActionCopies (p : Blocks) : Prop :=
  p.alloc.actions = p.supply.actions ∧ ∀ b : BayNo, (p.bay b).action = p.supply.actions[b]

/-- ATTN and the level flags follow what they are derived from (R165, R20). -/
def Blocks.NoticesAgree (p : Blocks) : Prop :=
  p.notices.attn = p.notices.wantsAttn ∧ p.notices.poolLow = p.book.poolLow p.params.poolLow ∧
  p.notices.settledWaiting = p.book.settledWaiting

/-- Every copy equals its original and every derived output follows what it is derived from: the allocator's copy of the
supply state (R135), the copies of the actions, the post commands, ATTN and the level flags. -/
def Blocks.CopiesAgree (p : Blocks) : Prop :=
  p.alloc.supply = p.supply.state ∧ p.ActionCopies ∧ p.alloc.PostsAgree ∧ p.NoticesAgree

/-- The settle counter is 0 outside RETURNING, and MAINS is in force only while MAINS_OK is high (R134). -/
def Blocks.SupplySound (p : Blocks) : Prop :=
  (p.supply.state ≠ .returning → p.supply.counter = 0) ∧ (p.supply.state = .mains → p.supply.mainsOk = true)

/-- Every bay's effective action is the one its groups give (R144). -/
def Blocks.ActionsFollowGroups (p : Blocks) : Prop :=
  ∀ b : BayNo, p.supply.actions[b] = p.supply.actionFor (p.bay b).config

/-! ## Clock and parameters -/

/-- The counts stay in their ranges (R64, R65, R100, R151). -/
def Blocks.CountsInRange (p : Blocks) : Prop :=
  p.clock.minute ≤ Config.minuteMax ∧ p.clock.phase < Config.minutePeriods ∧
  (∀ k : ModuleNo, ∀ n, p.moduleState k = .online n → n < Config.silencePeriods) ∧
  p.params.holdLead ≤ 60 ∧ p.params.turnoverGap ≤ 30 ∧ p.params.defaultGrace ≤ 60 ∧
  1 ≤ p.params.claimWindow ∧ p.params.claimWindow ≤ 15 ∧ 1 ≤ p.params.settle ∧ p.params.settle ≤ 15 ∧
  p.params.poolLow ≤ 255

/-! ## Bay entries -/

/-- The items of a bay entry agree with its state (R82): fault cause in FAULTED alone, claim origin in UNCLAIMED and
SQUATTED alone, a running window in UNCLAIMED alone, presence as the state says, the held mark of VACANT and AWAITING;
and its sign follows its state and its effective action (R83). -/
def Bay.Sound (x : Bay) : Prop :=
  (x.faultCause.isSome = true ↔ x.state = .faulted) ∧
  (x.origin.isSome = true ↔ x.state = .unclaimed ∨ x.state = .squatted) ∧
  (x.state ≠ .unclaimed → x.window = 0) ∧ (x.state = .unclaimed → 1 ≤ x.window ∧ x.window ≤ 15) ∧
  (x.state.occupied = true → x.presence = true) ∧
  (x.state = .vacant → x.presence = false ∧ x.heldMark = false) ∧
  (x.state = .awaiting → x.presence = false ∧ x.heldMark = true) ∧
  x.sign = signOf x.state x.action

/-- Every bay entry is sound, no bay of an OFFLINE module is in service (R102), and the window parameter is in its range,
from which the windows are loaded (R87). -/
def Blocks.BaysSound (p : Blocks) : Prop :=
  (∀ b : BayNo, (p.bay b).Sound) ∧
  (∀ b : BayNo, p.moduleState (moduleOf b) = .offline → (p.bay b).state.outOfService = true) ∧
  1 ≤ p.params.claimWindow ∧ p.params.claimWindow ≤ 15

/-! ## The book -/

/-- Every slot is in exactly one place (R8): free and empty, on the timeline of its live record's bay and on no other, or
settled and in the settled set. The free list, the timelines and the settled set hold no duplicates (R12, R13, R24), and
a record's ticket is its slot with the slot's generation, which is below 64 (R5). A record has an outcome exactly when
it is settled (R3), and then is not marked for relocation (R10). -/
def Book.Sound (k : Book) : Prop :=
  k.free.Nodup ∧ k.settled.Nodup ∧ (∀ b : BayNo, (k.slotsOn b).Nodup) ∧
  (∀ sl : Slot, sl ∈ k.free ↔ k.rec? sl = none) ∧
  (∀ sl : Slot, sl ∈ k.settled ↔ ∃ r, k.rec? sl = some r ∧ r.state = .settled) ∧
  (∀ (b : BayNo) (sl : Slot), sl ∈ k.slotsOn b ↔ ∃ r, k.rec? sl = some r ∧ r.state ≠ .settled ∧ r.bay = b) ∧
  (∀ (sl : Slot) (r : Record), k.rec? sl = some r → r.ticket = { slot := sl.val, gen := k.gens[sl] }) ∧
  (∀ sl : Slot, k.gens[sl] < Config.generations) ∧
  (∀ (sl : Slot) (r : Record), k.rec? sl = some r →
    (r.outcome.isSome = true ↔ r.state = .settled) ∧ (r.state = .settled → r.relocPending = false))

/-- On every timeline the end of each record plus the turnover gap is at most the start of every later one (R25), so starts
ascend (R24), and no timeline holds more than 10 (R26). Lengths stay in their range (R29, R43). -/
def Book.Spaced (k : Book) (gap : Nat) : Prop :=
  (∀ b : BayNo, (k.timeline b).Pairwise fun x y => x.endMinute + gap ≤ y.start) ∧
  (∀ b : BayNo, (k.slotsOn b).length ≤ Config.timelineSize) ∧
  (∀ (sl : Slot) (r : Record), k.rec? sl = some r → 15 ≤ r.length ∧ r.length ≤ 720)

/-- The timelines are sound under the gap in force, which changes only while they are empty (R26). -/
def Blocks.TimelinesSound (p : Blocks) : Prop :=
  p.book.Sound ∧ p.book.Spaced p.params.turnoverGap ∧ (p.level = .configuring → ∀ b : BayNo, p.book.slotsOn b = [])

/-- The token index (R27): one entry for each token with a live record, listing exactly the token's live records, at most
3, in ascending start with windows that do not overlap. Entries stand in ascending token (log 25). -/
def Book.IndexSound (k : Book) : Prop :=
  k.tokens.Pairwise (fun d e => d.token < e.token) ∧
  (∀ e ∈ k.tokens, e.slots ≠ [] ∧ e.slots.Nodup ∧ e.slots.length ≤ Config.tokenSize ∧
    (∀ sl : Slot, sl ∈ e.slots ↔ ∃ r, k.rec? sl = some r ∧ r.state ≠ .settled ∧ r.token = e.token) ∧
    (e.slots.filterMap k.rec?).Pairwise fun x y => x.endMinute ≤ y.start) ∧
  (∀ (sl : Slot) (r : Record), k.rec? sl = some r → r.state ≠ .settled → ∃ e ∈ k.tokens, e.token = r.token)

/-- The book with its token index. -/
def Blocks.TokensSound (p : Blocks) : Prop :=
  p.book.Sound ∧ p.book.IndexSound ∧ ∀ (sl : Slot) (r : Record), p.book.rec? sl = some r → 0 < r.length

/-! ## The allocator -/

/-- A session's place agrees with its phase (R117): CHARGING on its feeder's grant list, QUEUED in its feeder's queue,
SUSPENDED on neither; the lists hold no duplicates and only their feeder's sessions (R116). -/
def Allocator.ListsSound (a : Allocator) : Prop :=
  (∀ f : FeederNo, (a.feeder f).grants.Nodup ∧ (a.feeder f).queue.Nodup) ∧
  (∀ (f : FeederNo) (b : BayNo), b ∈ (a.feeder f).grants ↔
    ∃ x, a.session b = some x ∧ x.feeder = f ∧ x.phase = .charging) ∧
  (∀ (f : FeederNo) (b : BayNo), b ∈ (a.feeder f).queue ↔
    ∃ x, a.session b = some x ∧ x.feeder = f ∧ x.phase = .queued) ∧
  (∀ (b : BayNo) (x : Session), a.session b = some x → x.phase ≠ .charging → x.grant = 0)

/-- No feeder's granted total exceeds its effective ceiling (R119). -/
def Allocator.WithinCeilings (a : Allocator) : Prop := ∀ f : FeederNo, a.granted f ≤ a.ceiling f

/-- The allocator's invariant: R117 with R119. -/
def Allocator.Sound (a : Allocator) : Prop := a.ListsSound ∧ a.WithinCeilings

/-! ## The relocation list -/

/-- At most 128 entries and at most one BAY entry for a bay (R104). -/
def Blocks.RelocSound (p : Blocks) : Prop :=
  p.reloc.length ≤ Config.listSize ∧
  ∀ b : BayNo, (p.reloc.filter fun e => (e.reasonFor b).isSome).length ≤ 1

/-- A live record is relocation-pending exactly while a RECORD entry of its ticket is listed, and no ticket has two entries.
An entry whose record is no longer live is one whose removal is on its way, and no removal on its way names a live record
(R104, R107). -/
def Blocks.RecordEntriesSound (p : Blocks) : Prop :=
  (∀ t : Ticket, p.reloc.count (.record t) ≤ 1) ∧
  (∀ (sl : Slot) (r : Record), p.book.rec? sl = some r → r.state ≠ .settled →
    (r.relocPending = true ↔ Entry.record r.ticket ∈ p.reloc) ∧ r.ticket ∉ p.mail.toReloc) ∧
  ∀ t : Ticket, Entry.record t ∈ p.reloc → t ∈ p.mail.toReloc ∨
    ∃ (sl : Slot) (r : Record), p.book.rec? sl = some r ∧ r.state ≠ .settled ∧ r.ticket = t

/-- No removal on its way names the ticket that the next record created would get. It could only after the slot has been
freed 64 times while the message was on its way (R5). -/
def Blocks.NextTicketClear (p : Blocks) : Prop :=
  ∀ (sl : Slot) (rest : List Slot), p.book.free = sl :: rest →
    ({ slot := sl.val, gen := p.book.gens[sl] } : Ticket) ∉ p.mail.toReloc

/-- Grants and queues (R118, R120, R122, R125): a CHARGING session's grant is at least 6 and at most its cap, every cap is
at least 6 and is 6 under TRICKLE, a session under STOP or CLOSE or in HALT is SUSPENDED, and a feeder whose wait queue is
not empty has headroom below 6. -/
def Allocator.GrantsInRange (a : Allocator) : Prop :=
  (∀ (b : BayNo) (x : Session), a.session b = some x →
    6 ≤ x.draw ∧ 6 ≤ x.cap ∧ (x.phase = .charging → 6 ≤ x.grant ∧ x.grant ≤ x.cap) ∧
    (a.action b = .trickle → x.cap = 6) ∧
    ((a.action b).runs = false ∨ a.supply = .halt → x.phase = .suspended)) ∧
  ∀ f : FeederNo, (a.feeder f).queue = [] ∨ a.headroom f < 6

/-- The allocator's lists and grants are sound, and so is all they follow: the book, the allocator's copy of the actions
(R145), and every number from which a cap is computed: the max draws of the bays, the draws of the records and the draws
of the session requests on their way (R80, R29, R117). -/
def Blocks.GrantsSound (p : Blocks) : Prop :=
  p.book.Sound ∧ p.alloc.actions = p.supply.actions ∧
  p.alloc.ListsSound ∧ p.alloc.GrantsInRange ∧ (∀ b : BayNo, 6 ≤ (p.bay b).config.maxDraw) ∧
  (∀ (sl : Slot) (r : Record), p.book.rec? sl = some r → 6 ≤ r.draw) ∧
  ∀ (b : BayNo) (n : Nat), AllocMsg.sessionRequest b n ∈ p.mail.toAlloc → 6 ≤ n

/-! ## What one event does, for the statements -/

/-- `q` is reached from `p` by one `step` for each member of the list, in the list's order. -/
def InTurn {α β : Type} (step : β → α → α → Prop) : List β → α → α → Prop
  | [], p, q => q = p
  | x :: xs, p, q => ∃ m, step x p m ∧ InTurn step xs m q

/-- The service turn of request `r` at `port` is due (R162), its kind number is `k`, and its class is `c` (R49). -/
def State.Serves (s : State) (k : Nat) (port : Port) (c : Class) (r : Request) : Prop :=
  s.turnDue port r = true ∧ r.kind.toNat = k ∧ classAt port r = some c

/-- Book `l` is book `k` after the record `r` has been created in slot `sl` (R1, R24, R27): the slot was at the head of the
free list, the ticket carries its generation, the record stands in it, on the timeline of its bay at the place its start
fixes and in its token's entry; every other slot, generation and timeline and the settled set are as they were. -/
def Book.Created (k l : Book) (sl : Slot) (r : Record) : Prop :=
  k.free = sl :: l.free ∧ r.ticket = { slot := sl.val, gen := k.gens[sl] } ∧
  l.rec? sl = some r ∧ (∀ x : Slot, x ≠ sl → l.rec? x = k.rec? x) ∧
  l.slotsOn r.bay = insertByStart l.startOf r.start sl (k.slotsOn r.bay) ∧
  (∀ b : BayNo, b ≠ r.bay → l.slotsOn b = k.slotsOn b) ∧
  l.tokens = joinEntry l.startOf r.token r.start sl k.tokens ∧ l.gens = k.gens ∧ l.settled = k.settled

/-- Zone map `n` is zone map `m` with the used flag of the descriptor that `r` was booked through set; none for DIRECT
(R34, R58). -/
def ZoneMap.MarkedFor (m n : ZoneMap) (r : Record) : Prop :=
  n.captured = m.captured ∧ n.more = m.more ∧
  ∀ (c : Class) (z : ZoneNo), n.descriptor c z =
    if c = r.originClass ∧ r.originZone = .zone z then { m.descriptor c z with used := true } else m.descriptor c z

/-- Blocks `q` are blocks `p` after the BOOKED or HELD record `r` has been created in slot `sl` (R34, R35): the book and the
used flag, the pool conditions, and HOLD told and recorded where `r` is the first HELD record of its bay. No other block
has changed. -/
def Blocks.Admitted (p q : Blocks) (sl : Slot) (r : Record) : Prop :=
  p.book.Created q.book sl r ∧ p.zones.MarkedFor q.zones r ∧
  q.notices = p.notices.setLevels (decide (q.book.free.length ≤ p.params.poolLow)) p.book.settledWaiting ∧
  (if r.state = .held ∧ p.book.hasHeld r.bay = false
   then q.mail = { p.mail with toBays := p.mail.toBays ++ [.hold r.bay] } ∧
     q.book.heldReport = setAt p.book.heldReport r.bay true
   else q.mail = p.mail ∧ q.book.heldReport = p.book.heldReport) ∧
  q = { p with zones := q.zones, book := q.book, notices := q.notices, mail := q.mail }

/-- The bay entry after SERVE (R89): SERVING, no window, no origin, the sign of its state. -/
def Bay.served (x : Bay) : Bay :=
  { x with state := .serving, window := 0, origin := none, faultCause := none, sign := signOf .serving x.action }

/-- Blocks `q` are blocks `p` after BOOK NOW has created the record `r` in SESSION in slot `sl` (R39): as for any booking,
with SERVE at the bay and the session request sent, and no HOLD. No other block has changed. -/
def Blocks.AdmittedServing (p q : Blocks) (sl : Slot) (r : Record) : Prop :=
  p.book.Created q.book sl r ∧ p.zones.MarkedFor q.zones r ∧ q.book.heldReport = p.book.heldReport ∧
  q.notices = p.notices.setLevels (decide (q.book.free.length ≤ p.params.poolLow)) p.book.settledWaiting ∧
  q.mail = { p.mail with toAlloc := p.mail.toAlloc ++ [.sessionRequest r.bay r.draw] } ∧
  q.bays = { p.bays with bays := setAt p.bays.bays r.bay (p.bay r.bay).served } ∧
  q = { p with zones := q.zones, book := q.book, bays := q.bays, notices := q.notices, mail := q.mail }

/-- Book `l` is book `k` after the live record `r` in slot `sl` has been settled as `r'` (R10): off its timeline and its
token's entry, and in the settled set; every other slot and timeline, the free list and the generations are as they
were. -/
def Book.SettledAs (k l : Book) (sl : Slot) (r r' : Record) : Prop :=
  l.rec? sl = some r' ∧ (∀ x : Slot, x ≠ sl → l.rec? x = k.rec? x) ∧
  l.slotsOn r.bay = (k.slotsOn r.bay).filter (· != sl) ∧ (∀ b : BayNo, b ≠ r.bay → l.slotsOn b = k.slotsOn b) ∧
  l.tokens = leaveEntry r.token sl k.tokens ∧ (∀ x : Slot, x ∈ l.settled ↔ x = sl ∨ x ∈ k.settled) ∧
  l.free = k.free ∧ l.gens = k.gens

/-- Blocks `q` are blocks `p` after the live record `r` in slot `sl` has been settled as `r'` outside the deadline pass: the
book's changes (R10), the pool conditions (R20), and the messages of R11 with STRANDED for cause BAY_LOST. No other
block has changed. -/
def Blocks.SettledAs (p q : Blocks) (sl : Slot) (r r' : Record) : Prop :=
  p.book.SettledAs q.book sl r r' ∧
  q.notices = p.notices.setLevels (decide (p.book.free.length ≤ p.params.poolLow)) true ∧
  q.book.heldReport =
    (if r.state = .held ∧ q.book.hasHeld r.bay = false then setAt p.book.heldReport r.bay false else p.book.heldReport) ∧
  q.mail =
    { toBays := p.mail.toBays ++ (if r.state = .held ∧ q.book.hasHeld r.bay = false then [.unhold r.bay] else []) ++
        (if r'.outcome = some .revoked ∧ r.state.vehicle = true then [.endServing r.bay] else [])
      toAlloc := p.mail.toAlloc ++ (if r.state = .session then [.release r.bay] else [])
      toReloc := p.mail.toReloc ++ (if r.relocPending then [r.ticket] else [])
      raises := p.mail.raises ++ (if r'.cause = some .bayLost then [(.book, .stranded)] else []) } ∧
  q = { p with book := q.book, notices := q.notices, mail := q.mail }

/-! ## The checks of a request, in the order of its table, for the statements -/

/-- Who may send the request of kind `k` (R50, and the catalogue of 10 section 10.4). -/
def permitted (k : Nat) (port : Port) (c : Class) : Bool :=
  if k ≤ 9 then true
  else if k = 11 ∨ k = 12 then port == .site && c != .pub
  else if k = 36 then port == .site
  else port == .site && c == .operator

/-- What a refusal of the request of kind `k` carries (R163): nothing, but for SET CLOCK, SET PARAMETERS and OPEN LEVEL. -/
def refusalBody (k : Nat) (p : Blocks) : List Byte :=
  if k = 29 then clockReport p else if k = 30 ∨ k = 31 then levelReport p else []

/-- The body length of the request of kind `k`: the bytes its fields call for (R163, R170). -/
def bodyLength : Nat → Nat
  | 1 => 22 | 2 => 21 | 3 => 15 | 4 => 13 | 5 => 11 | 6 => 11 | 7 => 11 | 8 => 8 | 9 => 2 | 10 => 11 | 11 => 11 | 12 => 2
  | 13 => 7 | 14 => 2 | 17 => 10 | 18 => 1 | 19 => 1 | 20 => 1 | 21 => 1 | 22 => 3 | 23 => 3 | 24 => 1 | 25 => 2 | 26 => 1
  | 29 => 4 | 30 => 17 | 32 => 1 | 34 => 18 | 35 => 2 | _ => 0

/-- The number names none of the codes 1 to `top`. -/
def noCode (n top : Nat) : Prop := n = 0 ∨ top < n

/-- An optional number whose presence byte is neither 0 nor 1, or that is present and outside `lo` to `hi`. -/
def badOption (there n lo hi : Nat) : Prop := 1 < there ∨ there = 1 ∧ (n < lo ∨ hi < n)

/-- A zone byte that names neither a zone nor DIRECT, or DIRECT with a bay above 95 (R29, R51). -/
def badBayRef (zone bay : Nat) : Prop := 7 < zone ∧ (zone ≠ 255 ∨ 95 < bay)

/-- A length outside 15 to 720 or no multiple of 5 (R29). -/
def badLength (n : Nat) : Prop := n < 15 ∨ 720 < n ∨ n % 5 ≠ 0

/-- A current outside 6 to 80 (R29, R81). -/
def badDraw (n : Nat) : Prop := n < 6 ∨ 80 < n

/-- A field of the request of kind `k` and class `c` is out of its range: `num off n` is the number in the `n` bytes of
its body at an offset. By kind: the bookings (R29); EXTEND (R43, R7); CANCEL, CLAIM, LOOKUP TICKET and COLLECT (R7);
FIND TOKEN (R15); LIST BAY (R47); POOL STATUS (R19); WRITE ZONE and READ ZONE (R59, R61); CONFIGURE BAY (R81); the requests
that name one bay (R96 to R99); SET BUDGET, SET RESERVE CEILING and READ FEEDER (R127, R128, R131); SET GROUP LEVEL (R143);
SELECT SUPPLY (R136); SET CLOCK (R65); SET PARAMETERS (R151); RESTART (R153); CLEAR NOTICES and SET NOTICE MASK (R168,
R169). Bytes that R170 gives no meaning, beside a presence byte, a yes or no and the groups, are out of range by log 16. -/
def fieldOutOfRange (k : Nat) (c : Class) (num : Nat → Nat → Nat) : Prop :=
  match k with
  | 1 => num 0 8 = 0 ∨ badBayRef (num 8 1) (num 9 1) ∨ num 10 4 % 5 ≠ 0 ∨ badLength (num 14 2) ∨
      badOption (num 16 1) (num 17 2) 0 60 ∨ badDraw (num 19 2) ∨ 1 < num 21 1
  | 2 => num 0 8 = 0 ∨ 7 < num 8 1 ∨ num 9 4 % 5 ≠ 0 ∨ badLength (num 13 2) ∨ badOption (num 15 1) (num 16 2) 0 60 ∨
      badDraw (num 18 2) ∨ 1 < num 20 1
  | 3 => num 0 8 = 0 ∨ badBayRef (num 8 1) (num 9 1) ∨ badLength (num 10 2) ∨ badDraw (num 12 2) ∨ 1 < num 14 1
  | 4 => c ≠ .operator ∧ num 3 8 = 0 ∨ num 11 2 < 5 ∨ 240 < num 11 2 ∨ num 11 2 % 5 ≠ 0
  | 5 | 6 | 7 | 11 => c ≠ .operator ∧ num 3 8 = 0
  | 8 => num 0 8 = 0
  | 9 => badBayRef (num 0 1) (num 1 1)
  | 12 => 639 < num 0 2
  | 13 => noCode (num 0 1) 3 ∨ 7 < num 1 1 ∨ 95 < num 2 1 ∨ num 3 2 < 1 ∨ 32 < num 3 2 ∨ noCode (num 5 1) 2 ∨
      noCode (num 6 1) 3
  | 14 => noCode (num 0 1) 3 ∨ 7 < num 1 1
  | 17 => 95 < num 0 1 ∨ 3 < num 1 1 ∨ noCode (num 2 1) 3 ∨ badDraw (num 3 2) ∨ 7 < num 5 1 ∨ noCode (num 6 1) 4 ∨
      noCode (num 7 1) 4 ∨ 1 < num 8 1 ∨ 1 < num 9 1
  | 18 | 19 | 20 | 21 => 95 < num 0 1
  | 22 | 23 => 3 < num 0 1 ∨ 1000 < num 1 2
  | 24 => 3 < num 0 1
  | 25 => noCode (num 0 1) 3 ∨ noCode (num 1 1) 3
  | 26 => noCode (num 0 1) 3
  | 29 => 4000000000 < num 0 4
  | 30 => badOption (num 0 1) (num 1 2) 0 60 ∨ badOption (num 3 1) (num 4 2) 0 30 ∨ badOption (num 6 1) (num 7 2) 0 60 ∨
      badOption (num 9 1) (num 10 1) 1 15 ∨ badOption (num 11 1) (num 12 2) 1 15 ∨ badOption (num 14 1) (num 15 2) 0 255
  | 32 => noCode (num 0 1) 2
  | 34 => 16383 < num 0 2 ∨ 1 < num 2 1 ∨ badOption (num 15 1) (num 16 2) 0 4095
  | 35 => 16383 < num 0 2
  | _ => False

/-- The first of checks 9 and 10 that fails (R33, R12). -/
def Blocks.tokenRefusal (p : Blocks) (f : Booking) : Option Status :=
  if 3 ≤ (p.book.tokenSlots f.token).length then some .tokenLimit
  else if ∃ x ∈ p.book.tokenRecords f.token, f.start < x.start + x.length ∧ x.start < f.start + f.length then
    some .tokenConflict
  else if p.book.free = [] then some .poolFull
  else none

/-- The first of checks 7 to 10 that fails (R32, R33, R12). -/
def Blocks.startRefusal (p : Blocks) (f : Booking) : Option Status :=
  if f.start < p.now then some .tooLate
  else if p.now + 10080 < f.start then some .tooFar
  else p.tokenRefusal f

/-- The first of checks 11 and 12 that fails (R26, R25). -/
def Blocks.timelineRefusal (p : Blocks) (b : BayNo) (f : Booking) : Option Status :=
  if 10 ≤ (p.book.slotsOn b).length then some .bayFull
  else if fitsGap p.params.turnoverGap f.start f.length (p.book.timeline b) = false then some .conflict
  else none

/-- The first of checks 5 to 12 of BOOK BAY that fails (R30). -/
def Blocks.bayRefusal (p : Blocks) (c : Class) (b : BayNo) (f : Booking) : Option Status :=
  if p.available b = false then some .bayUnavailable
  else if fits c f.accessible (p.bay b).config.cls = false then some .classMismatch
  else (p.startRefusal f).or (p.timelineRefusal b f)

/-- The first of checks 5 to 12 of BOOK NOW that fails (R38). -/
def Blocks.nowRefusal (p : Blocks) (c : Class) (b : BayNo) (f : Booking) : Option Status :=
  if p.available b = false then some .bayUnavailable
  else if (p.bay b).state = .serving then some .bayOccupied
  else if fits c f.accessible (p.bay b).config.cls = false then some .classMismatch
  else (p.tokenRefusal f).or (p.timelineRefusal b f)

/-! ## Events at bays, relocation and supply, for the statements -/

/-- The bay entry in its resting state (05 section 5.2), with the claim window loaded with `win` where a vehicle stands. -/
def Bay.atRest (x : Bay) (win : Nat) : Bay :=
  let st : BayState := if x.presence then .unclaimed else if x.heldMark then .awaiting else .vacant
  { x with
    state := st
    origin := if x.presence then some (if x.heldMark then .awaiting else .vacant) else none
    window := if x.presence then win else 0
    faultCause := none
    sign := signOf st x.action }

/-- The BOOKED or HELD record in slot `sl` settled CANCELLED with cause BAY_LOST (R108). -/
def Blocks.Stranded (sl : Slot) (p q : Blocks) : Prop :=
  ∃ x : Record, p.book.rec? sl = some x ∧ p.SettledAs q sl x
    { x with state := .settled, outcome := some .cancelled, cause := some .bayLost, relocPending := false }

/-- Blocks `q` are blocks `p` after the book has looked at bay `b`, lost or closed (R105, R108, R146): a listed BAY entry
of reason CLOSED takes the new reason, and one of reason FAULT the reason DISABLED; else a BAY entry is appended where
BOOKED or HELD records stand on the bay; else, on a full list, those records are settled CANCELLED with cause BAY_LOST,
in ascending start (in a sound book one by one, as `Stranded` says). No other block has changed. -/
def Blocks.EntryDue (p q : Blocks) (b : BayNo) (reason : Reason) : Prop :=
  if (p.bayEntry b).isSome then
    q = { p with reloc := p.reloc.map fun e =>
      if e = .bay b .closed ∨ e = .bay b .fault ∧ reason = .disabled then .bay b reason else e }
  else if p.book.pendingOn b = [] then q = p
  else if p.reloc.length < 128 then q = { p with reloc := p.reloc ++ [.bay b reason] }
  else (p.book.Sound → InTurn Blocks.Stranded (p.book.pendingOn b) p q) ∧
    q.book.pendingOn b = [] ∧ (.book, .stranded) ∈ q.mail.raises ∧
    (∀ sl ∈ p.book.pendingOn b, ∀ x : Record, p.book.rec? sl = some x → q.book.rec? sl =
      some { x with state := .settled, outcome := some .cancelled, cause := some .bayLost, relocPending := false }) ∧
    q = { p with book := q.book, notices := q.notices, mail := q.mail }

/-- Blocks `q` are blocks `p` after the deadline pass has settled the HELD record `r` in slot `sl` as `r'`: the book's changes
(R10), the pool conditions (R20), and the messages of R11 but for UNHOLD, which the pass sends as it leaves the bay (R75). -/
def Blocks.SettledInPass (p q : Blocks) (sl : Slot) (r r' : Record) : Prop :=
  p.book.SettledAs q.book sl r r' ∧
  q.notices = p.notices.setLevels (decide (p.book.free.length ≤ p.params.poolLow)) true ∧
  q.book.heldReport = p.book.heldReport ∧
  q.mail = { p.mail with
    toReloc := p.mail.toReloc ++ (if r.relocPending then [r.ticket] else [])
    raises := p.mail.raises ++ (if r'.cause = some .bayLost then [(.book, .stranded)] else []) } ∧
  q = { p with book := q.book, notices := q.notices, mail := q.mail }

/-- The four checks of the pass for minute `m` on the record in slot `sl` (R69 to R73): BOOKED becomes HELD at its hold
lead; HELD is settled NO_SHOW at its grace's end; HELD at its start on an occupied bay under no BAY entry is appended to
the relocation list as a RECORD entry, or on a full list settled CANCELLED with cause BAY_LOST; SESSION or PARKED at its
end becomes OVERSTAY, and a session is released. -/
def Blocks.RecordPassed (m : Nat) (sl : Slot) (p q : Blocks) : Prop :=
  (p.book.rec? sl = none → q = p) ∧
  ∀ x : Record, p.book.rec? sl = some x → ∃ (y : Record) (n : Blocks),
    y = (if x.state = .booked ∧ x.start - p.params.holdLead ≤ m then { x with state := .held } else x) ∧
    n = { p with book := p.book.put sl y } ∧
    if y.state = .held ∧ y.start + y.grace ≤ m then
      n.SettledInPass q sl y { y with state := .settled, outcome := some .noShow, cause := none, relocPending := false }
    else if y.state = .held ∧ y.start ≤ m ∧ (p.bay y.bay).state.occupied = true ∧ y.relocPending = false ∧
        p.bayEntry y.bay = none then
      if p.reloc.length < 128 then
        q = { n with book := n.book.put sl { y with relocPending := true }, reloc := p.reloc ++ [.record y.ticket] }
      else n.SettledInPass q sl y
        { y with state := .settled, outcome := some .cancelled, cause := some .bayLost, relocPending := false }
    else if (y.state = .session ∨ y.state = .parked) ∧ y.start + y.length ≤ m then
      q = { n with
        book := n.book.put sl { y with state := .overstay }
        mail := { p.mail with
          toAlloc := p.mail.toAlloc ++ (if y.state = .session then [.release y.bay] else [])
          raises := p.mail.raises ++ [(.book, .overstay y.bay)] } }
    else q = n

/-- The pass for minute `m` over bay `b` (R69, R75): the records of its timeline as it stood, in ascending start, and then
HOLD or UNHOLD where the held report differs from what the timeline holds. -/
def Blocks.BayPassed (m : Nat) (b : BayNo) (p q : Blocks) : Prop :=
  ∃ n : Blocks, InTurn (Blocks.RecordPassed m) (p.book.slotsOn b) p n ∧
    (n.book.heldReport[b] = n.book.hasHeld b → q = n) ∧
    (n.book.heldReport[b] ≠ n.book.hasHeld b → q = { n with
      book := { n.book with heldReport := setAt n.book.heldReport b (n.book.hasHeld b) }
      mail := { n.mail with toBays := n.mail.toBays ++ [if n.book.hasHeld b then .hold b else .unhold b] } })

/-- The vehicle record of a lost bay, if any, is settled PREEMPTED with the cause of the loss (R95). -/
def Blocks.Preempted (p q : Blocks) (b : BayNo) (cause : Cause) : Prop :=
  (p.book.servingOn b = none → q = p) ∧
  ∀ (sl : Slot) (x : Record), p.book.servingOn b = some sl → p.book.rec? sl = some x → p.SettledAs q sl x
    { x with state := .settled, outcome := some .preempted, cause := some cause, relocPending := false }

/-- Blocks `q` are blocks `p` after bay `b` has been lost, its entry becoming `x` (R95, R105): the bay entry, then the
vehicle record, then the BOOKED and HELD records. In a sound book no record of another bay and no other timeline
changes. -/
def Blocks.BayLost (p q : Blocks) (b : BayNo) (x : Bay) (cause : Cause) (reason : Reason) : Prop :=
  (∃ m n : Blocks, m = { p with bays := { p.bays with bays := setAt p.bays.bays b x } } ∧
    m.Preempted n b cause ∧ n.EntryDue q b reason) ∧
  (p.book.Sound →
    (∀ (sl : Slot) (r : Record), p.book.rec? sl = some r → r.bay ≠ b → q.book.rec? sl = some r) ∧
    ∀ b' : BayNo, b' ≠ b → q.book.slotsOn b' = p.book.slotsOn b')

/-! ## The allocator's work, for the statements -/

/-- Session `x` of bay `b` placed by the first case of R120's table that applies, with its cap by R118 and its post command
by R84. -/
def Allocator.placedBy (a : Allocator) (b : BayNo) (maxDraw : Nat) (x : Session) : Allocator :=
  let cap := if a.actions[b] = .trickle then 6 else min x.draw maxDraw
  let h := a.ceiling x.feeder - a.granted x.feeder
  if a.actions[b] = .stop ∨ a.actions[b] = .close ∨ a.supply = .halt then
    { a with
      sessions := setAt a.sessions b (some { x with cap := cap, grant := 0, phase := .suspended })
      posts := setAt a.posts b { enabled := false, limit := 0 } }
  else if (a.feeder x.feeder).queue = [] ∧ 6 ≤ h then
    { a with
      sessions := setAt a.sessions b (some { x with cap := cap, grant := min cap h, phase := .charging })
      posts := setAt a.posts b { enabled := true, limit := min cap h }
      feeders := setAt a.feeders x.feeder { a.feeder x.feeder with grants := (a.feeder x.feeder).grants ++ [b] } }
  else
    { a with
      sessions := setAt a.sessions b (some { x with cap := cap, grant := 0, phase := .queued })
      posts := setAt a.posts b { enabled := false, limit := 0 }
      feeders := setAt a.feeders x.feeder { a.feeder x.feeder with queue := (a.feeder x.feeder).queue ++ [b] } }

/-- Feeder `f`'s wait queue served, from allocator `a` to allocator `d` (R122): a first part of the queue, head first, has
joined the tail of the grant list, each granted the lesser of its cap and the headroom that those before it left, which
was at least 6, with its post command written; serving stopped at an empty queue or at headroom below 6. Nothing else
has changed. -/
def Allocator.QueueServed (a d : Allocator) (f : FeederNo) : Prop :=
  ∃ served rest : List BayNo, (a.feeder f).queue = served ++ rest ∧
    d.feeder f = { a.feeder f with grants := (a.feeder f).grants ++ served, queue := rest } ∧
    (rest = [] ∨ d.headroom f < 6) ∧
    (∀ (before after : List BayNo) (b : BayNo), served = before ++ b :: after → ∃ (x : Session) (h n : Nat),
      h = a.headroom f - (before.map d.grantOf).sum ∧ 6 ≤ h ∧ n = min x.cap h ∧ a.session b = some x ∧
      d.session b = some { x with grant := n, phase := .charging } ∧ d.posts[b] = { enabled := true, limit := n }) ∧
    (∀ b : BayNo, b ∉ served → d.session b = a.session b ∧ d.posts[b] = a.posts[b]) ∧
    (∀ g : FeederNo, g ≠ f → d.feeder g = a.feeder g) ∧ d.supply = a.supply ∧ d.actions = a.actions

/-- Feeder `f`'s grants topped up, from allocator `a` to allocator `d` (R126, step 4): oldest first, each is raised toward
its cap by the lesser of what is missing and the headroom that the raises before it left, with its post command written.
Nothing else has changed. -/
def Allocator.ToppedUp (a d : Allocator) (f : FeederNo) : Prop :=
  (∀ (before after : List BayNo) (b : BayNo), (a.feeder f).grants = before ++ b :: after → ∃ (x : Session) (h n : Nat),
    h = a.headroom f - (before.map fun c => d.grantOf c - a.grantOf c).sum ∧ n = x.grant + min (x.cap - x.grant) h ∧
    a.session b = some x ∧ d.session b = some { x with grant := n } ∧ d.posts[b] = { enabled := true, limit := n }) ∧
  (∀ b : BayNo, b ∉ (a.feeder f).grants → d.session b = a.session b ∧ d.posts[b] = a.posts[b]) ∧
  d = { a with sessions := d.sessions, posts := d.posts }

/-- BUDGET_CUT for each feeder, F0 to F3, whose granted total exceeds its ceiling by `ceil` (R123). -/
def Allocator.cutRaises (a : Allocator) (ceil : FeederNo → Nat) : List (Sender × Raise) :=
  (List.finRange 4).filterMap fun f => if ceil f < a.granted f then some (.allocator, .budgetCut) else none

/-- Feeder `f` rebalanced, from allocator `a` to allocator `d`, by the four steps of R126: the switch, the cut where the
granted total exceeds the ceiling, the service, the top-up. -/
def Allocator.Rebalanced (f : FeederNo) (a d : Allocator) : Prop :=
  ∃ b c e : Allocator,
    b = { a with feeders := setAt a.feeders f { a.feeder f with
      budget := if (a.feeder f).switchPending then (a.feeder f).staged else (a.feeder f).budget
      switchPending := false } } ∧
    c = (if b.ceiling f < b.granted f then b.cut f else b) ∧ c.QueueServed e f ∧ e.ToppedUp d f

/-- Feeder `f` after its ceiling has changed from `old` to that of allocator `a` (R124): a rise serves the queue, a fall
below the granted total cuts, and any other change does no work. -/
def Allocator.CeilingChanged (a d : Allocator) (f : FeederNo) (old : Nat) : Prop :=
  (old < a.ceiling f → a.QueueServed d f) ∧
  (a.ceiling f < old → a.ceiling f < a.granted f → d = a.cut f) ∧
  (a.ceiling f < old → a.granted f ≤ a.ceiling f → d = a) ∧ (a.ceiling f = old → d = a)

/-- Every session with feeder, draw and cap kept, none newly SUSPENDED; where its feeder is not cut, its grant no lower and
a CHARGING one still CHARGING (R126). -/
def Allocator.OnlyRaised (a d : Allocator) (cut : FeederNo → Prop) : Prop :=
  ∀ b : BayNo, (a.session b = none → d.session b = none) ∧ ∀ x : Session, a.session b = some x → ∃ y : Session,
    d.session b = some y ∧ y.feeder = x.feeder ∧ y.draw = x.draw ∧ y.cap = x.cap ∧
    (y.phase = .suspended ↔ x.phase = .suspended) ∧
    (¬cut x.feeder → x.grant ≤ y.grant ∧ (x.phase = .charging → y.phase = .charging))

/-- A SUSPENDED session whose bay is at CONTINUE or TRICKLE makes a session request at the exit from HALT (R125). -/
def Allocator.resumedBy (maxDraw : BayNo → Nat) (a : Allocator) (b : BayNo) : Allocator :=
  match a.session b with
  | none => a
  | some x =>
    if x.phase = .suspended ∧ (a.actions[b] = .continue ∨ a.actions[b] = .trickle) then a.placedBy b (maxDraw b) x else a

/-- Every session SUSPENDED with grant 0, every list emptied, every post command disabled (R125, R132). -/
def Allocator.givenBack (a : Allocator) : Allocator :=
  { a with
    sessions := Vector.ofFn fun b => (a.session b).map fun x => { x with grant := 0, phase := .suspended }
    posts := Vector.ofFn fun _ => { enabled := false, limit := 0 }
    feeders := Vector.ofFn fun f => { a.feeder f with grants := [], queue := [] } }

/-- Allocator `d` is allocator `a` after the effective action of bay `b` has become another, `new` (R129, the table row by
row): the action is noted, and the bay's session has its cap recomputed and is lowered to 6, suspended, placed anew or
left. The rows that the table does not have, from an action to itself, do not arise. -/
def Allocator.Curtailed (a d : Allocator) (b : BayNo) (new : Action) (maxDraw : Nat) : Prop :=
  ∀ e : Allocator, e = { a with actions := setAt a.actions b new } →
    (a.session b = none → d = e) ∧
    ∀ x y : Session, a.session b = some x → y = { x with cap := if new = .trickle then 6 else min x.draw maxDraw } →
      (a.actions[b] = .continue → new = .trickle → x.phase = .charging → ∃ m : Allocator, m.QueueServed d x.feeder ∧
        m = { e with
          sessions := setAt e.sessions b (some { y with grant := min x.grant 6 })
          posts := setAt e.posts b { enabled := true, limit := min x.grant 6 } }) ∧
      ((a.actions[b] = .continue ∨ a.actions[b] = .trickle) → new = .stop ∨ new = .close → x.phase ≠ .suspended →
        ∃ m : Allocator, m.QueueServed d x.feeder ∧
          m = { e with
            sessions := setAt e.sessions b (some { y with grant := 0, phase := .suspended })
            posts := setAt e.posts b { enabled := false, limit := 0 }
            feeders := setAt e.feeders x.feeder { e.feeder x.feeder with
              grants := (e.feeder x.feeder).grants.filter (· != b), queue := (e.feeder x.feeder).queue.filter (· != b) } }) ∧
      (a.actions[b] = .stop ∨ a.actions[b] = .close → new = .continue ∨ new = .trickle → x.phase = .suspended →
        d = e.placedBy b maxDraw x) ∧
      (a.actions[b] = .trickle ∧ new = .continue ∨ a.actions[b] = .continue ∧ new = .trickle ∧ x.phase ≠ .charging ∨
          (new = .stop ∨ new = .close) ∧ x.phase = .suspended →
        d = { e with
          sessions := setAt e.sessions b (some y)
          posts := setAt e.posts b
            (if x.phase = .charging then { enabled := true, limit := x.grant } else { enabled := false, limit := 0 }) })

/-! ## Changes of effective action and of supply state, modules and timers, for the statements -/

/-- Bay `b` of a lost module (R101): DISABLED it stays; FAULTED it gets its sticky flag and keeps its cause; in service it
is lost with cause LINK_LOST and gets its sticky flag. -/
def Blocks.LinkLost (b : BayNo) (p q : Blocks) : Prop :=
  ((p.bay b).state = .disabled → q = p) ∧
  ((p.bay b).state = .faulted →
    q = { p with bays := { p.bays with bays := setAt p.bays.bays b { p.bay b with sticky := true } } }) ∧
  ((p.bay b).state ≠ .disabled → (p.bay b).state ≠ .faulted →
    p.BayLost q b { p.bay b with
      sticky := true, state := .faulted, faultCause := some .linkLost, origin := none, window := 0, sign := .out }
      .linkLost .fault)

/-- What a report of an ONLINE module yields for its bay `i` (R100): a fault event and a presence event where the level
differs from the one held, in this order, and a done report where the post is marked. -/
def Blocks.Reported (k : ModuleNo) (rep : ModuleReport) (i : Fin 8) (p q : Blocks) : Prop :=
  ∃ m n : Blocks,
    m = (if rep.fault.getLsbD i = (p.bay (bayAt k i)).faultLine then p
      else p.faultEvent (bayAt k i) (rep.fault.getLsbD i)) ∧
    n = (if rep.presence.getLsbD i = (m.bay (bayAt k i)).presence then m
      else m.presenceEvent (bayAt k i) (rep.presence.getLsbD i)) ∧
    q = if rep.done.getLsbD i then n.doneReport (bayAt k i) else n

/-- One crystal period at module `k`'s silence count (R100, R101): in its last period the count expires, which is the
event MODULE_LOST. -/
def State.SilenceCounted (s : State) (k : ModuleNo) (p q : Blocks) : Prop :=
  match p.moduleState k with
  | .offline => q = p
  | .online n =>
    if n + 1 < Config.silencePeriods then
      q = { p with bays := { p.bays with modules := setAt p.bays.modules k (.online (n + 1)) } }
    else exec (.moduleLost k) { s with blocks := p } = .next { s with blocks := q }

/-- Blocks `q` are blocks `p` after the effective action of bay `b` has become `new` (R145, R146): the supply and group
unit's action, the allocator's session, the bay entry with its sign, and at the book a close reached or lifted. Where
the action stays nothing changes. -/
def Blocks.ActionTaken (p q : Blocks) (b : BayNo) (new : Action) : Prop :=
  (p.supply.actions[b] = new → q = p) ∧
  (p.supply.actions[b] ≠ new → ∃ m : Blocks,
    (p.alloc.ListsSound → p.alloc.Curtailed m.alloc b new (p.bay b).config.maxDraw) ∧
    m = { p with
      supply := { p.supply with actions := setAt p.supply.actions b new }, alloc := m.alloc
      bays := { p.bays with
        bays := setAt p.bays.bays b { p.bay b with action := new, sign := signOf (p.bay b).state new } } } ∧
    if new = .close then m.EntryDue q b .closed
    else if p.supply.actions[b] = .close then q = { m with reloc := m.reloc.filter (· != .bay b .closed) }
    else q = m)

/-- Every effective action recomputed for the supply unit's levels `u`, bay by bay in ascending order (R144, R145), and
told to the allocator, the bay unit and the book (R129, R146). Where no bay reaches CLOSE, the book, the notices and the
messages are as they were. No other block has changed. -/
def Blocks.Recomputed (p q : Blocks) (u : SupplyUnit) : Prop :=
  InTurn (fun (b : BayNo) (x y : Blocks) => x.ActionTaken y b (u.actionFor (p.bay b).config)) (List.finRange 96)
    { p with supply := u } q ∧
  q.supply = { u with actions := q.supply.actions } ∧
  (∀ b : BayNo, q.supply.actions[b] = u.actionFor (p.bay b).config ∧ q.alloc.actions[b] = q.supply.actions[b] ∧
    q.bay b = { p.bay b with action := q.supply.actions[b], sign := (q.bay b).sign } ∧
    (q.supply.actions[b] ≠ p.supply.actions[b] → (q.bay b).sign = signOf (p.bay b).state q.supply.actions[b]) ∧
    (q.supply.actions[b] = .close → p.supply.actions[b] ≠ .close → p.book.pendingOn b ≠ [] →
      (q.bayEntry b).isSome ∨ q.book.pendingOn b = []) ∧
    (q.supply.actions[b] ≠ .close → p.supply.actions[b] = .close → q.bayEntry b ≠ some .closed) ∧
    ((q.supply.actions[b] = .close ↔ p.supply.actions[b] = .close) → q.bayEntry b = p.bayEntry b)) ∧
  ((∀ b : BayNo, q.supply.actions[b] = .close → p.supply.actions[b] = .close) →
    q.book = p.book ∧ q.notices = p.notices ∧ q.mail = p.mail) ∧
  (p.alloc.ListsSound → q.alloc.ListsSound) ∧
  q = { p with
    supply := q.supply, alloc := q.alloc, bays := { p.bays with bays := q.bays.bays }, book := q.book
    reloc := q.reloc, notices := q.notices, mail := q.mail }

/-- The supply state has changed to `new` (R134, R135): the settle counter is loaded on entry to RETURNING and is 0
otherwise, the allocator works under the new ceilings, and SUPPLY_CHANGED is raised where another ceiling applies. At
the allocator (R124, R125): into HALT everything is given back; out of HALT the SUSPENDED sessions are placed, in
ascending bay order; between two other states each feeder takes the change of its ceiling, and BUDGET_CUT is raised for
each that is cut; between RETURNING and RESERVE there is no work. No other block has changed. -/
def Blocks.SupplyChangedTo (p q : Blocks) (new : SupplyState) : Prop :=
  q.supply = { p.supply with state := new, counter := if new = .returning then p.params.settle else 0 } ∧
  q.alloc.supply = new ∧ q.alloc.actions = p.alloc.actions ∧
  (∀ f : FeederNo, (q.alloc.feeder f).budget = (p.alloc.feeder f).budget ∧
    (q.alloc.feeder f).reserve = (p.alloc.feeder f).reserve ∧ (q.alloc.feeder f).staged = (p.alloc.feeder f).staged ∧
    (q.alloc.feeder f).switchPending = (p.alloc.feeder f).switchPending) ∧
  (∀ a : Allocator, a = { p.alloc with supply := new } →
    (new = .halt → q.alloc = a.givenBack ∧ q.mail = p.mail) ∧
    (new ≠ .halt → p.alloc.supply = .halt → q.mail = p.mail ∧
      q.alloc = (List.finRange 96).foldl (Allocator.resumedBy fun b => (p.bay b).config.maxDraw) a) ∧
    (new ≠ .halt → p.alloc.supply ≠ .halt → p.alloc.Sound →
      InTurn (fun (f : FeederNo) (x y : Allocator) => x.CeilingChanged y f (p.alloc.ceiling f)) (List.finRange 4) a q.alloc ∧
      q.mail = { p.mail with raises := p.mail.raises ++ p.alloc.cutRaises a.ceiling }) ∧
    (p.alloc.supply = .returning ∧ new = .reserve ∨ p.alloc.supply = .reserve ∧ new = .returning →
      q.alloc = a ∧ q.mail = p.mail)) ∧
  q.notices =
    (if p.supply.state = .returning ∧ new = .reserve ∨ p.supply.state = .reserve ∧ new = .returning then p.notices
     else { p.notices with supplyChanged := true, attn := { p.notices with supplyChanged := true }.wantsAttn }) ∧
  q = { p with supply := q.supply, alloc := q.alloc, notices := q.notices, mail := q.mail }

/-- The candidate bays of a record's target search (R111, R62). -/
def Blocks.targets (p : Blocks) (r : Record) : List BayNo :=
  match r.originZone with
  | .direct => (List.finRange 96).filter (· != r.bay)
  | .zone z =>
    if (p.zones.descriptor r.originClass z).access = .closed then []
    else (p.zones.descriptor r.originClass z).run.filter (· != r.bay)

/-- The candidate `b` is eligible for the record `r` (R111). -/
def Blocks.Takes (p : Blocks) (r : Record) (b : BayNo) : Prop :=
  p.available b = true ∧ fits r.originClass r.accessible (p.bay b).config.cls = true ∧
  (p.book.slotsOn b).length < 10 ∧ fitsGap p.params.turnoverGap r.start r.length (p.book.timeline b) = true ∧
  (r.state = .held → r.start ≤ p.clock.minute → (p.bay b).state = .vacant)

/-- Blocks `q` are blocks `p` after the record `r` in slot `sl` has been moved to bay `b` (R112). No other block has
changed. -/
def Blocks.MovedTo (p q : Blocks) (sl : Slot) (r : Record) (b : BayNo) : Prop :=
  q.book.rec? sl = some { r with bay := b, moves := min (r.moves + 1) 7, relocPending := false } ∧
  (∀ x : Slot, x ≠ sl → q.book.rec? x = p.book.rec? x) ∧
  q.book.slotsOn r.bay = (p.book.slotsOn r.bay).filter (· != sl) ∧
  q.book.slotsOn b = insertByStart q.book.startOf r.start sl (p.book.slotsOn b) ∧
  (∀ b' : BayNo, b' ≠ r.bay → b' ≠ b → q.book.slotsOn b' = p.book.slotsOn b') ∧
  q.book.tokens = p.book.tokens ∧ q.book.gens = p.book.gens ∧ q.book.free = p.book.free ∧
  q.book.settled = p.book.settled ∧ p.zones.MarkedFor q.zones r ∧
  q.reloc = (if r.relocPending then p.reloc.filter (· != .record r.ticket) else p.reloc) ∧
  q.mail = { p.mail with
    toBays := p.mail.toBays ++ (if r.state = .held ∧ p.book.hasHeld b = false then [.hold b] else []) ++
      (if r.state = .held ∧ q.book.hasHeld r.bay = false then [.unhold r.bay] else [])
    raises := p.mail.raises ++ [(.book, .relocated)] } ∧
  (∀ b' : BayNo, q.book.heldReport[b'] =
    if b' = b ∧ r.state = .held ∧ p.book.hasHeld b = false then true
    else if b' = r.bay ∧ r.state = .held ∧ q.book.hasHeld r.bay = false then false
    else p.book.heldReport[b']) ∧
  q = { p with book := q.book, zones := q.zones, reloc := q.reloc, mail := q.mail }

end Sys2Proof.Machine
end

