-- ==== Sys2Proof/Certificates/Slice0/Obligations.lean ====
section
/-! DEFINITION. The statements about the part: the machine and reset, the invariants every step keeps, the wire and the
ports, the requests, relocation, and the events that come from no port. -/

open Sys2Proof Sys2Proof.Machine

/-! ## The machine -/

/-- A step takes the command at the front of the queue and runs it with the queue's rest. The queue is the model's. -/
def Obligations.StepTakesTheFront : Prop :=
  ∀ (c : Instr) (rest : List Instr) (s : State),
    step { s with pending := c :: rest } = exec c { s with pending := rest }

/-- No command faults or is refused, none touches the queue, and every step gives a next state. That a command whose event
is not due changes nothing, and that the queue survives reset, are the model's choices (logs 1 and 6). -/
def Obligations.EveryCommandGivesANextState : Prop :=
  (∀ (c : Instr) (s : State), ∃ t, exec c s = .next t ∧ t.pending = s.pending) ∧ ∀ s : State, ∃ t, step s = .next t

/-- A step on an empty queue is one crystal period (the model's choice, log 2): the silence counts of the ONLINE
modules, in ascending order, and the minute phase advance by one (R100, R64). A count in its last period expires, which
is the event MODULE_LOST (R101), its bays in the order of the model's choice (log 31). At the period that completes the
minute the boundary is delivered (R67); that the power allocator is sent the boundaries of multiples of 5 alone is the
model's choice (log 22). -/
def Obligations.EmptyQueueIsOneCrystalPeriod : Prop :=
  ∀ s : State, s.pending = [] →
    (s.resetLow = true → step s = .next s) ∧
    (s.resetLow = false →
      ∃ p q : Blocks, step s = .next { s with blocks := q } ∧
        InTurn s.SilenceCounted (List.finRange 12) s.blocks p ∧
        p.clock = s.blocks.clock ∧ p.boundaries = s.blocks.boundaries ∧
        q = { p with clock := q.clock, boundaries := q.boundaries } ∧
        ((∀ (k : ModuleNo) (n : Nat), s.blocks.moduleState k = .online n → n + 1 < Config.silencePeriods) →
          p = { s.blocks with bays := { s.blocks.bays with modules := p.bays.modules } } ∧
          ∀ k : ModuleNo, p.moduleState k =
            match s.blocks.moduleState k with
            | .offline => .offline
            | .online n => .online (n + 1)) ∧
        (s.blocks.clock.phase + 1 < Config.minutePeriods →
          q.clock = { s.blocks.clock with phase := s.blocks.clock.phase + 1 } ∧
          q.boundaries = s.blocks.boundaries) ∧
        (Config.minutePeriods ≤ s.blocks.clock.phase + 1 →
          ∃ m, m = min (s.blocks.clock.minute + 1) 4294967295 ∧
            q.clock = { minute := m, isSet := s.blocks.clock.isSet, phase := 0 } ∧
            q.boundaries.book = s.blocks.boundaries.book ++ [m] ∧
            q.boundaries.bays = s.blocks.boundaries.bays ++ [m] ∧
            q.boundaries.supply = s.blocks.boundaries.supply ++ [m] ∧
            q.boundaries.alloc = s.blocks.boundaries.alloc ++ (if m % 5 = 0 then [m] else [])))

/-! ## Reset -/

/-- RESET low puts every block, both ports and the arbiter into the power-on state; its return high leaves that state,
with the three lines as they then read (R157, R134, R148). The queue of commands is the model's and stays (log 6).
While RESET is low no command but the two of the RESET line has an effect, and READY and ATTN are low (R157). -/
def Obligations.ResetLineHoldsAndReleases : Prop :=
  ((∀ s : State, exec .powerOnReset s = .next
     { blocks := Blocks.powerOn false false false, site := SitePort.powerOn, ramp := RampPort.powerOn
       lastServed := .relocation, resetLow := true, pending := s.pending }) ∧
   (∀ (s : State) (m d a : Bool), s.resetLow = true → s.ResetHeld → exec (.resetRelease m d a) s = .next
     { blocks := Blocks.powerOn m d a, site := SitePort.powerOn, ramp := RampPort.powerOn
       lastServed := .relocation, resetLow := false, pending := s.pending }) ∧
   (∀ (s : State) (m d a : Bool), s.resetLow = false → exec (.resetRelease m d a) s = .next s)) ∧
  (∀ (c : Instr) (s : State), s.resetLow = true → c ≠ .powerOnReset → (∀ m d a, c ≠ .resetRelease m d a) →
     exec c s = .next s ∧ (s.ResetHeld → s.site.ready = false ∧ s.blocks.notices.attn = false))

/-- The pool right after reset (R22): no record, every slot free in ascending order, generations 0, everything empty,
both pool conditions false, and the first record created from this pool takes slot 0 with generation 0. -/
def Obligations.PoolRightAfterReset : Prop :=
  ∀ k : Book, k = State.reset.blocks.book →
    (∀ sl : Slot, k.rec? sl = none ∧ k.gens[sl] = 0) ∧ k.free = List.finRange 640 ∧
    k.settled = [] ∧ (∀ b : BayNo, k.slotsOn b = []) ∧ k.tokens = [] ∧ k.free.length = 640 ∧ k.settled.length = 0 ∧
    k.poolLow State.reset.blocks.params.poolLow = false ∧ k.settledWaiting = false ∧
    State.reset.blocks.notices.poolLow = false ∧ State.reset.blocks.notices.settledWaiting = false ∧
    ∀ r : Record, ∃ (k' : Book) (r' : Record),
      k.create r = some (k', r') ∧ r'.ticket = { slot := 0, gen := 0 } ∧ k'.rec? 0 = some r'

/-- The other blocks right after reset (R63, R64, R103, R104, R133, R134, R148, R149, R160 to R165). That the three
lines read low is State.reset's choice (log 4); the module polled first, and that no bytes are held on SPI_OUT, are the
model's (logs 5, 7). -/
def Obligations.OtherBlocksRightAfterReset : Prop :=
  ∀ s : State, s = State.reset →
    s.blocks.clock = { minute := 0, isSet := false, phase := 0 } ∧ s.blocks.level = .configuring ∧
    s.blocks.params =
      { holdLead := 15, turnoverGap := 10, defaultGrace := 15, claimWindow := 5, settle := 3, poolLow := 32 } ∧
    (∀ (c : Machine.Class) (z : ZoneNo), s.blocks.zones.descriptor c z =
      { base := 0, length := 1, direction := .up, access := .closed, used := false }) ∧
    s.blocks.zones.captured = none ∧ s.blocks.zones.more = false ∧ s.blocks.reloc = [] ∧
    (∀ b : BayNo, s.blocks.bay b =
      { config :=
          { feeder := 0, cls := .standard, maxDraw := 32, groups := #v[false, false, false], quiet := .continue
            clear := .stop, autocut := true, rejoin := false }
        state := .disabled, presence := false, faultLine := false, sticky := false, faultCause := none
        heldMark := false, window := 0, origin := none, action := .continue, sign := .out } ∧
      s.blocks.alloc.posts[b] = { enabled := false, limit := 0 } ∧ s.blocks.alloc.session b = none ∧
      s.blocks.supply.actions[b] = .continue ∧ s.blocks.alloc.actions[b] = .continue ∧
      s.blocks.book.heldReport[b] = false) ∧
    (∀ k : ModuleNo, s.blocks.moduleState k = .offline) ∧ s.blocks.bays.nextPoll = 0 ∧ s.blocks.bays.lastPoll = none ∧
    s.blocks.supply.mainsOk = false ∧ s.blocks.supply.dr = false ∧ s.blocks.supply.alarm = false ∧
    (∀ f : FeederNo, s.blocks.alloc.feeder f =
      { budget := 0, staged := 0, switchPending := false, reserve := 0, grants := [], queue := [] } ∧
      s.blocks.alloc.ceiling f = 0) ∧
    s.blocks.supply.state = .halt ∧ s.blocks.alloc.supply = .halt ∧ s.blocks.supply.target = .mains ∧
    s.blocks.supply.counter = 0 ∧ s.blocks.supply.sites = #v[.normal, .normal, .normal] ∧
    s.blocks.notices.causes = List.replicate 14 false ∧ s.blocks.notices.mask = 0x3FFF#16 ∧
    s.blocks.notices.attn = false ∧ s.blocks.mail = { toBays := [], toAlloc := [], toReloc := [], raises := [] } ∧
    s.blocks.boundaries = { book := [], bays := [], supply := [], alloc := [] } ∧
    s.site.slot = none ∧ s.site.response = none ∧ s.site.ready = false ∧ s.site.spiOut = [] ∧
    s.ramp = { receiving := false, slot := none, tx := none } ∧ s.lastServed = .relocation

/-- Every invariant below holds right after reset. -/
def Obligations.InvariantsHoldRightAfterReset : Prop :=
  State.reset.ResetHeld ∧ State.reset.PortsSound ∧ State.reset.blocks.SupplySound ∧ State.reset.blocks.CountsInRange ∧
  State.reset.blocks.BaysSound ∧ State.reset.blocks.CopiesAgree ∧ State.reset.blocks.ActionsFollowGroups ∧
  State.reset.blocks.TimelinesSound ∧ State.reset.blocks.TokensSound ∧ State.reset.blocks.alloc.Sound ∧
  State.reset.blocks.GrantsSound ∧ State.reset.blocks.RelocSound ∧ State.reset.blocks.RecordEntriesSound

/-! ## The invariants every step keeps -/

/-- While RESET is low the power-on state stands (R157); READY, the response slot and the transmitter follow the
request slots (R160, R161). -/
def Obligations.StepKeepsPortsAndResetSound : Prop :=
  ∀ s t : State, s.ResetHeld ∧ s.PortsSound → step s = .next t → t.ResetHeld ∧ t.PortsSound

/-- The settle counter is 0 outside RETURNING, and MAINS is in force only while MAINS_OK is high (R134). Level minute,
minute phase, silence counts and parameters stay in their ranges (R64, R65, R100, R151). -/
def Obligations.StepKeepsSupplyAndCounts : Prop :=
  (∀ s t : State, s.ResetHeld ∧ s.blocks.SupplySound → step s = .next t → t.ResetHeld ∧ t.blocks.SupplySound) ∧
  (∀ s t : State, s.ResetHeld ∧ s.blocks.CountsInRange → step s = .next t → t.ResetHeld ∧ t.blocks.CountsInRange)

/-- Every bay entry's items agree with its state (R82, R83, R87), and no bay of an OFFLINE module is in service
(R102). -/
def Obligations.StepKeepsBayEntriesSound : Prop :=
  ∀ s t : State, s.ResetHeld ∧ s.blocks.BaysSound → step s = .next t → t.ResetHeld ∧ t.blocks.BaysSound

/-- Every copy equals its original (R135, R145), every post command is its session's (R84), ATTN and the level flags
follow what they are derived from (R165, R20). Every bay's effective action is the one its groups give (R144). -/
def Obligations.StepKeepsCopiesAndActions : Prop :=
  ∀ s t : State,
    s.ResetHeld ∧ s.blocks.book.Sound ∧ s.blocks.CopiesAgree ∧ s.blocks.ActionsFollowGroups → step s = .next t →
      t.ResetHeld ∧ t.blocks.book.Sound ∧ t.blocks.CopiesAgree ∧ t.blocks.ActionsFollowGroups

/-- Every slot is in exactly one place and every ticket is its slot with the slot's generation (R8, R12, R13, R24, R5,
R3). -/
def Obligations.StepKeepsBookSound : Prop :=
  ∀ s t : State, s.ResetHeld ∧ s.blocks.book.Sound → step s = .next t → t.ResetHeld ∧ t.blocks.book.Sound

/-- On every timeline each record's end plus the turnover gap is at most every later start, at most 10 records stand
on it, and lengths stay in 15..720 (R24, R25, R26, R29, R43). The token index lists exactly each token's live
records, at most 3, ascending and without overlap (R27). The order of the entries among themselves is the model's
(log 25). -/
def Obligations.StepKeepsTimelinesAndTokens : Prop :=
  (∀ s t : State, s.ResetHeld ∧ s.blocks.TimelinesSound → step s = .next t → t.ResetHeld ∧ t.blocks.TimelinesSound) ∧
  (∀ s t : State, s.ResetHeld ∧ s.blocks.TokensSound → step s = .next t → t.ResetHeld ∧ t.blocks.TokensSound)

/-- Sessions stand where their phase says (R117), and no feeder's granted total exceeds its ceiling (R119). -/
def Obligations.StepKeepsGrantsWithinCeilings : Prop :=
  ∀ s t : State, s.ResetHeld ∧ s.blocks.alloc.Sound → step s = .next t → t.ResetHeld ∧ t.blocks.alloc.Sound

/-- Every grant is 0 or between 6 and its cap, every cap is at least 6 and is 6 under TRICKLE, a session under STOP or
CLOSE or in HALT is SUSPENDED, and a feeder with a session waiting has headroom below 6 (R118, R120, R122, R125). -/
def Obligations.StepKeepsGrantsInRange : Prop :=
  ∀ s t : State, s.ResetHeld ∧ s.blocks.GrantsSound → step s = .next t → t.ResetHeld ∧ t.blocks.GrantsSound

/-- The relocation list holds at most 128 entries, at most one BAY entry for any bay and at most one RECORD entry for any
record, and a live record is relocation-pending exactly while such an entry is listed (R104). An entry outlives its
record only while the removal that settlement sent is on its way (R107); the second half is of the states in which no
such removal names the ticket that the next record would get. -/
def Obligations.StepKeepsRelocationListSound : Prop :=
  (∀ s t : State, s.ResetHeld ∧ s.blocks.RelocSound → step s = .next t → t.ResetHeld ∧ t.blocks.RelocSound) ∧
  (∀ s t : State, s.ResetHeld ∧ s.blocks.book.Sound ∧ s.blocks.RecordEntriesSound → s.blocks.NextTicketClear →
    step s = .next t → t.ResetHeld ∧ t.blocks.book.Sound ∧ t.blocks.RecordEntriesSound)

/-! ## The wire and the ports -/

/-- The frame check passes exactly the frames laid out as R171 gives with a body of at most 512 bytes and the CRC of
R159, on either port (R159, R161), the ramp's being of class PUBLIC (R49); every such ramp frame is a whole frame. The
CRC of the nine digits is 0x29B1. The class byte held with a ramp request is the model's (log 24). -/
def Obligations.FrameCheckPassesExactlyTheFrames : Prop :=
  (∀ (bytes : List Byte) (r : Request),
    parseSite bytes = some r ↔ r.body.length ≤ 512 ∧
      bytes = [r.tag, r.kind, r.cls] ++ be 2 r.body.length ++ r.body ++
        be 2 (crc16 ([r.tag, r.kind, r.cls] ++ be 2 r.body.length ++ r.body)).toNat) ∧
  (∀ (bytes : List Byte) (r : Request),
    parseRamp bytes = some r ↔ r.cls = 1#8 ∧ r.body.length ≤ 512 ∧
      bytes = [r.tag, r.kind] ++ be 2 r.body.length ++ r.body ++
        be 2 (crc16 ([r.tag, r.kind] ++ be 2 r.body.length ++ r.body)).toNat) ∧
  (∀ (bytes : List Byte) (r : Request), parseRamp bytes = some r → rampComplete bytes = true) ∧
  crc16 [0x31#8, 0x32#8, 0x33#8, 0x34#8, 0x35#8, 0x36#8, 0x37#8, 0x38#8, 0x39#8] = 0x29B1#16

/-- The bodies of the three booking requests: every booking in range, laid out as R170 gives, is read back field for
field (02 section 2.4). The start of BOOK NOW is the minute rounded down to a multiple of 5 (R38). The body of
CONFIGURE BAY, laid out as R81 and R170 give, is read back field for field. So are the ticket and the token of the
requests that name one (R7, R14, R18, R45, R90), a token of zero from OPERATOR alone, the extension of EXTEND (R43), the
ticket of END SESSION beside any token (R16; that it stands first is the model's reading, log 14), and the zone and
index, or the bay, of LIST BAY (R47). -/
def Obligations.RequestBodiesAreReadBack : Prop :=
  (∀ f : Booking, f.inRange = true → f.start < 4294967296 →
     (∀ (z : ZoneNo) (i : Nat), i < 256 → bookBayFields (be 8 f.token.toNat ++ be 1 z.val ++ be 1 i ++ be 4 f.start ++
       be 2 f.length ++ optNum 2 f.grace ++ be 2 f.draw ++ flag f.accessible) = some (.zone z i, f)) ∧
     (∀ b : BayNo, bookBayFields (be 8 f.token.toNat ++ be 1 255 ++ be 1 b.val ++ be 4 f.start ++
       be 2 f.length ++ optNum 2 f.grace ++ be 2 f.draw ++ flag f.accessible) = some (.direct b, f)) ∧
     (∀ z : ZoneNo, bookZoneFields (be 8 f.token.toNat ++ be 1 z.val ++ be 4 f.start ++
       be 2 f.length ++ optNum 2 f.grace ++ be 2 f.draw ++ flag f.accessible) = some (z, f)) ∧
     (∀ (m : Nat) (z : ZoneNo) (i : Nat), i < 256 → bookNowFields m (be 8 f.token.toNat ++ be 1 z.val ++ be 1 i ++
       be 2 f.length ++ be 2 f.draw ++ flag f.accessible) = some (.zone z i, { f with start := m - m % 5, grace := none })) ∧
     (∀ (m : Nat) (b : BayNo), bookNowFields m (be 8 f.token.toNat ++ be 1 255 ++ be 1 b.val ++
       be 2 f.length ++ be 2 f.draw ++ flag f.accessible) = some (.direct b, { f with start := m - m % 5, grace := none }))) ∧
  (∀ (b : BayNo) (x : BayConfig), 6 ≤ x.maxDraw → x.maxDraw ≤ 80 →
     configureFields (be 1 b.val ++ be 1 x.feeder.val ++ be 1 x.cls.code ++ be 2 x.maxDraw ++
       be 1 ((if x.groups[0] then 1 else 0) + (if x.groups[1] then 2 else 0) + (if x.groups[2] then 4 else 0)) ++
       be 1 x.quiet.code ++ be 1 x.clear.code ++ flag x.autocut ++ flag x.rejoin) = some (b, x)) ∧
  (∀ (t : Ticket) (token : Token) (named : List Byte), t.slot < 65536 → t.gen < 256 →
     named = be 2 t.slot ++ be 1 t.gen ++ be 8 token.toNat →
     endSessionFields named = some t ∧
     ∀ c : Machine.Class, c = .operator ∨ token ≠ 0 →
       ticketFields c named = some (t, token) ∧
       ∀ ext : Nat, 5 ≤ ext → ext ≤ 240 → ext % 5 = 0 → extendFields c (named ++ be 2 ext) = some (t, token, ext)) ∧
  (∀ (z : ZoneNo) (i : Nat), i < 256 → listBayFields (be 1 z.val ++ be 1 i) = some (.zone z i)) ∧
  (∀ b : BayNo, listBayFields (be 1 255 ++ be 1 b.val) = some (.direct b))

/-- A write transfer (R159, R160): a frame that fails raises FRAME_ERROR, one that meets an occupied slot raises
PORT_OVERRUN, one that passes with the slot empty is placed in it; 0x00 is shifted out throughout. A transfer that is
neither a write nor a read raises FRAME_ERROR. A read transfer of `n` bytes (R160): with READY low the empty frame
goes out and nothing else changes; with READY high the response goes out from its first byte, and only a read of the
whole of it empties both slots and takes READY low. What SITE_READ counts, how SPI_OUT is held and that 0x00 follows the
empty frame too are the model's (log 7). -/
def Obligations.SiteTransfersAct : Prop :=
  (∀ (s : State) (bytes : List Byte), s.resetLow = false →
     (parseSite bytes = none → exec (.siteWrite bytes) s = .next
       { s with
         site := { s.site with spiOut := List.replicate (bytes.length + 1) 0#8 }
         blocks := { s.blocks with mail := { s.blocks.mail with
           raises := s.blocks.mail.raises ++ [(.sitePort, .frameError)] } } }) ∧
     (∀ r, parseSite bytes = some r → s.site.slot ≠ none → exec (.siteWrite bytes) s = .next
       { s with
         site := { s.site with spiOut := List.replicate (bytes.length + 1) 0#8 }
         blocks := { s.blocks with mail := { s.blocks.mail with
           raises := s.blocks.mail.raises ++ [(.sitePort, .portOverrun)] } } }) ∧
     (∀ r, parseSite bytes = some r → s.site.slot = none → exec (.siteWrite bytes) s = .next
       { s with site := { s.site with
         slot := some { request := r, served := false }, spiOut := List.replicate (bytes.length + 1) 0#8 } }) ∧
     (bytes.head? ≠ some 1#8 → bytes.head? ≠ some 2#8 → exec (.siteBadTransfer bytes) s = .next
       { s with blocks := { s.blocks with mail := { s.blocks.mail with
         raises := s.blocks.mail.raises ++ [(.sitePort, .frameError)] } } })) ∧
  (∀ (s : State) (n : Nat), s.resetLow = false →
     (s.site.ready = false → ∀ e, e = [0#8, 0#8, 0#8, 0#8, 0#8] ++ be 2 (crc16 [0#8, 0#8, 0#8, 0#8, 0#8]).toNat →
       exec (.siteRead n) s = .next
         { s with site := { s.site with spiOut := e.take n ++ List.replicate (n - e.length) 0#8 } }) ∧
     (∀ x : Response, s.site.ready = true → s.site.response = some x → ∀ e,
       e = [x.tag, x.kind, x.status] ++ be 2 x.body.length ++ x.body ++
         be 2 (crc16 ([x.tag, x.kind, x.status] ++ be 2 x.body.length ++ x.body)).toNat →
       (n < e.length → exec (.siteRead n) s = .next { s with site := { s.site with spiOut := e.take n } }) ∧
       (e.length ≤ n → exec (.siteRead n) s = .next
         { s with site :=
           { slot := none, response := none, ready := false, spiOut := e ++ List.replicate (n - e.length) 0#8 } })))

/-- The ramp port (R161): 0x7E starts a frame; a whole frame taken while receiving is placed, or raises PORT_OVERRUN
at an occupied slot, or raises FRAME_ERROR where it fails; a pause fails the frame; after each of these the receiver
hunts; the last byte of a response empties the slot. A frame is taken whole (log 8). -/
def Obligations.RampPortTakesFrames : Prop :=
  ∀ s : State, s.resetLow = false →
    exec .rampFrameStart s = .next { s with ramp := { s.ramp with receiving := true } } ∧
    (s.ramp.receiving = true →
      (∀ bytes, rampComplete bytes = true →
        (parseRamp bytes = none → exec (.rampFrame bytes) s = .next
          { s with
            ramp := { s.ramp with receiving := false }
            blocks := { s.blocks with mail := { s.blocks.mail with
              raises := s.blocks.mail.raises ++ [(.rampPort, .frameError)] } } }) ∧
        (∀ r, parseRamp bytes = some r → s.ramp.slot ≠ none → exec (.rampFrame bytes) s = .next
          { s with
            ramp := { s.ramp with receiving := false }
            blocks := { s.blocks with mail := { s.blocks.mail with
              raises := s.blocks.mail.raises ++ [(.rampPort, .portOverrun)] } } }) ∧
        (∀ r, parseRamp bytes = some r → s.ramp.slot = none → exec (.rampFrame bytes) s = .next
          { s with ramp := { s.ramp with receiving := false, slot := some { request := r, served := false } } })) ∧
      exec .rampByteTimeout s = .next
        { s with
          ramp := { s.ramp with receiving := false }
          blocks := { s.blocks with mail := { s.blocks.mail with
            raises := s.blocks.mail.raises ++ [(.rampPort, .frameError)] } } }) ∧
    (s.ramp.tx ≠ none → exec .rampResponseSent s = .next { s with ramp := { s.ramp with slot := none, tx := none } })

/-- The arbiter's choice (R162): the first waiting source after the one served last, in the rotation SITE, RAMP,
RELOCATION; and which source is waiting. -/
def Obligations.ArbiterRotates : Prop :=
  ∀ s : State,
    (s.sourceWaits .site = true ↔ ∃ r, s.site.slot = some { request := r, served := false }) ∧
    (s.sourceWaits .ramp = true ↔ ∃ r, s.ramp.slot = some { request := r, served := false }) ∧
    (s.sourceWaits .relocation = true ↔ s.blocks.reloc ≠ []) ∧
    ∀ x y z : Source,
      (s.lastServed = .relocation ∧ x = .site ∧ y = .ramp ∧ z = .relocation ∨
       s.lastServed = .site ∧ x = .ramp ∧ y = .relocation ∧ z = .site ∨
       s.lastServed = .ramp ∧ x = .relocation ∧ y = .site ∧ z = .ramp) →
      s.nextTurn =
        if s.sourceWaits x then some x
        else if s.sourceWaits y then some y
        else if s.sourceWaits z then some z
        else none

/-- Every well-formed request in its service turn is answered (R160, R161, R162, R163): the response carries its tag
and kind; at the site port it waits in the response slot with READY high and the request slot stays occupied; at the
ramp port it is transmitted after the start byte; the port is remembered as the source served last. A request row acts
only in its own service turn (the model's reading of a row that is an internal event, log 1): where the turn is not
due, nothing changes. -/
def Obligations.RequestsActInTheirTurn : Prop :=
  (∀ (i : Instr) (s : State) (port : Port) (r : Request),
     i.wf = true → i.request = some (port, r) → s.turnDue port r = true →
     ∃ (q : Blocks) (x : Response), x.tag = r.tag ∧ x.kind = r.kind ∧ exec i s = .next
       (match port with
       | .site =>
         { s with
           blocks := q, lastServed := .site
           site := { s.site with slot := some { request := r, served := true }, response := some x, ready := true } }
       | .ramp =>
         { s with
           blocks := q, lastServed := .ramp
           ramp := { s.ramp with
             slot := some { request := r, served := true }
             tx := some (0x7E#8 :: ([x.tag, x.kind, x.status] ++ be 2 x.body.length ++ x.body ++
               be 2 (crc16 ([x.tag, x.kind, x.status] ++ be 2 x.body.length ++ x.body)).toNat)) } })) ∧
  (∀ (i : Instr) (s : State) (port : Port) (r : Request),
     i.request = some (port, r) → s.turnDue port r = false → exec i s = .next s)

/-! ## Requests: the checks common to all -/

/-- The port and class check (R49, R50): a known kind sent by a class or port that may not send it is refused
CLASS_DENIED, with no change; so is a class field that names no class. The body is empty but for kinds 29, 30 and 31
(R163, log 20). A kind that names no request is answered UNKNOWN_REQUEST on either port, whatever its class, and
nothing changes (R163). -/
def Obligations.ClassDeniedAndUnknownKind : Prop :=
  (∀ (i : Instr) (s : State) (port : Port) (r : Request),
     i.wf = true → i.request = some (port, r) → 1 ≤ r.kind.toNat → r.kind.toNat ≤ 36 → s.turnDue port r = true →
     (∀ c, classAt port r = some c → permitted r.kind.toNat port c = false) →
     exec i s = .next (s.finishTurn port r
       { blocks := s.blocks, status := .classDenied, body := refusalBody r.kind.toNat s.blocks })) ∧
  (∀ (s : State) (port : Port) (r : Request),
     s.turnDue port r = true → (r.kind.toNat = 0 ∨ 36 < r.kind.toNat) →
     exec (.unknownRequest port r) s = .next (s.finishTurn port r
       { blocks := s.blocks, status := .unknownRequest, body := [] }))

/-- A permitted request whose body is not as long as its fields call for (R163), or is and holds a field out of its range
(R7, R15, R19, R29, R43, R47, R59, R61, R65, R81, R96 to R99, R127, R128, R131, R136, R143, R151, R153, R168, R169), is refused
BAD_FIELD and changes nothing. The requests that are judged by the level state before their fields are taken here in that
state (R30, R65, R151), and DIRECT is taken from OPERATOR alone (R51). The number in a field is read most significant byte
first (R170). That a body of wrong length names no DIRECT is the model's choice (log 15), as are the bytes R170 gives no
meaning (log 16); the slot's width is its reading (log 30), and so is what such a refusal of kinds 29 to 31 carries (log 20). -/
def Obligations.WrongBodyLengthIsBadField : Prop :=
  (∀ (i : Instr) (s : State) (port : Port) (r : Request) (c : Machine.Class) (num : Nat → Nat → Nat),
    i.wf = true → i.request = some (port, r) → 1 ≤ r.kind.toNat → r.kind.toNat ≤ 36 →
    s.Serves r.kind.toNat port c r → permitted r.kind.toNat port c = true →
    (r.kind.toNat ≤ 3 → s.blocks.level = .opened) →
    (r.kind.toNat = 29 ∨ r.kind.toNat = 30 → s.blocks.level = .configuring) →
    (∀ off n : Nat, num off n = beNat ((r.body.drop off).take n)) →
    (r.body.length ≠ bodyLength r.kind.toNat → exec i s = .next (s.finishTurn port r
      { blocks := s.blocks, status := .badField, body := refusalBody r.kind.toNat s.blocks })) ∧
    (r.body.length = bodyLength r.kind.toNat → fieldOutOfRange r.kind.toNat c num →
      (r.kind.toNat = 1 ∨ r.kind.toNat = 3 → num 8 1 = 255 → c = .operator) →
      (r.kind.toNat = 9 → num 0 1 = 255 → c = .operator) → exec i s = .next (s.finishTurn port r
        { blocks := s.blocks, status := .badField, body := refusalBody r.kind.toNat s.blocks }))) ∧
  (∀ k v : Nat, v < 256 ^ k → (be k v).length = k ∧ beNat (be k v) = v)

/-- The resolution of a ticket (R6, R7), by the first case that applies. A ticket that does not resolve refuses the
six requests that name one, with the status of the resolution, and changes nothing (R6). END SESSION compares no token
(R16). -/
def Obligations.TicketsResolveOrRefuse : Prop :=
  (∀ (k : Book) (c : Machine.Class) (t : Ticket) (token : Token),
     (640 ≤ t.slot → k.resolve c t token = .error .noSuchTicket) ∧
     (∀ sl : Slot, t.slot = sl.val →
       (t.gen ≠ k.gens[sl] → k.resolve c t token = .error .staleTicket) ∧
       (t.gen = k.gens[sl] →
         (k.rec? sl = none → k.resolve c t token = .error .noSuchTicket) ∧
         (∀ r, k.rec? sl = some r →
           (c ≠ .operator ∧ token ≠ r.token → k.resolve c t token = .error .noSuchTicket) ∧
           (c = .operator ∨ token = r.token → k.resolve c t token = .ok (sl, r)))))) ∧
  (∀ (s : State) (port : Port) (c : Machine.Class) (r : Request) (t : Ticket) (token : Token) (st : Status),
     s.blocks.book.resolve c t token = .error st →
     ∀ a, a = s.finishTurn port r { blocks := s.blocks, status := st, body := [] } →
     (ticketFields c r.body = some (t, token) →
       (s.Serves 5 port c r → exec (.cancel port r) s = .next a) ∧
       (s.Serves 6 port c r → exec (.claim port r) s = .next a) ∧
       (s.Serves 7 port c r → exec (.lookupTicket port r) s = .next a) ∧
       (s.Serves 11 port c r → permitted 11 port c = true → exec (.collect port r) s = .next a)) ∧
     (∀ n, extendFields c r.body = some (t, token, n) → s.Serves 4 port c r → exec (.extendRecord port r) s = .next a) ∧
     (endSessionFields r.body = some t → s.Serves 10 port c r → permitted 10 port c = true →
       exec (.endSession port r) s = .next a))

/-! ## Requests: booking -/

/-- Translation of a zone and an index (R53), with its faults in order. The tests of checks 5, 6 and 12 (R31, R28,
R25): availability, the matrix of fit, and the gap against every record of a timeline whose records keep the gap among
themselves. -/
def Obligations.TranslationAvailabilityFitAndGap : Prop :=
  (∀ (d : Descriptor) (allows : Access → Bool) (i : Nat),
     (d.access = .closed → d.translate allows i = .error .notMapped) ∧
     (d.access ≠ .closed →
       (d.length ≤ i → d.translate allows i = .error .outOfZone) ∧
       (i < d.length →
         (d.direction = .up → 96 ≤ d.base.val + i → d.translate allows i = .error .outOfZone) ∧
         (d.direction = .down → d.base.val < i → d.translate allows i = .error .outOfZone) ∧
         (∀ b : BayNo, d.direction = .up ∧ b.val = d.base.val + i ∨ d.direction = .down ∧ b.val + i = d.base.val →
           d.translate allows i = if allows d.access then .ok b else .error .readOnly)))) ∧
  ((∀ (p : Blocks) (b : BayNo), p.available b = true ↔
     (p.bay b).state ≠ .disabled ∧ (p.bay b).state ≠ .faulted ∧ (p.bay b).action ≠ .close ∧
     ∀ x : Reason, Entry.bay b x ∉ p.reloc) ∧
   (∀ (c : Machine.Class) (need : Bool), (fits c need .standard = true ↔ need = false) ∧
     (fits c need .accessible = true ↔ need = true ∨ c = .operator) ∧
     (fits c need .fleet = true ↔ need = false ∧ (c = .fleet ∨ c = .operator))) ∧
   (∀ (gap start len : Nat) (tl : List Record), 0 < len →
     (tl.Pairwise fun x y => x.start + x.length + gap ≤ y.start) →
     (fitsGap gap start len tl = true ↔
       ∀ x ∈ tl, x.start + x.length + gap ≤ start ∨ start + len + gap ≤ x.start)))

/-- A zone fault (R55, R56): the request is answered ACCESS_ABORT with the fault, and the access fault record is all
that changes: filled, with ACCESS_FAULT raised, where it is clear, else only its more flag. -/
def Obligations.ZoneFaultIsCaptured : Prop :=
  ∀ (s : State) (port : Port) (c : Machine.Class) (r : Request) (z : ZoneNo) (x : ZoneFault) (q : ZoneRequest → Option Nat → Blocks),
    (∀ (k : ZoneRequest) (i : Option Nat), q k i =
      match s.blocks.zones.captured with
      | some _ => { s.blocks with zones := { s.blocks.zones with more := true } }
      | none => { s.blocks with
          zones := { s.blocks.zones with
            captured := some { cause := x, request := k, cls := c, zone := z, index := i, port := port, minute := s.blocks.clock.minute } }
          mail := { s.blocks.mail with raises := s.blocks.mail.raises ++ [(.zoneMap, .accessFault)] } }) →
    (∀ (i : Nat) (f : Booking), s.blocks.level = .opened →
      (s.blocks.zones.descriptor c z).translate Access.allowsBooking i = .error x →
      (s.Serves 1 port c r → bookBayFields r.body = some (.zone z i, f) →
        exec (.bookBay port r) s = .next (s.finishTurn port r
          { blocks := q .bookBay (some i), status := .accessAbort, body := [BitVec.ofNat 8 x.code] })) ∧
      (s.Serves 3 port c r → bookNowFields s.blocks.now r.body = some (.zone z i, f) →
        exec (.bookNow port r) s = .next (s.finishTurn port r
          { blocks := q .bookNow (some i), status := .accessAbort, body := [BitVec.ofNat 8 x.code] }))) ∧
    (∀ i : Nat, (s.blocks.zones.descriptor c z).translate Access.allowsList i = .error x →
      s.Serves 9 port c r → listBayFields r.body = some (.zone z i) →
        exec (.listBay port r) s = .next (s.finishTurn port r
          { blocks := q .listBay (some i), status := .accessAbort, body := [BitVec.ofNat 8 x.code] })) ∧
    (∀ f : Booking, s.blocks.level = .opened → s.Serves 2 port c r → bookZoneFields r.body = some (z, f) →
      ((s.blocks.zones.descriptor c z).access = .closed ∧ x = .notMapped ∨
       (s.blocks.zones.descriptor c z).access = .view ∧ x = .readOnly) →
        exec (.bookZone port r) s = .next (s.finishTurn port r
          { blocks := q .bookZone none, status := .accessAbort, body := [BitVec.ofNat 8 x.code] }))

/-- The refusals of the three booking requests in the order of their checks (R30, R36, R38): DIRECT named by PUBLIC or
FLEET (R51), the level state, the fields, then the first of the later checks that fails, NO_FIT where the search of
BOOK ZONE finds no bay (R37). A refused booking changes nothing. -/
def Obligations.BookingsAreRefusedInOrder : Prop :=
  ∀ (s : State) (port : Port) (c : Machine.Class) (r : Request) (refused : Status → State),
    (∀ st, refused st = s.finishTurn port r { blocks := s.blocks, status := st, body := [] }) →
    (s.Serves 1 port c r →
      (c ≠ .operator → r.body.length = 22 → field r.body 8 1 = 255 →
        exec (.bookBay port r) s = .next (refused .classDenied)) ∧
      (c = .operator ∨ field r.body 8 1 ≠ 255 →
        (s.blocks.level = .configuring → exec (.bookBay port r) s = .next (refused .notOpen)) ∧
        (s.blocks.level = .opened →
          (bookBayFields r.body = none → exec (.bookBay port r) s = .next (refused .badField)) ∧
          (∀ ref f b st, bookBayFields r.body = some (ref, f) →
            resolveBay s.blocks c Access.allowsBooking ref = .ok b → s.blocks.bayRefusal c b f = some st →
            exec (.bookBay port r) s = .next (refused st))))) ∧
    (s.Serves 3 port c r →
      (c ≠ .operator → r.body.length = 15 → field r.body 8 1 = 255 →
        exec (.bookNow port r) s = .next (refused .classDenied)) ∧
      (c = .operator ∨ field r.body 8 1 ≠ 255 →
        (s.blocks.level = .configuring → exec (.bookNow port r) s = .next (refused .notOpen)) ∧
        (s.blocks.level = .opened →
          (bookNowFields s.blocks.now r.body = none → exec (.bookNow port r) s = .next (refused .badField)) ∧
          (∀ ref f b st, bookNowFields s.blocks.now r.body = some (ref, f) →
            resolveBay s.blocks c Access.allowsBooking ref = .ok b → s.blocks.nowRefusal c b f = some st →
            exec (.bookNow port r) s = .next (refused st))))) ∧
    (s.Serves 2 port c r →
      (s.blocks.level = .configuring → exec (.bookZone port r) s = .next (refused .notOpen)) ∧
      (s.blocks.level = .opened →
        (bookZoneFields r.body = none → exec (.bookZone port r) s = .next (refused .badField)) ∧
        (∀ z f, bookZoneFields r.body = some (z, f) → (s.blocks.zones.descriptor c z).access = .book →
          (∀ st, s.blocks.startRefusal f = some st → exec (.bookZone port r) s = .next (refused st)) ∧
          (s.blocks.startRefusal f = none →
            (∀ b ∈ (s.blocks.zones.descriptor c z).run,
              s.blocks.available b = false ∨ fits c f.accessible (s.blocks.bay b).config.cls = false ∨
              s.blocks.timelineRefusal b f ≠ none) →
            exec (.bookZone port r) s = .next (refused .noFit)))))

/-- BOOK BAY that passes every check (R30, R34, R35, R1): the record is created on the bay named, HELD where the hold
lead has been reached and BOOKED otherwise, and reported. BOOK ZONE (R36, R37): the first bay of the zone, in
ascending index, that passes checks 5, 6, 11 and 12 is booked as BOOK BAY would book it. -/
def Obligations.BookBayAndBookZoneCreateTheRecord : Prop :=
  (∀ (s : State) (port : Port) (c : Machine.Class) (r : Request) (ref : BayRef) (f : Booking) (b : BayNo),
     s.Serves 1 port c r → s.blocks.level = .opened → bookBayFields r.body = some (ref, f) →
     (∀ b', ref = .direct b' → c = .operator) →
     resolveBay s.blocks c Access.allowsBooking ref = .ok b → s.blocks.bayRefusal c b f = none →
     ∃ (q : Blocks) (sl : Slot) (x : Record),
       exec (.bookBay port r) s = .next (s.finishTurn port r { blocks := q, status := .ok, body := recordReport q x }) ∧
       x = { ticket := x.ticket, token := f.token, bay := b, originClass := c, originZone := ref.originZone
             originPort := port, accessible := f.accessible, start := f.start, length := f.length
             grace := f.grace.getD s.blocks.params.defaultGrace, draw := f.draw
             state := if s.blocks.clock.minute < f.start - s.blocks.params.holdLead then .booked else .held
             moves := 0, relocPending := false, outcome := none, cause := none, arrival := none, departure := none
             dwell := none, overstay := none } ∧
       s.blocks.Admitted q sl x) ∧
  (∀ (s : State) (port : Port) (c : Machine.Class) (r : Request) (z : ZoneNo) (f : Booking) (b : BayNo) (before after : List BayNo),
     s.Serves 2 port c r → s.blocks.level = .opened → bookZoneFields r.body = some (z, f) →
     (s.blocks.zones.descriptor c z).access = .book → s.blocks.startRefusal f = none →
     (s.blocks.zones.descriptor c z).run = before ++ b :: after →
     (∀ b' ∈ before, s.blocks.available b' = false ∨ fits c f.accessible (s.blocks.bay b').config.cls = false ∨
       s.blocks.timelineRefusal b' f ≠ none) →
     s.blocks.available b = true → fits c f.accessible (s.blocks.bay b).config.cls = true →
     s.blocks.timelineRefusal b f = none →
     ∃ (q : Blocks) (sl : Slot) (x : Record),
       exec (.bookZone port r) s = .next (s.finishTurn port r { blocks := q, status := .ok, body := recordReport q x }) ∧
       x = { ticket := x.ticket, token := f.token, bay := b, originClass := c, originZone := .zone z
             originPort := port, accessible := f.accessible, start := f.start, length := f.length
             grace := f.grace.getD s.blocks.params.defaultGrace, draw := f.draw
             state := if s.blocks.clock.minute < f.start - s.blocks.params.holdLead then .booked else .held
             moves := 0, relocPending := false, outcome := none, cause := none, arrival := none, departure := none
             dwell := none, overstay := none } ∧
       s.blocks.Admitted q sl x)

/-- BOOK NOW that passes every check (R38, R39): with no vehicle in the bay the record is HELD; with one there it is
in SESSION with arrival at the current minute, the bay takes SERVE and the session request is sent. -/
def Obligations.BookNowCreatesTheRecord : Prop :=
  ∀ (s : State) (port : Port) (c : Machine.Class) (r : Request) (ref : BayRef) (f : Booking) (b : BayNo),
    s.Serves 3 port c r → s.blocks.level = .opened → bookNowFields s.blocks.now r.body = some (ref, f) →
    (∀ b', ref = .direct b' → c = .operator) →
    resolveBay s.blocks c Access.allowsBooking ref = .ok b → s.blocks.nowRefusal c b f = none →
    ∃ (q : Blocks) (sl : Slot) (x : Record),
      exec (.bookNow port r) s = .next (s.finishTurn port r { blocks := q, status := .ok, body := recordReport q x }) ∧
      x = { ticket := x.ticket, token := f.token, bay := b, originClass := c, originZone := ref.originZone
            originPort := port, accessible := f.accessible, start := s.blocks.clock.minute - s.blocks.clock.minute % 5
            length := f.length, grace := s.blocks.params.defaultGrace, draw := f.draw
            state := if (s.blocks.bay b).state = .unclaimed ∨ (s.blocks.bay b).state = .squatted then .session else .held
            moves := 0, relocPending := false, outcome := none, cause := none
            arrival := if (s.blocks.bay b).state = .unclaimed ∨ (s.blocks.bay b).state = .squatted
              then some s.blocks.clock.minute else none
            departure := none, dwell := none, overstay := none } ∧
      if (s.blocks.bay b).state = .unclaimed ∨ (s.blocks.bay b).state = .squatted
      then s.blocks.AdmittedServing q sl x else s.blocks.Admitted q sl x

/-! ## Requests: records -/

/-- EXTEND (R43): judged by state, length, successor and the token's other windows, and where all pass the length
alone changes. -/
def Obligations.ExtendLengthensTheWindow : Prop :=
  ∀ (s : State) (port : Port) (c : Machine.Class) (r : Request) (t : Ticket) (token : Token) (n : Nat) (sl : Slot) (x : Record),
    s.Serves 4 port c r → extendFields c r.body = some (t, token, n) →
    s.blocks.book.resolve c t token = .ok (sl, x) →
    ∀ (next : Option Record) (others : List Record),
    next = ((s.blocks.book.timeline x.bay).filter fun y => decide (x.start < y.start)).head? →
    others = ((s.blocks.book.tokenSlots x.token).filter fun y => y != sl).filterMap s.blocks.book.rec? →
    exec (.extendRecord port r) s = .next (s.finishTurn port r
      (if x.state = .overstay ∨ x.state = .settled then { blocks := s.blocks, status := .wrongState, body := [] }
       else if 720 < x.length + n then { blocks := s.blocks, status := .badField, body := [] }
       else if ∃ y ∈ next, y.start < x.start + x.length + n + s.blocks.params.turnoverGap then
         { blocks := s.blocks, status := .conflict, body := [] }
       else if ∃ y ∈ others, x.start < y.start + y.length ∧ y.start < x.start + x.length + n then
         { blocks := s.blocks, status := .tokenConflict, body := [] }
       else
         { blocks := { s.blocks with book := s.blocks.book.put sl { x with length := x.length + n } }
           status := .ok
           body := recordReport { s.blocks with book := s.blocks.book.put sl { x with length := x.length + n } }
             { x with length := x.length + n } }))

/-- CANCEL settles a BOOKED or HELD record CANCELLED with no cause (R45); END SESSION settles a live record in any
state REVOKED (R16); either is refused WRONG_STATE in the other states. That the refused one carries no report (R46) and
the place of the token field in END SESSION's body are the model's readings (logs 34 and 14). -/
def Obligations.CancelAndEndSessionSettle : Prop :=
  ∀ (s : State) (port : Port) (c : Machine.Class) (r : Request) (t : Ticket) (token : Token) (sl : Slot) (x : Record),
    s.blocks.book.resolve c t token = .ok (sl, x) →
    (s.Serves 5 port c r → ticketFields c r.body = some (t, token) →
      (x.state = .booked ∨ x.state = .held →
        ∃ (q : Blocks) (y : Record), y = { x with state := .settled, outcome := some .cancelled, cause := none, relocPending := false } ∧
          exec (.cancel port r) s = .next (s.finishTurn port r { blocks := q, status := .ok, body := recordReport q y }) ∧
          s.blocks.SettledAs q sl x y) ∧
      (x.state ≠ .booked → x.state ≠ .held → exec (.cancel port r) s = .next (s.finishTurn port r
        { blocks := s.blocks, status := .wrongState, body := [] }))) ∧
    (s.Serves 10 port c r → port = .site → c = .operator → endSessionFields r.body = some t →
      (x.state ≠ .settled →
        ∃ (q : Blocks) (y : Record), y = { x with state := .settled, outcome := some .revoked, cause := none, relocPending := false } ∧
          exec (.endSession port r) s = .next (s.finishTurn port r { blocks := q, status := .ok, body := recordReport q y }) ∧
          s.blocks.SettledAs q sl x y) ∧
      (x.state = .settled → exec (.endSession port r) s = .next (s.finishTurn port r
        { blocks := s.blocks, status := .wrongState, body := [] })))

/-- CLAIM (R90): judged by steps 4 to 8 in order; accepted, the record enters SESSION with arrival at the current
minute, its RECORD entry leaves the list, the bay takes SERVE and the session request is sent. Nothing else changes.
That a CLAIM refused after a CANCEL carries no report (R46) is the model's reading (log 34). -/
def Obligations.ClaimOpensTheSession : Prop :=
  ∀ (s : State) (port : Port) (c : Machine.Class) (r : Request) (t : Ticket) (token : Token) (sl : Slot) (x y : Record) (q : Blocks),
    s.Serves 6 port c r → ticketFields c r.body = some (t, token) →
    s.blocks.book.resolve c t token = .ok (sl, x) →
    y = { x with state := .session, arrival := some s.blocks.clock.minute, relocPending := false } →
    q = { s.blocks with
      book := s.blocks.book.put sl y
      reloc := if x.relocPending then s.blocks.reloc.filter (· != .record x.ticket) else s.blocks.reloc
      bays := { s.blocks.bays with bays := setAt s.blocks.bays.bays x.bay (s.blocks.bay x.bay).served }
      mail := { s.blocks.mail with toAlloc := s.blocks.mail.toAlloc ++ [.sessionRequest x.bay x.draw] } } →
    exec (.claim port r) s = .next (s.finishTurn port r
      (if x.state = .booked then { blocks := s.blocks, status := .tooEarly, body := [] }
       else if x.state ≠ .held then { blocks := s.blocks, status := .wrongState, body := [] }
       else if (s.blocks.bay x.bay).presence = false then { blocks := s.blocks, status := .noVehicle, body := [] }
       else if (s.blocks.bay x.bay).state = .serving then { blocks := s.blocks, status := .bayOccupied, body := [] }
       else if (s.blocks.bay x.bay).state = .disabled ∨ (s.blocks.bay x.bay).state = .faulted ∨
           (s.blocks.bay x.bay).action = .close then
         { blocks := s.blocks, status := .bayUnavailable, body := [] }
       else { blocks := q, status := .ok, body := recordReport q y }))

/-- COLLECT (R18): a settled record leaves the pool, its slot goes to the tail of the free list and its generation
advances, from 63 to 0; a live record is refused NOT_SETTLED, and one of another class than FLEET is hidden from
FLEET. -/
def Obligations.CollectFreesTheSlot : Prop :=
  ∀ (s : State) (port : Port) (c : Machine.Class) (r : Request) (t : Ticket) (token : Token) (sl : Slot) (x : Record),
    s.Serves 11 port c r → port = .site → c ≠ .pub → ticketFields c r.body = some (t, token) →
    s.blocks.book.resolve c t token = .ok (sl, x) →
    (c = .fleet ∧ x.originClass ≠ .fleet → exec (.collect port r) s = .next (s.finishTurn port r
      { blocks := s.blocks, status := .noSuchTicket, body := [] })) ∧
    (¬(c = .fleet ∧ x.originClass ≠ .fleet) →
      (x.state ≠ .settled → exec (.collect port r) s = .next (s.finishTurn port r
        { blocks := s.blocks, status := .notSettled, body := [] })) ∧
      (x.state = .settled → ∃ k : Book, ∃ n : Notices,
        exec (.collect port r) s = .next (s.finishTurn port r
          { blocks := { s.blocks with book := k, notices := n }, status := .ok, body := recordReport s.blocks x }) ∧
        n = s.blocks.notices.setLevels (decide (k.free.length ≤ s.blocks.params.poolLow)) (!k.settled.isEmpty) ∧
        k = { s.blocks.book with
          pool := k.pool, gens := k.gens, free := s.blocks.book.free ++ [sl]
          settled := s.blocks.book.settled.filter (· != sl) } ∧
        (∀ y : Slot, k.rec? y = if y = sl then none else s.blocks.book.rec? y) ∧
        (∀ y : Slot, k.gens[y] = if y = sl
          then (if s.blocks.book.gens[sl] < 63 then s.blocks.book.gens[sl] + 1 else 0) else s.blocks.book.gens[y])))

/-- FIND TOKEN (R15), on a sound token index: every class, either port; the list holds one item for each live record
of the token, at most 3, in ascending start, and nothing changes. -/
def Obligations.FindTokenListsLiveRecords : Prop :=
  ∀ (s : State) (port : Port) (c : Machine.Class) (r : Request), s.blocks.TokensSound → s.Serves 8 port c r →
    (r.body.length ≠ 8 ∨ beNat r.body = 0 → exec (.findToken port r) s = .next (s.finishTurn port r
      { blocks := s.blocks, status := .badField, body := [] })) ∧
    (∀ t : Token, r.body = be 8 t.toNat → t ≠ 0 →
      ∃ xs : List Record,
        exec (.findToken port r) s = .next (s.finishTurn port r
          { blocks := s.blocks, status := .ok
            body := be 1 xs.length ++ (xs.map fun x =>
              be 2 x.ticket.slot ++ be 1 x.ticket.gen ++ be 1 x.bay.val ++ be 4 x.start ++ be 2 x.length ++
                be 1 x.state.code).flatten }) ∧
        xs.length ≤ 3 ∧ xs.Pairwise (fun x y => x.start < y.start) ∧
        ∀ x : Record, x ∈ xs ↔ ∃ sl : Slot, s.blocks.book.rec? sl = some x ∧ x.state ≠ .settled ∧ x.token = t)

/-! ## Requests: zones, bays, feeders -/

/-- WRITE ZONE replaces the four fields and clears the used flag (R59); READ ZONE shows the descriptor and changes
nothing (R61); READ ACCESS FAULT shows the access fault record and changes nothing, CLEAR ACCESS FAULT shows it and
clears it (R57). -/
def Obligations.ZoneRequestsActOnTheZoneMap : Prop :=
  ∀ (s : State) (r : Request),
    (∀ (c : Machine.Class) (z : ZoneNo) (d : Descriptor), d.used = false → 1 ≤ d.length → d.length ≤ 32 →
      s.Serves 13 .site .operator r →
      r.body = be 1 c.code ++ be 1 z.val ++ be 1 d.base.val ++ be 2 d.length ++ be 1 d.direction.code ++ be 1 d.access.code →
      ∃ m : ZoneMap, exec (.writeZone .site r) s = .next (s.finishTurn .site r
          { blocks := { s.blocks with zones := m }, status := .ok
            body := be 1 d.base.val ++ be 2 d.length ++ be 1 d.direction.code ++ be 1 d.access.code ++ [0#8] }) ∧
        m.captured = s.blocks.zones.captured ∧ m.more = s.blocks.zones.more ∧
        ∀ (c' : Machine.Class) (z' : ZoneNo), m.descriptor c' z' =
          if c' = c ∧ z' = z then d else s.blocks.zones.descriptor c' z') ∧
    (∀ (c : Machine.Class) (z : ZoneNo) (d : Descriptor), d = s.blocks.zones.descriptor c z →
      s.Serves 14 .site .operator r → r.body = be 1 c.code ++ be 1 z.val →
      exec (.readZone .site r) s = .next (s.finishTurn .site r
        { blocks := s.blocks, status := .ok
          body := be 1 d.base.val ++ be 2 d.length ++ be 1 d.direction.code ++ be 1 d.access.code ++ flag d.used })) ∧
    (s.Serves 15 .site .operator r → r.body = [] → exec (.readAccessFault .site r) s = .next (s.finishTurn .site r
      { blocks := s.blocks, status := .ok, body := accessFaultReport s.blocks.zones })) ∧
    (s.Serves 16 .site .operator r → r.body = [] → exec (.clearAccessFault .site r) s = .next (s.finishTurn .site r
      { blocks := { s.blocks with zones := { s.blocks.zones with captured := none, more := false } }
        status := .ok, body := accessFaultReport s.blocks.zones }))

/-- CONFIGURE BAY (R81): refused BAY_ACTIVE but on a DISABLED bay; accepted, the eight fields are replaced, and the
effective action the new groups give is taken up at once (R144, R145), where it differs: at the session by R129's table,
at the bay and its sign, and at the book where the bay closes or reopens (R146). -/
def Obligations.ConfigureBayReplacesTheFields : Prop :=
  ∀ (s : State) (r : Request) (b : BayNo) (x : BayConfig) (a : Action),
    s.blocks.BaysSound → s.blocks.ActionCopies → s.Serves 17 .site .operator r → configureFields r.body = some (b, x) →
    a = s.blocks.supply.actionFor x →
    ((s.blocks.bay b).state ≠ .disabled → exec (.configureBay .site r) s = .next (s.finishTurn .site r
      { blocks := s.blocks, status := .bayActive, body := [] })) ∧
    ((s.blocks.bay b).state = .disabled → ∃ q : Blocks,
      exec (.configureBay .site r) s = .next (s.finishTurn .site r { blocks := q, status := .ok, body := bayReport q b }) ∧
      q.bay b = { s.blocks.bay b with config := x, action := a } ∧ (∀ b' : BayNo, b' ≠ b → q.bay b' = s.blocks.bay b') ∧
      q.supply = { s.blocks.supply with actions := setAt s.blocks.supply.actions b a } ∧
      q.alloc.actions = setAt s.blocks.alloc.actions b a ∧
      (a = (s.blocks.bay b).action → q = { s.blocks with bays := q.bays }) ∧
      (s.blocks.alloc.session b = none → q.alloc = { s.blocks.alloc with actions := q.alloc.actions }) ∧
      (∀ m : Blocks, m = { s.blocks with
          bays := { s.blocks.bays with bays := setAt s.blocks.bays.bays b { s.blocks.bay b with config := x } } } →
        m.ActionTaken q b a) ∧
      (a ≠ .close → (s.blocks.bay b).action = .close → q.reloc = s.blocks.reloc.filter (· != .bay b .closed)) ∧
      (a ≠ .close ∨ (s.blocks.bay b).action = .close →
        q.book = s.blocks.book ∧ q.notices = s.blocks.notices ∧ q.mail = s.blocks.mail) ∧
      q = { s.blocks with
        bays := { s.blocks.bays with bays := q.bays.bays }, supply := q.supply, alloc := q.alloc, book := q.book
        reloc := q.reloc, notices := q.notices, mail := q.mail })

/-- ENABLE BAY (R97) takes a DISABLED bay, and CLEAR FAULT (R96) a FAULTED one, to its resting state; CLEAR FAULT
clears the sticky flag of any bay not DISABLED. Either is refused in the order of its checks. Nothing else changes. -/
def Obligations.EnableBayAndClearFault : Prop :=
  ∀ (s : State) (r : Request) (b : BayNo) (noField : Bool) (win : Nat) (set : Bay → Blocks),
    r.body = be 1 b.val → win = s.blocks.params.claimWindow →
    noField = ((s.blocks.bay b).faultLine || s.blocks.moduleState (moduleOf b) == .offline) →
    (∀ x, set x = { s.blocks with bays := { s.blocks.bays with bays := setAt s.blocks.bays.bays b x } }) →
    (s.Serves 18 .site .operator r → exec (.enableBay .site r) s = .next (s.finishTurn .site r
      (if (s.blocks.bayEntry b).isSome then { blocks := s.blocks, status := .relocating, body := [] }
       else if (s.blocks.bay b).state ≠ .disabled then { blocks := s.blocks, status := .bayActive, body := [] }
       else if noField then { blocks := s.blocks, status := .faultActive, body := [] }
       else
         { blocks := set ((s.blocks.bay b).atRest win), status := .ok
           body := bayReport (set ((s.blocks.bay b).atRest win)) b }))) ∧
    (s.Serves 20 .site .operator r → exec (.clearFault .site r) s = .next (s.finishTurn .site r
      (if (s.blocks.bayEntry b).isSome then { blocks := s.blocks, status := .relocating, body := [] }
       else if (s.blocks.bay b).state = .disabled then { blocks := s.blocks, status := .wrongState, body := [] }
       else if noField then { blocks := s.blocks, status := .faultActive, body := [] }
       else if (s.blocks.bay b).state = .faulted then
         { blocks := set ({ s.blocks.bay b with sticky := false }.atRest win), status := .ok
           body := bayReport (set ({ s.blocks.bay b with sticky := false }.atRest win)) b }
       else
         { blocks := set { s.blocks.bay b with sticky := false }, status := .ok
           body := bayReport (set { s.blocks.bay b with sticky := false }) b })))

/-- DISABLE BAY (R98): on a DISABLED bay only the bay's four notice members are cleared; any other bay is lost (R95):
it is DISABLED with its sticky flag clear, its vehicle record is settled PREEMPTED with cause BAY_DISABLED, and its
BOOKED and HELD records come under a BAY entry of reason DISABLED. An entry listed has its reason changed also where
no such record is left (log 13). -/
def Obligations.DisableBayLosesTheBay : Prop :=
  ∀ (s : State) (r : Request) (b : BayNo), s.blocks.book.Sound → s.Serves 19 .site .operator r → r.body = be 1 b.val →
    ∃ q : Blocks,
      exec (.disableBay .site r) s = .next (s.finishTurn .site r { blocks := q, status := .ok, body := bayReport q b }) ∧
      (∀ b' : BayNo,
        q.notices.intruder.getLsbD b' = (s.blocks.notices.intruder.getLsbD b' && b' != b) ∧
        q.notices.unregistered.getLsbD b' = (s.blocks.notices.unregistered.getLsbD b' && b' != b) ∧
        q.notices.postFault.getLsbD b' = (s.blocks.notices.postFault.getLsbD b' && b' != b) ∧
        q.notices.overstay.getLsbD b' = (s.blocks.notices.overstay.getLsbD b' && b' != b)) ∧
      q.notices = { s.blocks.notices with
        intruder := q.notices.intruder, unregistered := q.notices.unregistered, postFault := q.notices.postFault
        overstay := q.notices.overstay, poolLow := q.notices.poolLow, settledWaiting := q.notices.settledWaiting
        attn := q.notices.wantsAttn } ∧
      ((s.blocks.bay b).state = .disabled → q = { s.blocks with notices := q.notices } ∧
        q.notices.poolLow = s.blocks.notices.poolLow ∧ q.notices.settledWaiting = s.blocks.notices.settledWaiting) ∧
      ((s.blocks.bay b).state ≠ .disabled →
        q.bays = { s.blocks.bays with
          bays := setAt s.blocks.bays.bays b { s.blocks.bay b with
            state := .disabled, origin := none, window := 0, faultCause := none, sticky := false, sign := .out } } ∧
        (∃ n : Blocks, s.blocks.BayLost n b { s.blocks.bay b with
            state := .disabled, origin := none, window := 0, faultCause := none, sticky := false, sign := .out }
            .bayDisabled .disabled ∧
          q = { n with notices := q.notices } ∧ q.notices.poolLow = n.notices.poolLow ∧
          q.notices.settledWaiting = n.notices.settledWaiting) ∧
        (s.blocks.book.servingOn b = none → s.blocks.book.pendingOn b = [] →
          q = { s.blocks with bays := q.bays, reloc := q.reloc, notices := q.notices }) ∧
        q = { s.blocks with
          bays := q.bays, book := q.book, reloc := q.reloc, notices := q.notices, mail := q.mail })

/-- LOOKUP TICKET, POOL STATUS and LIST BAY (R14, R19, R47, R48) answer OK with their reports and change nothing. READ
BAY, READ FEEDER, READ SUPPLY and READ NOTICES (R99, R131, R141, R167) answer OK with their reports and change
nothing. Then the encodings, the code of every enumerated value but group and scope, and, field for field, the record,
bay, timeline, pool, access fault, feeder, supply, clock, level and notice reports (R170, R172, with R65, R149 and 03
section 3.4); the token list, the descriptor and the identity are given where FIND TOKEN, READ ZONE and IDENTIFY are.
Model readings: a line's level (log 17), the timeline report's hidden fields (log 19) and its RELOCATING (log 29), a
session whose request is on its way (log 24), the granted total (log 27), the width of the next slot (log 30). -/
def Obligations.ReadersChangeNothing : Prop :=
  (∀ (s : State) (port : Port) (c : Machine.Class) (r : Request),
     (∀ t token sl x, s.Serves 7 port c r → ticketFields c r.body = some (t, token) →
       s.blocks.book.resolve c t token = .ok (sl, x) →
       exec (.lookupTicket port r) s = .next (s.finishTurn port r
         { blocks := s.blocks, status := .ok, body := recordReport s.blocks x })) ∧
     (s.Serves 12 port c r → port = .site → c ≠ .pub → r.body.length = 2 →
       (640 ≤ beNat r.body → exec (.poolStatus port r) s = .next (s.finishTurn port r
         { blocks := s.blocks, status := .badField, body := [] })) ∧
       (beNat r.body < 640 → exec (.poolStatus port r) s = .next (s.finishTurn port r
         { blocks := s.blocks, status := .ok, body := poolReport s.blocks c (beNat r.body) }))) ∧
     (∀ ref b, s.Serves 9 port c r → listBayFields r.body = some ref → (∀ b', ref = .direct b' → c = .operator) →
       resolveBay s.blocks c Access.allowsList ref = .ok b →
       exec (.listBay port r) s = .next (s.finishTurn port r
         { blocks := s.blocks, status := .ok, body := timelineReport s.blocks c b }))) ∧
  (∀ (s : State) (r : Request),
     (∀ b : BayNo, s.Serves 21 .site .operator r → r.body = be 1 b.val → exec (.readBay .site r) s =
       .next (s.finishTurn .site r { blocks := s.blocks, status := .ok, body := bayReport s.blocks b })) ∧
     (∀ f : FeederNo, s.Serves 24 .site .operator r → r.body = be 1 f.val → exec (.readFeeder .site r) s =
       .next (s.finishTurn .site r { blocks := s.blocks, status := .ok, body := feederReport s.blocks.alloc f })) ∧
     (s.Serves 28 .site .operator r → r.body = [] → exec (.readSupply .site r) s =
       .next (s.finishTurn .site r { blocks := s.blocks, status := .ok, body := supplyReport s.blocks })) ∧
     (s.Serves 33 .site .operator r → r.body = [] → exec (.readNotices .site r) s =
       .next (s.finishTurn .site r { blocks := s.blocks, status := .ok, body := noticeReport s.blocks.notices }))) ∧
  ((∀ k v : Nat, be 0 v = [] ∧ be (k + 1) v = BitVec.ofNat 8 (v / 256 ^ k) :: be k v) ∧
   (∀ k v : Nat, le 0 v = [] ∧ le (k + 1) v = BitVec.ofNat 8 v :: le k (v / 256)) ∧
   (∀ b : Bool, flag b = [if b then 1#8 else 0#8]) ∧
   (∀ k v : Nat, optNum k none = 0#8 :: be k 0 ∧ optNum k (some v) = 1#8 :: be k v) ∧
   (∀ (code : Cause → Nat) (x : Cause), enum code none = [0#8] ∧ enum code (some x) = be 1 (code x)) ∧
   [Class.pub, .fleet, .operator].map Class.code = [1, 2, 3] ∧ [Port.site, .ramp].map portCode = [1, 2] ∧
   [RecState.booked, .held, .session, .parked, .overstay, .settled].map RecState.code = [1, 2, 3, 4, 5, 6] ∧
   [Result.completed, .noShow, .cancelled, .preempted, .revoked].map Result.code = [1, 2, 3, 4, 5] ∧
   [Cause.bayLost, .postFault, .bayDisabled, .linkLost].map Cause.code = [1, 2, 3, 4] ∧
   [Phase.queued, .charging, .suspended].map Phase.code = [1, 2, 3] ∧
   [BayClass.standard, .accessible, .fleet].map BayClass.code = [1, 2, 3] ∧
   [Action.continue, .trickle, .stop, .close].map Action.code = [1, 2, 3, 4] ∧
   [BayState.disabled, .faulted, .vacant, .awaiting, .unclaimed, .squatted, .serving].map BayState.code =
     [1, 2, 3, 4, 5, 6, 7] ∧
   [FaultCause.postFault, .linkLost].map FaultCause.code = [1, 2] ∧ [Origin.awaiting, .vacant].map Origin.code = [1, 2] ∧
   [Sign.out, .closed, .reserved, .inUse, .free].map Sign.code = [1, 2, 3, 4, 5] ∧
   [Reason.closed, .fault, .disabled].map Reason.code = [1, 2, 3] ∧
   [Direction.up, .down].map Direction.code = [1, 2] ∧ [Access.closed, .view, .book].map Access.code = [1, 2, 3] ∧
   [ZoneFault.notMapped, .outOfZone, .readOnly].map ZoneFault.code = [1, 2, 3] ∧
   [ZoneRequest.bookBay, .bookZone, .bookNow, .listBay].map ZoneRequest.code = [1, 2, 3, 4] ∧
   [SupplyState.mains, .returning, .reserve, .halt].map SupplyState.code = [1, 2, 3, 4] ∧
   [Target.mains, .reserve, .halt].map Target.code = [1, 2, 3] ∧
   [GroupLevel.normal, .quiet, .clear].map GroupLevel.code = [1, 2, 3] ∧
   [LevelState.configuring, .opened].map LevelState.code = [1, 2] ∧
   [Status.ok, .unknownRequest, .badField, .classDenied, .notOpen, .wrongLevelState, .clockUnset, .accessAbort,
     .classMismatch, .bayUnavailable, .conflict, .bayFull, .poolFull, .tokenLimit, .tokenConflict, .tooFar, .tooLate,
     .tooEarly, .noSuchTicket, .staleTicket, .wrongState, .noVehicle, .bayOccupied, .notSettled, .bayActive, .relocating,
     .faultActive, .noFit].map Status.code = List.range 28) ∧
  (∀ (p : Blocks) (r : Record) (x : Option Session),
     (r.state = .session → (∀ n, .sessionRequest r.bay n ∉ p.mail.toAlloc) → x = p.alloc.session r.bay) →
     (r.state ≠ .session ∨ (∃ n, .sessionRequest r.bay n ∈ p.mail.toAlloc) → x = none) →
     recordReport p r =
       be 2 r.ticket.slot ++ be 1 r.ticket.gen ++ be 8 r.token.toNat ++ be 1 r.bay.val ++ be 1 r.originClass.code ++
       (match r.originZone with
         | .zone z => be 1 z.val
         | .direct => be 1 255) ++
       be 1 (portCode r.originPort) ++ flag r.accessible ++ be 4 r.start ++ be 2 r.length ++ be 2 r.grace ++ be 2 r.draw ++
       be 1 r.state.code ++ be 1 r.moves ++ flag r.relocPending ++ enum Result.code r.outcome ++ enum Cause.code r.cause ++
       optNum 4 r.arrival ++ optNum 4 r.departure ++ optNum 4 r.dwell ++ optNum 4 r.overstay ++
       enum Phase.code (x.map (·.phase)) ++ optNum 2 (x.map (·.grant))) ∧
  (∀ (p : Blocks) (b : BayNo) (x : Bay), x = p.bay b → bayReport p b =
     be 1 b.val ++ be 1 x.config.feeder.val ++ be 1 x.config.cls.code ++ be 2 x.config.maxDraw ++
     be 1 ((if x.config.groups[0] then 1 else 0) + (if x.config.groups[1] then 2 else 0) +
       (if x.config.groups[2] then 4 else 0)) ++
     be 1 x.config.quiet.code ++ be 1 x.config.clear.code ++ flag x.config.autocut ++ flag x.config.rejoin ++
     be 1 x.state.code ++ flag x.presence ++ flag x.faultLine ++ flag x.sticky ++ enum FaultCause.code x.faultCause ++
     flag x.heldMark ++ be 1 x.window ++ enum Origin.code x.origin ++ be 1 x.action.code ++
     flag p.alloc.posts[b].enabled ++ be 2 p.alloc.posts[b].limit ++ be 1 x.sign.code ++
     flag (decide (p.moduleState (moduleOf b) ≠ .offline)) ++ enum Reason.code (p.bayEntry b)) ∧
  (∀ (p : Blocks) (c : Machine.Class) (b : BayNo), timelineReport p c b =
     be 1 b.val ++ be 1 (p.bay b).config.cls.code ++ be 1 (p.bay b).state.code ++
     be 1 (if (p.bayEntry b).isSome then 5 else if (p.bay b).state = .disabled then 2
       else if (p.bay b).state = .faulted then 3 else if (p.bay b).action = .close then 4 else 1) ++
     be 1 (p.book.timeline b).length ++
     ((p.book.timeline b).map fun r =>
       be 4 r.start ++ be 2 r.length ++ be 1 r.state.code ++
       (if c = .operator ∨ c = .fleet ∧ r.originClass = .fleet then 1#8 :: (be 2 r.ticket.slot ++ be 1 r.ticket.gen)
         else [0#8, 0#8, 0#8, 0#8]) ++
       (if c = .operator then be 1 r.originClass.code ++ 1#8 :: be 8 r.token.toNat
         else List.replicate 10 0#8)).flatten) ∧
  (∀ (p : Blocks) (c : Machine.Class) (n : Nat) (shown : List Record) (count : RecState → Nat),
     (∀ st, count st = (p.book.pool.toList.filter fun o => o.any fun r => r.state == st).length) →
     shown = ((p.book.settled.filter fun sl => decide (n ≤ sl.val)).filterMap p.book.rec?).filter
       (fun r => decide (c ≠ .fleet ∨ r.originClass = .fleet)) →
     poolReport p c n =
       be 2 p.book.free.length ++ be 2 (count .booked) ++ be 2 (count .held) ++ be 2 (count .session) ++
       be 2 (count .parked) ++ be 2 (count .overstay) ++ be 2 p.book.settled.length ++ be 2 p.params.poolLow ++
       flag (decide (p.book.free.length ≤ p.params.poolLow)) ++ flag (decide (p.book.settled ≠ [])) ++
       be 1 (shown.take 64).length ++ ((shown.take 64).map fun r => be 2 r.ticket.slot ++ be 1 r.ticket.gen).flatten ++
       optNum 2 (if shown.length ≤ 64 then none else (shown.take 64).getLast?.map fun r => r.ticket.slot + 1)) ∧
  (∀ m : ZoneMap,
     (m.captured = none → accessFaultReport m =
       [0#8, 0#8, 0#8, 0#8] ++ optNum 1 none ++ optNum 1 none ++ [0#8] ++ optNum 4 none ++ flag m.more) ∧
     ∀ x : Capture, m.captured = some x → accessFaultReport m =
       1#8 :: (be 1 x.cause.code ++ be 1 x.request.code ++ be 1 x.cls.code ++ optNum 1 (some x.zone.val) ++
         optNum 1 x.index ++ be 1 (portCode x.port) ++ optNum 4 (some x.minute) ++ flag m.more)) ∧
  (∀ (a : Allocator) (f : FeederNo) (x : Feeder) (susp : List BayNo) (cap : BayNo → Nat), x = a.feeder f →
     susp = ((List.finRange 96).filter fun b =>
       (a.session b).any fun y => y.feeder == f && y.phase == .suspended) →
     (∀ b, cap b = ((a.session b).map (·.cap)).getD 0) →
     feederReport a f =
       be 1 f.val ++ be 2 x.budget ++ be 2 x.staged ++ flag x.switchPending ++ be 2 x.reserve ++ be 1 a.supply.code ++
       be 2 (a.ceiling f) ++ be 2 (a.granted f) ++ be 2 (a.ceiling f - a.granted f) ++
       (be 1 x.grants.length ++ (x.grants.map fun b => be 1 b.val ++ be 2 (a.grantOf b) ++ be 2 (cap b)).flatten) ++
       (be 1 x.queue.length ++ (x.queue.map fun b => be 1 b.val ++ be 2 (cap b)).flatten) ++
       (be 1 susp.length ++ (susp.map fun b => be 1 b.val ++ be 2 (cap b)).flatten)) ∧
  (∀ (p : Blocks) (u : SupplyUnit) (group : GroupNo → List Byte) (count : Action → Nat), u = p.supply →
     (∀ g, group g = be 1 u.sites[g].code ++ be 1 (u.level g).code ++
       be 2 (p.bays.bays.toList.filter fun x => x.config.groups[g]).length) →
     (∀ a, count a = (u.actions.toList.filter (· == a)).length) →
     supplyReport p =
       be 1 u.state.code ++ be 1 u.target.code ++ be 2 u.counter ++ be 2 p.params.settle ++ flag u.mainsOk ++ flag u.dr ++
       flag u.alarm ++ group 0 ++ group 1 ++ group 2 ++
       be 2 (count .continue) ++ be 2 (count .trickle) ++ be 2 (count .stop) ++ be 2 (count .close)) ∧
  (∀ p : Blocks, clockReport p = be 4 p.clock.minute ++ flag p.clock.isSet ∧
     levelReport p =
       be 1 p.level.code ++ be 4 p.clock.minute ++ flag p.clock.isSet ++ be 2 p.params.holdLead ++
       be 2 p.params.turnoverGap ++ be 2 p.params.defaultGrace ++ be 1 p.params.claimWindow ++ be 2 p.params.settle ++
       be 2 p.params.poolLow) ∧
  (∀ n : Notices,
     noticeReport n =
       be 2 n.summary.toNat ++ be 2 n.mask.toNat ++ le 12 n.intruder.toNat ++ le 12 n.unregistered.toNat ++
       le 12 n.postFault.toNat ++ le 12 n.overstay.toNat ++ be 2 n.moduleLost.toNat ∧
     (∀ i : Fin 16, n.summary.getLsbD i.val = ((n.causes[i.val]?).getD false)) ∧
     n.causes =
       [n.intruder != 0, n.unregistered != 0, n.postFault != 0, n.overstay != 0, n.moduleLost != 0, n.relocated,
        n.stranded, n.accessFault, n.supplyChanged, n.budgetCut, n.frameError, n.portOverrun, n.poolLow,
        n.settledWaiting])

/-- SET BUDGET stages the budget and sets switch-pending, and changes nothing else (R127). SET RESERVE CEILING writes
the reserve ceiling; under MAINS and HALT that is all; under RESERVE and RETURNING a fall below the granted total is the
cut and raises BUDGET_CUT, a fall above it changes no session, a rise serves the queue, and the granted total ends within
the ceiling (R128, R124, R122). -/
def Obligations.BudgetAndReserveRequests : Prop :=
  ∀ (s : State) (r : Request) (f : FeederNo) (n : Nat), n ≤ 1000 → r.body = be 1 f.val ++ be 2 n →
    (s.Serves 22 .site .operator r → ∀ a, a = { s.blocks.alloc with
        feeders := setAt s.blocks.alloc.feeders f { s.blocks.alloc.feeder f with staged := n, switchPending := true } } →
      exec (.setBudget .site r) s = .next (s.finishTurn .site r
        { blocks := { s.blocks with alloc := a }, status := .ok, body := feederReport a f })) ∧
    (s.Serves 23 .site .operator r → s.blocks.alloc.Sound → ∃ q : Blocks, ∃ d : Allocator,
      exec (.setReserveCeiling .site r) s = .next (s.finishTurn .site r
        { blocks := q, status := .ok, body := feederReport q.alloc f }) ∧
      d = { s.blocks.alloc with
        feeders := setAt s.blocks.alloc.feeders f { s.blocks.alloc.feeder f with reserve := n } } ∧
      (∀ g : FeederNo, (q.alloc.feeder g).reserve = (d.feeder g).reserve ∧ (q.alloc.feeder g).budget = (d.feeder g).budget ∧
        (q.alloc.feeder g).staged = (d.feeder g).staged ∧
        (q.alloc.feeder g).switchPending = (d.feeder g).switchPending ∧ (g ≠ f → q.alloc.feeder g = d.feeder g)) ∧
      q.alloc.granted f ≤ q.alloc.ceiling f ∧
      (d.ceiling f < d.granted f → q.alloc = d.cut f ∧ q.mail = { s.blocks.mail with
        raises := s.blocks.mail.raises ++ [(.allocator, .budgetCut)] }) ∧
      (d.granted f ≤ d.ceiling f → q.mail = s.blocks.mail) ∧
      (d.granted f ≤ d.ceiling f → d.ceiling f ≤ s.blocks.alloc.ceiling f → q.alloc = d) ∧
      (s.blocks.alloc.ceiling f < d.ceiling f → d.QueueServed q.alloc f) ∧
      q = { s.blocks with alloc := q.alloc, mail := q.mail })

/-! ## Requests: supply, groups, level -/

/-- The effective level of a group (R142), the action a bay's groups give (R144), and the three events that recompute
them: SET GROUP LEVEL (R143), a change of DR, a change of ALARM. Each recomputes bay by bay in ascending order and takes a
changed action to the session by R129's table, to the bay and its sign, and to the book where the bay closes or reopens
(R145, R146); where no bay closes, book, notices and messages stay. -/
def Obligations.GroupLevelsAndLinesSetActions : Prop :=
  (∀ (u : SupplyUnit) (g : GroupNo), u.level g =
    if u.alarm = true ∨ u.sites[g] = .clear then .clear
    else if u.sites[g] = .quiet ∨ g = 0 ∧ u.dr = true then .quiet
    else .normal) ∧
  (∀ (u : SupplyUnit) (x : BayConfig),
    (∀ g : GroupNo, x.groups[g] = true → (x.mapLevel (u.level g)).code ≤ (u.actionFor x).code) ∧
    (u.actionFor x = .continue ∨ ∃ g : GroupNo, x.groups[g] = true ∧ u.actionFor x = x.mapLevel (u.level g))) ∧
  (∀ s : State, s.blocks.ActionCopies → s.blocks.ActionsFollowGroups →
    (∀ (r : Request) (g : GroupNo) (l : GroupLevel), s.Serves 25 .site .operator r → r.body = be 1 (g.val + 1) ++ be 1 l.code →
      ∃ q : Blocks, exec (.setGroupLevel .site r) s = .next (s.finishTurn .site r
          { blocks := q, status := .ok, body := supplyReport q }) ∧
        s.blocks.Recomputed q { s.blocks.supply with sites := setAt s.blocks.supply.sites g l }) ∧
    (s.resetLow = false → ∀ h : Bool,
      (∃ q : Blocks, exec (.drChange h) s = .next { s with blocks := q } ∧
        s.blocks.Recomputed q { s.blocks.supply with dr := h }) ∧
      (∃ q : Blocks, exec (.alarmChange h) s = .next { s with blocks := q } ∧
        s.blocks.Recomputed q { s.blocks.supply with alarm := h })))

/-- SELECT SUPPLY (R136): OPERATOR on the site port alone, in either level state; a target that names none of the
three is refused BAD_FIELD and changes nothing; accepted, the target alone is written. Two of them leave the later
target. -/
def Obligations.SelectSupplyWritesTheTarget : Prop :=
  (∀ (s : State) (port : Port) (c : Machine.Class) (r : Request), s.Serves 26 port c r →
    (port = .ramp ∨ c ≠ .operator → exec (.selectSupply port r) s = .next (s.finishTurn port r
      { blocks := s.blocks, status := .classDenied, body := [] })) ∧
    (port = .site → c = .operator →
      ((∀ t : Target, r.body ≠ [BitVec.ofNat 8 t.code]) → exec (.selectSupply port r) s = .next (s.finishTurn port r
        { blocks := s.blocks, status := .badField, body := [] })) ∧
      (∀ (t : Target) (q : Blocks), r.body = [BitVec.ofNat 8 t.code] →
        q = { s.blocks with supply := { s.blocks.supply with target := t } } →
        exec (.selectSupply port r) s = .next (s.finishTurn port r
          { blocks := q, status := .ok, body := supplyReport q }) ∧
        q.supply.state = s.blocks.supply.state ∧ q.supply.counter = s.blocks.supply.counter ∧
        (∀ f : FeederNo, q.alloc.ceiling f = s.blocks.alloc.ceiling f) ∧
        (s.blocks.supply.target = t → q = s.blocks) ∧
        ∀ (t' : Target) (q' : Blocks), q' = { q with supply := { q.supply with target := t' } } →
          q' = { s.blocks with supply := { s.blocks.supply with target := t' } } ∧
          q'.switchSupply = q'.setSupply (switched t' s.blocks.supply.state))))

/-- SWITCH SUPPLY (R137), the settle count and its expiry (R138), and the falls and rises of MAINS_OK (R139). Each change
of the state does the allocator's work of R124 and R125: HALT entered or left, the cut or the service of each feeder.
SUPPLY_CHANGED is raised in the event itself (log 9); the two rows of the settle count are one event (log 11). -/
def Obligations.SupplyStateChanges : Prop :=
  ∀ s : State,
    (∀ (r : Request) (new : SupplyState), s.Serves 27 .site .operator r → r.body = [] →
      (s.blocks.supply.target = .mains ∧ (s.blocks.supply.state = .mains ∧ new = .mains ∨
          s.blocks.supply.state ≠ .mains ∧ new = .returning) ∨
        s.blocks.supply.target = .reserve ∧ new = .reserve ∨ s.blocks.supply.target = .halt ∧ new = .halt) →
      ∃ q : Blocks, exec (.switchSupply .site r) s = .next (s.finishTurn .site r
          { blocks := q, status := .ok, body := supplyReport q }) ∧
        (s.blocks.supply.state = new → q = s.blocks) ∧
        (s.blocks.supply.state ≠ new → s.blocks.SupplyChangedTo q new)) ∧
    (s.resetLow = false →
      (∀ (m : Nat) (rest : List Nat) (p : Blocks), s.blocks.boundaries.supply = m :: rest →
        p = { s.blocks with boundaries := { s.blocks.boundaries with supply := rest } } →
        (p.supply.state ≠ .returning ∨ p.supply.mainsOk = false → exec .settleCount s = .next { s with blocks := p }) ∧
        (p.supply.state = .returning → p.supply.mainsOk = true →
          (1 < p.supply.counter → exec .settleCount s = .next
            { s with blocks := { p with supply := { p.supply with counter := p.supply.counter - 1 } } }) ∧
          (p.supply.counter ≤ 1 → ∃ q : Blocks, p.SupplyChangedTo q .mains ∧
            exec .settleCount s = .next { s with blocks := q } ∧ exec .settleExpiry s = .next { s with blocks := q }))) ∧
      (∀ p : Blocks, p = { s.blocks with supply := { s.blocks.supply with mainsOk := false } } →
        s.blocks.supply.mainsOk = true →
        (p.supply.state = .mains → ∃ q : Blocks, p.SupplyChangedTo q .returning ∧
          exec .mainsOkFall s = .next { s with blocks := q }) ∧
        (p.supply.state = .returning → exec .mainsOkFall s = .next
          { s with blocks := { p with supply := { p.supply with counter := p.params.settle } } }) ∧
        (p.supply.state = .reserve ∨ p.supply.state = .halt → exec .mainsOkFall s = .next { s with blocks := p })) ∧
      exec .mainsOkRise s = .next
        { s with blocks := { s.blocks with supply := { s.blocks.supply with mainsOk := true } } })

/-- SET CLOCK (R65), SET PARAMETERS (R151) and OPEN LEVEL (R150): taken in CONFIGURING alone, each with its report
accepted or refused. -/
def Obligations.ClockParametersAndOpening : Prop :=
  ∀ (s : State) (r : Request),
    (∀ m : Nat, s.Serves 29 .site .operator r → r.body = be 4 m → m < 4294967296 →
      exec (.setClock .site r) s = .next (s.finishTurn .site r
        (if s.blocks.level = .opened then { blocks := s.blocks, status := .wrongLevelState, body := clockReport s.blocks }
         else if 4000000000 < m then { blocks := s.blocks, status := .badField, body := clockReport s.blocks }
         else
           { blocks := { s.blocks with clock := { minute := m, isSet := true, phase := 0 } }, status := .ok
             body := be 4 m ++ [1#8] }))) ∧
    (∀ (lead gap grace win settle low : Option Nat) (q : Params) (n : Notices), s.Serves 30 .site .operator r →
      r.body = optNum 2 lead ++ optNum 2 gap ++ optNum 2 grace ++ optNum 1 win ++ optNum 2 settle ++ optNum 2 low →
      (∀ x ∈ lead, x < 65536) → (∀ x ∈ gap, x < 65536) → (∀ x ∈ grace, x < 65536) → (∀ x ∈ win, x < 256) →
      (∀ x ∈ settle, x < 65536) → (∀ x ∈ low, x < 65536) →
      q = { holdLead := lead.getD s.blocks.params.holdLead, turnoverGap := gap.getD s.blocks.params.turnoverGap
            defaultGrace := grace.getD s.blocks.params.defaultGrace, claimWindow := win.getD s.blocks.params.claimWindow
            settle := settle.getD s.blocks.params.settle, poolLow := low.getD s.blocks.params.poolLow } →
      n = s.blocks.notices.setLevels (decide (s.blocks.book.free.length ≤ q.poolLow)) s.blocks.book.settledWaiting →
      exec (.setParameters .site r) s = .next (s.finishTurn .site r
        (if s.blocks.level = .opened then { blocks := s.blocks, status := .wrongLevelState, body := levelReport s.blocks }
         else if (∃ x ∈ lead, 60 < x) ∨ (∃ x ∈ gap, 30 < x) ∨ (∃ x ∈ grace, 60 < x) ∨ (∃ x ∈ win, x < 1 ∨ 15 < x) ∨
             (∃ x ∈ settle, x < 1 ∨ 15 < x) ∨ (∃ x ∈ low, 255 < x) then
           { blocks := s.blocks, status := .badField, body := levelReport s.blocks }
         else
           { blocks := { s.blocks with params := q, notices := n }, status := .ok
             body := levelReport { s.blocks with params := q, notices := n } }))) ∧
    (s.Serves 31 .site .operator r → r.body = [] → exec (.openLevel .site r) s = .next (s.finishTurn .site r
      (if s.blocks.level = .opened then { blocks := s.blocks, status := .wrongLevelState, body := levelReport s.blocks }
       else if s.blocks.clock.isSet = false then
         { blocks := s.blocks, status := .clockUnset, body := levelReport s.blocks }
       else
         { blocks := { s.blocks with level := .opened }, status := .ok
           body := levelReport { s.blocks with level := .opened } })))

/-- RESTART with scope LEVEL (R154, with R23, R63, R103, R133, R148, R155, R164), block by block. The row is one of
RESTART's two (log 21). -/
def Obligations.RestartLevelResetsEachBlock : Prop :=
  ∀ (s : State) (r : Request), s.Serves 32 .site .operator r → r.body = [1#8] → s.blocks.params.poolLow < 640 →
    ∃ q : Blocks,
      exec (.restartLevel .site r) s = .next (s.finishTurn .site r { blocks := q, status := .ok, body := levelReport q }) ∧
      q.level = .configuring ∧ q.clock = s.blocks.clock ∧ q.boundaries = s.blocks.boundaries ∧
      q.params = s.blocks.params ∧
      (∀ (c : Machine.Class) (z : ZoneNo), q.zones.descriptor c z = { s.blocks.zones.descriptor c z with used := false }) ∧
      q.zones.captured = none ∧ q.zones.more = false ∧
      (∀ sl : Slot, q.book.rec? sl = none ∧ q.book.gens[sl] =
        if s.blocks.book.rec? sl = none then s.blocks.book.gens[sl]
        else if s.blocks.book.gens[sl] < 63 then s.blocks.book.gens[sl] + 1 else 0) ∧
      q.book.free = List.finRange 640 ∧ q.book.settled = [] ∧ q.book.tokens = [] ∧
      (∀ b : BayNo, q.book.slotsOn b = [] ∧ q.book.heldReport[b] = false) ∧ q.reloc = [] ∧
      (∀ b : BayNo, q.alloc.session b = none ∧ q.alloc.posts[b] = { enabled := false, limit := 0 }) ∧
      (∀ f : FeederNo, q.alloc.feeder f =
        { s.blocks.alloc.feeder f with switchPending := false, grants := [], queue := [] }) ∧
      q.alloc.supply = s.blocks.alloc.supply ∧ q.alloc.actions = q.supply.actions ∧
      q.supply = { s.blocks.supply with sites := #v[.normal, .normal, .normal], actions := q.supply.actions } ∧
      q.bays.modules = s.blocks.bays.modules ∧ q.bays.nextPoll = s.blocks.bays.nextPoll ∧
      q.bays.lastPoll = s.blocks.bays.lastPoll ∧
      (∀ (b : BayNo) (x : Bay), x = s.blocks.bay b →
        q.supply.actions[b] = q.supply.actionFor x.config ∧ (q.bay b).action = q.supply.actions[b] ∧
        (q.bay b).config = x.config ∧ (q.bay b).presence = x.presence ∧ (q.bay b).faultLine = x.faultLine ∧
        (q.bay b).heldMark = false ∧ (q.bay b).sign = signOf (q.bay b).state (q.bay b).action ∧
        (x.config.rejoin = false → (q.bay b).state = .disabled ∧ (q.bay b).sticky = false ∧ (q.bay b).faultCause = none) ∧
        (x.config.rejoin = true → x.state = .disabled ∨ x.state = .faulted →
          (q.bay b).state = x.state ∧ (q.bay b).sticky = x.sticky ∧ (q.bay b).faultCause = x.faultCause) ∧
        (x.config.rejoin = true → x.state ≠ .disabled → x.state ≠ .faulted →
          (q.bay b).sticky = x.sticky ∧
          (x.presence = true → (q.bay b).state = .unclaimed ∧ (q.bay b).origin = some .vacant ∧
            (q.bay b).window = s.blocks.params.claimWindow) ∧
          (x.presence = false → (q.bay b).state = .vacant ∧ (q.bay b).origin = none ∧ (q.bay b).window = 0))) ∧
      q.notices.mask = s.blocks.notices.mask ∧ q.notices.causes = List.replicate 14 false ∧ q.notices.attn = false ∧
      q.mail = { toBays := [], toAlloc := [], toReloc := [], raises := [] }

/-- RESTART with scope ALLOCATION (R132, R156): only the allocator changes. Everything is given back, and then every
session, in ascending bay order, is placed by R120's table with its own draw, under the current supply state, ceilings
and actions. Every session keeps its feeder and draw, and the feeders their budgets, staged budgets, switch-pending
flags and reserve ceilings; no ceiling is exceeded. -/
def Obligations.RestartAllocationRebuildsTheLists : Prop :=
  ∀ (s : State) (r : Request), s.Serves 32 .site .operator r → r.body = [2#8] →
    ∃ a : Allocator,
      exec (.restartAllocation .site r) s = .next (s.finishTurn .site r
        { blocks := { s.blocks with alloc := a }, status := .ok, body := levelReport s.blocks }) ∧
      a = (List.finRange 96).foldl
        (fun (d : Allocator) (b : BayNo) =>
          match s.blocks.alloc.session b with
          | none => d
          | some x => d.placedBy b (s.blocks.bay b).config.maxDraw x)
        s.blocks.alloc.givenBack ∧
      a.Sound ∧ a.supply = s.blocks.alloc.supply ∧ a.actions = s.blocks.alloc.actions ∧
      (∀ f : FeederNo, a.feeder f =
        { s.blocks.alloc.feeder f with grants := (a.feeder f).grants, queue := (a.feeder f).queue }) ∧
      (∀ b : BayNo, s.blocks.alloc.session b = none → a.session b = none) ∧
      (∀ (b : BayNo) (x : Session), s.blocks.alloc.session b = some x → ∃ y : Session, a.session b = some y ∧
        y.feeder = x.feeder ∧ y.draw = x.draw ∧
        y.cap = (if a.actions[b] = .trickle then 6 else min x.draw (s.blocks.bay b).config.maxDraw) ∧
        (y.phase = .suspended ↔ a.actions[b] = .stop ∨ a.actions[b] = .close ∨ a.supply = .halt))

/-! ## Requests: notices and identity -/

/-- CLEAR NOTICES (R168): each named set loses all its members, or those of the selection where one is present; each
named event flag is cleared; the level flags and the mask stay; ATTN is recomputed. -/
def Obligations.ClearNoticesClearsWhatIsNamed : Prop :=
  ∀ (s : State) (r : Request) (sel : Nat) (bays : Option (BitVec 96)) (modules : Option (BitVec 12)),
    s.Serves 34 .site .operator r → sel < 16384 →
    r.body = be 2 sel ++ (flag bays.isSome ++ le 12 ((bays.map (·.toNat)).getD 0)) ++
      (flag modules.isSome ++ be 2 ((modules.map (·.toNat)).getD 0)) →
    ∃ n : Notices, exec (.clearNotices .site r) s = .next (s.finishTurn .site r
        { blocks := { s.blocks with notices := n }, status := .ok, body := noticeReport n }) ∧
      (∀ b : BayNo,
        n.intruder.getLsbD b =
          (s.blocks.notices.intruder.getLsbD b && !(sel.testBit 0 && bays.all (·.getLsbD b))) ∧
        n.unregistered.getLsbD b =
          (s.blocks.notices.unregistered.getLsbD b && !(sel.testBit 1 && bays.all (·.getLsbD b))) ∧
        n.postFault.getLsbD b =
          (s.blocks.notices.postFault.getLsbD b && !(sel.testBit 2 && bays.all (·.getLsbD b))) ∧
        n.overstay.getLsbD b =
          (s.blocks.notices.overstay.getLsbD b && !(sel.testBit 3 && bays.all (·.getLsbD b)))) ∧
      (∀ k : ModuleNo, n.moduleLost.getLsbD k =
        (s.blocks.notices.moduleLost.getLsbD k && !(sel.testBit 4 && modules.all (·.getLsbD k)))) ∧
      n = { s.blocks.notices with
        intruder := n.intruder, unregistered := n.unregistered, postFault := n.postFault, overstay := n.overstay
        moduleLost := n.moduleLost
        relocated := s.blocks.notices.relocated && !sel.testBit 5
        stranded := s.blocks.notices.stranded && !sel.testBit 6
        accessFault := s.blocks.notices.accessFault && !sel.testBit 7
        supplyChanged := s.blocks.notices.supplyChanged && !sel.testBit 8
        budgetCut := s.blocks.notices.budgetCut && !sel.testBit 9
        frameError := s.blocks.notices.frameError && !sel.testBit 10
        portOverrun := s.blocks.notices.portOverrun && !sel.testBit 11
        attn := n.wantsAttn }

/-- SET NOTICE MASK (R169): OPERATOR on the site port alone, in either level state; a mask with a bit beyond the
fourteen causes is refused BAD_FIELD; accepted, the mask alone is replaced and ATTN recomputed: high exactly while a
cause is both set and enabled. -/
def Obligations.SetNoticeMaskReplacesTheMask : Prop :=
  ∀ (s : State) (port : Port) (c : Machine.Class) (r : Request) (m : BitVec 16), s.Serves 35 port c r →
    r.body = be 2 m.toNat →
    (port = .ramp ∨ c ≠ .operator → exec (.setNoticeMask port r) s = .next (s.finishTurn port r
      { blocks := s.blocks, status := .classDenied, body := [] })) ∧
    (port = .site → c = .operator →
      (16384 ≤ m.toNat → exec (.setNoticeMask port r) s = .next (s.finishTurn port r
        { blocks := s.blocks, status := .badField, body := [] })) ∧
      (m.toNat < 16384 → ∃ n : Notices, exec (.setNoticeMask port r) s = .next (s.finishTurn port r
          { blocks := { s.blocks with notices := n }, status := .ok, body := noticeReport n }) ∧
        n = { s.blocks.notices with mask := m, attn := n.attn } ∧
        (n.attn = true ↔ ∃ i : Fin 14, s.blocks.notices.causes[i.val]? = some true ∧ m.getLsbD i.val = true)))

/-- IDENTIFY (R158): every class on the site port, in either level state, the four items and no change; refused
CLASS_DENIED on the ramp port; it carries no field, and any other body is refused BAD_FIELD (R163). The widths of the
four items are the model's reading (log 18). -/
def Obligations.IdentifyAnswersTheIdentity : Prop :=
  ∀ (s : State) (port : Port) (c : Machine.Class) (r : Request), s.Serves 36 port c r →
    (port = .site → r.body = [] → exec (.identify port r) s = .next (s.finishTurn port r
      { blocks := s.blocks, status := .ok, body := be 2 9600 ++ be 2 3 ++ be 2 96 ++ be 2 640 })) ∧
    (port = .site → r.body ≠ [] → exec (.identify port r) s = .next (s.finishTurn port r
      { blocks := s.blocks, status := .badField, body := [] })) ∧
    (port = .ramp → exec (.identify port r) s = .next (s.finishTurn port r
      { blocks := s.blocks, status := .classDenied, body := [] }))

/-! ## Relocation -/

/-- A relocation step on a BAY entry (R109, R111, R112, R113): with no BOOKED or HELD record on the bay the entry
leaves the list; else the earliest is moved to the first eligible candidate, or settled CANCELLED with cause BAY_LOST
where none is eligible, and the entry stays. A relocation step on a RECORD entry (R110): the entry is dropped where
its ticket names no HELD record on an occupied bay, relocation-pending becoming no; else the record is moved or
settled as for a BAY entry. The entry leaves the list in every case; that the settlement then sends its removal message
all the same is the model's reading (log 10), and that a move sends its HOLD before its UNHOLD the model's choice (log 33). -/
def Obligations.RelocationStepsMoveOrSettle : Prop :=
  (∀ (s : State) (b : BayNo) (why : Reason) (rest : List Entry), s.relocationDue = true →
     s.blocks.reloc = .bay b why :: rest →
     (s.blocks.book.pendingOn b = [] → exec .relocationStepBayEntry s = .next
       { s with blocks := { s.blocks with reloc := rest }, lastServed := .relocation }) ∧
     (∀ (sl : Slot) (more : List Slot) (x : Record), s.blocks.book.pendingOn b = sl :: more →
       s.blocks.book.rec? sl = some x →
       (∀ (b' : BayNo) (before after : List BayNo), s.blocks.targets x = before ++ b' :: after →
         (∀ d ∈ before, ¬s.blocks.Takes x d) → s.blocks.Takes x b' →
         ∃ q : Blocks, exec .relocationStepBayEntry s = .next { s with blocks := q, lastServed := .relocation } ∧
           s.blocks.MovedTo q sl x b') ∧
       ((∀ d ∈ s.blocks.targets x, ¬s.blocks.Takes x d) →
         ∃ (q : Blocks) (y : Record),
           y = { x with state := .settled, outcome := some .cancelled, cause := some .bayLost, relocPending := false } ∧
           exec .relocationStepBayEntry s = .next { s with blocks := q, lastServed := .relocation } ∧
           s.blocks.SettledAs q sl x y))) ∧
  (∀ (s : State) (t : Ticket) (rest : List Entry) (p : Blocks), s.relocationDue = true → s.blocks.book.Sound →
     s.blocks.reloc = .record t :: rest →
     p = { s.blocks with reloc := s.blocks.reloc.filter (· != .record t) } →
     ((∀ sl : Slot, ∀ x : Record, s.blocks.book.rec? sl = some x → x.ticket ≠ t) →
       exec .relocationStepRecordEntry s = .next
         { s with blocks := { s.blocks with reloc := rest }, lastServed := .relocation }) ∧
     (∀ (sl : Slot) (x : Record), s.blocks.book.rec? sl = some x → x.ticket = t →
       (x.state ≠ .held ∨ (s.blocks.bay x.bay).state.occupied = false →
         exec .relocationStepRecordEntry s = .next
           { s with
             blocks := { s.blocks with reloc := rest, book := s.blocks.book.put sl { x with relocPending := false } }
             lastServed := .relocation }) ∧
       (x.state = .held → (s.blocks.bay x.bay).state.occupied = true →
         (∀ (b' : BayNo) (before after : List BayNo), s.blocks.targets x = before ++ b' :: after →
           (∀ d ∈ before, ¬s.blocks.Takes x d) → s.blocks.Takes x b' →
           ∃ q : Blocks, exec .relocationStepRecordEntry s = .next { s with blocks := q, lastServed := .relocation } ∧
             p.MovedTo q sl x b') ∧
         ((∀ d ∈ s.blocks.targets x, ¬s.blocks.Takes x d) →
           ∃ (q : Blocks) (y : Record),
             y = { x with state := .settled, outcome := some .cancelled, cause := some .bayLost, relocPending := false } ∧
             exec .relocationStepRecordEntry s = .next { s with blocks := q, lastServed := .relocation } ∧
             p.SettledAs q sl x y))))

/-! ## The bay link -/

/-- A poll (R100) carries the post commands and signs of the eight bays of the module next in turn, 0 to 11 and round
again, and changes nothing else. A module's report (R100, R102). From an OFFLINE module it is the found event: ONLINE,
the levels written and nothing else. From an ONLINE module the silence count restarts, and its eight bays, in
ascending order, take the fault event, the presence event and the done report that the report yields for each; where the
levels are those held and no post is done, that is all. No other module's bays change. That the done report of a bay is
taken last is the model's reading (log 12); that either row does what the module's state decides is its choice (log 23). -/
def Obligations.PollsAndReports : Prop :=
  (∀ (s : State) (k next : ModuleNo), s.resetLow = false → s.blocks.bays.nextPoll = k →
     next.val = (k.val + 1) % 12 → exec .modulePoll s = .next
       { s with blocks := { s.blocks with bays := { s.blocks.bays with
         nextPoll := next
         lastPoll := some
           { target := k
             commands := (List.finRange 8).map fun i => s.blocks.alloc.posts[bayAt k i]
             signs := (List.finRange 8).map fun i => (s.blocks.bay (bayAt k i)).sign } } } }) ∧
  (∀ (s : State) (k : ModuleNo) (rep : ModuleReport), s.resetLow = false →
     ∃ q : Blocks, exec (.moduleReport k rep) s = .next { s with blocks := q } ∧
       exec (.moduleFound k rep) s = .next { s with blocks := q } ∧
       (∀ k' : ModuleNo, q.moduleState k' = if k' = k then .online 0 else s.blocks.moduleState k') ∧
       (∀ i : Fin 8, (q.bay (bayAt k i)).presence = rep.presence.getLsbD i ∧
         (q.bay (bayAt k i)).faultLine = rep.fault.getLsbD i) ∧
       (∀ b : BayNo, (∀ i : Fin 8, b ≠ bayAt k i) → q.bay b = s.blocks.bay b) ∧
       q = { s.blocks with bays := { s.blocks.bays with modules := q.bays.modules, bays := q.bays.bays }
                           book := q.book, reloc := q.reloc, notices := q.notices, mail := q.mail } ∧
       (s.blocks.moduleState k = .offline → q = { s.blocks with bays := q.bays } ∧
         ∀ i : Fin 8, q.bay (bayAt k i) =
           { s.blocks.bay (bayAt k i) with presence := rep.presence.getLsbD i, faultLine := rep.fault.getLsbD i }) ∧
       (∀ n : Nat, s.blocks.moduleState k = .online n → InTurn (Blocks.Reported k rep) (List.finRange 8)
         { s.blocks with bays := { s.blocks.bays with modules := setAt s.blocks.bays.modules k (.online 0) } } q) ∧
       (rep.done = 0 → (∀ i : Fin 8, (s.blocks.bay (bayAt k i)).presence = rep.presence.getLsbD i ∧
           (s.blocks.bay (bayAt k i)).faultLine = rep.fault.getLsbD i) →
         q = { s.blocks with bays := { s.blocks.bays with modules := q.bays.modules } }))

/-- A presence event at a sound bay entry (R85, R92): the table, with the departure of a vehicle record settling it
COMPLETED with departure, dwell and overstay (R4). Fault events and done reports (R94, R95, R93): fault OFF, and
fault ON at a DISABLED bay, only update the level; fault ON elsewhere sets the sticky flag and POST_FAULT, and with
autocut takes an in-service bay out of service. A done report is taken where the bay is SERVING with its post enabled
and its record in SESSION, which becomes PARKED. That a listed
BAY entry has its reason changed also where no BOOKED or HELD record is left is the model's reading (log 13). -/
def Obligations.BayEventsFollowTheTables : Prop :=
  (∀ (p q : Blocks) (b : BayNo) (tl : Bool) (x : Bay), (p.bay b).Sound → (p.bay b).presence = !tl →
     q = p.presenceEvent b tl → x = { p.bay b with presence := tl } →
     (∀ b' : BayNo, b' ≠ b → q.bay b' = p.bay b') ∧
     q.bay b =
       (if (p.bay b).state = .disabled ∨ (p.bay b).state = .faulted then x
        else x.atRest p.params.claimWindow) ∧
     ((p.bay b).state ≠ .serving → q = { p with bays := q.bays }) ∧
     ((p.bay b).state = .serving →
       (p.book.servingOn b = none → q = { p with bays := q.bays }) ∧
       (∀ (sl : Slot) (r : Record), p.book.servingOn b = some sl → p.book.rec? sl = some r →
         { p with bays := q.bays }.SettledAs q sl r
           { r with
             state := .settled, outcome := some .completed, cause := none, relocPending := false
             departure := some p.clock.minute, dwell := some (p.clock.minute - r.arrival.getD p.clock.minute)
             overstay := some (if r.start + r.length < p.clock.minute then p.clock.minute - (r.start + r.length) else 0) }))) ∧
  ((∀ (p q : Blocks) (b : BayNo) (tl : Bool) (x : Bay), q = p.faultEvent b tl → x = { p.bay b with faultLine := tl } →
     (∀ b' : BayNo, b' ≠ b → q.bay b' = p.bay b') ∧
     (tl = false ∨ (p.bay b).state = .disabled → q.bay b = x ∧ q = { p with bays := q.bays }) ∧
     (tl = true → (p.bay b).state ≠ .disabled →
       (.bayUnit, .postFault b) ∈ q.mail.raises ∧
       ((p.bay b).state = .faulted ∨ (p.bay b).config.autocut = false →
         q.bay b = { x with sticky := true } ∧
         q = { p with bays := q.bays, mail := { p.mail with raises := p.mail.raises ++ [(.bayUnit, .postFault b)] } }) ∧
       ((p.bay b).state ≠ .faulted → (p.bay b).config.autocut = true →
         q.bay b = { x with
           sticky := true, state := .faulted, faultCause := some .postFault, origin := none, window := 0, sign := .out } ∧
         Blocks.BayLost { p with mail := { p.mail with raises := p.mail.raises ++ [(.bayUnit, .postFault b)] } } q b { x with
           sticky := true, state := .faulted, faultCause := some .postFault, origin := none, window := 0, sign := .out }
           .postFault .fault ∧
         q = { p with bays := q.bays, book := q.book, reloc := q.reloc, notices := q.notices, mail := q.mail }))) ∧
   (∀ (p : Blocks) (b : BayNo),
     (∀ (sl : Slot) (r : Record), (p.bay b).state = .serving → p.alloc.posts[b].enabled = true →
       p.book.servingOn b = some sl → p.book.rec? sl = some r → r.state = .session →
       p.doneReport b = { p with
         book := p.book.put sl { r with state := .parked }
         mail := { p.mail with toAlloc := p.mail.toAlloc ++ [.release b] } }) ∧
     ((p.bay b).state ≠ .serving ∨ p.alloc.posts[b].enabled = false ∨
       (∀ (sl : Slot) (r : Record), p.book.servingOn b = some sl → p.book.rec? sl = some r → r.state ≠ .session) →
       p.doneReport b = p)))

/-- The loss of an ONLINE module (R101): it is OFFLINE, its eight bays are taken in ascending order, and MODULE_LOST is
raised. Each of its bays in service is lost with cause LINK_LOST: its vehicle record is settled PREEMPTED and its BOOKED
and HELD records come under a BAY entry (log 13). Each of its bays not DISABLED has its sticky flag set. That the bays are
taken in ascending order is the model's choice (log 31). -/
def Obligations.ModuleLossTakesItsBays : Prop :=
  ∀ (s : State) (k : ModuleNo) (n : Nat), s.resetLow = false → s.blocks.moduleState k = .online n →
    s.blocks.book.Sound →
    ∃ p q : Blocks, exec (.moduleLost k) s = .next { s with blocks := q } ∧
      InTurn (fun (i : Fin 8) (x y : Blocks) => x.LinkLost (bayAt k i) y) (List.finRange 8)
        { s.blocks with bays := { s.blocks.bays with modules := setAt s.blocks.bays.modules k .offline } } p ∧
      q = { p with mail := { p.mail with raises := p.mail.raises ++ [(.bayUnit, .moduleLost k)] } } ∧
      (∀ k' : ModuleNo, q.moduleState k' = if k' = k then .offline else s.blocks.moduleState k') ∧
      (∀ b : BayNo, (∀ i : Fin 8, b ≠ bayAt k i) → q.bay b = s.blocks.bay b ∧ q.book.slotsOn b = s.blocks.book.slotsOn b) ∧
      (∀ (sl : Slot) (r : Record), s.blocks.book.rec? sl = some r → (∀ i : Fin 8, r.bay ≠ bayAt k i) →
        q.book.rec? sl = some r) ∧
      (∀ (i : Fin 8) (b : BayNo) (x : Bay), b = bayAt k i → x = s.blocks.bay b →
        (x.state = .disabled → q.bay b = x) ∧ (x.state = .faulted → q.bay b = { x with sticky := true }) ∧
        (x.state ≠ .disabled → x.state ≠ .faulted →
          q.bay b = { x with
            sticky := true, state := .faulted, faultCause := some .linkLost, origin := none, window := 0, sign := .out } ∧
          (∀ (sl : Slot) (r : Record), s.blocks.book.servingOn b = some sl → s.blocks.book.rec? sl = some r →
            q.book.rec? sl = some
              { r with state := .settled, outcome := some .preempted, cause := some .linkLost, relocPending := false }) ∧
          (s.blocks.book.pendingOn b ≠ [] → (q.bayEntry b).isSome ∨ q.book.pendingOn b = []))) ∧
      q = { s.blocks with
        bays := { s.blocks.bays with modules := q.bays.modules, bays := q.bays.bays }
        book := q.book, reloc := q.reloc, notices := q.notices, mail := q.mail }

/-! ## Minute boundaries -/

/-- The minute boundary at the clock (R64, R67, R126), and the bay unit's boundary (R87): every claim window running
counts down by one, and a bay whose window reaches 0 becomes SQUATTED with INTRUDER or UNREGISTERED raised by its
origin. That several such raises are sent in ascending bay order is the model's choice (log 32). The two rows of the bay
unit's boundary are one event (log 11). The power allocator is sent the boundaries of multiples of 5 alone (log 22). -/
def Obligations.MinuteBoundaryAndClaimWindows : Prop :=
  ∀ s : State, s.resetLow = false →
    (∀ m, m = min (s.blocks.clock.minute + 1) 4294967295 → exec .minuteBoundary s = .next
      { s with blocks := { s.blocks with
        clock := { s.blocks.clock with minute := m, phase := 0 }
        boundaries :=
          { book := s.blocks.boundaries.book ++ [m], bays := s.blocks.boundaries.bays ++ [m]
            supply := s.blocks.boundaries.supply ++ [m]
            alloc := s.blocks.boundaries.alloc ++ (if m % 5 = 0 then [m] else []) } } }) ∧
    (∀ (m : Nat) (rest : List Nat), s.blocks.boundaries.bays = m :: rest →
      ∃ q : Blocks, exec .claimWindowCount s = .next { s with blocks := q } ∧
        (∀ b : BayNo, (s.blocks.bay b).state = .unclaimed → (s.blocks.bay b).window ≤ 1 →
          exec (.claimWindowExpiry b) s = .next { s with blocks := q }) ∧
        (∀ (b : BayNo) (x : Bay), x = s.blocks.bay b → q.bay b =
          if x.state = .unclaimed then
            (if x.window ≤ 1 then { x with state := .squatted, window := 0, sign := signOf .squatted x.action }
             else { x with window := x.window - 1 })
          else x) ∧
        q = { s.blocks with
          boundaries := { s.blocks.boundaries with bays := rest }, bays := { s.blocks.bays with bays := q.bays.bays }
          mail := { s.blocks.mail with
            raises := s.blocks.mail.raises ++ (List.finRange 96).filterMap fun b : BayNo =>
              if (s.blocks.bay b).state = .unclaimed ∧ (s.blocks.bay b).window ≤ 1 then
                some (.bayUnit, if (s.blocks.bay b).origin = some .awaiting then .intruder b else .unregistered b)
              else none } })

/-- The deadline pass (R68 to R75, R173), over a sound book. In CONFIGURING the boundary is taken and nothing is done. In
OPEN, after the pass for minute `m` no deadline of that minute is left standing on any record: none is BOOKED at its hold
lead, none HELD at its grace's end, none in SESSION or PARKED at its end; a HELD record whose start has come on an occupied
bay under no BAY entry is marked for relocation under a RECORD entry, or on a full list settled CANCELLED with STRANDED
raised; and every bay's held report says whether it has a HELD record. No record changes but by a deadline it had reached.
The pass takes the bays in ascending order, each record through its four checks in turn, and sends what each check sends.
The bay unit is told HOLD for each bay whose held report rises, UNHOLD for each whose report falls, and nothing else; the
list keeps its entries and gains RECORD entries at its tail; of the notices only the pool conditions and ATTN follow. -/
def Obligations.DeadlinePassLeavesNoDeadline : Prop :=
  ∀ (s : State) (m : Nat) (rest : List Nat), s.resetLow = false → s.blocks.book.Sound →
    s.blocks.boundaries.book = m :: rest →
    (s.blocks.level = .configuring → exec .deadlinePass s = .next
      { s with blocks := { s.blocks with boundaries := { s.blocks.boundaries with book := rest } } }) ∧
    (s.blocks.level = .opened → ∃ q : Blocks, exec .deadlinePass s = .next { s with blocks := q } ∧
      (∀ (sl : Slot) (x : Record), q.book.rec? sl = some x →
        (x.state = .booked → m < x.start - s.blocks.params.holdLead) ∧
        (x.state = .held → m < x.start + x.grace) ∧
        (x.state = .session ∨ x.state = .parked → m < x.start + x.length) ∧
        (x.state = .held → x.start ≤ m → (s.blocks.bay x.bay).state.occupied = true →
          s.blocks.bayEntry x.bay = none → x.relocPending = true)) ∧
      (∀ (sl : Slot) (x : Record), s.blocks.book.rec? sl = some x → ∃ y : Record, q.book.rec? sl = some y ∧
        ((x.state = .booked → m < x.start - s.blocks.params.holdLead) →
          (x.state = .held → m < x.start ∧ m < x.start + x.grace) →
          (x.state = .session ∨ x.state = .parked → m < x.start + x.length) → y = x) ∧
        (x.state = .held → x.start + x.grace ≤ m →
          y = { x with state := .settled, outcome := some .noShow, cause := none, relocPending := false }) ∧
        (x.state = .session ∨ x.state = .parked → x.start + x.length ≤ m → y = { x with state := .overstay } ∧
          (.book, .overstay x.bay) ∈ q.mail.raises ∧ (x.state = .session → .release x.bay ∈ q.mail.toAlloc)) ∧
        (x.state = .booked → x.start - s.blocks.params.holdLead ≤ m → m < x.start → y = { x with state := .held }) ∧
        (x.state = .held → x.start ≤ m → m < x.start + x.grace → (s.blocks.bay x.bay).state.occupied = true →
          x.relocPending = false → s.blocks.bayEntry x.bay = none →
          y = { x with relocPending := true } ∧ .record x.ticket ∈ q.reloc ∨
          y = { x with state := .settled, outcome := some .cancelled, cause := some .bayLost, relocPending := false } ∧
            128 ≤ q.reloc.length ∧ (.book, .stranded) ∈ q.mail.raises)) ∧
      (∀ b : BayNo, q.book.heldReport[b] = q.book.hasHeld b) ∧
      InTurn (Blocks.BayPassed m) (List.finRange 96)
        { s.blocks with boundaries := { s.blocks.boundaries with book := rest } } q ∧
      q.mail.toBays = s.blocks.mail.toBays ++ (List.finRange 96).filterMap (fun b : BayNo =>
        if q.book.heldReport[b] = s.blocks.book.heldReport[b] then none
        else some (if q.book.heldReport[b] then .hold b else .unhold b)) ∧
      (∃ ts : List Ticket, q.reloc = s.blocks.reloc ++ ts.map Entry.record) ∧
      q.book.free = s.blocks.book.free ∧ q.book.gens = s.blocks.book.gens ∧
      (q.notices = s.blocks.notices ∨ q.notices =
        s.blocks.notices.setLevels (decide (s.blocks.book.free.length ≤ s.blocks.params.poolLow)) true) ∧
      q = { s.blocks with
        boundaries := { s.blocks.boundaries with book := rest }, book := q.book, reloc := q.reloc
        notices := q.notices, mail := q.mail })

/-- The rebalance boundary (R126), over sound lists: feeder by feeder, F0 to F3, the staged budget is switched in, the
feeder is cut where its granted total exceeds its ceiling, its queue is served and its grants are topped up; BUDGET_CUT
is raised for each feeder that is cut and for no other. Every session keeps feeder, draw and cap and none is newly
SUSPENDED; where no cut ran no grant falls. At the end every granted total is within its ceiling, no wait queue that
could be served is left, and every grant is at its cap or no headroom is left. That the boundaries on their way to the
allocator are those of multiples of 5 alone is the model's choice (log 22). -/
def Obligations.RebalanceSwitchesServesAndTopsUp : Prop :=
  ∀ (s : State) (m : Nat) (rest : List Nat) (a : Allocator) (ceil : FeederNo → Nat),
    s.resetLow = false → a = s.blocks.alloc → a.Sound → s.blocks.boundaries.alloc = m :: rest → m % 5 = 0 →
    (∀ f : FeederNo, ceil f =
      { a.feeder f with budget := if (a.feeder f).switchPending then (a.feeder f).staged else (a.feeder f).budget }.ceiling
        a.supply) →
    ∃ q : Blocks, exec .rebalanceBoundary s = .next { s with blocks := q } ∧
      InTurn Allocator.Rebalanced (List.finRange 4) a q.alloc ∧
      q.mail = { s.blocks.mail with raises := s.blocks.mail.raises ++ a.cutRaises ceil } ∧
      a.OnlyRaised q.alloc (fun f => ceil f < a.granted f) ∧ q.alloc.Sound ∧ q.alloc.supply = a.supply ∧ q.alloc.actions = a.actions ∧
      (∀ f : FeederNo,
        (q.alloc.feeder f).budget = (if (a.feeder f).switchPending then (a.feeder f).staged else (a.feeder f).budget) ∧
        (q.alloc.feeder f).switchPending = false ∧ (q.alloc.feeder f).staged = (a.feeder f).staged ∧
        (q.alloc.feeder f).reserve = (a.feeder f).reserve ∧
        ((q.alloc.feeder f).queue = [] ∨ q.alloc.headroom f < 6) ∧
        (∀ b ∈ (q.alloc.feeder f).grants, ∀ x : Session, q.alloc.session b = some x →
          x.cap ≤ x.grant ∨ q.alloc.headroom f = 0)) ∧
      q = { s.blocks with
        boundaries := { s.blocks.boundaries with alloc := rest }, alloc := q.alloc, mail := q.mail }

/-! ## The allocator's cut and the messages -/

/-- The cut (R123), where the granted total of sound lists exceeds the ceiling and every grant is at least 6: the
newest grants are lowered first, to no less than 6; a grant is taken back whole only where every grant left is 6, from
the newest, and those sessions are QUEUED at the front of the wait queue in grant age. Every post command is written. -/
def Obligations.CutTakesFromTheNewest : Prop :=
  ∀ (a : Allocator) (f : FeederNo), a.ListsSound → a.ceiling f < a.granted f →
    (∀ b ∈ (a.feeder f).grants, 6 ≤ a.grantOf b) →
    ∃ kept back : List BayNo, (a.feeder f).grants = kept ++ back ∧
      (a.cut f).feeder f = { a.feeder f with grants := kept, queue := back ++ (a.feeder f).queue } ∧
      (a.cut f).granted f ≤ a.ceiling f ∧
      (back = [] → (a.cut f).granted f = a.ceiling f) ∧
      (back ≠ [] → a.ceiling f < (a.cut f).granted f + 6 ∧ ∀ b ∈ kept, (a.cut f).grantOf b = 6) ∧
      (∀ b ∈ kept, ∃ x : Session, a.session b = some x ∧
        (a.cut f).session b = some { x with grant := (a.cut f).grantOf b } ∧
        6 ≤ (a.cut f).grantOf b ∧ (a.cut f).grantOf b ≤ x.grant) ∧
      (kept.Pairwise fun older newer => (a.cut f).grantOf older < a.grantOf older → (a.cut f).grantOf newer = 6) ∧
      (∀ b ∈ back, ∃ x : Session, a.session b = some x ∧
        (a.cut f).session b = some { x with grant := 0, phase := .queued }) ∧
      (∀ b ∈ kept, (a.cut f).posts[b] = { enabled := true, limit := (a.cut f).grantOf b }) ∧
      (∀ b ∈ back, (a.cut f).posts[b] = { enabled := false, limit := 0 }) ∧
      (∀ b : BayNo, b ∉ (a.feeder f).grants →
        (a.cut f).session b = a.session b ∧ (a.cut f).posts[b] = a.posts[b]) ∧
      (a.cut f).supply = a.supply ∧ (a.cut f).actions = a.actions ∧
      ∀ g : FeederNo, g ≠ f → (a.cut f).feeder g = a.feeder g

/-- A session request (R120), placed by the first case that applies, and a release (R121), which removes the entry,
disables the post and serves the feeder's queue (R122). -/
def Obligations.SessionRequestAndRelease : Prop :=
  ∀ (s : State) (b : BayNo) (a : Allocator) (rest : List AllocMsg) (p : Blocks), s.resetLow = false →
    a = s.blocks.alloc → p = { s.blocks with mail := { s.blocks.mail with toAlloc := rest } } →
    (∀ (n : Nat) (x : Session), s.blocks.mail.toAlloc = .sessionRequest b n :: rest →
      (a.session b = none ∧ x.draw = n ∧ x.feeder = (s.blocks.bay b).config.feeder ∨
        ∃ y, a.session b = some y ∧ y.phase = .suspended ∧ x.draw = y.draw ∧ x.feeder = y.feeder) →
      exec (.sessionRequest b n) s = .next
        { s with blocks := { p with alloc := a.placedBy b (s.blocks.bay b).config.maxDraw x } }) ∧
    (s.blocks.mail.toAlloc = .release b :: rest → a.ListsSound →
      (a.session b = none → exec (.release b) s = .next { s with blocks := p }) ∧
      (∀ x : Session, a.session b = some x → ∃ d e : Allocator,
        exec (.release b) s = .next { s with blocks := { p with alloc := e } } ∧
        d = { a with
          sessions := setAt a.sessions b none, posts := setAt a.posts b { enabled := false, limit := 0 }
          feeders := setAt a.feeders x.feeder { a.feeder x.feeder with
            grants := (a.feeder x.feeder).grants.filter (· != b), queue := (a.feeder x.feeder).queue.filter (· != b) } } ∧
        d.QueueServed e x.feeder))

/-- HOLD, UNHOLD and END at the bay unit (R86, R89) and the removal of a RECORD entry at the relocation engine
(R107), each taken as the oldest message of its sender. A raise taken (R164, R165): the oldest raise of its sender
leaves the way, the flag or member is set, every other flag and member and the mask stay, and ATTN follows. Which
raises are messages is the model's reading (log 9). -/
def Obligations.MessagesAndRaisesAreTaken : Prop :=
  (∀ (s : State) (b : BayNo) (x : Bay) (set : List BayMsg → Bay → State), s.resetLow = false → x = s.blocks.bay b →
     (∀ rest y, set rest y = { s with blocks := { s.blocks with
       mail := { s.blocks.mail with toBays := rest }
       bays := { s.blocks.bays with bays := setAt s.blocks.bays.bays b y } } }) →
     (∀ rest, s.blocks.mail.toBays = .hold b :: rest → exec (.hold b) s = .next (set rest
       (if x.state = .vacant then
         { x with
           heldMark := true, state := .awaiting, origin := none, window := 0, faultCause := none
           sign := signOf .awaiting x.action }
        else { x with heldMark := true }))) ∧
     (∀ rest, s.blocks.mail.toBays = .unhold b :: rest → exec (.unhold b) s = .next (set rest
       (if x.state = .awaiting then
         { x with
           heldMark := false, state := .vacant, origin := none, window := 0, faultCause := none
           sign := signOf .vacant x.action }
        else { x with heldMark := false }))) ∧
     (∀ rest, s.blocks.mail.toBays = .endServing b :: rest → exec (.endServing b) s = .next (set rest
       (if x.state = .serving then
         { x with
           state := .unclaimed, origin := some .vacant, window := s.blocks.params.claimWindow, faultCause := none
           sign := signOf .unclaimed x.action }
        else x))) ∧
     (∀ t rest, s.blocks.mail.toReloc = t :: rest → exec (.removeRecordEntry t) s = .next
       { s with blocks := { s.blocks with
         mail := { s.blocks.mail with toReloc := rest }, reloc := s.blocks.reloc.filter (· != .record t) } })) ∧
  (∀ (s : State) (y : Sender) (what : Raise) (before after : List (Sender × Raise)) (n : Notices), s.resetLow = false →
     s.blocks.mail.raises = before ++ (y, what) :: after → (∀ z ∈ before, z.1 ≠ y) →
     n = (match what with
       | .intruder b => { s.blocks.notices with intruder := s.blocks.notices.intruder ||| BitVec.twoPow 96 b }
       | .unregistered b => { s.blocks.notices with unregistered := s.blocks.notices.unregistered ||| BitVec.twoPow 96 b }
       | .postFault b => { s.blocks.notices with postFault := s.blocks.notices.postFault ||| BitVec.twoPow 96 b }
       | .overstay b => { s.blocks.notices with overstay := s.blocks.notices.overstay ||| BitVec.twoPow 96 b }
       | .moduleLost k => { s.blocks.notices with moduleLost := s.blocks.notices.moduleLost ||| BitVec.twoPow 12 k }
       | .relocated => { s.blocks.notices with relocated := true }
       | .stranded => { s.blocks.notices with stranded := true }
       | .accessFault => { s.blocks.notices with accessFault := true }
       | .supplyChanged => { s.blocks.notices with supplyChanged := true }
       | .budgetCut => { s.blocks.notices with budgetCut := true }
       | .frameError => { s.blocks.notices with frameError := true }
       | .portOverrun => { s.blocks.notices with portOverrun := true }) →
     exec (.noticeRaise y what) s = .next
       { s with blocks := { s.blocks with
         mail := { s.blocks.mail with raises := before ++ after }, notices := { n with attn := n.wantsAttn } } })
end

