-- ==== Sys2Proof/Laws/State.lean ====
section
/-! SUPPORT. What each named update leaves and what it writes, field by field, so that no proof unfolds a record update. -/

namespace Sys2Proof.Machine

/-! ## The blocks -/

@[simp] theorem Blocks.withClock_clock (p : Blocks) (x : Clock) : (p.withClock x).clock = x := rfl
@[simp] theorem Blocks.withClock_boundaries (p : Blocks) (x : Clock) : (p.withClock x).boundaries = p.boundaries := rfl
@[simp] theorem Blocks.withClock_level (p : Blocks) (x : Clock) : (p.withClock x).level = p.level := rfl
@[simp] theorem Blocks.withClock_params (p : Blocks) (x : Clock) : (p.withClock x).params = p.params := rfl
@[simp] theorem Blocks.withClock_zones (p : Blocks) (x : Clock) : (p.withClock x).zones = p.zones := rfl
@[simp] theorem Blocks.withClock_book (p : Blocks) (x : Clock) : (p.withClock x).book = p.book := rfl
@[simp] theorem Blocks.withClock_reloc (p : Blocks) (x : Clock) : (p.withClock x).reloc = p.reloc := rfl
@[simp] theorem Blocks.withClock_bays (p : Blocks) (x : Clock) : (p.withClock x).bays = p.bays := rfl
@[simp] theorem Blocks.withClock_alloc (p : Blocks) (x : Clock) : (p.withClock x).alloc = p.alloc := rfl
@[simp] theorem Blocks.withClock_supply (p : Blocks) (x : Clock) : (p.withClock x).supply = p.supply := rfl
@[simp] theorem Blocks.withClock_notices (p : Blocks) (x : Clock) : (p.withClock x).notices = p.notices := rfl
@[simp] theorem Blocks.withClock_mail (p : Blocks) (x : Clock) : (p.withClock x).mail = p.mail := rfl
@[simp] theorem Blocks.withBoundaries_clock (p : Blocks) (x : Boundaries) : (p.withBoundaries x).clock = p.clock := rfl
@[simp] theorem Blocks.withBoundaries_boundaries (p : Blocks) (x : Boundaries) : (p.withBoundaries x).boundaries = x := rfl
@[simp] theorem Blocks.withBoundaries_level (p : Blocks) (x : Boundaries) : (p.withBoundaries x).level = p.level := rfl
@[simp] theorem Blocks.withBoundaries_params (p : Blocks) (x : Boundaries) : (p.withBoundaries x).params = p.params := rfl
@[simp] theorem Blocks.withBoundaries_zones (p : Blocks) (x : Boundaries) : (p.withBoundaries x).zones = p.zones := rfl
@[simp] theorem Blocks.withBoundaries_book (p : Blocks) (x : Boundaries) : (p.withBoundaries x).book = p.book := rfl
@[simp] theorem Blocks.withBoundaries_reloc (p : Blocks) (x : Boundaries) : (p.withBoundaries x).reloc = p.reloc := rfl
@[simp] theorem Blocks.withBoundaries_bays (p : Blocks) (x : Boundaries) : (p.withBoundaries x).bays = p.bays := rfl
@[simp] theorem Blocks.withBoundaries_alloc (p : Blocks) (x : Boundaries) : (p.withBoundaries x).alloc = p.alloc := rfl
@[simp] theorem Blocks.withBoundaries_supply (p : Blocks) (x : Boundaries) : (p.withBoundaries x).supply = p.supply := rfl
@[simp] theorem Blocks.withBoundaries_notices (p : Blocks) (x : Boundaries) : (p.withBoundaries x).notices = p.notices := rfl
@[simp] theorem Blocks.withBoundaries_mail (p : Blocks) (x : Boundaries) : (p.withBoundaries x).mail = p.mail := rfl
@[simp] theorem Blocks.withLevel_clock (p : Blocks) (x : LevelState) : (p.withLevel x).clock = p.clock := rfl
@[simp] theorem Blocks.withLevel_boundaries (p : Blocks) (x : LevelState) : (p.withLevel x).boundaries = p.boundaries := rfl
@[simp] theorem Blocks.withLevel_level (p : Blocks) (x : LevelState) : (p.withLevel x).level = x := rfl
@[simp] theorem Blocks.withLevel_params (p : Blocks) (x : LevelState) : (p.withLevel x).params = p.params := rfl
@[simp] theorem Blocks.withLevel_zones (p : Blocks) (x : LevelState) : (p.withLevel x).zones = p.zones := rfl
@[simp] theorem Blocks.withLevel_book (p : Blocks) (x : LevelState) : (p.withLevel x).book = p.book := rfl
@[simp] theorem Blocks.withLevel_reloc (p : Blocks) (x : LevelState) : (p.withLevel x).reloc = p.reloc := rfl
@[simp] theorem Blocks.withLevel_bays (p : Blocks) (x : LevelState) : (p.withLevel x).bays = p.bays := rfl
@[simp] theorem Blocks.withLevel_alloc (p : Blocks) (x : LevelState) : (p.withLevel x).alloc = p.alloc := rfl
@[simp] theorem Blocks.withLevel_supply (p : Blocks) (x : LevelState) : (p.withLevel x).supply = p.supply := rfl
@[simp] theorem Blocks.withLevel_notices (p : Blocks) (x : LevelState) : (p.withLevel x).notices = p.notices := rfl
@[simp] theorem Blocks.withLevel_mail (p : Blocks) (x : LevelState) : (p.withLevel x).mail = p.mail := rfl
@[simp] theorem Blocks.withParams_clock (p : Blocks) (x : Params) : (p.withParams x).clock = p.clock := rfl
@[simp] theorem Blocks.withParams_boundaries (p : Blocks) (x : Params) : (p.withParams x).boundaries = p.boundaries := rfl
@[simp] theorem Blocks.withParams_level (p : Blocks) (x : Params) : (p.withParams x).level = p.level := rfl
@[simp] theorem Blocks.withParams_params (p : Blocks) (x : Params) : (p.withParams x).params = x := rfl
@[simp] theorem Blocks.withParams_zones (p : Blocks) (x : Params) : (p.withParams x).zones = p.zones := rfl
@[simp] theorem Blocks.withParams_book (p : Blocks) (x : Params) : (p.withParams x).book = p.book := rfl
@[simp] theorem Blocks.withParams_reloc (p : Blocks) (x : Params) : (p.withParams x).reloc = p.reloc := rfl
@[simp] theorem Blocks.withParams_bays (p : Blocks) (x : Params) : (p.withParams x).bays = p.bays := rfl
@[simp] theorem Blocks.withParams_alloc (p : Blocks) (x : Params) : (p.withParams x).alloc = p.alloc := rfl
@[simp] theorem Blocks.withParams_supply (p : Blocks) (x : Params) : (p.withParams x).supply = p.supply := rfl
@[simp] theorem Blocks.withParams_notices (p : Blocks) (x : Params) : (p.withParams x).notices = p.notices := rfl
@[simp] theorem Blocks.withParams_mail (p : Blocks) (x : Params) : (p.withParams x).mail = p.mail := rfl
@[simp] theorem Blocks.withZones_clock (p : Blocks) (x : ZoneMap) : (p.withZones x).clock = p.clock := rfl
@[simp] theorem Blocks.withZones_boundaries (p : Blocks) (x : ZoneMap) : (p.withZones x).boundaries = p.boundaries := rfl
@[simp] theorem Blocks.withZones_level (p : Blocks) (x : ZoneMap) : (p.withZones x).level = p.level := rfl
@[simp] theorem Blocks.withZones_params (p : Blocks) (x : ZoneMap) : (p.withZones x).params = p.params := rfl
@[simp] theorem Blocks.withZones_zones (p : Blocks) (x : ZoneMap) : (p.withZones x).zones = x := rfl
@[simp] theorem Blocks.withZones_book (p : Blocks) (x : ZoneMap) : (p.withZones x).book = p.book := rfl
@[simp] theorem Blocks.withZones_reloc (p : Blocks) (x : ZoneMap) : (p.withZones x).reloc = p.reloc := rfl
@[simp] theorem Blocks.withZones_bays (p : Blocks) (x : ZoneMap) : (p.withZones x).bays = p.bays := rfl
@[simp] theorem Blocks.withZones_alloc (p : Blocks) (x : ZoneMap) : (p.withZones x).alloc = p.alloc := rfl
@[simp] theorem Blocks.withZones_supply (p : Blocks) (x : ZoneMap) : (p.withZones x).supply = p.supply := rfl
@[simp] theorem Blocks.withZones_notices (p : Blocks) (x : ZoneMap) : (p.withZones x).notices = p.notices := rfl
@[simp] theorem Blocks.withZones_mail (p : Blocks) (x : ZoneMap) : (p.withZones x).mail = p.mail := rfl
@[simp] theorem Blocks.withBook_clock (p : Blocks) (x : Book) : (p.withBook x).clock = p.clock := rfl
@[simp] theorem Blocks.withBook_boundaries (p : Blocks) (x : Book) : (p.withBook x).boundaries = p.boundaries := rfl
@[simp] theorem Blocks.withBook_level (p : Blocks) (x : Book) : (p.withBook x).level = p.level := rfl
@[simp] theorem Blocks.withBook_params (p : Blocks) (x : Book) : (p.withBook x).params = p.params := rfl
@[simp] theorem Blocks.withBook_zones (p : Blocks) (x : Book) : (p.withBook x).zones = p.zones := rfl
@[simp] theorem Blocks.withBook_book (p : Blocks) (x : Book) : (p.withBook x).book = x := rfl
@[simp] theorem Blocks.withBook_reloc (p : Blocks) (x : Book) : (p.withBook x).reloc = p.reloc := rfl
@[simp] theorem Blocks.withBook_bays (p : Blocks) (x : Book) : (p.withBook x).bays = p.bays := rfl
@[simp] theorem Blocks.withBook_alloc (p : Blocks) (x : Book) : (p.withBook x).alloc = p.alloc := rfl
@[simp] theorem Blocks.withBook_supply (p : Blocks) (x : Book) : (p.withBook x).supply = p.supply := rfl
@[simp] theorem Blocks.withBook_notices (p : Blocks) (x : Book) : (p.withBook x).notices = p.notices := rfl
@[simp] theorem Blocks.withBook_mail (p : Blocks) (x : Book) : (p.withBook x).mail = p.mail := rfl
@[simp] theorem Blocks.withReloc_clock (p : Blocks) (x : List Entry) : (p.withReloc x).clock = p.clock := rfl
@[simp] theorem Blocks.withReloc_boundaries (p : Blocks) (x : List Entry) : (p.withReloc x).boundaries = p.boundaries := rfl
@[simp] theorem Blocks.withReloc_level (p : Blocks) (x : List Entry) : (p.withReloc x).level = p.level := rfl
@[simp] theorem Blocks.withReloc_params (p : Blocks) (x : List Entry) : (p.withReloc x).params = p.params := rfl
@[simp] theorem Blocks.withReloc_zones (p : Blocks) (x : List Entry) : (p.withReloc x).zones = p.zones := rfl
@[simp] theorem Blocks.withReloc_book (p : Blocks) (x : List Entry) : (p.withReloc x).book = p.book := rfl
@[simp] theorem Blocks.withReloc_reloc (p : Blocks) (x : List Entry) : (p.withReloc x).reloc = x := rfl
@[simp] theorem Blocks.withReloc_bays (p : Blocks) (x : List Entry) : (p.withReloc x).bays = p.bays := rfl
@[simp] theorem Blocks.withReloc_alloc (p : Blocks) (x : List Entry) : (p.withReloc x).alloc = p.alloc := rfl
@[simp] theorem Blocks.withReloc_supply (p : Blocks) (x : List Entry) : (p.withReloc x).supply = p.supply := rfl
@[simp] theorem Blocks.withReloc_notices (p : Blocks) (x : List Entry) : (p.withReloc x).notices = p.notices := rfl
@[simp] theorem Blocks.withReloc_mail (p : Blocks) (x : List Entry) : (p.withReloc x).mail = p.mail := rfl
@[simp] theorem Blocks.withBays_clock (p : Blocks) (x : BayUnit) : (p.withBays x).clock = p.clock := rfl
@[simp] theorem Blocks.withBays_boundaries (p : Blocks) (x : BayUnit) : (p.withBays x).boundaries = p.boundaries := rfl
@[simp] theorem Blocks.withBays_level (p : Blocks) (x : BayUnit) : (p.withBays x).level = p.level := rfl
@[simp] theorem Blocks.withBays_params (p : Blocks) (x : BayUnit) : (p.withBays x).params = p.params := rfl
@[simp] theorem Blocks.withBays_zones (p : Blocks) (x : BayUnit) : (p.withBays x).zones = p.zones := rfl
@[simp] theorem Blocks.withBays_book (p : Blocks) (x : BayUnit) : (p.withBays x).book = p.book := rfl
@[simp] theorem Blocks.withBays_reloc (p : Blocks) (x : BayUnit) : (p.withBays x).reloc = p.reloc := rfl
@[simp] theorem Blocks.withBays_bays (p : Blocks) (x : BayUnit) : (p.withBays x).bays = x := rfl
@[simp] theorem Blocks.withBays_alloc (p : Blocks) (x : BayUnit) : (p.withBays x).alloc = p.alloc := rfl
@[simp] theorem Blocks.withBays_supply (p : Blocks) (x : BayUnit) : (p.withBays x).supply = p.supply := rfl
@[simp] theorem Blocks.withBays_notices (p : Blocks) (x : BayUnit) : (p.withBays x).notices = p.notices := rfl
@[simp] theorem Blocks.withBays_mail (p : Blocks) (x : BayUnit) : (p.withBays x).mail = p.mail := rfl
@[simp] theorem Blocks.withAlloc_clock (p : Blocks) (x : Allocator) : (p.withAlloc x).clock = p.clock := rfl
@[simp] theorem Blocks.withAlloc_boundaries (p : Blocks) (x : Allocator) : (p.withAlloc x).boundaries = p.boundaries := rfl
@[simp] theorem Blocks.withAlloc_level (p : Blocks) (x : Allocator) : (p.withAlloc x).level = p.level := rfl
@[simp] theorem Blocks.withAlloc_params (p : Blocks) (x : Allocator) : (p.withAlloc x).params = p.params := rfl
@[simp] theorem Blocks.withAlloc_zones (p : Blocks) (x : Allocator) : (p.withAlloc x).zones = p.zones := rfl
@[simp] theorem Blocks.withAlloc_book (p : Blocks) (x : Allocator) : (p.withAlloc x).book = p.book := rfl
@[simp] theorem Blocks.withAlloc_reloc (p : Blocks) (x : Allocator) : (p.withAlloc x).reloc = p.reloc := rfl
@[simp] theorem Blocks.withAlloc_bays (p : Blocks) (x : Allocator) : (p.withAlloc x).bays = p.bays := rfl
@[simp] theorem Blocks.withAlloc_alloc (p : Blocks) (x : Allocator) : (p.withAlloc x).alloc = x := rfl
@[simp] theorem Blocks.withAlloc_supply (p : Blocks) (x : Allocator) : (p.withAlloc x).supply = p.supply := rfl
@[simp] theorem Blocks.withAlloc_notices (p : Blocks) (x : Allocator) : (p.withAlloc x).notices = p.notices := rfl
@[simp] theorem Blocks.withAlloc_mail (p : Blocks) (x : Allocator) : (p.withAlloc x).mail = p.mail := rfl
@[simp] theorem Blocks.withSupply_clock (p : Blocks) (x : SupplyUnit) : (p.withSupply x).clock = p.clock := rfl
@[simp] theorem Blocks.withSupply_boundaries (p : Blocks) (x : SupplyUnit) : (p.withSupply x).boundaries = p.boundaries := rfl
@[simp] theorem Blocks.withSupply_level (p : Blocks) (x : SupplyUnit) : (p.withSupply x).level = p.level := rfl
@[simp] theorem Blocks.withSupply_params (p : Blocks) (x : SupplyUnit) : (p.withSupply x).params = p.params := rfl
@[simp] theorem Blocks.withSupply_zones (p : Blocks) (x : SupplyUnit) : (p.withSupply x).zones = p.zones := rfl
@[simp] theorem Blocks.withSupply_book (p : Blocks) (x : SupplyUnit) : (p.withSupply x).book = p.book := rfl
@[simp] theorem Blocks.withSupply_reloc (p : Blocks) (x : SupplyUnit) : (p.withSupply x).reloc = p.reloc := rfl
@[simp] theorem Blocks.withSupply_bays (p : Blocks) (x : SupplyUnit) : (p.withSupply x).bays = p.bays := rfl
@[simp] theorem Blocks.withSupply_alloc (p : Blocks) (x : SupplyUnit) : (p.withSupply x).alloc = p.alloc := rfl
@[simp] theorem Blocks.withSupply_supply (p : Blocks) (x : SupplyUnit) : (p.withSupply x).supply = x := rfl
@[simp] theorem Blocks.withSupply_notices (p : Blocks) (x : SupplyUnit) : (p.withSupply x).notices = p.notices := rfl
@[simp] theorem Blocks.withSupply_mail (p : Blocks) (x : SupplyUnit) : (p.withSupply x).mail = p.mail := rfl
@[simp] theorem Blocks.withNotices_clock (p : Blocks) (x : Notices) : (p.withNotices x).clock = p.clock := rfl
@[simp] theorem Blocks.withNotices_boundaries (p : Blocks) (x : Notices) : (p.withNotices x).boundaries = p.boundaries := rfl
@[simp] theorem Blocks.withNotices_level (p : Blocks) (x : Notices) : (p.withNotices x).level = p.level := rfl
@[simp] theorem Blocks.withNotices_params (p : Blocks) (x : Notices) : (p.withNotices x).params = p.params := rfl
@[simp] theorem Blocks.withNotices_zones (p : Blocks) (x : Notices) : (p.withNotices x).zones = p.zones := rfl
@[simp] theorem Blocks.withNotices_book (p : Blocks) (x : Notices) : (p.withNotices x).book = p.book := rfl
@[simp] theorem Blocks.withNotices_reloc (p : Blocks) (x : Notices) : (p.withNotices x).reloc = p.reloc := rfl
@[simp] theorem Blocks.withNotices_bays (p : Blocks) (x : Notices) : (p.withNotices x).bays = p.bays := rfl
@[simp] theorem Blocks.withNotices_alloc (p : Blocks) (x : Notices) : (p.withNotices x).alloc = p.alloc := rfl
@[simp] theorem Blocks.withNotices_supply (p : Blocks) (x : Notices) : (p.withNotices x).supply = p.supply := rfl
@[simp] theorem Blocks.withNotices_notices (p : Blocks) (x : Notices) : (p.withNotices x).notices = x := rfl
@[simp] theorem Blocks.withNotices_mail (p : Blocks) (x : Notices) : (p.withNotices x).mail = p.mail := rfl
@[simp] theorem Blocks.withMail_clock (p : Blocks) (x : Mail) : (p.withMail x).clock = p.clock := rfl
@[simp] theorem Blocks.withMail_boundaries (p : Blocks) (x : Mail) : (p.withMail x).boundaries = p.boundaries := rfl
@[simp] theorem Blocks.withMail_level (p : Blocks) (x : Mail) : (p.withMail x).level = p.level := rfl
@[simp] theorem Blocks.withMail_params (p : Blocks) (x : Mail) : (p.withMail x).params = p.params := rfl
@[simp] theorem Blocks.withMail_zones (p : Blocks) (x : Mail) : (p.withMail x).zones = p.zones := rfl
@[simp] theorem Blocks.withMail_book (p : Blocks) (x : Mail) : (p.withMail x).book = p.book := rfl
@[simp] theorem Blocks.withMail_reloc (p : Blocks) (x : Mail) : (p.withMail x).reloc = p.reloc := rfl
@[simp] theorem Blocks.withMail_bays (p : Blocks) (x : Mail) : (p.withMail x).bays = p.bays := rfl
@[simp] theorem Blocks.withMail_alloc (p : Blocks) (x : Mail) : (p.withMail x).alloc = p.alloc := rfl
@[simp] theorem Blocks.withMail_supply (p : Blocks) (x : Mail) : (p.withMail x).supply = p.supply := rfl
@[simp] theorem Blocks.withMail_notices (p : Blocks) (x : Mail) : (p.withMail x).notices = p.notices := rfl
@[simp] theorem Blocks.withMail_mail (p : Blocks) (x : Mail) : (p.withMail x).mail = x := rfl

/-! ## The machine -/

@[simp] theorem State.withBlocks_blocks (s : State) (x : Blocks) : (s.withBlocks x).blocks = x := rfl
@[simp] theorem State.withBlocks_site (s : State) (x : Blocks) : (s.withBlocks x).site = s.site := rfl
@[simp] theorem State.withBlocks_ramp (s : State) (x : Blocks) : (s.withBlocks x).ramp = s.ramp := rfl
@[simp] theorem State.withBlocks_lastServed (s : State) (x : Blocks) : (s.withBlocks x).lastServed = s.lastServed := rfl
@[simp] theorem State.withBlocks_resetLow (s : State) (x : Blocks) : (s.withBlocks x).resetLow = s.resetLow := rfl
@[simp] theorem State.withBlocks_pending (s : State) (x : Blocks) : (s.withBlocks x).pending = s.pending := rfl
@[simp] theorem State.withSite_blocks (s : State) (x : SitePort) : (s.withSite x).blocks = s.blocks := rfl
@[simp] theorem State.withSite_site (s : State) (x : SitePort) : (s.withSite x).site = x := rfl
@[simp] theorem State.withSite_ramp (s : State) (x : SitePort) : (s.withSite x).ramp = s.ramp := rfl
@[simp] theorem State.withSite_lastServed (s : State) (x : SitePort) : (s.withSite x).lastServed = s.lastServed := rfl
@[simp] theorem State.withSite_resetLow (s : State) (x : SitePort) : (s.withSite x).resetLow = s.resetLow := rfl
@[simp] theorem State.withSite_pending (s : State) (x : SitePort) : (s.withSite x).pending = s.pending := rfl
@[simp] theorem State.withRamp_blocks (s : State) (x : RampPort) : (s.withRamp x).blocks = s.blocks := rfl
@[simp] theorem State.withRamp_site (s : State) (x : RampPort) : (s.withRamp x).site = s.site := rfl
@[simp] theorem State.withRamp_ramp (s : State) (x : RampPort) : (s.withRamp x).ramp = x := rfl
@[simp] theorem State.withRamp_lastServed (s : State) (x : RampPort) : (s.withRamp x).lastServed = s.lastServed := rfl
@[simp] theorem State.withRamp_resetLow (s : State) (x : RampPort) : (s.withRamp x).resetLow = s.resetLow := rfl
@[simp] theorem State.withRamp_pending (s : State) (x : RampPort) : (s.withRamp x).pending = s.pending := rfl
@[simp] theorem State.withServed_blocks (s : State) (x : Source) : (s.withServed x).blocks = s.blocks := rfl
@[simp] theorem State.withServed_site (s : State) (x : Source) : (s.withServed x).site = s.site := rfl
@[simp] theorem State.withServed_ramp (s : State) (x : Source) : (s.withServed x).ramp = s.ramp := rfl
@[simp] theorem State.withServed_lastServed (s : State) (x : Source) : (s.withServed x).lastServed = x := rfl
@[simp] theorem State.withServed_resetLow (s : State) (x : Source) : (s.withServed x).resetLow = s.resetLow := rfl
@[simp] theorem State.withServed_pending (s : State) (x : Source) : (s.withServed x).pending = s.pending := rfl

/-! ## Updates of one block -/

@[simp] theorem Blocks.setBay_clock (p : Blocks) (b : BayNo) (x : Bay) : (p.setBay b x).clock = p.clock := rfl
@[simp] theorem Blocks.setBay_boundaries (p : Blocks) (b : BayNo) (x : Bay) : (p.setBay b x).boundaries = p.boundaries := rfl
@[simp] theorem Blocks.setBay_level (p : Blocks) (b : BayNo) (x : Bay) : (p.setBay b x).level = p.level := rfl
@[simp] theorem Blocks.setBay_params (p : Blocks) (b : BayNo) (x : Bay) : (p.setBay b x).params = p.params := rfl
@[simp] theorem Blocks.setBay_zones (p : Blocks) (b : BayNo) (x : Bay) : (p.setBay b x).zones = p.zones := rfl
@[simp] theorem Blocks.setBay_book (p : Blocks) (b : BayNo) (x : Bay) : (p.setBay b x).book = p.book := rfl
@[simp] theorem Blocks.setBay_reloc (p : Blocks) (b : BayNo) (x : Bay) : (p.setBay b x).reloc = p.reloc := rfl
@[simp] theorem Blocks.setBay_alloc (p : Blocks) (b : BayNo) (x : Bay) : (p.setBay b x).alloc = p.alloc := rfl
@[simp] theorem Blocks.setBay_supply (p : Blocks) (b : BayNo) (x : Bay) : (p.setBay b x).supply = p.supply := rfl
@[simp] theorem Blocks.setBay_notices (p : Blocks) (b : BayNo) (x : Bay) : (p.setBay b x).notices = p.notices := rfl
@[simp] theorem Blocks.setBay_mail (p : Blocks) (b : BayNo) (x : Bay) : (p.setBay b x).mail = p.mail := rfl
@[simp] theorem Blocks.raise_clock (p : Blocks) (y : Sender) (x : Raise) : (p.raise y x).clock = p.clock := rfl
@[simp] theorem Blocks.raise_boundaries (p : Blocks) (y : Sender) (x : Raise) : (p.raise y x).boundaries = p.boundaries := rfl
@[simp] theorem Blocks.raise_level (p : Blocks) (y : Sender) (x : Raise) : (p.raise y x).level = p.level := rfl
@[simp] theorem Blocks.raise_params (p : Blocks) (y : Sender) (x : Raise) : (p.raise y x).params = p.params := rfl
@[simp] theorem Blocks.raise_zones (p : Blocks) (y : Sender) (x : Raise) : (p.raise y x).zones = p.zones := rfl
@[simp] theorem Blocks.raise_book (p : Blocks) (y : Sender) (x : Raise) : (p.raise y x).book = p.book := rfl
@[simp] theorem Blocks.raise_reloc (p : Blocks) (y : Sender) (x : Raise) : (p.raise y x).reloc = p.reloc := rfl
@[simp] theorem Blocks.raise_bays (p : Blocks) (y : Sender) (x : Raise) : (p.raise y x).bays = p.bays := rfl
@[simp] theorem Blocks.raise_alloc (p : Blocks) (y : Sender) (x : Raise) : (p.raise y x).alloc = p.alloc := rfl
@[simp] theorem Blocks.raise_supply (p : Blocks) (y : Sender) (x : Raise) : (p.raise y x).supply = p.supply := rfl
@[simp] theorem Blocks.raise_notices (p : Blocks) (y : Sender) (x : Raise) : (p.raise y x).notices = p.notices := rfl
@[simp] theorem Blocks.sendAlloc_clock (p : Blocks) (x : AllocMsg) : (p.sendAlloc x).clock = p.clock := rfl
@[simp] theorem Blocks.sendAlloc_boundaries (p : Blocks) (x : AllocMsg) : (p.sendAlloc x).boundaries = p.boundaries := rfl
@[simp] theorem Blocks.sendAlloc_level (p : Blocks) (x : AllocMsg) : (p.sendAlloc x).level = p.level := rfl
@[simp] theorem Blocks.sendAlloc_params (p : Blocks) (x : AllocMsg) : (p.sendAlloc x).params = p.params := rfl
@[simp] theorem Blocks.sendAlloc_zones (p : Blocks) (x : AllocMsg) : (p.sendAlloc x).zones = p.zones := rfl
@[simp] theorem Blocks.sendAlloc_book (p : Blocks) (x : AllocMsg) : (p.sendAlloc x).book = p.book := rfl
@[simp] theorem Blocks.sendAlloc_reloc (p : Blocks) (x : AllocMsg) : (p.sendAlloc x).reloc = p.reloc := rfl
@[simp] theorem Blocks.sendAlloc_bays (p : Blocks) (x : AllocMsg) : (p.sendAlloc x).bays = p.bays := rfl
@[simp] theorem Blocks.sendAlloc_alloc (p : Blocks) (x : AllocMsg) : (p.sendAlloc x).alloc = p.alloc := rfl
@[simp] theorem Blocks.sendAlloc_supply (p : Blocks) (x : AllocMsg) : (p.sendAlloc x).supply = p.supply := rfl
@[simp] theorem Blocks.sendAlloc_notices (p : Blocks) (x : AllocMsg) : (p.sendAlloc x).notices = p.notices := rfl
@[simp] theorem Blocks.sendRemoval_clock (p : Blocks) (x : Ticket) : (p.sendRemoval x).clock = p.clock := rfl
@[simp] theorem Blocks.sendRemoval_boundaries (p : Blocks) (x : Ticket) : (p.sendRemoval x).boundaries = p.boundaries := rfl
@[simp] theorem Blocks.sendRemoval_level (p : Blocks) (x : Ticket) : (p.sendRemoval x).level = p.level := rfl
@[simp] theorem Blocks.sendRemoval_params (p : Blocks) (x : Ticket) : (p.sendRemoval x).params = p.params := rfl
@[simp] theorem Blocks.sendRemoval_zones (p : Blocks) (x : Ticket) : (p.sendRemoval x).zones = p.zones := rfl
@[simp] theorem Blocks.sendRemoval_book (p : Blocks) (x : Ticket) : (p.sendRemoval x).book = p.book := rfl
@[simp] theorem Blocks.sendRemoval_reloc (p : Blocks) (x : Ticket) : (p.sendRemoval x).reloc = p.reloc := rfl
@[simp] theorem Blocks.sendRemoval_bays (p : Blocks) (x : Ticket) : (p.sendRemoval x).bays = p.bays := rfl
@[simp] theorem Blocks.sendRemoval_alloc (p : Blocks) (x : Ticket) : (p.sendRemoval x).alloc = p.alloc := rfl
@[simp] theorem Blocks.sendRemoval_supply (p : Blocks) (x : Ticket) : (p.sendRemoval x).supply = p.supply := rfl
@[simp] theorem Blocks.sendRemoval_notices (p : Blocks) (x : Ticket) : (p.sendRemoval x).notices = p.notices := rfl
@[simp] theorem Blocks.sendBay_clock (p : Blocks) (x : BayMsg) : (p.sendBay x).clock = p.clock := rfl
@[simp] theorem Blocks.sendBay_boundaries (p : Blocks) (x : BayMsg) : (p.sendBay x).boundaries = p.boundaries := rfl
@[simp] theorem Blocks.sendBay_level (p : Blocks) (x : BayMsg) : (p.sendBay x).level = p.level := rfl
@[simp] theorem Blocks.sendBay_params (p : Blocks) (x : BayMsg) : (p.sendBay x).params = p.params := rfl
@[simp] theorem Blocks.sendBay_zones (p : Blocks) (x : BayMsg) : (p.sendBay x).zones = p.zones := rfl
@[simp] theorem Blocks.sendBay_book (p : Blocks) (x : BayMsg) : (p.sendBay x).book = p.book := rfl
@[simp] theorem Blocks.sendBay_reloc (p : Blocks) (x : BayMsg) : (p.sendBay x).reloc = p.reloc := rfl
@[simp] theorem Blocks.sendBay_bays (p : Blocks) (x : BayMsg) : (p.sendBay x).bays = p.bays := rfl
@[simp] theorem Blocks.sendBay_alloc (p : Blocks) (x : BayMsg) : (p.sendBay x).alloc = p.alloc := rfl
@[simp] theorem Blocks.sendBay_supply (p : Blocks) (x : BayMsg) : (p.sendBay x).supply = p.supply := rfl
@[simp] theorem Blocks.sendBay_notices (p : Blocks) (x : BayMsg) : (p.sendBay x).notices = p.notices := rfl
@[simp] theorem Blocks.report_clock (p : Blocks) (b : BayNo) (x : Bool) : (p.report b x).clock = p.clock := rfl
@[simp] theorem Blocks.report_boundaries (p : Blocks) (b : BayNo) (x : Bool) : (p.report b x).boundaries = p.boundaries := rfl
@[simp] theorem Blocks.report_level (p : Blocks) (b : BayNo) (x : Bool) : (p.report b x).level = p.level := rfl
@[simp] theorem Blocks.report_params (p : Blocks) (b : BayNo) (x : Bool) : (p.report b x).params = p.params := rfl
@[simp] theorem Blocks.report_zones (p : Blocks) (b : BayNo) (x : Bool) : (p.report b x).zones = p.zones := rfl
@[simp] theorem Blocks.report_reloc (p : Blocks) (b : BayNo) (x : Bool) : (p.report b x).reloc = p.reloc := rfl
@[simp] theorem Blocks.report_bays (p : Blocks) (b : BayNo) (x : Bool) : (p.report b x).bays = p.bays := rfl
@[simp] theorem Blocks.report_alloc (p : Blocks) (b : BayNo) (x : Bool) : (p.report b x).alloc = p.alloc := rfl
@[simp] theorem Blocks.report_supply (p : Blocks) (b : BayNo) (x : Bool) : (p.report b x).supply = p.supply := rfl
@[simp] theorem Blocks.report_notices (p : Blocks) (b : BayNo) (x : Bool) : (p.report b x).notices = p.notices := rfl
@[simp] theorem Blocks.report_mail (p : Blocks) (b : BayNo) (x : Bool) : (p.report b x).mail = p.mail := rfl
@[simp] theorem Blocks.sendHold_clock (p : Blocks) (b : BayNo) : (p.sendHold b).clock = p.clock := rfl
@[simp] theorem Blocks.sendHold_boundaries (p : Blocks) (b : BayNo) : (p.sendHold b).boundaries = p.boundaries := rfl
@[simp] theorem Blocks.sendHold_level (p : Blocks) (b : BayNo) : (p.sendHold b).level = p.level := rfl
@[simp] theorem Blocks.sendHold_params (p : Blocks) (b : BayNo) : (p.sendHold b).params = p.params := rfl
@[simp] theorem Blocks.sendHold_zones (p : Blocks) (b : BayNo) : (p.sendHold b).zones = p.zones := rfl
@[simp] theorem Blocks.sendHold_reloc (p : Blocks) (b : BayNo) : (p.sendHold b).reloc = p.reloc := rfl
@[simp] theorem Blocks.sendHold_bays (p : Blocks) (b : BayNo) : (p.sendHold b).bays = p.bays := rfl
@[simp] theorem Blocks.sendHold_alloc (p : Blocks) (b : BayNo) : (p.sendHold b).alloc = p.alloc := rfl
@[simp] theorem Blocks.sendHold_supply (p : Blocks) (b : BayNo) : (p.sendHold b).supply = p.supply := rfl
@[simp] theorem Blocks.sendHold_notices (p : Blocks) (b : BayNo) : (p.sendHold b).notices = p.notices := rfl
@[simp] theorem Blocks.sendUnhold_clock (p : Blocks) (b : BayNo) : (p.sendUnhold b).clock = p.clock := rfl
@[simp] theorem Blocks.sendUnhold_boundaries (p : Blocks) (b : BayNo) : (p.sendUnhold b).boundaries = p.boundaries := rfl
@[simp] theorem Blocks.sendUnhold_level (p : Blocks) (b : BayNo) : (p.sendUnhold b).level = p.level := rfl
@[simp] theorem Blocks.sendUnhold_params (p : Blocks) (b : BayNo) : (p.sendUnhold b).params = p.params := rfl
@[simp] theorem Blocks.sendUnhold_zones (p : Blocks) (b : BayNo) : (p.sendUnhold b).zones = p.zones := rfl
@[simp] theorem Blocks.sendUnhold_reloc (p : Blocks) (b : BayNo) : (p.sendUnhold b).reloc = p.reloc := rfl
@[simp] theorem Blocks.sendUnhold_bays (p : Blocks) (b : BayNo) : (p.sendUnhold b).bays = p.bays := rfl
@[simp] theorem Blocks.sendUnhold_alloc (p : Blocks) (b : BayNo) : (p.sendUnhold b).alloc = p.alloc := rfl
@[simp] theorem Blocks.sendUnhold_supply (p : Blocks) (b : BayNo) : (p.sendUnhold b).supply = p.supply := rfl
@[simp] theorem Blocks.sendUnhold_notices (p : Blocks) (b : BayNo) : (p.sendUnhold b).notices = p.notices := rfl
@[simp] theorem Blocks.evalPool_clock (p : Blocks) : (p.evalPool).clock = p.clock := rfl
@[simp] theorem Blocks.evalPool_boundaries (p : Blocks) : (p.evalPool).boundaries = p.boundaries := rfl
@[simp] theorem Blocks.evalPool_level (p : Blocks) : (p.evalPool).level = p.level := rfl
@[simp] theorem Blocks.evalPool_params (p : Blocks) : (p.evalPool).params = p.params := rfl
@[simp] theorem Blocks.evalPool_zones (p : Blocks) : (p.evalPool).zones = p.zones := rfl
@[simp] theorem Blocks.evalPool_book (p : Blocks) : (p.evalPool).book = p.book := rfl
@[simp] theorem Blocks.evalPool_reloc (p : Blocks) : (p.evalPool).reloc = p.reloc := rfl
@[simp] theorem Blocks.evalPool_bays (p : Blocks) : (p.evalPool).bays = p.bays := rfl
@[simp] theorem Blocks.evalPool_alloc (p : Blocks) : (p.evalPool).alloc = p.alloc := rfl
@[simp] theorem Blocks.evalPool_supply (p : Blocks) : (p.evalPool).supply = p.supply := rfl
@[simp] theorem Blocks.evalPool_mail (p : Blocks) : (p.evalPool).mail = p.mail := rfl
@[simp] theorem Blocks.putRecord_clock (p : Blocks) (y : Slot) (x : Record) : (p.putRecord y x).clock = p.clock := rfl
@[simp] theorem Blocks.putRecord_boundaries (p : Blocks) (y : Slot) (x : Record) : (p.putRecord y x).boundaries = p.boundaries := rfl
@[simp] theorem Blocks.putRecord_level (p : Blocks) (y : Slot) (x : Record) : (p.putRecord y x).level = p.level := rfl
@[simp] theorem Blocks.putRecord_params (p : Blocks) (y : Slot) (x : Record) : (p.putRecord y x).params = p.params := rfl
@[simp] theorem Blocks.putRecord_zones (p : Blocks) (y : Slot) (x : Record) : (p.putRecord y x).zones = p.zones := rfl
@[simp] theorem Blocks.putRecord_reloc (p : Blocks) (y : Slot) (x : Record) : (p.putRecord y x).reloc = p.reloc := rfl
@[simp] theorem Blocks.putRecord_bays (p : Blocks) (y : Slot) (x : Record) : (p.putRecord y x).bays = p.bays := rfl
@[simp] theorem Blocks.putRecord_alloc (p : Blocks) (y : Slot) (x : Record) : (p.putRecord y x).alloc = p.alloc := rfl
@[simp] theorem Blocks.putRecord_supply (p : Blocks) (y : Slot) (x : Record) : (p.putRecord y x).supply = p.supply := rfl
@[simp] theorem Blocks.putRecord_notices (p : Blocks) (y : Slot) (x : Record) : (p.putRecord y x).notices = p.notices := rfl
@[simp] theorem Blocks.putRecord_mail (p : Blocks) (y : Slot) (x : Record) : (p.putRecord y x).mail = p.mail := rfl
@[simp] theorem Blocks.setModule_clock (p : Blocks) (k : ModuleNo) (x : ModuleState) : (p.setModule k x).clock = p.clock := rfl
@[simp] theorem Blocks.setModule_boundaries (p : Blocks) (k : ModuleNo) (x : ModuleState) : (p.setModule k x).boundaries = p.boundaries := rfl
@[simp] theorem Blocks.setModule_level (p : Blocks) (k : ModuleNo) (x : ModuleState) : (p.setModule k x).level = p.level := rfl
@[simp] theorem Blocks.setModule_params (p : Blocks) (k : ModuleNo) (x : ModuleState) : (p.setModule k x).params = p.params := rfl
@[simp] theorem Blocks.setModule_zones (p : Blocks) (k : ModuleNo) (x : ModuleState) : (p.setModule k x).zones = p.zones := rfl
@[simp] theorem Blocks.setModule_book (p : Blocks) (k : ModuleNo) (x : ModuleState) : (p.setModule k x).book = p.book := rfl
@[simp] theorem Blocks.setModule_reloc (p : Blocks) (k : ModuleNo) (x : ModuleState) : (p.setModule k x).reloc = p.reloc := rfl
@[simp] theorem Blocks.setModule_alloc (p : Blocks) (k : ModuleNo) (x : ModuleState) : (p.setModule k x).alloc = p.alloc := rfl
@[simp] theorem Blocks.setModule_supply (p : Blocks) (k : ModuleNo) (x : ModuleState) : (p.setModule k x).supply = p.supply := rfl
@[simp] theorem Blocks.setModule_notices (p : Blocks) (k : ModuleNo) (x : ModuleState) : (p.setModule k x).notices = p.notices := rfl
@[simp] theorem Blocks.setModule_mail (p : Blocks) (k : ModuleNo) (x : ModuleState) : (p.setModule k x).mail = p.mail := rfl
@[simp] theorem Blocks.liftClose_clock (p : Blocks) (b : BayNo) : (p.liftClose b).clock = p.clock := rfl
@[simp] theorem Blocks.liftClose_boundaries (p : Blocks) (b : BayNo) : (p.liftClose b).boundaries = p.boundaries := rfl
@[simp] theorem Blocks.liftClose_level (p : Blocks) (b : BayNo) : (p.liftClose b).level = p.level := rfl
@[simp] theorem Blocks.liftClose_params (p : Blocks) (b : BayNo) : (p.liftClose b).params = p.params := rfl
@[simp] theorem Blocks.liftClose_zones (p : Blocks) (b : BayNo) : (p.liftClose b).zones = p.zones := rfl
@[simp] theorem Blocks.liftClose_book (p : Blocks) (b : BayNo) : (p.liftClose b).book = p.book := rfl
@[simp] theorem Blocks.liftClose_bays (p : Blocks) (b : BayNo) : (p.liftClose b).bays = p.bays := rfl
@[simp] theorem Blocks.liftClose_alloc (p : Blocks) (b : BayNo) : (p.liftClose b).alloc = p.alloc := rfl
@[simp] theorem Blocks.liftClose_supply (p : Blocks) (b : BayNo) : (p.liftClose b).supply = p.supply := rfl
@[simp] theorem Blocks.liftClose_notices (p : Blocks) (b : BayNo) : (p.liftClose b).notices = p.notices := rfl
@[simp] theorem Blocks.liftClose_mail (p : Blocks) (b : BayNo) : (p.liftClose b).mail = p.mail := rfl
@[simp] theorem Blocks.markUsed_clock (p : Blocks) (c : Class) (o : OriginZone) : (p.markUsed c o).clock = p.clock := by cases o <;> rfl
@[simp] theorem Blocks.markUsed_boundaries (p : Blocks) (c : Class) (o : OriginZone) : (p.markUsed c o).boundaries = p.boundaries := by cases o <;> rfl
@[simp] theorem Blocks.markUsed_level (p : Blocks) (c : Class) (o : OriginZone) : (p.markUsed c o).level = p.level := by cases o <;> rfl
@[simp] theorem Blocks.markUsed_params (p : Blocks) (c : Class) (o : OriginZone) : (p.markUsed c o).params = p.params := by cases o <;> rfl
@[simp] theorem Blocks.markUsed_book (p : Blocks) (c : Class) (o : OriginZone) : (p.markUsed c o).book = p.book := by cases o <;> rfl
@[simp] theorem Blocks.markUsed_reloc (p : Blocks) (c : Class) (o : OriginZone) : (p.markUsed c o).reloc = p.reloc := by cases o <;> rfl
@[simp] theorem Blocks.markUsed_bays (p : Blocks) (c : Class) (o : OriginZone) : (p.markUsed c o).bays = p.bays := by cases o <;> rfl
@[simp] theorem Blocks.markUsed_alloc (p : Blocks) (c : Class) (o : OriginZone) : (p.markUsed c o).alloc = p.alloc := by cases o <;> rfl
@[simp] theorem Blocks.markUsed_supply (p : Blocks) (c : Class) (o : OriginZone) : (p.markUsed c o).supply = p.supply := by cases o <;> rfl
@[simp] theorem Blocks.markUsed_notices (p : Blocks) (c : Class) (o : OriginZone) : (p.markUsed c o).notices = p.notices := by cases o <;> rfl
@[simp] theorem Blocks.markUsed_mail (p : Blocks) (c : Class) (o : OriginZone) : (p.markUsed c o).mail = p.mail := by cases o <;> rfl

end Sys2Proof.Machine
end

