-- ==== Sys2Proof/Laws/Shared.lean ====
section
/-! SUPPORT. One lemma for each operation all commands share: tables, bay entries, the service turn, the guards. -/

namespace Sys2Proof.Machine

/-! ## Tables -/

/-- A place read after a place was written; stated at the number of the place, the form simp puts reads in. -/
@[simp] theorem setAt_same {α : Type} {n : Nat} (v : Vector α n) (i : Fin n) (x : α) : (setAt v i x)[i.val] = x := by
  simp [setAt]

theorem setAt_get {α : Type} {n : Nat} (v : Vector α n) (i j : Fin n) (x : α) :
    (setAt v i x)[j.val] = if i = j then x else v[j.val] := by
  simp only [setAt, Vector.getElem_set, Fin.ext_iff]

theorem setAt_other {α : Type} {n : Nat} (v : Vector α n) {i j : Fin n} (x : α) (h : i ≠ j) :
    (setAt v i x)[j.val] = v[j.val] := by
  simp [setAt_get, h]

theorem setAt_self {α : Type} {n : Nat} (v : Vector α n) (i : Fin n) : setAt v i v[i] = v := by simp [setAt]

/-! ## Bay entries -/

@[simp] theorem Blocks.bay_setBay_same (p : Blocks) (b : BayNo) (x : Bay) : (p.setBay b x).bay b = x := by
  simp [Blocks.setBay, Blocks.bay]

theorem Blocks.bay_setBay (p : Blocks) (b c : BayNo) (x : Bay) :
    (p.setBay b x).bay c = if b = c then x else p.bay c := by
  simp [Blocks.setBay, Blocks.bay, setAt_get]

@[simp] theorem Blocks.setBay_modules (p : Blocks) (b : BayNo) (x : Bay) : (p.setBay b x).bays.modules = p.bays.modules :=
  rfl

@[simp] theorem Blocks.moduleState_setBay (p : Blocks) (b : BayNo) (x : Bay) (k : ModuleNo) :
    (p.setBay b x).moduleState k = p.moduleState k := rfl

@[simp] theorem Blocks.bay_setModule (p : Blocks) (k : ModuleNo) (m : ModuleState) (b : BayNo) :
    (p.setModule k m).bay b = p.bay b := rfl

theorem Blocks.moduleState_setModule (p : Blocks) (k l : ModuleNo) (m : ModuleState) :
    (p.setModule k m).moduleState l = if k = l then m else p.moduleState l := by
  simp [Blocks.setModule, Blocks.moduleState, setAt_get]

/-- Blocks with the same bay unit have the same bay entries. -/
theorem Blocks.bay_congr {p q : Blocks} (h : p.bays = q.bays) (b : BayNo) : p.bay b = q.bay b := by
  simp [Blocks.bay, h]

theorem Blocks.moduleState_congr {p q : Blocks} (h : p.bays = q.bays) (k : ModuleNo) :
    p.moduleState k = q.moduleState k := by
  simp [Blocks.moduleState, h]

/-! ## Checks in order -/

@[simp] theorem firstRefusal_nil : firstRefusal [] = none := rfl

/-- The first check decides; where it passes the rest do (R30). -/
theorem firstRefusal_cons (ok : Bool) (st : Status) (rest : List (Bool × Status)) :
    firstRefusal ((ok, st) :: rest) = if ok then firstRefusal rest else some st := by
  cases ok <;> simp [firstRefusal]

/-- No check refuses exactly when every check passes. -/
theorem firstRefusal_none (checks : List (Bool × Status)) :
    firstRefusal checks = none ↔ ∀ c ∈ checks, c.1 = true := by
  induction checks with
  | nil => simp
  | cons c rest ih =>
    obtain ⟨ok, st⟩ := c
    rw [firstRefusal_cons]
    cases ok <;> simp [ih]

/-! ## The service turn -/

@[simp] theorem State.finishTurn_blocks (s : State) (port : Port) (r : Request) (a : Answer) :
    (s.finishTurn port r a).blocks = a.blocks := by cases port <;> rfl

@[simp] theorem State.finishTurn_lastServed (s : State) (port : Port) (r : Request) (a : Answer) :
    (s.finishTurn port r a).lastServed = sourceOf port := by cases port <;> rfl

@[simp] theorem State.finishTurn_resetLow (s : State) (port : Port) (r : Request) (a : Answer) :
    (s.finishTurn port r a).resetLow = s.resetLow := by cases port <;> rfl

@[simp] theorem State.finishTurn_pending (s : State) (port : Port) (r : Request) (a : Answer) :
    (s.finishTurn port r a).pending = s.pending := by cases port <;> rfl

@[simp] theorem State.finishTurn_site_site (s : State) (r : Request) (a : Answer) :
    (s.finishTurn .site r a).site =
      { s.site with slot := some ⟨r, true⟩, response := some (responseTo r a), ready := true } := rfl

@[simp] theorem State.finishTurn_site_ramp (s : State) (r : Request) (a : Answer) :
    (s.finishTurn .site r a).ramp = s.ramp := rfl

@[simp] theorem State.finishTurn_ramp_ramp (s : State) (r : Request) (a : Answer) :
    (s.finishTurn .ramp r a).ramp =
      { s.ramp with slot := some ⟨r, true⟩, tx := some (0x7E#8 :: (responseTo r a).frame) } := rfl

@[simp] theorem State.finishTurn_ramp_site (s : State) (r : Request) (a : Answer) :
    (s.finishTurn .ramp r a).site = s.site := rfl

/-- A service turn that is due ends with the answer of its judgement; one that is not changes nothing. -/
theorem serve_eq (isRow : Request → Bool) (may : Permission) (refused : Blocks → List Byte)
    (judge : Port → Class → List Byte → Blocks → Answer) (port : Port) (r : Request) (s : State) :
    serve isRow may refused judge port r s =
      .next (if s.turnDue port r && isRow r then s.finishTurn port r (judged may refused judge port r s.blocks) else s) := by
  unfold serve; split <;> rfl

/-- A request that its class may send on its port is judged by its own rule. -/
theorem judged_allowed {may : Permission} {refused : Blocks → List Byte}
    {judge : Port → Class → List Byte → Blocks → Answer} {port : Port} {r : Request} {p : Blocks} {c : Class}
    (hc : classAt port r = some c) (hm : may port c = true) :
    judged may refused judge port r p = judge port c r.body p := by
  simp [judged, hc, hm]

/-- A turn that is due, of the row's kind, allowed: the request's own judgement answers. -/
theorem serve_allowed {isRow : Request → Bool} {may : Permission} {refused : Blocks → List Byte}
    {judge : Port → Class → List Byte → Blocks → Answer} {port : Port} {r : Request} {s : State} {c : Class}
    (hd : s.turnDue port r = true) (hr : isRow r = true) (hc : classAt port r = some c) (hm : may port c = true) :
    serve isRow may refused judge port r s = .next (s.finishTurn port r (judge port c r.body s.blocks)) := by
  simp [serve_eq, hd, hr, judged_allowed hc hm]

@[simp] theorem whileRunning_low (f : State → State) {s : State} (h : s.resetLow = true) : whileRunning f s = .next s := by
  simp [whileRunning, h]

@[simp] theorem whileRunning_high (f : State → State) {s : State} (h : s.resetLow = false) :
    whileRunning f s = .next (f s) := by simp [whileRunning, h]

@[simp] theorem atBlocks_low (f : Blocks → Blocks) {s : State} (h : s.resetLow = true) : atBlocks f s = .next s := by
  simp [atBlocks, h]

@[simp] theorem atBlocks_high (f : Blocks → Blocks) {s : State} (h : s.resetLow = false) :
    atBlocks f s = .next (s.withBlocks (f s.blocks)) := by simp [atBlocks, h]

/-- A property every step of a fold keeps is kept by the fold. -/
theorem foldl_keeps {α β : Type} (P : α → Prop) (f : α → β → α) (xs : List β) (a : α) (h : P a)
    (keep : ∀ a, P a → ∀ x ∈ xs, P (f a x)) : P (xs.foldl f a) := by
  induction xs generalizing a with
  | nil => exact h
  | cons x xs ih =>
    exact ih (f a x) (keep a h x (by simp)) fun a ha y hy => keep a ha y (by simp [hy])

/-- A value every step of a fold leaves is left by the fold. -/
theorem foldl_leaves {α β γ : Type} (g : α → γ) (f : α → β → α) (xs : List β) (a : α)
    (leave : ∀ a, ∀ x ∈ xs, g (f a x) = g a) : g (xs.foldl f a) = g a :=
  foldl_keeps (fun b => g b = g a) f xs a rfl fun b hb x hx => (leave b x hx).trans hb

end Sys2Proof.Machine
end

