-- ==== Sys2Proof/Laws/Frame.lean ====
section
/-! SUPPORT. What each composed operation on the blocks leaves as it was: one lemma for each block it does not touch. -/

namespace Sys2Proof.Machine

-- One thread: many short proofs that wait for one another would each hold a thread of their own.
set_option Elab.async false

/-! ## Settlement -/

@[simp] theorem Blocks.settle_clock (p : Blocks) (quiet : Bool) (sl : Slot) (o : Result) (c : Option Cause) : (p.settle quiet sl o c).clock = p.clock := by
  unfold Blocks.settle
  dsimp only
  split
  · rfl
  split
  · rfl
  · simp [apply_ite Blocks.clock]

@[simp] theorem Blocks.settle_boundaries (p : Blocks) (quiet : Bool) (sl : Slot) (o : Result) (c : Option Cause) : (p.settle quiet sl o c).boundaries = p.boundaries := by
  unfold Blocks.settle
  dsimp only
  split
  · rfl
  split
  · rfl
  · simp [apply_ite Blocks.boundaries]

@[simp] theorem Blocks.settle_level (p : Blocks) (quiet : Bool) (sl : Slot) (o : Result) (c : Option Cause) : (p.settle quiet sl o c).level = p.level := by
  unfold Blocks.settle
  dsimp only
  split
  · rfl
  split
  · rfl
  · simp [apply_ite Blocks.level]

@[simp] theorem Blocks.settle_params (p : Blocks) (quiet : Bool) (sl : Slot) (o : Result) (c : Option Cause) : (p.settle quiet sl o c).params = p.params := by
  unfold Blocks.settle
  dsimp only
  split
  · rfl
  split
  · rfl
  · simp [apply_ite Blocks.params]

@[simp] theorem Blocks.settle_zones (p : Blocks) (quiet : Bool) (sl : Slot) (o : Result) (c : Option Cause) : (p.settle quiet sl o c).zones = p.zones := by
  unfold Blocks.settle
  dsimp only
  split
  · rfl
  split
  · rfl
  · simp [apply_ite Blocks.zones]

@[simp] theorem Blocks.settle_reloc (p : Blocks) (quiet : Bool) (sl : Slot) (o : Result) (c : Option Cause) : (p.settle quiet sl o c).reloc = p.reloc := by
  unfold Blocks.settle
  dsimp only
  split
  · rfl
  split
  · rfl
  · simp [apply_ite Blocks.reloc]

@[simp] theorem Blocks.settle_bays (p : Blocks) (quiet : Bool) (sl : Slot) (o : Result) (c : Option Cause) : (p.settle quiet sl o c).bays = p.bays := by
  unfold Blocks.settle
  dsimp only
  split
  · rfl
  split
  · rfl
  · simp [apply_ite Blocks.bays]

@[simp] theorem Blocks.settle_alloc (p : Blocks) (quiet : Bool) (sl : Slot) (o : Result) (c : Option Cause) : (p.settle quiet sl o c).alloc = p.alloc := by
  unfold Blocks.settle
  dsimp only
  split
  · rfl
  split
  · rfl
  · simp [apply_ite Blocks.alloc]

@[simp] theorem Blocks.settle_supply (p : Blocks) (quiet : Bool) (sl : Slot) (o : Result) (c : Option Cause) : (p.settle quiet sl o c).supply = p.supply := by
  unfold Blocks.settle
  dsimp only
  split
  · rfl
  split
  · rfl
  · simp [apply_ite Blocks.supply]

/-! ## A BAY entry due -/

@[simp] theorem Blocks.bayEntryDue_clock (p : Blocks) (b : BayNo) (x : Reason) : (p.bayEntryDue b x).clock = p.clock := by
  unfold Blocks.bayEntryDue
  split
  · simp
  split
  · rfl
  split
  · simp
  · exact foldl_leaves Blocks.clock _ _ p fun q _ _ => by simp

@[simp] theorem Blocks.bayEntryDue_boundaries (p : Blocks) (b : BayNo) (x : Reason) : (p.bayEntryDue b x).boundaries = p.boundaries := by
  unfold Blocks.bayEntryDue
  split
  · simp
  split
  · rfl
  split
  · simp
  · exact foldl_leaves Blocks.boundaries _ _ p fun q _ _ => by simp

@[simp] theorem Blocks.bayEntryDue_level (p : Blocks) (b : BayNo) (x : Reason) : (p.bayEntryDue b x).level = p.level := by
  unfold Blocks.bayEntryDue
  split
  · simp
  split
  · rfl
  split
  · simp
  · exact foldl_leaves Blocks.level _ _ p fun q _ _ => by simp

@[simp] theorem Blocks.bayEntryDue_params (p : Blocks) (b : BayNo) (x : Reason) : (p.bayEntryDue b x).params = p.params := by
  unfold Blocks.bayEntryDue
  split
  · simp
  split
  · rfl
  split
  · simp
  · exact foldl_leaves Blocks.params _ _ p fun q _ _ => by simp

@[simp] theorem Blocks.bayEntryDue_zones (p : Blocks) (b : BayNo) (x : Reason) : (p.bayEntryDue b x).zones = p.zones := by
  unfold Blocks.bayEntryDue
  split
  · simp
  split
  · rfl
  split
  · simp
  · exact foldl_leaves Blocks.zones _ _ p fun q _ _ => by simp

@[simp] theorem Blocks.bayEntryDue_bays (p : Blocks) (b : BayNo) (x : Reason) : (p.bayEntryDue b x).bays = p.bays := by
  unfold Blocks.bayEntryDue
  split
  · simp
  split
  · rfl
  split
  · simp
  · exact foldl_leaves Blocks.bays _ _ p fun q _ _ => by simp

@[simp] theorem Blocks.bayEntryDue_alloc (p : Blocks) (b : BayNo) (x : Reason) : (p.bayEntryDue b x).alloc = p.alloc := by
  unfold Blocks.bayEntryDue
  split
  · simp
  split
  · rfl
  split
  · simp
  · exact foldl_leaves Blocks.alloc _ _ p fun q _ _ => by simp

@[simp] theorem Blocks.bayEntryDue_supply (p : Blocks) (b : BayNo) (x : Reason) : (p.bayEntryDue b x).supply = p.supply := by
  unfold Blocks.bayEntryDue
  split
  · simp
  split
  · rfl
  split
  · simp
  · exact foldl_leaves Blocks.supply _ _ p fun q _ _ => by simp

/-! ## A bay lost -/

@[simp] theorem Blocks.loseBay_clock (p : Blocks) (b : BayNo) (l : Loss) : (p.loseBay b l).clock = p.clock := by
  unfold Blocks.loseBay
  dsimp only
  (repeat' split) <;> simp

@[simp] theorem Blocks.loseBay_boundaries (p : Blocks) (b : BayNo) (l : Loss) : (p.loseBay b l).boundaries = p.boundaries := by
  unfold Blocks.loseBay
  dsimp only
  (repeat' split) <;> simp

@[simp] theorem Blocks.loseBay_level (p : Blocks) (b : BayNo) (l : Loss) : (p.loseBay b l).level = p.level := by
  unfold Blocks.loseBay
  dsimp only
  (repeat' split) <;> simp

@[simp] theorem Blocks.loseBay_params (p : Blocks) (b : BayNo) (l : Loss) : (p.loseBay b l).params = p.params := by
  unfold Blocks.loseBay
  dsimp only
  (repeat' split) <;> simp

@[simp] theorem Blocks.loseBay_zones (p : Blocks) (b : BayNo) (l : Loss) : (p.loseBay b l).zones = p.zones := by
  unfold Blocks.loseBay
  dsimp only
  (repeat' split) <;> simp

@[simp] theorem Blocks.loseBay_alloc (p : Blocks) (b : BayNo) (l : Loss) : (p.loseBay b l).alloc = p.alloc := by
  unfold Blocks.loseBay
  dsimp only
  (repeat' split) <;> simp

@[simp] theorem Blocks.loseBay_supply (p : Blocks) (b : BayNo) (l : Loss) : (p.loseBay b l).supply = p.supply := by
  unfold Blocks.loseBay
  dsimp only
  (repeat' split) <;> simp

/-! ## Cuts and ceilings -/

@[simp] theorem Blocks.cutFeeder_clock (p : Blocks) (f : FeederNo) : (p.cutFeeder f).clock = p.clock := by
  unfold Blocks.cutFeeder
  (repeat' split) <;> simp

@[simp] theorem Blocks.cutFeeder_boundaries (p : Blocks) (f : FeederNo) : (p.cutFeeder f).boundaries = p.boundaries := by
  unfold Blocks.cutFeeder
  (repeat' split) <;> simp

@[simp] theorem Blocks.cutFeeder_level (p : Blocks) (f : FeederNo) : (p.cutFeeder f).level = p.level := by
  unfold Blocks.cutFeeder
  (repeat' split) <;> simp

@[simp] theorem Blocks.cutFeeder_params (p : Blocks) (f : FeederNo) : (p.cutFeeder f).params = p.params := by
  unfold Blocks.cutFeeder
  (repeat' split) <;> simp

@[simp] theorem Blocks.cutFeeder_zones (p : Blocks) (f : FeederNo) : (p.cutFeeder f).zones = p.zones := by
  unfold Blocks.cutFeeder
  (repeat' split) <;> simp

@[simp] theorem Blocks.cutFeeder_book (p : Blocks) (f : FeederNo) : (p.cutFeeder f).book = p.book := by
  unfold Blocks.cutFeeder
  (repeat' split) <;> simp

@[simp] theorem Blocks.cutFeeder_reloc (p : Blocks) (f : FeederNo) : (p.cutFeeder f).reloc = p.reloc := by
  unfold Blocks.cutFeeder
  (repeat' split) <;> simp

@[simp] theorem Blocks.cutFeeder_bays (p : Blocks) (f : FeederNo) : (p.cutFeeder f).bays = p.bays := by
  unfold Blocks.cutFeeder
  (repeat' split) <;> simp

@[simp] theorem Blocks.cutFeeder_supply (p : Blocks) (f : FeederNo) : (p.cutFeeder f).supply = p.supply := by
  unfold Blocks.cutFeeder
  (repeat' split) <;> simp

@[simp] theorem Blocks.cutFeeder_notices (p : Blocks) (f : FeederNo) : (p.cutFeeder f).notices = p.notices := by
  unfold Blocks.cutFeeder
  (repeat' split) <;> simp

/-! ## A ceiling changed -/

@[simp] theorem Blocks.ceilingChanged_clock (p : Blocks) (f : FeederNo) (old : Nat) : (p.ceilingChanged f old).clock = p.clock := by
  unfold Blocks.ceilingChanged
  (repeat' split) <;> simp

@[simp] theorem Blocks.ceilingChanged_boundaries (p : Blocks) (f : FeederNo) (old : Nat) : (p.ceilingChanged f old).boundaries = p.boundaries := by
  unfold Blocks.ceilingChanged
  (repeat' split) <;> simp

@[simp] theorem Blocks.ceilingChanged_level (p : Blocks) (f : FeederNo) (old : Nat) : (p.ceilingChanged f old).level = p.level := by
  unfold Blocks.ceilingChanged
  (repeat' split) <;> simp

@[simp] theorem Blocks.ceilingChanged_params (p : Blocks) (f : FeederNo) (old : Nat) : (p.ceilingChanged f old).params = p.params := by
  unfold Blocks.ceilingChanged
  (repeat' split) <;> simp

@[simp] theorem Blocks.ceilingChanged_zones (p : Blocks) (f : FeederNo) (old : Nat) : (p.ceilingChanged f old).zones = p.zones := by
  unfold Blocks.ceilingChanged
  (repeat' split) <;> simp

@[simp] theorem Blocks.ceilingChanged_book (p : Blocks) (f : FeederNo) (old : Nat) : (p.ceilingChanged f old).book = p.book := by
  unfold Blocks.ceilingChanged
  (repeat' split) <;> simp

@[simp] theorem Blocks.ceilingChanged_reloc (p : Blocks) (f : FeederNo) (old : Nat) : (p.ceilingChanged f old).reloc = p.reloc := by
  unfold Blocks.ceilingChanged
  (repeat' split) <;> simp

@[simp] theorem Blocks.ceilingChanged_bays (p : Blocks) (f : FeederNo) (old : Nat) : (p.ceilingChanged f old).bays = p.bays := by
  unfold Blocks.ceilingChanged
  (repeat' split) <;> simp

@[simp] theorem Blocks.ceilingChanged_supply (p : Blocks) (f : FeederNo) (old : Nat) : (p.ceilingChanged f old).supply = p.supply := by
  unfold Blocks.ceilingChanged
  (repeat' split) <;> simp

@[simp] theorem Blocks.ceilingChanged_notices (p : Blocks) (f : FeederNo) (old : Nat) : (p.ceilingChanged f old).notices = p.notices := by
  unfold Blocks.ceilingChanged
  (repeat' split) <;> simp

/-! ## Rebalance at one feeder -/

@[simp] theorem Blocks.rebalanceFeeder_clock (p : Blocks) (f : FeederNo) : (p.rebalanceFeeder f).clock = p.clock := by
  simp [Blocks.rebalanceFeeder]

@[simp] theorem Blocks.rebalanceFeeder_boundaries (p : Blocks) (f : FeederNo) : (p.rebalanceFeeder f).boundaries = p.boundaries := by
  simp [Blocks.rebalanceFeeder]

@[simp] theorem Blocks.rebalanceFeeder_level (p : Blocks) (f : FeederNo) : (p.rebalanceFeeder f).level = p.level := by
  simp [Blocks.rebalanceFeeder]

@[simp] theorem Blocks.rebalanceFeeder_params (p : Blocks) (f : FeederNo) : (p.rebalanceFeeder f).params = p.params := by
  simp [Blocks.rebalanceFeeder]

@[simp] theorem Blocks.rebalanceFeeder_zones (p : Blocks) (f : FeederNo) : (p.rebalanceFeeder f).zones = p.zones := by
  simp [Blocks.rebalanceFeeder]

@[simp] theorem Blocks.rebalanceFeeder_book (p : Blocks) (f : FeederNo) : (p.rebalanceFeeder f).book = p.book := by
  simp [Blocks.rebalanceFeeder]

@[simp] theorem Blocks.rebalanceFeeder_reloc (p : Blocks) (f : FeederNo) : (p.rebalanceFeeder f).reloc = p.reloc := by
  simp [Blocks.rebalanceFeeder]

@[simp] theorem Blocks.rebalanceFeeder_bays (p : Blocks) (f : FeederNo) : (p.rebalanceFeeder f).bays = p.bays := by
  simp [Blocks.rebalanceFeeder]

@[simp] theorem Blocks.rebalanceFeeder_supply (p : Blocks) (f : FeederNo) : (p.rebalanceFeeder f).supply = p.supply := by
  simp [Blocks.rebalanceFeeder]

@[simp] theorem Blocks.rebalanceFeeder_notices (p : Blocks) (f : FeederNo) : (p.rebalanceFeeder f).notices = p.notices := by
  simp [Blocks.rebalanceFeeder]

/-! ## Rebalance -/

@[simp] theorem Blocks.rebalance_clock (p : Blocks) : (p.rebalance).clock = p.clock := by
  exact foldl_leaves Blocks.clock _ _ p fun q _ _ => by simp

@[simp] theorem Blocks.rebalance_boundaries (p : Blocks) : (p.rebalance).boundaries = p.boundaries := by
  exact foldl_leaves Blocks.boundaries _ _ p fun q _ _ => by simp

@[simp] theorem Blocks.rebalance_level (p : Blocks) : (p.rebalance).level = p.level := by
  exact foldl_leaves Blocks.level _ _ p fun q _ _ => by simp

@[simp] theorem Blocks.rebalance_params (p : Blocks) : (p.rebalance).params = p.params := by
  exact foldl_leaves Blocks.params _ _ p fun q _ _ => by simp

@[simp] theorem Blocks.rebalance_zones (p : Blocks) : (p.rebalance).zones = p.zones := by
  exact foldl_leaves Blocks.zones _ _ p fun q _ _ => by simp

@[simp] theorem Blocks.rebalance_book (p : Blocks) : (p.rebalance).book = p.book := by
  exact foldl_leaves Blocks.book _ _ p fun q _ _ => by simp

@[simp] theorem Blocks.rebalance_reloc (p : Blocks) : (p.rebalance).reloc = p.reloc := by
  exact foldl_leaves Blocks.reloc _ _ p fun q _ _ => by simp

@[simp] theorem Blocks.rebalance_bays (p : Blocks) : (p.rebalance).bays = p.bays := by
  exact foldl_leaves Blocks.bays _ _ p fun q _ _ => by simp

@[simp] theorem Blocks.rebalance_supply (p : Blocks) : (p.rebalance).supply = p.supply := by
  exact foldl_leaves Blocks.supply _ _ p fun q _ _ => by simp

@[simp] theorem Blocks.rebalance_notices (p : Blocks) : (p.rebalance).notices = p.notices := by
  exact foldl_leaves Blocks.notices _ _ p fun q _ _ => by simp

/-! ## A supply state at the allocator -/

@[simp] theorem Blocks.allocSupply_clock (p : Blocks) (x : SupplyState) : (p.allocSupply x).clock = p.clock := by
  unfold Blocks.allocSupply
  dsimp only
  split
  · simp
  split
  · simp
  · exact (foldl_leaves Blocks.clock _ _ _ fun q _ _ => by simp).trans (by simp)

@[simp] theorem Blocks.allocSupply_boundaries (p : Blocks) (x : SupplyState) : (p.allocSupply x).boundaries = p.boundaries := by
  unfold Blocks.allocSupply
  dsimp only
  split
  · simp
  split
  · simp
  · exact (foldl_leaves Blocks.boundaries _ _ _ fun q _ _ => by simp).trans (by simp)

@[simp] theorem Blocks.allocSupply_level (p : Blocks) (x : SupplyState) : (p.allocSupply x).level = p.level := by
  unfold Blocks.allocSupply
  dsimp only
  split
  · simp
  split
  · simp
  · exact (foldl_leaves Blocks.level _ _ _ fun q _ _ => by simp).trans (by simp)

@[simp] theorem Blocks.allocSupply_params (p : Blocks) (x : SupplyState) : (p.allocSupply x).params = p.params := by
  unfold Blocks.allocSupply
  dsimp only
  split
  · simp
  split
  · simp
  · exact (foldl_leaves Blocks.params _ _ _ fun q _ _ => by simp).trans (by simp)

@[simp] theorem Blocks.allocSupply_zones (p : Blocks) (x : SupplyState) : (p.allocSupply x).zones = p.zones := by
  unfold Blocks.allocSupply
  dsimp only
  split
  · simp
  split
  · simp
  · exact (foldl_leaves Blocks.zones _ _ _ fun q _ _ => by simp).trans (by simp)

@[simp] theorem Blocks.allocSupply_book (p : Blocks) (x : SupplyState) : (p.allocSupply x).book = p.book := by
  unfold Blocks.allocSupply
  dsimp only
  split
  · simp
  split
  · simp
  · exact (foldl_leaves Blocks.book _ _ _ fun q _ _ => by simp).trans (by simp)

@[simp] theorem Blocks.allocSupply_reloc (p : Blocks) (x : SupplyState) : (p.allocSupply x).reloc = p.reloc := by
  unfold Blocks.allocSupply
  dsimp only
  split
  · simp
  split
  · simp
  · exact (foldl_leaves Blocks.reloc _ _ _ fun q _ _ => by simp).trans (by simp)

@[simp] theorem Blocks.allocSupply_bays (p : Blocks) (x : SupplyState) : (p.allocSupply x).bays = p.bays := by
  unfold Blocks.allocSupply
  dsimp only
  split
  · simp
  split
  · simp
  · exact (foldl_leaves Blocks.bays _ _ _ fun q _ _ => by simp).trans (by simp)

@[simp] theorem Blocks.allocSupply_supply (p : Blocks) (x : SupplyState) : (p.allocSupply x).supply = p.supply := by
  unfold Blocks.allocSupply
  dsimp only
  split
  · simp
  split
  · simp
  · exact (foldl_leaves Blocks.supply _ _ _ fun q _ _ => by simp).trans (by simp)

@[simp] theorem Blocks.allocSupply_notices (p : Blocks) (x : SupplyState) : (p.allocSupply x).notices = p.notices := by
  unfold Blocks.allocSupply
  dsimp only
  split
  · simp
  split
  · simp
  · exact (foldl_leaves Blocks.notices _ _ _ fun q _ _ => by simp).trans (by simp)

/-! ## A change of supply state -/

@[simp] theorem Blocks.setSupply_clock (p : Blocks) (x : SupplyState) : (p.setSupply x).clock = p.clock := by
  unfold Blocks.setSupply
  dsimp only
  (repeat' split) <;> simp

@[simp] theorem Blocks.setSupply_boundaries (p : Blocks) (x : SupplyState) : (p.setSupply x).boundaries = p.boundaries := by
  unfold Blocks.setSupply
  dsimp only
  (repeat' split) <;> simp

@[simp] theorem Blocks.setSupply_level (p : Blocks) (x : SupplyState) : (p.setSupply x).level = p.level := by
  unfold Blocks.setSupply
  dsimp only
  (repeat' split) <;> simp

@[simp] theorem Blocks.setSupply_params (p : Blocks) (x : SupplyState) : (p.setSupply x).params = p.params := by
  unfold Blocks.setSupply
  dsimp only
  (repeat' split) <;> simp

@[simp] theorem Blocks.setSupply_zones (p : Blocks) (x : SupplyState) : (p.setSupply x).zones = p.zones := by
  unfold Blocks.setSupply
  dsimp only
  (repeat' split) <;> simp

@[simp] theorem Blocks.setSupply_book (p : Blocks) (x : SupplyState) : (p.setSupply x).book = p.book := by
  unfold Blocks.setSupply
  dsimp only
  (repeat' split) <;> simp

@[simp] theorem Blocks.setSupply_reloc (p : Blocks) (x : SupplyState) : (p.setSupply x).reloc = p.reloc := by
  unfold Blocks.setSupply
  dsimp only
  (repeat' split) <;> simp

@[simp] theorem Blocks.setSupply_bays (p : Blocks) (x : SupplyState) : (p.setSupply x).bays = p.bays := by
  unfold Blocks.setSupply
  dsimp only
  (repeat' split) <;> simp

/-! ## A change of effective action -/

@[simp] theorem Blocks.setAction_clock (p : Blocks) (b : BayNo) (x : Action) : (p.setAction b x).clock = p.clock := by
  unfold Blocks.setAction
  dsimp only
  (repeat' split) <;> simp

@[simp] theorem Blocks.setAction_boundaries (p : Blocks) (b : BayNo) (x : Action) : (p.setAction b x).boundaries = p.boundaries := by
  unfold Blocks.setAction
  dsimp only
  (repeat' split) <;> simp

@[simp] theorem Blocks.setAction_level (p : Blocks) (b : BayNo) (x : Action) : (p.setAction b x).level = p.level := by
  unfold Blocks.setAction
  dsimp only
  (repeat' split) <;> simp

@[simp] theorem Blocks.setAction_params (p : Blocks) (b : BayNo) (x : Action) : (p.setAction b x).params = p.params := by
  unfold Blocks.setAction
  dsimp only
  (repeat' split) <;> simp

@[simp] theorem Blocks.setAction_zones (p : Blocks) (b : BayNo) (x : Action) : (p.setAction b x).zones = p.zones := by
  unfold Blocks.setAction
  dsimp only
  (repeat' split) <;> simp

/-! ## An action recomputed -/

@[simp] theorem Blocks.recompute_clock (p : Blocks) (b : BayNo) : (p.recompute b).clock = p.clock := by
  simp [Blocks.recompute]

@[simp] theorem Blocks.recompute_boundaries (p : Blocks) (b : BayNo) : (p.recompute b).boundaries = p.boundaries := by
  simp [Blocks.recompute]

@[simp] theorem Blocks.recompute_level (p : Blocks) (b : BayNo) : (p.recompute b).level = p.level := by
  simp [Blocks.recompute]

@[simp] theorem Blocks.recompute_params (p : Blocks) (b : BayNo) : (p.recompute b).params = p.params := by
  simp [Blocks.recompute]

@[simp] theorem Blocks.recompute_zones (p : Blocks) (b : BayNo) : (p.recompute b).zones = p.zones := by
  simp [Blocks.recompute]

/-! ## The members' actions recomputed -/

@[simp] theorem Blocks.recomputeMembers_clock (p : Blocks) (x : GroupNo → Bool) : (p.recomputeMembers x).clock = p.clock := by
  exact foldl_leaves Blocks.clock _ _ p fun q _ _ => by split <;> simp

@[simp] theorem Blocks.recomputeMembers_boundaries (p : Blocks) (x : GroupNo → Bool) : (p.recomputeMembers x).boundaries = p.boundaries := by
  exact foldl_leaves Blocks.boundaries _ _ p fun q _ _ => by split <;> simp

@[simp] theorem Blocks.recomputeMembers_level (p : Blocks) (x : GroupNo → Bool) : (p.recomputeMembers x).level = p.level := by
  exact foldl_leaves Blocks.level _ _ p fun q _ _ => by split <;> simp

@[simp] theorem Blocks.recomputeMembers_params (p : Blocks) (x : GroupNo → Bool) : (p.recomputeMembers x).params = p.params := by
  exact foldl_leaves Blocks.params _ _ p fun q _ _ => by split <;> simp

@[simp] theorem Blocks.recomputeMembers_zones (p : Blocks) (x : GroupNo → Bool) : (p.recomputeMembers x).zones = p.zones := by
  exact foldl_leaves Blocks.zones _ _ p fun q _ _ => by split <;> simp

/-! ## A bay of a lost module -/

@[simp] theorem Blocks.loseModuleBay_clock (p : Blocks) (b : BayNo) : (p.loseModuleBay b).clock = p.clock := by
  unfold Blocks.loseModuleBay
  dsimp only
  (repeat' split) <;> simp

@[simp] theorem Blocks.loseModuleBay_boundaries (p : Blocks) (b : BayNo) : (p.loseModuleBay b).boundaries = p.boundaries := by
  unfold Blocks.loseModuleBay
  dsimp only
  (repeat' split) <;> simp

@[simp] theorem Blocks.loseModuleBay_level (p : Blocks) (b : BayNo) : (p.loseModuleBay b).level = p.level := by
  unfold Blocks.loseModuleBay
  dsimp only
  (repeat' split) <;> simp

@[simp] theorem Blocks.loseModuleBay_params (p : Blocks) (b : BayNo) : (p.loseModuleBay b).params = p.params := by
  unfold Blocks.loseModuleBay
  dsimp only
  (repeat' split) <;> simp

@[simp] theorem Blocks.loseModuleBay_zones (p : Blocks) (b : BayNo) : (p.loseModuleBay b).zones = p.zones := by
  unfold Blocks.loseModuleBay
  dsimp only
  (repeat' split) <;> simp

@[simp] theorem Blocks.loseModuleBay_alloc (p : Blocks) (b : BayNo) : (p.loseModuleBay b).alloc = p.alloc := by
  unfold Blocks.loseModuleBay
  dsimp only
  (repeat' split) <;> simp

@[simp] theorem Blocks.loseModuleBay_supply (p : Blocks) (b : BayNo) : (p.loseModuleBay b).supply = p.supply := by
  unfold Blocks.loseModuleBay
  dsimp only
  (repeat' split) <;> simp

/-! ## A module lost -/

@[simp] theorem Blocks.loseModule_clock (p : Blocks) (k : ModuleNo) : (p.loseModule k).clock = p.clock := by
  unfold Blocks.loseModule
  split
  · rfl
  · simp only [Blocks.raise_clock]
    exact (foldl_leaves Blocks.clock _ _ _ fun q _ _ => by simp).trans (by simp)

@[simp] theorem Blocks.loseModule_boundaries (p : Blocks) (k : ModuleNo) : (p.loseModule k).boundaries = p.boundaries := by
  unfold Blocks.loseModule
  split
  · rfl
  · simp only [Blocks.raise_boundaries]
    exact (foldl_leaves Blocks.boundaries _ _ _ fun q _ _ => by simp).trans (by simp)

@[simp] theorem Blocks.loseModule_level (p : Blocks) (k : ModuleNo) : (p.loseModule k).level = p.level := by
  unfold Blocks.loseModule
  split
  · rfl
  · simp only [Blocks.raise_level]
    exact (foldl_leaves Blocks.level _ _ _ fun q _ _ => by simp).trans (by simp)

@[simp] theorem Blocks.loseModule_params (p : Blocks) (k : ModuleNo) : (p.loseModule k).params = p.params := by
  unfold Blocks.loseModule
  split
  · rfl
  · simp only [Blocks.raise_params]
    exact (foldl_leaves Blocks.params _ _ _ fun q _ _ => by simp).trans (by simp)

@[simp] theorem Blocks.loseModule_zones (p : Blocks) (k : ModuleNo) : (p.loseModule k).zones = p.zones := by
  unfold Blocks.loseModule
  split
  · rfl
  · simp only [Blocks.raise_zones]
    exact (foldl_leaves Blocks.zones _ _ _ fun q _ _ => by simp).trans (by simp)

@[simp] theorem Blocks.loseModule_alloc (p : Blocks) (k : ModuleNo) : (p.loseModule k).alloc = p.alloc := by
  unfold Blocks.loseModule
  split
  · rfl
  · simp only [Blocks.raise_alloc]
    exact (foldl_leaves Blocks.alloc _ _ _ fun q _ _ => by simp).trans (by simp)

@[simp] theorem Blocks.loseModule_supply (p : Blocks) (k : ModuleNo) : (p.loseModule k).supply = p.supply := by
  unfold Blocks.loseModule
  split
  · rfl
  · simp only [Blocks.raise_supply]
    exact (foldl_leaves Blocks.supply _ _ _ fun q _ _ => by simp).trans (by simp)

/-! ## A minute boundary -/

@[simp] theorem Blocks.minuteBoundary_level (p : Blocks) : (p.minuteBoundary).level = p.level := by
  simp [Blocks.minuteBoundary]

@[simp] theorem Blocks.minuteBoundary_params (p : Blocks) : (p.minuteBoundary).params = p.params := by
  simp [Blocks.minuteBoundary]

@[simp] theorem Blocks.minuteBoundary_zones (p : Blocks) : (p.minuteBoundary).zones = p.zones := by
  simp [Blocks.minuteBoundary]

@[simp] theorem Blocks.minuteBoundary_book (p : Blocks) : (p.minuteBoundary).book = p.book := by
  simp [Blocks.minuteBoundary]

@[simp] theorem Blocks.minuteBoundary_reloc (p : Blocks) : (p.minuteBoundary).reloc = p.reloc := by
  simp [Blocks.minuteBoundary]

@[simp] theorem Blocks.minuteBoundary_bays (p : Blocks) : (p.minuteBoundary).bays = p.bays := by
  simp [Blocks.minuteBoundary]

@[simp] theorem Blocks.minuteBoundary_alloc (p : Blocks) : (p.minuteBoundary).alloc = p.alloc := by
  simp [Blocks.minuteBoundary]

@[simp] theorem Blocks.minuteBoundary_supply (p : Blocks) : (p.minuteBoundary).supply = p.supply := by
  simp [Blocks.minuteBoundary]

@[simp] theorem Blocks.minuteBoundary_notices (p : Blocks) : (p.minuteBoundary).notices = p.notices := by
  simp [Blocks.minuteBoundary]

@[simp] theorem Blocks.minuteBoundary_mail (p : Blocks) : (p.minuteBoundary).mail = p.mail := by
  simp [Blocks.minuteBoundary]

/-! ## A module's silence -/

@[simp] theorem Blocks.tickModule_clock (p : Blocks) (k : ModuleNo) : (p.tickModule k).clock = p.clock := by
  unfold Blocks.tickModule
  (repeat' split) <;> simp

@[simp] theorem Blocks.tickModule_boundaries (p : Blocks) (k : ModuleNo) : (p.tickModule k).boundaries = p.boundaries := by
  unfold Blocks.tickModule
  (repeat' split) <;> simp

@[simp] theorem Blocks.tickModule_level (p : Blocks) (k : ModuleNo) : (p.tickModule k).level = p.level := by
  unfold Blocks.tickModule
  (repeat' split) <;> simp

@[simp] theorem Blocks.tickModule_params (p : Blocks) (k : ModuleNo) : (p.tickModule k).params = p.params := by
  unfold Blocks.tickModule
  (repeat' split) <;> simp

@[simp] theorem Blocks.tickModule_zones (p : Blocks) (k : ModuleNo) : (p.tickModule k).zones = p.zones := by
  unfold Blocks.tickModule
  (repeat' split) <;> simp

@[simp] theorem Blocks.tickModule_alloc (p : Blocks) (k : ModuleNo) : (p.tickModule k).alloc = p.alloc := by
  unfold Blocks.tickModule
  (repeat' split) <;> simp

@[simp] theorem Blocks.tickModule_supply (p : Blocks) (k : ModuleNo) : (p.tickModule k).supply = p.supply := by
  unfold Blocks.tickModule
  (repeat' split) <;> simp

/-! ## One period -/

@[simp] theorem Blocks.tick_level (p : Blocks) : (p.tick).level = p.level := by
  unfold Blocks.tick
  dsimp only
  have h := foldl_leaves Blocks.level Blocks.tickModule (List.finRange Config.moduleCount) p fun q _ _ => by simp
  split <;> simpa using h

@[simp] theorem Blocks.tick_params (p : Blocks) : (p.tick).params = p.params := by
  unfold Blocks.tick
  dsimp only
  have h := foldl_leaves Blocks.params Blocks.tickModule (List.finRange Config.moduleCount) p fun q _ _ => by simp
  split <;> simpa using h

@[simp] theorem Blocks.tick_zones (p : Blocks) : (p.tick).zones = p.zones := by
  unfold Blocks.tick
  dsimp only
  have h := foldl_leaves Blocks.zones Blocks.tickModule (List.finRange Config.moduleCount) p fun q _ _ => by simp
  split <;> simpa using h

@[simp] theorem Blocks.tick_alloc (p : Blocks) : (p.tick).alloc = p.alloc := by
  unfold Blocks.tick
  dsimp only
  have h := foldl_leaves Blocks.alloc Blocks.tickModule (List.finRange Config.moduleCount) p fun q _ _ => by simp
  split <;> simpa using h

@[simp] theorem Blocks.tick_supply (p : Blocks) : (p.tick).supply = p.supply := by
  unfold Blocks.tick
  dsimp only
  have h := foldl_leaves Blocks.supply Blocks.tickModule (List.finRange Config.moduleCount) p fun q _ _ => by simp
  split <;> simpa using h

/-! ## A departure -/

@[simp] theorem Blocks.departure_clock (p : Blocks) (b : BayNo) : (p.departure b).clock = p.clock := by
  unfold Blocks.departure
  dsimp only
  split <;> simp

@[simp] theorem Blocks.departure_boundaries (p : Blocks) (b : BayNo) : (p.departure b).boundaries = p.boundaries := by
  unfold Blocks.departure
  dsimp only
  split <;> simp

@[simp] theorem Blocks.departure_level (p : Blocks) (b : BayNo) : (p.departure b).level = p.level := by
  unfold Blocks.departure
  dsimp only
  split <;> simp

@[simp] theorem Blocks.departure_params (p : Blocks) (b : BayNo) : (p.departure b).params = p.params := by
  unfold Blocks.departure
  dsimp only
  split <;> simp

@[simp] theorem Blocks.departure_zones (p : Blocks) (b : BayNo) : (p.departure b).zones = p.zones := by
  unfold Blocks.departure
  dsimp only
  split <;> simp

@[simp] theorem Blocks.departure_reloc (p : Blocks) (b : BayNo) : (p.departure b).reloc = p.reloc := by
  unfold Blocks.departure
  dsimp only
  split <;> simp

@[simp] theorem Blocks.departure_alloc (p : Blocks) (b : BayNo) : (p.departure b).alloc = p.alloc := by
  unfold Blocks.departure
  dsimp only
  split <;> simp

@[simp] theorem Blocks.departure_supply (p : Blocks) (b : BayNo) : (p.departure b).supply = p.supply := by
  unfold Blocks.departure
  dsimp only
  split <;> simp

/-! ## A presence event -/

@[simp] theorem Blocks.presenceEvent_clock (p : Blocks) (b : BayNo) (x : Bool) : (p.presenceEvent b x).clock = p.clock := by
  unfold Blocks.presenceEvent
  dsimp only
  split <;> simp

@[simp] theorem Blocks.presenceEvent_boundaries (p : Blocks) (b : BayNo) (x : Bool) : (p.presenceEvent b x).boundaries = p.boundaries := by
  unfold Blocks.presenceEvent
  dsimp only
  split <;> simp

@[simp] theorem Blocks.presenceEvent_level (p : Blocks) (b : BayNo) (x : Bool) : (p.presenceEvent b x).level = p.level := by
  unfold Blocks.presenceEvent
  dsimp only
  split <;> simp

@[simp] theorem Blocks.presenceEvent_params (p : Blocks) (b : BayNo) (x : Bool) : (p.presenceEvent b x).params = p.params := by
  unfold Blocks.presenceEvent
  dsimp only
  split <;> simp

@[simp] theorem Blocks.presenceEvent_zones (p : Blocks) (b : BayNo) (x : Bool) : (p.presenceEvent b x).zones = p.zones := by
  unfold Blocks.presenceEvent
  dsimp only
  split <;> simp

@[simp] theorem Blocks.presenceEvent_reloc (p : Blocks) (b : BayNo) (x : Bool) : (p.presenceEvent b x).reloc = p.reloc := by
  unfold Blocks.presenceEvent
  dsimp only
  split <;> simp

@[simp] theorem Blocks.presenceEvent_alloc (p : Blocks) (b : BayNo) (x : Bool) : (p.presenceEvent b x).alloc = p.alloc := by
  unfold Blocks.presenceEvent
  dsimp only
  split <;> simp

@[simp] theorem Blocks.presenceEvent_supply (p : Blocks) (b : BayNo) (x : Bool) : (p.presenceEvent b x).supply = p.supply := by
  unfold Blocks.presenceEvent
  dsimp only
  split <;> simp

/-! ## A fault event -/

@[simp] theorem Blocks.faultEvent_clock (p : Blocks) (b : BayNo) (x : Bool) : (p.faultEvent b x).clock = p.clock := by
  unfold Blocks.faultEvent
  dsimp only
  (repeat' split) <;> simp

@[simp] theorem Blocks.faultEvent_boundaries (p : Blocks) (b : BayNo) (x : Bool) : (p.faultEvent b x).boundaries = p.boundaries := by
  unfold Blocks.faultEvent
  dsimp only
  (repeat' split) <;> simp

@[simp] theorem Blocks.faultEvent_level (p : Blocks) (b : BayNo) (x : Bool) : (p.faultEvent b x).level = p.level := by
  unfold Blocks.faultEvent
  dsimp only
  (repeat' split) <;> simp

@[simp] theorem Blocks.faultEvent_params (p : Blocks) (b : BayNo) (x : Bool) : (p.faultEvent b x).params = p.params := by
  unfold Blocks.faultEvent
  dsimp only
  (repeat' split) <;> simp

@[simp] theorem Blocks.faultEvent_zones (p : Blocks) (b : BayNo) (x : Bool) : (p.faultEvent b x).zones = p.zones := by
  unfold Blocks.faultEvent
  dsimp only
  (repeat' split) <;> simp

@[simp] theorem Blocks.faultEvent_alloc (p : Blocks) (b : BayNo) (x : Bool) : (p.faultEvent b x).alloc = p.alloc := by
  unfold Blocks.faultEvent
  dsimp only
  (repeat' split) <;> simp

@[simp] theorem Blocks.faultEvent_supply (p : Blocks) (b : BayNo) (x : Bool) : (p.faultEvent b x).supply = p.supply := by
  unfold Blocks.faultEvent
  dsimp only
  (repeat' split) <;> simp

/-! ## A done report -/

@[simp] theorem Blocks.doneReport_clock (p : Blocks) (b : BayNo) : (p.doneReport b).clock = p.clock := by
  unfold Blocks.doneReport
  (repeat' split) <;> simp

@[simp] theorem Blocks.doneReport_boundaries (p : Blocks) (b : BayNo) : (p.doneReport b).boundaries = p.boundaries := by
  unfold Blocks.doneReport
  (repeat' split) <;> simp

@[simp] theorem Blocks.doneReport_level (p : Blocks) (b : BayNo) : (p.doneReport b).level = p.level := by
  unfold Blocks.doneReport
  (repeat' split) <;> simp

@[simp] theorem Blocks.doneReport_params (p : Blocks) (b : BayNo) : (p.doneReport b).params = p.params := by
  unfold Blocks.doneReport
  (repeat' split) <;> simp

@[simp] theorem Blocks.doneReport_zones (p : Blocks) (b : BayNo) : (p.doneReport b).zones = p.zones := by
  unfold Blocks.doneReport
  (repeat' split) <;> simp

@[simp] theorem Blocks.doneReport_reloc (p : Blocks) (b : BayNo) : (p.doneReport b).reloc = p.reloc := by
  unfold Blocks.doneReport
  (repeat' split) <;> simp

@[simp] theorem Blocks.doneReport_bays (p : Blocks) (b : BayNo) : (p.doneReport b).bays = p.bays := by
  unfold Blocks.doneReport
  (repeat' split) <;> simp

@[simp] theorem Blocks.doneReport_alloc (p : Blocks) (b : BayNo) : (p.doneReport b).alloc = p.alloc := by
  unfold Blocks.doneReport
  (repeat' split) <;> simp

@[simp] theorem Blocks.doneReport_supply (p : Blocks) (b : BayNo) : (p.doneReport b).supply = p.supply := by
  unfold Blocks.doneReport
  (repeat' split) <;> simp

@[simp] theorem Blocks.doneReport_notices (p : Blocks) (b : BayNo) : (p.doneReport b).notices = p.notices := by
  unfold Blocks.doneReport
  (repeat' split) <;> simp

/-! ## The events of one bay -/

@[simp] theorem Blocks.reportBay_clock (p : Blocks) (b : BayNo) (x y z : Bool) : (p.reportBay b x y z).clock = p.clock := by
  unfold Blocks.reportBay
  dsimp only
  (repeat' split) <;> simp

@[simp] theorem Blocks.reportBay_boundaries (p : Blocks) (b : BayNo) (x y z : Bool) : (p.reportBay b x y z).boundaries = p.boundaries := by
  unfold Blocks.reportBay
  dsimp only
  (repeat' split) <;> simp

@[simp] theorem Blocks.reportBay_level (p : Blocks) (b : BayNo) (x y z : Bool) : (p.reportBay b x y z).level = p.level := by
  unfold Blocks.reportBay
  dsimp only
  (repeat' split) <;> simp

@[simp] theorem Blocks.reportBay_params (p : Blocks) (b : BayNo) (x y z : Bool) : (p.reportBay b x y z).params = p.params := by
  unfold Blocks.reportBay
  dsimp only
  (repeat' split) <;> simp

@[simp] theorem Blocks.reportBay_zones (p : Blocks) (b : BayNo) (x y z : Bool) : (p.reportBay b x y z).zones = p.zones := by
  unfold Blocks.reportBay
  dsimp only
  (repeat' split) <;> simp

@[simp] theorem Blocks.reportBay_alloc (p : Blocks) (b : BayNo) (x y z : Bool) : (p.reportBay b x y z).alloc = p.alloc := by
  unfold Blocks.reportBay
  dsimp only
  (repeat' split) <;> simp

@[simp] theorem Blocks.reportBay_supply (p : Blocks) (b : BayNo) (x y z : Bool) : (p.reportBay b x y z).supply = p.supply := by
  unfold Blocks.reportBay
  dsimp only
  (repeat' split) <;> simp

/-! ## A report of an ONLINE module -/

@[simp] theorem Blocks.onlineReport_clock (p : Blocks) (k : ModuleNo) (x : ModuleReport) : (p.onlineReport k x).clock = p.clock := by
  exact (foldl_leaves Blocks.clock _ _ _ fun q _ _ => by simp).trans (by simp)

@[simp] theorem Blocks.onlineReport_boundaries (p : Blocks) (k : ModuleNo) (x : ModuleReport) : (p.onlineReport k x).boundaries = p.boundaries := by
  exact (foldl_leaves Blocks.boundaries _ _ _ fun q _ _ => by simp).trans (by simp)

@[simp] theorem Blocks.onlineReport_level (p : Blocks) (k : ModuleNo) (x : ModuleReport) : (p.onlineReport k x).level = p.level := by
  exact (foldl_leaves Blocks.level _ _ _ fun q _ _ => by simp).trans (by simp)

@[simp] theorem Blocks.onlineReport_params (p : Blocks) (k : ModuleNo) (x : ModuleReport) : (p.onlineReport k x).params = p.params := by
  exact (foldl_leaves Blocks.params _ _ _ fun q _ _ => by simp).trans (by simp)

@[simp] theorem Blocks.onlineReport_zones (p : Blocks) (k : ModuleNo) (x : ModuleReport) : (p.onlineReport k x).zones = p.zones := by
  exact (foldl_leaves Blocks.zones _ _ _ fun q _ _ => by simp).trans (by simp)

@[simp] theorem Blocks.onlineReport_alloc (p : Blocks) (k : ModuleNo) (x : ModuleReport) : (p.onlineReport k x).alloc = p.alloc := by
  exact (foldl_leaves Blocks.alloc _ _ _ fun q _ _ => by simp).trans (by simp)

@[simp] theorem Blocks.onlineReport_supply (p : Blocks) (k : ModuleNo) (x : ModuleReport) : (p.onlineReport k x).supply = p.supply := by
  exact (foldl_leaves Blocks.supply _ _ _ fun q _ _ => by simp).trans (by simp)

/-! ## A found module -/

@[simp] theorem Blocks.foundReport_clock (p : Blocks) (k : ModuleNo) (x : ModuleReport) : (p.foundReport k x).clock = p.clock := by
  exact (foldl_leaves Blocks.clock _ _ _ fun q _ _ => by simp).trans (by simp)

@[simp] theorem Blocks.foundReport_boundaries (p : Blocks) (k : ModuleNo) (x : ModuleReport) : (p.foundReport k x).boundaries = p.boundaries := by
  exact (foldl_leaves Blocks.boundaries _ _ _ fun q _ _ => by simp).trans (by simp)

@[simp] theorem Blocks.foundReport_level (p : Blocks) (k : ModuleNo) (x : ModuleReport) : (p.foundReport k x).level = p.level := by
  exact (foldl_leaves Blocks.level _ _ _ fun q _ _ => by simp).trans (by simp)

@[simp] theorem Blocks.foundReport_params (p : Blocks) (k : ModuleNo) (x : ModuleReport) : (p.foundReport k x).params = p.params := by
  exact (foldl_leaves Blocks.params _ _ _ fun q _ _ => by simp).trans (by simp)

@[simp] theorem Blocks.foundReport_zones (p : Blocks) (k : ModuleNo) (x : ModuleReport) : (p.foundReport k x).zones = p.zones := by
  exact (foldl_leaves Blocks.zones _ _ _ fun q _ _ => by simp).trans (by simp)

@[simp] theorem Blocks.foundReport_book (p : Blocks) (k : ModuleNo) (x : ModuleReport) : (p.foundReport k x).book = p.book := by
  exact (foldl_leaves Blocks.book _ _ _ fun q _ _ => by simp).trans (by simp)

@[simp] theorem Blocks.foundReport_reloc (p : Blocks) (k : ModuleNo) (x : ModuleReport) : (p.foundReport k x).reloc = p.reloc := by
  exact (foldl_leaves Blocks.reloc _ _ _ fun q _ _ => by simp).trans (by simp)

@[simp] theorem Blocks.foundReport_alloc (p : Blocks) (k : ModuleNo) (x : ModuleReport) : (p.foundReport k x).alloc = p.alloc := by
  exact (foldl_leaves Blocks.alloc _ _ _ fun q _ _ => by simp).trans (by simp)

@[simp] theorem Blocks.foundReport_supply (p : Blocks) (k : ModuleNo) (x : ModuleReport) : (p.foundReport k x).supply = p.supply := by
  exact (foldl_leaves Blocks.supply _ _ _ fun q _ _ => by simp).trans (by simp)

@[simp] theorem Blocks.foundReport_notices (p : Blocks) (k : ModuleNo) (x : ModuleReport) : (p.foundReport k x).notices = p.notices := by
  exact (foldl_leaves Blocks.notices _ _ _ fun q _ _ => by simp).trans (by simp)

@[simp] theorem Blocks.foundReport_mail (p : Blocks) (k : ModuleNo) (x : ModuleReport) : (p.foundReport k x).mail = p.mail := by
  exact (foldl_leaves Blocks.mail _ _ _ fun q _ _ => by simp).trans (by simp)

/-! ## A report -/

@[simp] theorem Blocks.takeReport_clock (p : Blocks) (k : ModuleNo) (x : ModuleReport) : (p.takeReport k x).clock = p.clock := by
  unfold Blocks.takeReport
  split <;> simp

@[simp] theorem Blocks.takeReport_boundaries (p : Blocks) (k : ModuleNo) (x : ModuleReport) : (p.takeReport k x).boundaries = p.boundaries := by
  unfold Blocks.takeReport
  split <;> simp

@[simp] theorem Blocks.takeReport_level (p : Blocks) (k : ModuleNo) (x : ModuleReport) : (p.takeReport k x).level = p.level := by
  unfold Blocks.takeReport
  split <;> simp

@[simp] theorem Blocks.takeReport_params (p : Blocks) (k : ModuleNo) (x : ModuleReport) : (p.takeReport k x).params = p.params := by
  unfold Blocks.takeReport
  split <;> simp

@[simp] theorem Blocks.takeReport_zones (p : Blocks) (k : ModuleNo) (x : ModuleReport) : (p.takeReport k x).zones = p.zones := by
  unfold Blocks.takeReport
  split <;> simp

@[simp] theorem Blocks.takeReport_alloc (p : Blocks) (k : ModuleNo) (x : ModuleReport) : (p.takeReport k x).alloc = p.alloc := by
  unfold Blocks.takeReport
  split <;> simp

@[simp] theorem Blocks.takeReport_supply (p : Blocks) (k : ModuleNo) (x : ModuleReport) : (p.takeReport k x).supply = p.supply := by
  unfold Blocks.takeReport
  split <;> simp

/-! ## A poll -/

@[simp] theorem Blocks.poll_clock (p : Blocks) : (p.poll).clock = p.clock := by
  simp [Blocks.poll]

@[simp] theorem Blocks.poll_boundaries (p : Blocks) : (p.poll).boundaries = p.boundaries := by
  simp [Blocks.poll]

@[simp] theorem Blocks.poll_level (p : Blocks) : (p.poll).level = p.level := by
  simp [Blocks.poll]

@[simp] theorem Blocks.poll_params (p : Blocks) : (p.poll).params = p.params := by
  simp [Blocks.poll]

@[simp] theorem Blocks.poll_zones (p : Blocks) : (p.poll).zones = p.zones := by
  simp [Blocks.poll]

@[simp] theorem Blocks.poll_book (p : Blocks) : (p.poll).book = p.book := by
  simp [Blocks.poll]

@[simp] theorem Blocks.poll_reloc (p : Blocks) : (p.poll).reloc = p.reloc := by
  simp [Blocks.poll]

@[simp] theorem Blocks.poll_alloc (p : Blocks) : (p.poll).alloc = p.alloc := by
  simp [Blocks.poll]

@[simp] theorem Blocks.poll_supply (p : Blocks) : (p.poll).supply = p.supply := by
  simp [Blocks.poll]

@[simp] theorem Blocks.poll_notices (p : Blocks) : (p.poll).notices = p.notices := by
  simp [Blocks.poll]

@[simp] theorem Blocks.poll_mail (p : Blocks) : (p.poll).mail = p.mail := by
  simp [Blocks.poll]

/-! ## Deadline check -/

@[simp] theorem Blocks.checkHoldLead_clock (p : Blocks) (m : Nat) (sl : Slot) : (p.checkHoldLead m sl).clock = p.clock := by
  unfold Blocks.checkHoldLead
  (repeat' split) <;> simp

@[simp] theorem Blocks.checkHoldLead_boundaries (p : Blocks) (m : Nat) (sl : Slot) : (p.checkHoldLead m sl).boundaries = p.boundaries := by
  unfold Blocks.checkHoldLead
  (repeat' split) <;> simp

@[simp] theorem Blocks.checkHoldLead_level (p : Blocks) (m : Nat) (sl : Slot) : (p.checkHoldLead m sl).level = p.level := by
  unfold Blocks.checkHoldLead
  (repeat' split) <;> simp

@[simp] theorem Blocks.checkHoldLead_params (p : Blocks) (m : Nat) (sl : Slot) : (p.checkHoldLead m sl).params = p.params := by
  unfold Blocks.checkHoldLead
  (repeat' split) <;> simp

@[simp] theorem Blocks.checkHoldLead_zones (p : Blocks) (m : Nat) (sl : Slot) : (p.checkHoldLead m sl).zones = p.zones := by
  unfold Blocks.checkHoldLead
  (repeat' split) <;> simp

@[simp] theorem Blocks.checkHoldLead_reloc (p : Blocks) (m : Nat) (sl : Slot) : (p.checkHoldLead m sl).reloc = p.reloc := by
  unfold Blocks.checkHoldLead
  (repeat' split) <;> simp

@[simp] theorem Blocks.checkHoldLead_bays (p : Blocks) (m : Nat) (sl : Slot) : (p.checkHoldLead m sl).bays = p.bays := by
  unfold Blocks.checkHoldLead
  (repeat' split) <;> simp

@[simp] theorem Blocks.checkHoldLead_alloc (p : Blocks) (m : Nat) (sl : Slot) : (p.checkHoldLead m sl).alloc = p.alloc := by
  unfold Blocks.checkHoldLead
  (repeat' split) <;> simp

@[simp] theorem Blocks.checkHoldLead_supply (p : Blocks) (m : Nat) (sl : Slot) : (p.checkHoldLead m sl).supply = p.supply := by
  unfold Blocks.checkHoldLead
  (repeat' split) <;> simp

@[simp] theorem Blocks.checkHoldLead_notices (p : Blocks) (m : Nat) (sl : Slot) : (p.checkHoldLead m sl).notices = p.notices := by
  unfold Blocks.checkHoldLead
  (repeat' split) <;> simp

@[simp] theorem Blocks.checkHoldLead_mail (p : Blocks) (m : Nat) (sl : Slot) : (p.checkHoldLead m sl).mail = p.mail := by
  unfold Blocks.checkHoldLead
  (repeat' split) <;> simp

/-! ## Deadline check -/

@[simp] theorem Blocks.checkGrace_clock (p : Blocks) (m : Nat) (sl : Slot) : (p.checkGrace m sl).clock = p.clock := by
  unfold Blocks.checkGrace
  (repeat' split) <;> simp

@[simp] theorem Blocks.checkGrace_boundaries (p : Blocks) (m : Nat) (sl : Slot) : (p.checkGrace m sl).boundaries = p.boundaries := by
  unfold Blocks.checkGrace
  (repeat' split) <;> simp

@[simp] theorem Blocks.checkGrace_level (p : Blocks) (m : Nat) (sl : Slot) : (p.checkGrace m sl).level = p.level := by
  unfold Blocks.checkGrace
  (repeat' split) <;> simp

@[simp] theorem Blocks.checkGrace_params (p : Blocks) (m : Nat) (sl : Slot) : (p.checkGrace m sl).params = p.params := by
  unfold Blocks.checkGrace
  (repeat' split) <;> simp

@[simp] theorem Blocks.checkGrace_zones (p : Blocks) (m : Nat) (sl : Slot) : (p.checkGrace m sl).zones = p.zones := by
  unfold Blocks.checkGrace
  (repeat' split) <;> simp

@[simp] theorem Blocks.checkGrace_reloc (p : Blocks) (m : Nat) (sl : Slot) : (p.checkGrace m sl).reloc = p.reloc := by
  unfold Blocks.checkGrace
  (repeat' split) <;> simp

@[simp] theorem Blocks.checkGrace_bays (p : Blocks) (m : Nat) (sl : Slot) : (p.checkGrace m sl).bays = p.bays := by
  unfold Blocks.checkGrace
  (repeat' split) <;> simp

@[simp] theorem Blocks.checkGrace_alloc (p : Blocks) (m : Nat) (sl : Slot) : (p.checkGrace m sl).alloc = p.alloc := by
  unfold Blocks.checkGrace
  (repeat' split) <;> simp

@[simp] theorem Blocks.checkGrace_supply (p : Blocks) (m : Nat) (sl : Slot) : (p.checkGrace m sl).supply = p.supply := by
  unfold Blocks.checkGrace
  (repeat' split) <;> simp

/-! ## Deadline check -/

@[simp] theorem Blocks.checkOccupied_clock (p : Blocks) (m : Nat) (sl : Slot) : (p.checkOccupied m sl).clock = p.clock := by
  unfold Blocks.checkOccupied
  (repeat' split) <;> simp

@[simp] theorem Blocks.checkOccupied_boundaries (p : Blocks) (m : Nat) (sl : Slot) : (p.checkOccupied m sl).boundaries = p.boundaries := by
  unfold Blocks.checkOccupied
  (repeat' split) <;> simp

@[simp] theorem Blocks.checkOccupied_level (p : Blocks) (m : Nat) (sl : Slot) : (p.checkOccupied m sl).level = p.level := by
  unfold Blocks.checkOccupied
  (repeat' split) <;> simp

@[simp] theorem Blocks.checkOccupied_params (p : Blocks) (m : Nat) (sl : Slot) : (p.checkOccupied m sl).params = p.params := by
  unfold Blocks.checkOccupied
  (repeat' split) <;> simp

@[simp] theorem Blocks.checkOccupied_zones (p : Blocks) (m : Nat) (sl : Slot) : (p.checkOccupied m sl).zones = p.zones := by
  unfold Blocks.checkOccupied
  (repeat' split) <;> simp

@[simp] theorem Blocks.checkOccupied_bays (p : Blocks) (m : Nat) (sl : Slot) : (p.checkOccupied m sl).bays = p.bays := by
  unfold Blocks.checkOccupied
  (repeat' split) <;> simp

@[simp] theorem Blocks.checkOccupied_alloc (p : Blocks) (m : Nat) (sl : Slot) : (p.checkOccupied m sl).alloc = p.alloc := by
  unfold Blocks.checkOccupied
  (repeat' split) <;> simp

@[simp] theorem Blocks.checkOccupied_supply (p : Blocks) (m : Nat) (sl : Slot) : (p.checkOccupied m sl).supply = p.supply := by
  unfold Blocks.checkOccupied
  (repeat' split) <;> simp

/-! ## Deadline check -/

@[simp] theorem Blocks.checkEnd_clock (p : Blocks) (m : Nat) (sl : Slot) : (p.checkEnd m sl).clock = p.clock := by
  unfold Blocks.checkEnd
  (repeat' split) <;> simp

@[simp] theorem Blocks.checkEnd_boundaries (p : Blocks) (m : Nat) (sl : Slot) : (p.checkEnd m sl).boundaries = p.boundaries := by
  unfold Blocks.checkEnd
  (repeat' split) <;> simp

@[simp] theorem Blocks.checkEnd_level (p : Blocks) (m : Nat) (sl : Slot) : (p.checkEnd m sl).level = p.level := by
  unfold Blocks.checkEnd
  (repeat' split) <;> simp

@[simp] theorem Blocks.checkEnd_params (p : Blocks) (m : Nat) (sl : Slot) : (p.checkEnd m sl).params = p.params := by
  unfold Blocks.checkEnd
  (repeat' split) <;> simp

@[simp] theorem Blocks.checkEnd_zones (p : Blocks) (m : Nat) (sl : Slot) : (p.checkEnd m sl).zones = p.zones := by
  unfold Blocks.checkEnd
  (repeat' split) <;> simp

@[simp] theorem Blocks.checkEnd_reloc (p : Blocks) (m : Nat) (sl : Slot) : (p.checkEnd m sl).reloc = p.reloc := by
  unfold Blocks.checkEnd
  (repeat' split) <;> simp

@[simp] theorem Blocks.checkEnd_bays (p : Blocks) (m : Nat) (sl : Slot) : (p.checkEnd m sl).bays = p.bays := by
  unfold Blocks.checkEnd
  (repeat' split) <;> simp

@[simp] theorem Blocks.checkEnd_alloc (p : Blocks) (m : Nat) (sl : Slot) : (p.checkEnd m sl).alloc = p.alloc := by
  unfold Blocks.checkEnd
  (repeat' split) <;> simp

@[simp] theorem Blocks.checkEnd_supply (p : Blocks) (m : Nat) (sl : Slot) : (p.checkEnd m sl).supply = p.supply := by
  unfold Blocks.checkEnd
  (repeat' split) <;> simp

@[simp] theorem Blocks.checkEnd_notices (p : Blocks) (m : Nat) (sl : Slot) : (p.checkEnd m sl).notices = p.notices := by
  unfold Blocks.checkEnd
  (repeat' split) <;> simp

/-! ## The checks on one record -/

@[simp] theorem Blocks.passRecord_clock (m : Nat) (p : Blocks) (sl : Slot) : (Blocks.passRecord m p sl).clock = p.clock := by
  simp [Blocks.passRecord]

@[simp] theorem Blocks.passRecord_boundaries (m : Nat) (p : Blocks) (sl : Slot) : (Blocks.passRecord m p sl).boundaries = p.boundaries := by
  simp [Blocks.passRecord]

@[simp] theorem Blocks.passRecord_level (m : Nat) (p : Blocks) (sl : Slot) : (Blocks.passRecord m p sl).level = p.level := by
  simp [Blocks.passRecord]

@[simp] theorem Blocks.passRecord_params (m : Nat) (p : Blocks) (sl : Slot) : (Blocks.passRecord m p sl).params = p.params := by
  simp [Blocks.passRecord]

@[simp] theorem Blocks.passRecord_zones (m : Nat) (p : Blocks) (sl : Slot) : (Blocks.passRecord m p sl).zones = p.zones := by
  simp [Blocks.passRecord]

@[simp] theorem Blocks.passRecord_bays (m : Nat) (p : Blocks) (sl : Slot) : (Blocks.passRecord m p sl).bays = p.bays := by
  simp [Blocks.passRecord]

@[simp] theorem Blocks.passRecord_alloc (m : Nat) (p : Blocks) (sl : Slot) : (Blocks.passRecord m p sl).alloc = p.alloc := by
  simp [Blocks.passRecord]

@[simp] theorem Blocks.passRecord_supply (m : Nat) (p : Blocks) (sl : Slot) : (Blocks.passRecord m p sl).supply = p.supply := by
  simp [Blocks.passRecord]

/-! ## The comparison of holds -/

@[simp] theorem Blocks.compareHeld_clock (p : Blocks) (b : BayNo) : (Blocks.compareHeld p b).clock = p.clock := by
  unfold Blocks.compareHeld
  split <;> simp

@[simp] theorem Blocks.compareHeld_boundaries (p : Blocks) (b : BayNo) : (Blocks.compareHeld p b).boundaries = p.boundaries := by
  unfold Blocks.compareHeld
  split <;> simp

@[simp] theorem Blocks.compareHeld_level (p : Blocks) (b : BayNo) : (Blocks.compareHeld p b).level = p.level := by
  unfold Blocks.compareHeld
  split <;> simp

@[simp] theorem Blocks.compareHeld_params (p : Blocks) (b : BayNo) : (Blocks.compareHeld p b).params = p.params := by
  unfold Blocks.compareHeld
  split <;> simp

@[simp] theorem Blocks.compareHeld_zones (p : Blocks) (b : BayNo) : (Blocks.compareHeld p b).zones = p.zones := by
  unfold Blocks.compareHeld
  split <;> simp

@[simp] theorem Blocks.compareHeld_reloc (p : Blocks) (b : BayNo) : (Blocks.compareHeld p b).reloc = p.reloc := by
  unfold Blocks.compareHeld
  split <;> simp

@[simp] theorem Blocks.compareHeld_bays (p : Blocks) (b : BayNo) : (Blocks.compareHeld p b).bays = p.bays := by
  unfold Blocks.compareHeld
  split <;> simp

@[simp] theorem Blocks.compareHeld_alloc (p : Blocks) (b : BayNo) : (Blocks.compareHeld p b).alloc = p.alloc := by
  unfold Blocks.compareHeld
  split <;> simp

@[simp] theorem Blocks.compareHeld_supply (p : Blocks) (b : BayNo) : (Blocks.compareHeld p b).supply = p.supply := by
  unfold Blocks.compareHeld
  split <;> simp

@[simp] theorem Blocks.compareHeld_notices (p : Blocks) (b : BayNo) : (Blocks.compareHeld p b).notices = p.notices := by
  unfold Blocks.compareHeld
  split <;> simp

/-! ## The pass over one bay -/

@[simp] theorem Blocks.passBay_clock (m : Nat) (p : Blocks) (b : BayNo) : (Blocks.passBay m p b).clock = p.clock := by
  simp only [Blocks.passBay, Blocks.compareHeld_clock]
  exact foldl_leaves Blocks.clock _ _ p fun q _ _ => by simp

@[simp] theorem Blocks.passBay_boundaries (m : Nat) (p : Blocks) (b : BayNo) : (Blocks.passBay m p b).boundaries = p.boundaries := by
  simp only [Blocks.passBay, Blocks.compareHeld_boundaries]
  exact foldl_leaves Blocks.boundaries _ _ p fun q _ _ => by simp

@[simp] theorem Blocks.passBay_level (m : Nat) (p : Blocks) (b : BayNo) : (Blocks.passBay m p b).level = p.level := by
  simp only [Blocks.passBay, Blocks.compareHeld_level]
  exact foldl_leaves Blocks.level _ _ p fun q _ _ => by simp

@[simp] theorem Blocks.passBay_params (m : Nat) (p : Blocks) (b : BayNo) : (Blocks.passBay m p b).params = p.params := by
  simp only [Blocks.passBay, Blocks.compareHeld_params]
  exact foldl_leaves Blocks.params _ _ p fun q _ _ => by simp

@[simp] theorem Blocks.passBay_zones (m : Nat) (p : Blocks) (b : BayNo) : (Blocks.passBay m p b).zones = p.zones := by
  simp only [Blocks.passBay, Blocks.compareHeld_zones]
  exact foldl_leaves Blocks.zones _ _ p fun q _ _ => by simp

@[simp] theorem Blocks.passBay_bays (m : Nat) (p : Blocks) (b : BayNo) : (Blocks.passBay m p b).bays = p.bays := by
  simp only [Blocks.passBay, Blocks.compareHeld_bays]
  exact foldl_leaves Blocks.bays _ _ p fun q _ _ => by simp

@[simp] theorem Blocks.passBay_alloc (m : Nat) (p : Blocks) (b : BayNo) : (Blocks.passBay m p b).alloc = p.alloc := by
  simp only [Blocks.passBay, Blocks.compareHeld_alloc]
  exact foldl_leaves Blocks.alloc _ _ p fun q _ _ => by simp

@[simp] theorem Blocks.passBay_supply (m : Nat) (p : Blocks) (b : BayNo) : (Blocks.passBay m p b).supply = p.supply := by
  simp only [Blocks.passBay, Blocks.compareHeld_supply]
  exact foldl_leaves Blocks.supply _ _ p fun q _ _ => by simp

/-! ## The pass -/

@[simp] theorem Blocks.deadlinePass_clock (m : Nat) (p : Blocks) : (Blocks.deadlinePass m p).clock = p.clock := by
  exact foldl_leaves Blocks.clock _ _ p fun q _ _ => by simp

@[simp] theorem Blocks.deadlinePass_boundaries (m : Nat) (p : Blocks) : (Blocks.deadlinePass m p).boundaries = p.boundaries := by
  exact foldl_leaves Blocks.boundaries _ _ p fun q _ _ => by simp

@[simp] theorem Blocks.deadlinePass_level (m : Nat) (p : Blocks) : (Blocks.deadlinePass m p).level = p.level := by
  exact foldl_leaves Blocks.level _ _ p fun q _ _ => by simp

@[simp] theorem Blocks.deadlinePass_params (m : Nat) (p : Blocks) : (Blocks.deadlinePass m p).params = p.params := by
  exact foldl_leaves Blocks.params _ _ p fun q _ _ => by simp

@[simp] theorem Blocks.deadlinePass_zones (m : Nat) (p : Blocks) : (Blocks.deadlinePass m p).zones = p.zones := by
  exact foldl_leaves Blocks.zones _ _ p fun q _ _ => by simp

@[simp] theorem Blocks.deadlinePass_bays (m : Nat) (p : Blocks) : (Blocks.deadlinePass m p).bays = p.bays := by
  exact foldl_leaves Blocks.bays _ _ p fun q _ _ => by simp

@[simp] theorem Blocks.deadlinePass_alloc (m : Nat) (p : Blocks) : (Blocks.deadlinePass m p).alloc = p.alloc := by
  exact foldl_leaves Blocks.alloc _ _ p fun q _ _ => by simp

@[simp] theorem Blocks.deadlinePass_supply (m : Nat) (p : Blocks) : (Blocks.deadlinePass m p).supply = p.supply := by
  exact foldl_leaves Blocks.supply _ _ p fun q _ _ => by simp

/-! ## The book's boundary -/

@[simp] theorem Blocks.bookBoundary_clock (p : Blocks) : (Blocks.bookBoundary p).clock = p.clock := by
  unfold Blocks.bookBoundary
  dsimp only
  (repeat' split) <;> simp

@[simp] theorem Blocks.bookBoundary_level (p : Blocks) : (Blocks.bookBoundary p).level = p.level := by
  unfold Blocks.bookBoundary
  dsimp only
  (repeat' split) <;> simp

@[simp] theorem Blocks.bookBoundary_params (p : Blocks) : (Blocks.bookBoundary p).params = p.params := by
  unfold Blocks.bookBoundary
  dsimp only
  (repeat' split) <;> simp

@[simp] theorem Blocks.bookBoundary_zones (p : Blocks) : (Blocks.bookBoundary p).zones = p.zones := by
  unfold Blocks.bookBoundary
  dsimp only
  (repeat' split) <;> simp

@[simp] theorem Blocks.bookBoundary_bays (p : Blocks) : (Blocks.bookBoundary p).bays = p.bays := by
  unfold Blocks.bookBoundary
  dsimp only
  (repeat' split) <;> simp

@[simp] theorem Blocks.bookBoundary_alloc (p : Blocks) : (Blocks.bookBoundary p).alloc = p.alloc := by
  unfold Blocks.bookBoundary
  dsimp only
  (repeat' split) <;> simp

@[simp] theorem Blocks.bookBoundary_supply (p : Blocks) : (Blocks.bookBoundary p).supply = p.supply := by
  unfold Blocks.bookBoundary
  dsimp only
  (repeat' split) <;> simp

/-! ## A claim window counted -/

@[simp] theorem Blocks.countBay_clock (p : Blocks) (b : BayNo) : (Blocks.countBay p b).clock = p.clock := by
  unfold Blocks.countBay
  dsimp only
  split <;> simp

@[simp] theorem Blocks.countBay_boundaries (p : Blocks) (b : BayNo) : (Blocks.countBay p b).boundaries = p.boundaries := by
  unfold Blocks.countBay
  dsimp only
  split <;> simp

@[simp] theorem Blocks.countBay_level (p : Blocks) (b : BayNo) : (Blocks.countBay p b).level = p.level := by
  unfold Blocks.countBay
  dsimp only
  split <;> simp

@[simp] theorem Blocks.countBay_params (p : Blocks) (b : BayNo) : (Blocks.countBay p b).params = p.params := by
  unfold Blocks.countBay
  dsimp only
  split <;> simp

@[simp] theorem Blocks.countBay_zones (p : Blocks) (b : BayNo) : (Blocks.countBay p b).zones = p.zones := by
  unfold Blocks.countBay
  dsimp only
  split <;> simp

@[simp] theorem Blocks.countBay_book (p : Blocks) (b : BayNo) : (Blocks.countBay p b).book = p.book := by
  unfold Blocks.countBay
  dsimp only
  split <;> simp

@[simp] theorem Blocks.countBay_reloc (p : Blocks) (b : BayNo) : (Blocks.countBay p b).reloc = p.reloc := by
  unfold Blocks.countBay
  dsimp only
  split <;> simp

@[simp] theorem Blocks.countBay_alloc (p : Blocks) (b : BayNo) : (Blocks.countBay p b).alloc = p.alloc := by
  unfold Blocks.countBay
  dsimp only
  split <;> simp

@[simp] theorem Blocks.countBay_supply (p : Blocks) (b : BayNo) : (Blocks.countBay p b).supply = p.supply := by
  unfold Blocks.countBay
  dsimp only
  split <;> simp

@[simp] theorem Blocks.countBay_notices (p : Blocks) (b : BayNo) : (Blocks.countBay p b).notices = p.notices := by
  unfold Blocks.countBay
  dsimp only
  split <;> simp

/-! ## The bay unit's boundary -/

@[simp] theorem Blocks.bayBoundary_clock (p : Blocks) : (Blocks.bayBoundary p).clock = p.clock := by
  unfold Blocks.bayBoundary
  split
  · rfl
  · exact (foldl_leaves Blocks.clock _ _ _ fun q _ _ => by simp).trans (by simp)

@[simp] theorem Blocks.bayBoundary_level (p : Blocks) : (Blocks.bayBoundary p).level = p.level := by
  unfold Blocks.bayBoundary
  split
  · rfl
  · exact (foldl_leaves Blocks.level _ _ _ fun q _ _ => by simp).trans (by simp)

@[simp] theorem Blocks.bayBoundary_params (p : Blocks) : (Blocks.bayBoundary p).params = p.params := by
  unfold Blocks.bayBoundary
  split
  · rfl
  · exact (foldl_leaves Blocks.params _ _ _ fun q _ _ => by simp).trans (by simp)

@[simp] theorem Blocks.bayBoundary_zones (p : Blocks) : (Blocks.bayBoundary p).zones = p.zones := by
  unfold Blocks.bayBoundary
  split
  · rfl
  · exact (foldl_leaves Blocks.zones _ _ _ fun q _ _ => by simp).trans (by simp)

@[simp] theorem Blocks.bayBoundary_book (p : Blocks) : (Blocks.bayBoundary p).book = p.book := by
  unfold Blocks.bayBoundary
  split
  · rfl
  · exact (foldl_leaves Blocks.book _ _ _ fun q _ _ => by simp).trans (by simp)

@[simp] theorem Blocks.bayBoundary_reloc (p : Blocks) : (Blocks.bayBoundary p).reloc = p.reloc := by
  unfold Blocks.bayBoundary
  split
  · rfl
  · exact (foldl_leaves Blocks.reloc _ _ _ fun q _ _ => by simp).trans (by simp)

@[simp] theorem Blocks.bayBoundary_alloc (p : Blocks) : (Blocks.bayBoundary p).alloc = p.alloc := by
  unfold Blocks.bayBoundary
  split
  · rfl
  · exact (foldl_leaves Blocks.alloc _ _ _ fun q _ _ => by simp).trans (by simp)

@[simp] theorem Blocks.bayBoundary_supply (p : Blocks) : (Blocks.bayBoundary p).supply = p.supply := by
  unfold Blocks.bayBoundary
  split
  · rfl
  · exact (foldl_leaves Blocks.supply _ _ _ fun q _ _ => by simp).trans (by simp)

@[simp] theorem Blocks.bayBoundary_notices (p : Blocks) : (Blocks.bayBoundary p).notices = p.notices := by
  unfold Blocks.bayBoundary
  split
  · rfl
  · exact (foldl_leaves Blocks.notices _ _ _ fun q _ _ => by simp).trans (by simp)

/-! ## The supply unit's boundary -/

@[simp] theorem Blocks.supplyBoundary_clock (p : Blocks) : (Blocks.supplyBoundary p).clock = p.clock := by
  unfold Blocks.supplyBoundary
  dsimp only
  (repeat' split) <;> simp

@[simp] theorem Blocks.supplyBoundary_level (p : Blocks) : (Blocks.supplyBoundary p).level = p.level := by
  unfold Blocks.supplyBoundary
  dsimp only
  (repeat' split) <;> simp

@[simp] theorem Blocks.supplyBoundary_params (p : Blocks) : (Blocks.supplyBoundary p).params = p.params := by
  unfold Blocks.supplyBoundary
  dsimp only
  (repeat' split) <;> simp

@[simp] theorem Blocks.supplyBoundary_zones (p : Blocks) : (Blocks.supplyBoundary p).zones = p.zones := by
  unfold Blocks.supplyBoundary
  dsimp only
  (repeat' split) <;> simp

@[simp] theorem Blocks.supplyBoundary_book (p : Blocks) : (Blocks.supplyBoundary p).book = p.book := by
  unfold Blocks.supplyBoundary
  dsimp only
  (repeat' split) <;> simp

@[simp] theorem Blocks.supplyBoundary_reloc (p : Blocks) : (Blocks.supplyBoundary p).reloc = p.reloc := by
  unfold Blocks.supplyBoundary
  dsimp only
  (repeat' split) <;> simp

@[simp] theorem Blocks.supplyBoundary_bays (p : Blocks) : (Blocks.supplyBoundary p).bays = p.bays := by
  unfold Blocks.supplyBoundary
  dsimp only
  (repeat' split) <;> simp

/-! ## The allocator's boundary -/

@[simp] theorem Blocks.allocBoundary_clock (p : Blocks) : (Blocks.allocBoundary p).clock = p.clock := by
  unfold Blocks.allocBoundary
  split <;> simp

@[simp] theorem Blocks.allocBoundary_level (p : Blocks) : (Blocks.allocBoundary p).level = p.level := by
  unfold Blocks.allocBoundary
  split <;> simp

@[simp] theorem Blocks.allocBoundary_params (p : Blocks) : (Blocks.allocBoundary p).params = p.params := by
  unfold Blocks.allocBoundary
  split <;> simp

@[simp] theorem Blocks.allocBoundary_zones (p : Blocks) : (Blocks.allocBoundary p).zones = p.zones := by
  unfold Blocks.allocBoundary
  split <;> simp

@[simp] theorem Blocks.allocBoundary_book (p : Blocks) : (Blocks.allocBoundary p).book = p.book := by
  unfold Blocks.allocBoundary
  split <;> simp

@[simp] theorem Blocks.allocBoundary_reloc (p : Blocks) : (Blocks.allocBoundary p).reloc = p.reloc := by
  unfold Blocks.allocBoundary
  split <;> simp

@[simp] theorem Blocks.allocBoundary_bays (p : Blocks) : (Blocks.allocBoundary p).bays = p.bays := by
  unfold Blocks.allocBoundary
  split <;> simp

@[simp] theorem Blocks.allocBoundary_supply (p : Blocks) : (Blocks.allocBoundary p).supply = p.supply := by
  unfold Blocks.allocBoundary
  split <;> simp

@[simp] theorem Blocks.allocBoundary_notices (p : Blocks) : (Blocks.allocBoundary p).notices = p.notices := by
  unfold Blocks.allocBoundary
  split <;> simp

/-! ## MAINS_OK falls -/

@[simp] theorem Blocks.mainsOkFall_clock (p : Blocks) : (Blocks.mainsOkFall p).clock = p.clock := by
  unfold Blocks.mainsOkFall
  dsimp only
  (repeat' split) <;> simp

@[simp] theorem Blocks.mainsOkFall_boundaries (p : Blocks) : (Blocks.mainsOkFall p).boundaries = p.boundaries := by
  unfold Blocks.mainsOkFall
  dsimp only
  (repeat' split) <;> simp

@[simp] theorem Blocks.mainsOkFall_level (p : Blocks) : (Blocks.mainsOkFall p).level = p.level := by
  unfold Blocks.mainsOkFall
  dsimp only
  (repeat' split) <;> simp

@[simp] theorem Blocks.mainsOkFall_params (p : Blocks) : (Blocks.mainsOkFall p).params = p.params := by
  unfold Blocks.mainsOkFall
  dsimp only
  (repeat' split) <;> simp

@[simp] theorem Blocks.mainsOkFall_zones (p : Blocks) : (Blocks.mainsOkFall p).zones = p.zones := by
  unfold Blocks.mainsOkFall
  dsimp only
  (repeat' split) <;> simp

@[simp] theorem Blocks.mainsOkFall_book (p : Blocks) : (Blocks.mainsOkFall p).book = p.book := by
  unfold Blocks.mainsOkFall
  dsimp only
  (repeat' split) <;> simp

@[simp] theorem Blocks.mainsOkFall_reloc (p : Blocks) : (Blocks.mainsOkFall p).reloc = p.reloc := by
  unfold Blocks.mainsOkFall
  dsimp only
  (repeat' split) <;> simp

@[simp] theorem Blocks.mainsOkFall_bays (p : Blocks) : (Blocks.mainsOkFall p).bays = p.bays := by
  unfold Blocks.mainsOkFall
  dsimp only
  (repeat' split) <;> simp

/-! ## MAINS_OK rises -/

@[simp] theorem Blocks.mainsOkRise_clock (p : Blocks) : (Blocks.mainsOkRise p).clock = p.clock := by
  simp [Blocks.mainsOkRise]

@[simp] theorem Blocks.mainsOkRise_boundaries (p : Blocks) : (Blocks.mainsOkRise p).boundaries = p.boundaries := by
  simp [Blocks.mainsOkRise]

@[simp] theorem Blocks.mainsOkRise_level (p : Blocks) : (Blocks.mainsOkRise p).level = p.level := by
  simp [Blocks.mainsOkRise]

@[simp] theorem Blocks.mainsOkRise_params (p : Blocks) : (Blocks.mainsOkRise p).params = p.params := by
  simp [Blocks.mainsOkRise]

@[simp] theorem Blocks.mainsOkRise_zones (p : Blocks) : (Blocks.mainsOkRise p).zones = p.zones := by
  simp [Blocks.mainsOkRise]

@[simp] theorem Blocks.mainsOkRise_book (p : Blocks) : (Blocks.mainsOkRise p).book = p.book := by
  simp [Blocks.mainsOkRise]

@[simp] theorem Blocks.mainsOkRise_reloc (p : Blocks) : (Blocks.mainsOkRise p).reloc = p.reloc := by
  simp [Blocks.mainsOkRise]

@[simp] theorem Blocks.mainsOkRise_bays (p : Blocks) : (Blocks.mainsOkRise p).bays = p.bays := by
  simp [Blocks.mainsOkRise]

@[simp] theorem Blocks.mainsOkRise_alloc (p : Blocks) : (Blocks.mainsOkRise p).alloc = p.alloc := by
  simp [Blocks.mainsOkRise]

@[simp] theorem Blocks.mainsOkRise_notices (p : Blocks) : (Blocks.mainsOkRise p).notices = p.notices := by
  simp [Blocks.mainsOkRise]

@[simp] theorem Blocks.mainsOkRise_mail (p : Blocks) : (Blocks.mainsOkRise p).mail = p.mail := by
  simp [Blocks.mainsOkRise]

/-! ## DR -/

@[simp] theorem Blocks.drChange_clock (p : Blocks) (x : Bool) : (Blocks.drChange p x).clock = p.clock := by
  simp [Blocks.drChange]

@[simp] theorem Blocks.drChange_boundaries (p : Blocks) (x : Bool) : (Blocks.drChange p x).boundaries = p.boundaries := by
  simp [Blocks.drChange]

@[simp] theorem Blocks.drChange_level (p : Blocks) (x : Bool) : (Blocks.drChange p x).level = p.level := by
  simp [Blocks.drChange]

@[simp] theorem Blocks.drChange_params (p : Blocks) (x : Bool) : (Blocks.drChange p x).params = p.params := by
  simp [Blocks.drChange]

@[simp] theorem Blocks.drChange_zones (p : Blocks) (x : Bool) : (Blocks.drChange p x).zones = p.zones := by
  simp [Blocks.drChange]

/-! ## ALARM -/

@[simp] theorem Blocks.alarmChange_clock (p : Blocks) (x : Bool) : (Blocks.alarmChange p x).clock = p.clock := by
  simp [Blocks.alarmChange]

@[simp] theorem Blocks.alarmChange_boundaries (p : Blocks) (x : Bool) : (Blocks.alarmChange p x).boundaries = p.boundaries := by
  simp [Blocks.alarmChange]

@[simp] theorem Blocks.alarmChange_level (p : Blocks) (x : Bool) : (Blocks.alarmChange p x).level = p.level := by
  simp [Blocks.alarmChange]

@[simp] theorem Blocks.alarmChange_params (p : Blocks) (x : Bool) : (Blocks.alarmChange p x).params = p.params := by
  simp [Blocks.alarmChange]

@[simp] theorem Blocks.alarmChange_zones (p : Blocks) (x : Bool) : (Blocks.alarmChange p x).zones = p.zones := by
  simp [Blocks.alarmChange]

/-! ## A record moved -/

@[simp] theorem Blocks.moveRecord_clock (p : Blocks) (sl : Slot) (r : Record) (b : BayNo) : (Blocks.moveRecord p sl r b).clock = p.clock := by
  unfold Blocks.moveRecord
  dsimp only
  (repeat' split) <;> simp

@[simp] theorem Blocks.moveRecord_boundaries (p : Blocks) (sl : Slot) (r : Record) (b : BayNo) : (Blocks.moveRecord p sl r b).boundaries = p.boundaries := by
  unfold Blocks.moveRecord
  dsimp only
  (repeat' split) <;> simp

@[simp] theorem Blocks.moveRecord_level (p : Blocks) (sl : Slot) (r : Record) (b : BayNo) : (Blocks.moveRecord p sl r b).level = p.level := by
  unfold Blocks.moveRecord
  dsimp only
  (repeat' split) <;> simp

@[simp] theorem Blocks.moveRecord_params (p : Blocks) (sl : Slot) (r : Record) (b : BayNo) : (Blocks.moveRecord p sl r b).params = p.params := by
  unfold Blocks.moveRecord
  dsimp only
  (repeat' split) <;> simp

@[simp] theorem Blocks.moveRecord_bays (p : Blocks) (sl : Slot) (r : Record) (b : BayNo) : (Blocks.moveRecord p sl r b).bays = p.bays := by
  unfold Blocks.moveRecord
  dsimp only
  (repeat' split) <;> simp

@[simp] theorem Blocks.moveRecord_alloc (p : Blocks) (sl : Slot) (r : Record) (b : BayNo) : (Blocks.moveRecord p sl r b).alloc = p.alloc := by
  unfold Blocks.moveRecord
  dsimp only
  (repeat' split) <;> simp

@[simp] theorem Blocks.moveRecord_supply (p : Blocks) (sl : Slot) (r : Record) (b : BayNo) : (Blocks.moveRecord p sl r b).supply = p.supply := by
  unfold Blocks.moveRecord
  dsimp only
  (repeat' split) <;> simp

@[simp] theorem Blocks.moveRecord_notices (p : Blocks) (sl : Slot) (r : Record) (b : BayNo) : (Blocks.moveRecord p sl r b).notices = p.notices := by
  unfold Blocks.moveRecord
  dsimp only
  (repeat' split) <;> simp

/-! ## A record moved or stranded -/

@[simp] theorem Blocks.relocate_clock (p : Blocks) (sl : Slot) (r : Record) : (Blocks.relocate p sl r).clock = p.clock := by
  unfold Blocks.relocate
  split <;> simp

@[simp] theorem Blocks.relocate_boundaries (p : Blocks) (sl : Slot) (r : Record) : (Blocks.relocate p sl r).boundaries = p.boundaries := by
  unfold Blocks.relocate
  split <;> simp

@[simp] theorem Blocks.relocate_level (p : Blocks) (sl : Slot) (r : Record) : (Blocks.relocate p sl r).level = p.level := by
  unfold Blocks.relocate
  split <;> simp

@[simp] theorem Blocks.relocate_params (p : Blocks) (sl : Slot) (r : Record) : (Blocks.relocate p sl r).params = p.params := by
  unfold Blocks.relocate
  split <;> simp

@[simp] theorem Blocks.relocate_bays (p : Blocks) (sl : Slot) (r : Record) : (Blocks.relocate p sl r).bays = p.bays := by
  unfold Blocks.relocate
  split <;> simp

@[simp] theorem Blocks.relocate_alloc (p : Blocks) (sl : Slot) (r : Record) : (Blocks.relocate p sl r).alloc = p.alloc := by
  unfold Blocks.relocate
  split <;> simp

@[simp] theorem Blocks.relocate_supply (p : Blocks) (sl : Slot) (r : Record) : (Blocks.relocate p sl r).supply = p.supply := by
  unfold Blocks.relocate
  split <;> simp

/-! ## A step on a BAY entry -/

@[simp] theorem Blocks.stepBay_clock (p : Blocks) (b : BayNo) : (Blocks.stepBay p b).clock = p.clock := by
  unfold Blocks.stepBay
  (repeat' split) <;> simp

@[simp] theorem Blocks.stepBay_boundaries (p : Blocks) (b : BayNo) : (Blocks.stepBay p b).boundaries = p.boundaries := by
  unfold Blocks.stepBay
  (repeat' split) <;> simp

@[simp] theorem Blocks.stepBay_level (p : Blocks) (b : BayNo) : (Blocks.stepBay p b).level = p.level := by
  unfold Blocks.stepBay
  (repeat' split) <;> simp

@[simp] theorem Blocks.stepBay_params (p : Blocks) (b : BayNo) : (Blocks.stepBay p b).params = p.params := by
  unfold Blocks.stepBay
  (repeat' split) <;> simp

@[simp] theorem Blocks.stepBay_bays (p : Blocks) (b : BayNo) : (Blocks.stepBay p b).bays = p.bays := by
  unfold Blocks.stepBay
  (repeat' split) <;> simp

@[simp] theorem Blocks.stepBay_alloc (p : Blocks) (b : BayNo) : (Blocks.stepBay p b).alloc = p.alloc := by
  unfold Blocks.stepBay
  (repeat' split) <;> simp

@[simp] theorem Blocks.stepBay_supply (p : Blocks) (b : BayNo) : (Blocks.stepBay p b).supply = p.supply := by
  unfold Blocks.stepBay
  (repeat' split) <;> simp

/-! ## A step on a RECORD entry -/

@[simp] theorem Blocks.stepRecord_clock (p : Blocks) (t : Ticket) : (Blocks.stepRecord p t).clock = p.clock := by
  unfold Blocks.stepRecord
  dsimp only
  (repeat' split) <;> simp

@[simp] theorem Blocks.stepRecord_boundaries (p : Blocks) (t : Ticket) : (Blocks.stepRecord p t).boundaries = p.boundaries := by
  unfold Blocks.stepRecord
  dsimp only
  (repeat' split) <;> simp

@[simp] theorem Blocks.stepRecord_level (p : Blocks) (t : Ticket) : (Blocks.stepRecord p t).level = p.level := by
  unfold Blocks.stepRecord
  dsimp only
  (repeat' split) <;> simp

@[simp] theorem Blocks.stepRecord_params (p : Blocks) (t : Ticket) : (Blocks.stepRecord p t).params = p.params := by
  unfold Blocks.stepRecord
  dsimp only
  (repeat' split) <;> simp

@[simp] theorem Blocks.stepRecord_bays (p : Blocks) (t : Ticket) : (Blocks.stepRecord p t).bays = p.bays := by
  unfold Blocks.stepRecord
  dsimp only
  (repeat' split) <;> simp

@[simp] theorem Blocks.stepRecord_alloc (p : Blocks) (t : Ticket) : (Blocks.stepRecord p t).alloc = p.alloc := by
  unfold Blocks.stepRecord
  dsimp only
  (repeat' split) <;> simp

@[simp] theorem Blocks.stepRecord_supply (p : Blocks) (t : Ticket) : (Blocks.stepRecord p t).supply = p.supply := by
  unfold Blocks.stepRecord
  dsimp only
  (repeat' split) <;> simp

/-! ## A session request taken -/

@[simp] theorem Blocks.takeRequest_clock (p : Blocks) (b : BayNo) (x : Nat) : (p.takeRequest b x).clock = p.clock := by
  unfold Blocks.takeRequest Blocks.takeAlloc
  (repeat' split) <;> simp

@[simp] theorem Blocks.takeRequest_boundaries (p : Blocks) (b : BayNo) (x : Nat) : (p.takeRequest b x).boundaries = p.boundaries := by
  unfold Blocks.takeRequest Blocks.takeAlloc
  (repeat' split) <;> simp

@[simp] theorem Blocks.takeRequest_level (p : Blocks) (b : BayNo) (x : Nat) : (p.takeRequest b x).level = p.level := by
  unfold Blocks.takeRequest Blocks.takeAlloc
  (repeat' split) <;> simp

@[simp] theorem Blocks.takeRequest_params (p : Blocks) (b : BayNo) (x : Nat) : (p.takeRequest b x).params = p.params := by
  unfold Blocks.takeRequest Blocks.takeAlloc
  (repeat' split) <;> simp

@[simp] theorem Blocks.takeRequest_zones (p : Blocks) (b : BayNo) (x : Nat) : (p.takeRequest b x).zones = p.zones := by
  unfold Blocks.takeRequest Blocks.takeAlloc
  (repeat' split) <;> simp

@[simp] theorem Blocks.takeRequest_book (p : Blocks) (b : BayNo) (x : Nat) : (p.takeRequest b x).book = p.book := by
  unfold Blocks.takeRequest Blocks.takeAlloc
  (repeat' split) <;> simp

@[simp] theorem Blocks.takeRequest_reloc (p : Blocks) (b : BayNo) (x : Nat) : (p.takeRequest b x).reloc = p.reloc := by
  unfold Blocks.takeRequest Blocks.takeAlloc
  (repeat' split) <;> simp

@[simp] theorem Blocks.takeRequest_bays (p : Blocks) (b : BayNo) (x : Nat) : (p.takeRequest b x).bays = p.bays := by
  unfold Blocks.takeRequest Blocks.takeAlloc
  (repeat' split) <;> simp

@[simp] theorem Blocks.takeRequest_supply (p : Blocks) (b : BayNo) (x : Nat) : (p.takeRequest b x).supply = p.supply := by
  unfold Blocks.takeRequest Blocks.takeAlloc
  (repeat' split) <;> simp

@[simp] theorem Blocks.takeRequest_notices (p : Blocks) (b : BayNo) (x : Nat) : (p.takeRequest b x).notices = p.notices := by
  unfold Blocks.takeRequest Blocks.takeAlloc
  (repeat' split) <;> simp

/-! ## A release taken -/

@[simp] theorem Blocks.takeRelease_clock (p : Blocks) (b : BayNo) : (p.takeRelease b).clock = p.clock := by
  unfold Blocks.takeRelease Blocks.takeAlloc
  (repeat' split) <;> simp

@[simp] theorem Blocks.takeRelease_boundaries (p : Blocks) (b : BayNo) : (p.takeRelease b).boundaries = p.boundaries := by
  unfold Blocks.takeRelease Blocks.takeAlloc
  (repeat' split) <;> simp

@[simp] theorem Blocks.takeRelease_level (p : Blocks) (b : BayNo) : (p.takeRelease b).level = p.level := by
  unfold Blocks.takeRelease Blocks.takeAlloc
  (repeat' split) <;> simp

@[simp] theorem Blocks.takeRelease_params (p : Blocks) (b : BayNo) : (p.takeRelease b).params = p.params := by
  unfold Blocks.takeRelease Blocks.takeAlloc
  (repeat' split) <;> simp

@[simp] theorem Blocks.takeRelease_zones (p : Blocks) (b : BayNo) : (p.takeRelease b).zones = p.zones := by
  unfold Blocks.takeRelease Blocks.takeAlloc
  (repeat' split) <;> simp

@[simp] theorem Blocks.takeRelease_book (p : Blocks) (b : BayNo) : (p.takeRelease b).book = p.book := by
  unfold Blocks.takeRelease Blocks.takeAlloc
  (repeat' split) <;> simp

@[simp] theorem Blocks.takeRelease_reloc (p : Blocks) (b : BayNo) : (p.takeRelease b).reloc = p.reloc := by
  unfold Blocks.takeRelease Blocks.takeAlloc
  (repeat' split) <;> simp

@[simp] theorem Blocks.takeRelease_bays (p : Blocks) (b : BayNo) : (p.takeRelease b).bays = p.bays := by
  unfold Blocks.takeRelease Blocks.takeAlloc
  (repeat' split) <;> simp

@[simp] theorem Blocks.takeRelease_supply (p : Blocks) (b : BayNo) : (p.takeRelease b).supply = p.supply := by
  unfold Blocks.takeRelease Blocks.takeAlloc
  (repeat' split) <;> simp

@[simp] theorem Blocks.takeRelease_notices (p : Blocks) (b : BayNo) : (p.takeRelease b).notices = p.notices := by
  unfold Blocks.takeRelease Blocks.takeAlloc
  (repeat' split) <;> simp

/-! ## HOLD taken -/

@[simp] theorem Blocks.takeHold_clock (p : Blocks) (b : BayNo) : (p.takeHold b).clock = p.clock := by
  unfold Blocks.takeHold Blocks.takeBay
  (repeat' split) <;> simp

@[simp] theorem Blocks.takeHold_boundaries (p : Blocks) (b : BayNo) : (p.takeHold b).boundaries = p.boundaries := by
  unfold Blocks.takeHold Blocks.takeBay
  (repeat' split) <;> simp

@[simp] theorem Blocks.takeHold_level (p : Blocks) (b : BayNo) : (p.takeHold b).level = p.level := by
  unfold Blocks.takeHold Blocks.takeBay
  (repeat' split) <;> simp

@[simp] theorem Blocks.takeHold_params (p : Blocks) (b : BayNo) : (p.takeHold b).params = p.params := by
  unfold Blocks.takeHold Blocks.takeBay
  (repeat' split) <;> simp

@[simp] theorem Blocks.takeHold_zones (p : Blocks) (b : BayNo) : (p.takeHold b).zones = p.zones := by
  unfold Blocks.takeHold Blocks.takeBay
  (repeat' split) <;> simp

@[simp] theorem Blocks.takeHold_book (p : Blocks) (b : BayNo) : (p.takeHold b).book = p.book := by
  unfold Blocks.takeHold Blocks.takeBay
  (repeat' split) <;> simp

@[simp] theorem Blocks.takeHold_reloc (p : Blocks) (b : BayNo) : (p.takeHold b).reloc = p.reloc := by
  unfold Blocks.takeHold Blocks.takeBay
  (repeat' split) <;> simp

@[simp] theorem Blocks.takeHold_alloc (p : Blocks) (b : BayNo) : (p.takeHold b).alloc = p.alloc := by
  unfold Blocks.takeHold Blocks.takeBay
  (repeat' split) <;> simp

@[simp] theorem Blocks.takeHold_supply (p : Blocks) (b : BayNo) : (p.takeHold b).supply = p.supply := by
  unfold Blocks.takeHold Blocks.takeBay
  (repeat' split) <;> simp

@[simp] theorem Blocks.takeHold_notices (p : Blocks) (b : BayNo) : (p.takeHold b).notices = p.notices := by
  unfold Blocks.takeHold Blocks.takeBay
  (repeat' split) <;> simp

/-! ## UNHOLD taken -/

@[simp] theorem Blocks.takeUnhold_clock (p : Blocks) (b : BayNo) : (p.takeUnhold b).clock = p.clock := by
  unfold Blocks.takeUnhold Blocks.takeBay
  (repeat' split) <;> simp

@[simp] theorem Blocks.takeUnhold_boundaries (p : Blocks) (b : BayNo) : (p.takeUnhold b).boundaries = p.boundaries := by
  unfold Blocks.takeUnhold Blocks.takeBay
  (repeat' split) <;> simp

@[simp] theorem Blocks.takeUnhold_level (p : Blocks) (b : BayNo) : (p.takeUnhold b).level = p.level := by
  unfold Blocks.takeUnhold Blocks.takeBay
  (repeat' split) <;> simp

@[simp] theorem Blocks.takeUnhold_params (p : Blocks) (b : BayNo) : (p.takeUnhold b).params = p.params := by
  unfold Blocks.takeUnhold Blocks.takeBay
  (repeat' split) <;> simp

@[simp] theorem Blocks.takeUnhold_zones (p : Blocks) (b : BayNo) : (p.takeUnhold b).zones = p.zones := by
  unfold Blocks.takeUnhold Blocks.takeBay
  (repeat' split) <;> simp

@[simp] theorem Blocks.takeUnhold_book (p : Blocks) (b : BayNo) : (p.takeUnhold b).book = p.book := by
  unfold Blocks.takeUnhold Blocks.takeBay
  (repeat' split) <;> simp

@[simp] theorem Blocks.takeUnhold_reloc (p : Blocks) (b : BayNo) : (p.takeUnhold b).reloc = p.reloc := by
  unfold Blocks.takeUnhold Blocks.takeBay
  (repeat' split) <;> simp

@[simp] theorem Blocks.takeUnhold_alloc (p : Blocks) (b : BayNo) : (p.takeUnhold b).alloc = p.alloc := by
  unfold Blocks.takeUnhold Blocks.takeBay
  (repeat' split) <;> simp

@[simp] theorem Blocks.takeUnhold_supply (p : Blocks) (b : BayNo) : (p.takeUnhold b).supply = p.supply := by
  unfold Blocks.takeUnhold Blocks.takeBay
  (repeat' split) <;> simp

@[simp] theorem Blocks.takeUnhold_notices (p : Blocks) (b : BayNo) : (p.takeUnhold b).notices = p.notices := by
  unfold Blocks.takeUnhold Blocks.takeBay
  (repeat' split) <;> simp

/-! ## END taken -/

@[simp] theorem Blocks.takeEnd_clock (p : Blocks) (b : BayNo) : (p.takeEnd b).clock = p.clock := by
  unfold Blocks.takeEnd Blocks.takeBay
  (repeat' split) <;> simp

@[simp] theorem Blocks.takeEnd_boundaries (p : Blocks) (b : BayNo) : (p.takeEnd b).boundaries = p.boundaries := by
  unfold Blocks.takeEnd Blocks.takeBay
  (repeat' split) <;> simp

@[simp] theorem Blocks.takeEnd_level (p : Blocks) (b : BayNo) : (p.takeEnd b).level = p.level := by
  unfold Blocks.takeEnd Blocks.takeBay
  (repeat' split) <;> simp

@[simp] theorem Blocks.takeEnd_params (p : Blocks) (b : BayNo) : (p.takeEnd b).params = p.params := by
  unfold Blocks.takeEnd Blocks.takeBay
  (repeat' split) <;> simp

@[simp] theorem Blocks.takeEnd_zones (p : Blocks) (b : BayNo) : (p.takeEnd b).zones = p.zones := by
  unfold Blocks.takeEnd Blocks.takeBay
  (repeat' split) <;> simp

@[simp] theorem Blocks.takeEnd_book (p : Blocks) (b : BayNo) : (p.takeEnd b).book = p.book := by
  unfold Blocks.takeEnd Blocks.takeBay
  (repeat' split) <;> simp

@[simp] theorem Blocks.takeEnd_reloc (p : Blocks) (b : BayNo) : (p.takeEnd b).reloc = p.reloc := by
  unfold Blocks.takeEnd Blocks.takeBay
  (repeat' split) <;> simp

@[simp] theorem Blocks.takeEnd_alloc (p : Blocks) (b : BayNo) : (p.takeEnd b).alloc = p.alloc := by
  unfold Blocks.takeEnd Blocks.takeBay
  (repeat' split) <;> simp

@[simp] theorem Blocks.takeEnd_supply (p : Blocks) (b : BayNo) : (p.takeEnd b).supply = p.supply := by
  unfold Blocks.takeEnd Blocks.takeBay
  (repeat' split) <;> simp

@[simp] theorem Blocks.takeEnd_notices (p : Blocks) (b : BayNo) : (p.takeEnd b).notices = p.notices := by
  unfold Blocks.takeEnd Blocks.takeBay
  (repeat' split) <;> simp

/-! ## A removal taken -/

@[simp] theorem Blocks.takeRemoval_clock (p : Blocks) (t : Ticket) : (p.takeRemoval t).clock = p.clock := by
  unfold Blocks.takeRemoval 
  (repeat' split) <;> simp

@[simp] theorem Blocks.takeRemoval_boundaries (p : Blocks) (t : Ticket) : (p.takeRemoval t).boundaries = p.boundaries := by
  unfold Blocks.takeRemoval 
  (repeat' split) <;> simp

@[simp] theorem Blocks.takeRemoval_level (p : Blocks) (t : Ticket) : (p.takeRemoval t).level = p.level := by
  unfold Blocks.takeRemoval 
  (repeat' split) <;> simp

@[simp] theorem Blocks.takeRemoval_params (p : Blocks) (t : Ticket) : (p.takeRemoval t).params = p.params := by
  unfold Blocks.takeRemoval 
  (repeat' split) <;> simp

@[simp] theorem Blocks.takeRemoval_zones (p : Blocks) (t : Ticket) : (p.takeRemoval t).zones = p.zones := by
  unfold Blocks.takeRemoval 
  (repeat' split) <;> simp

@[simp] theorem Blocks.takeRemoval_book (p : Blocks) (t : Ticket) : (p.takeRemoval t).book = p.book := by
  unfold Blocks.takeRemoval 
  (repeat' split) <;> simp

@[simp] theorem Blocks.takeRemoval_bays (p : Blocks) (t : Ticket) : (p.takeRemoval t).bays = p.bays := by
  unfold Blocks.takeRemoval 
  (repeat' split) <;> simp

@[simp] theorem Blocks.takeRemoval_alloc (p : Blocks) (t : Ticket) : (p.takeRemoval t).alloc = p.alloc := by
  unfold Blocks.takeRemoval 
  (repeat' split) <;> simp

@[simp] theorem Blocks.takeRemoval_supply (p : Blocks) (t : Ticket) : (p.takeRemoval t).supply = p.supply := by
  unfold Blocks.takeRemoval 
  (repeat' split) <;> simp

@[simp] theorem Blocks.takeRemoval_notices (p : Blocks) (t : Ticket) : (p.takeRemoval t).notices = p.notices := by
  unfold Blocks.takeRemoval 
  (repeat' split) <;> simp

/-! ## A raise taken -/

@[simp] theorem Blocks.takeRaise_clock (p : Blocks) (y : Sender) (x : Raise) : (p.takeRaise y x).clock = p.clock := by
  unfold Blocks.takeRaise 
  (repeat' split) <;> simp

@[simp] theorem Blocks.takeRaise_boundaries (p : Blocks) (y : Sender) (x : Raise) : (p.takeRaise y x).boundaries = p.boundaries := by
  unfold Blocks.takeRaise 
  (repeat' split) <;> simp

@[simp] theorem Blocks.takeRaise_level (p : Blocks) (y : Sender) (x : Raise) : (p.takeRaise y x).level = p.level := by
  unfold Blocks.takeRaise 
  (repeat' split) <;> simp

@[simp] theorem Blocks.takeRaise_params (p : Blocks) (y : Sender) (x : Raise) : (p.takeRaise y x).params = p.params := by
  unfold Blocks.takeRaise 
  (repeat' split) <;> simp

@[simp] theorem Blocks.takeRaise_zones (p : Blocks) (y : Sender) (x : Raise) : (p.takeRaise y x).zones = p.zones := by
  unfold Blocks.takeRaise 
  (repeat' split) <;> simp

@[simp] theorem Blocks.takeRaise_book (p : Blocks) (y : Sender) (x : Raise) : (p.takeRaise y x).book = p.book := by
  unfold Blocks.takeRaise 
  (repeat' split) <;> simp

@[simp] theorem Blocks.takeRaise_reloc (p : Blocks) (y : Sender) (x : Raise) : (p.takeRaise y x).reloc = p.reloc := by
  unfold Blocks.takeRaise 
  (repeat' split) <;> simp

@[simp] theorem Blocks.takeRaise_bays (p : Blocks) (y : Sender) (x : Raise) : (p.takeRaise y x).bays = p.bays := by
  unfold Blocks.takeRaise 
  (repeat' split) <;> simp

@[simp] theorem Blocks.takeRaise_alloc (p : Blocks) (y : Sender) (x : Raise) : (p.takeRaise y x).alloc = p.alloc := by
  unfold Blocks.takeRaise 
  (repeat' split) <;> simp

@[simp] theorem Blocks.takeRaise_supply (p : Blocks) (y : Sender) (x : Raise) : (p.takeRaise y x).supply = p.supply := by
  unfold Blocks.takeRaise 
  (repeat' split) <;> simp

/-! ## A zone fault offered -/

@[simp] theorem Blocks.offerFault_clock (p : Blocks) (x : Capture) : (p.offerFault x).clock = p.clock := by
  unfold Blocks.offerFault
  (repeat' split) <;> simp

@[simp] theorem Blocks.offerFault_boundaries (p : Blocks) (x : Capture) : (p.offerFault x).boundaries = p.boundaries := by
  unfold Blocks.offerFault
  (repeat' split) <;> simp

@[simp] theorem Blocks.offerFault_level (p : Blocks) (x : Capture) : (p.offerFault x).level = p.level := by
  unfold Blocks.offerFault
  (repeat' split) <;> simp

@[simp] theorem Blocks.offerFault_params (p : Blocks) (x : Capture) : (p.offerFault x).params = p.params := by
  unfold Blocks.offerFault
  (repeat' split) <;> simp

@[simp] theorem Blocks.offerFault_book (p : Blocks) (x : Capture) : (p.offerFault x).book = p.book := by
  unfold Blocks.offerFault
  (repeat' split) <;> simp

@[simp] theorem Blocks.offerFault_reloc (p : Blocks) (x : Capture) : (p.offerFault x).reloc = p.reloc := by
  unfold Blocks.offerFault
  (repeat' split) <;> simp

@[simp] theorem Blocks.offerFault_bays (p : Blocks) (x : Capture) : (p.offerFault x).bays = p.bays := by
  unfold Blocks.offerFault
  (repeat' split) <;> simp

@[simp] theorem Blocks.offerFault_alloc (p : Blocks) (x : Capture) : (p.offerFault x).alloc = p.alloc := by
  unfold Blocks.offerFault
  (repeat' split) <;> simp

@[simp] theorem Blocks.offerFault_supply (p : Blocks) (x : Capture) : (p.offerFault x).supply = p.supply := by
  unfold Blocks.offerFault
  (repeat' split) <;> simp

@[simp] theorem Blocks.offerFault_notices (p : Blocks) (x : Capture) : (p.offerFault x).notices = p.notices := by
  unfold Blocks.offerFault
  (repeat' split) <;> simp

/-! ## A window lengthened -/

@[simp] theorem Blocks.extend_clock (p : Blocks) (sl : Slot) (r : Record) (n : Nat) : (p.extend sl r n).clock = p.clock := by
  rfl

@[simp] theorem Blocks.extend_boundaries (p : Blocks) (sl : Slot) (r : Record) (n : Nat) : (p.extend sl r n).boundaries = p.boundaries := by
  rfl

@[simp] theorem Blocks.extend_level (p : Blocks) (sl : Slot) (r : Record) (n : Nat) : (p.extend sl r n).level = p.level := by
  rfl

@[simp] theorem Blocks.extend_params (p : Blocks) (sl : Slot) (r : Record) (n : Nat) : (p.extend sl r n).params = p.params := by
  rfl

@[simp] theorem Blocks.extend_zones (p : Blocks) (sl : Slot) (r : Record) (n : Nat) : (p.extend sl r n).zones = p.zones := by
  rfl

@[simp] theorem Blocks.extend_reloc (p : Blocks) (sl : Slot) (r : Record) (n : Nat) : (p.extend sl r n).reloc = p.reloc := by
  rfl

@[simp] theorem Blocks.extend_bays (p : Blocks) (sl : Slot) (r : Record) (n : Nat) : (p.extend sl r n).bays = p.bays := by
  rfl

@[simp] theorem Blocks.extend_alloc (p : Blocks) (sl : Slot) (r : Record) (n : Nat) : (p.extend sl r n).alloc = p.alloc := by
  rfl

@[simp] theorem Blocks.extend_supply (p : Blocks) (sl : Slot) (r : Record) (n : Nat) : (p.extend sl r n).supply = p.supply := by
  rfl

@[simp] theorem Blocks.extend_notices (p : Blocks) (sl : Slot) (r : Record) (n : Nat) : (p.extend sl r n).notices = p.notices := by
  rfl

@[simp] theorem Blocks.extend_mail (p : Blocks) (sl : Slot) (r : Record) (n : Nat) : (p.extend sl r n).mail = p.mail := by
  rfl

/-! ## A record claimed -/

@[simp] theorem Blocks.claim_clock (p : Blocks) (sl : Slot) (r : Record) : (p.claim sl r).clock = p.clock := by
  unfold Blocks.claim
  dsimp only
  split <;> rfl

@[simp] theorem Blocks.claim_boundaries (p : Blocks) (sl : Slot) (r : Record) : (p.claim sl r).boundaries = p.boundaries := by
  unfold Blocks.claim
  dsimp only
  split <;> rfl

@[simp] theorem Blocks.claim_level (p : Blocks) (sl : Slot) (r : Record) : (p.claim sl r).level = p.level := by
  unfold Blocks.claim
  dsimp only
  split <;> rfl

@[simp] theorem Blocks.claim_params (p : Blocks) (sl : Slot) (r : Record) : (p.claim sl r).params = p.params := by
  unfold Blocks.claim
  dsimp only
  split <;> rfl

@[simp] theorem Blocks.claim_zones (p : Blocks) (sl : Slot) (r : Record) : (p.claim sl r).zones = p.zones := by
  unfold Blocks.claim
  dsimp only
  split <;> rfl

@[simp] theorem Blocks.claim_alloc (p : Blocks) (sl : Slot) (r : Record) : (p.claim sl r).alloc = p.alloc := by
  unfold Blocks.claim
  dsimp only
  split <;> rfl

@[simp] theorem Blocks.claim_supply (p : Blocks) (sl : Slot) (r : Record) : (p.claim sl r).supply = p.supply := by
  unfold Blocks.claim
  dsimp only
  split <;> rfl

@[simp] theorem Blocks.claim_notices (p : Blocks) (sl : Slot) (r : Record) : (p.claim sl r).notices = p.notices := by
  unfold Blocks.claim
  dsimp only
  split <;> rfl

/-! ## A record collected -/

@[simp] theorem Blocks.collect_clock (p : Blocks) (sl : Slot) : (p.collect sl).clock = p.clock := by
  rfl

@[simp] theorem Blocks.collect_boundaries (p : Blocks) (sl : Slot) : (p.collect sl).boundaries = p.boundaries := by
  rfl

@[simp] theorem Blocks.collect_level (p : Blocks) (sl : Slot) : (p.collect sl).level = p.level := by
  rfl

@[simp] theorem Blocks.collect_params (p : Blocks) (sl : Slot) : (p.collect sl).params = p.params := by
  rfl

@[simp] theorem Blocks.collect_zones (p : Blocks) (sl : Slot) : (p.collect sl).zones = p.zones := by
  rfl

@[simp] theorem Blocks.collect_reloc (p : Blocks) (sl : Slot) : (p.collect sl).reloc = p.reloc := by
  rfl

@[simp] theorem Blocks.collect_bays (p : Blocks) (sl : Slot) : (p.collect sl).bays = p.bays := by
  rfl

@[simp] theorem Blocks.collect_alloc (p : Blocks) (sl : Slot) : (p.collect sl).alloc = p.alloc := by
  rfl

@[simp] theorem Blocks.collect_supply (p : Blocks) (sl : Slot) : (p.collect sl).supply = p.supply := by
  rfl

@[simp] theorem Blocks.collect_mail (p : Blocks) (sl : Slot) : (p.collect sl).mail = p.mail := by
  rfl

/-! ## A bay configured -/

@[simp] theorem Blocks.configure_clock (p : Blocks) (b : BayNo) (x : BayConfig) : (p.configure b x).clock = p.clock := by
  simp [Blocks.configure]

@[simp] theorem Blocks.configure_boundaries (p : Blocks) (b : BayNo) (x : BayConfig) : (p.configure b x).boundaries = p.boundaries := by
  simp [Blocks.configure]

@[simp] theorem Blocks.configure_level (p : Blocks) (b : BayNo) (x : BayConfig) : (p.configure b x).level = p.level := by
  simp [Blocks.configure]

@[simp] theorem Blocks.configure_params (p : Blocks) (b : BayNo) (x : BayConfig) : (p.configure b x).params = p.params := by
  simp [Blocks.configure]

@[simp] theorem Blocks.configure_zones (p : Blocks) (b : BayNo) (x : BayConfig) : (p.configure b x).zones = p.zones := by
  simp [Blocks.configure]

/-! ## A bay enabled -/

@[simp] theorem Blocks.enable_clock (p : Blocks) (b : BayNo) : (p.enable b).clock = p.clock := by
  rfl

@[simp] theorem Blocks.enable_boundaries (p : Blocks) (b : BayNo) : (p.enable b).boundaries = p.boundaries := by
  rfl

@[simp] theorem Blocks.enable_level (p : Blocks) (b : BayNo) : (p.enable b).level = p.level := by
  rfl

@[simp] theorem Blocks.enable_params (p : Blocks) (b : BayNo) : (p.enable b).params = p.params := by
  rfl

@[simp] theorem Blocks.enable_zones (p : Blocks) (b : BayNo) : (p.enable b).zones = p.zones := by
  rfl

@[simp] theorem Blocks.enable_book (p : Blocks) (b : BayNo) : (p.enable b).book = p.book := by
  rfl

@[simp] theorem Blocks.enable_reloc (p : Blocks) (b : BayNo) : (p.enable b).reloc = p.reloc := by
  rfl

@[simp] theorem Blocks.enable_alloc (p : Blocks) (b : BayNo) : (p.enable b).alloc = p.alloc := by
  rfl

@[simp] theorem Blocks.enable_supply (p : Blocks) (b : BayNo) : (p.enable b).supply = p.supply := by
  rfl

@[simp] theorem Blocks.enable_notices (p : Blocks) (b : BayNo) : (p.enable b).notices = p.notices := by
  rfl

@[simp] theorem Blocks.enable_mail (p : Blocks) (b : BayNo) : (p.enable b).mail = p.mail := by
  rfl

/-! ## A bay disabled -/

@[simp] theorem Blocks.disable_clock (p : Blocks) (b : BayNo) : (p.disable b).clock = p.clock := by
  unfold Blocks.disable
  dsimp only
  split <;> simp

@[simp] theorem Blocks.disable_boundaries (p : Blocks) (b : BayNo) : (p.disable b).boundaries = p.boundaries := by
  unfold Blocks.disable
  dsimp only
  split <;> simp

@[simp] theorem Blocks.disable_level (p : Blocks) (b : BayNo) : (p.disable b).level = p.level := by
  unfold Blocks.disable
  dsimp only
  split <;> simp

@[simp] theorem Blocks.disable_params (p : Blocks) (b : BayNo) : (p.disable b).params = p.params := by
  unfold Blocks.disable
  dsimp only
  split <;> simp

@[simp] theorem Blocks.disable_zones (p : Blocks) (b : BayNo) : (p.disable b).zones = p.zones := by
  unfold Blocks.disable
  dsimp only
  split <;> simp

@[simp] theorem Blocks.disable_alloc (p : Blocks) (b : BayNo) : (p.disable b).alloc = p.alloc := by
  unfold Blocks.disable
  dsimp only
  split <;> simp

@[simp] theorem Blocks.disable_supply (p : Blocks) (b : BayNo) : (p.disable b).supply = p.supply := by
  unfold Blocks.disable
  dsimp only
  split <;> simp

/-! ## A fault cleared -/

@[simp] theorem Blocks.clearFault_clock (p : Blocks) (b : BayNo) : (p.clearFault b).clock = p.clock := by
  rfl

@[simp] theorem Blocks.clearFault_boundaries (p : Blocks) (b : BayNo) : (p.clearFault b).boundaries = p.boundaries := by
  rfl

@[simp] theorem Blocks.clearFault_level (p : Blocks) (b : BayNo) : (p.clearFault b).level = p.level := by
  rfl

@[simp] theorem Blocks.clearFault_params (p : Blocks) (b : BayNo) : (p.clearFault b).params = p.params := by
  rfl

@[simp] theorem Blocks.clearFault_zones (p : Blocks) (b : BayNo) : (p.clearFault b).zones = p.zones := by
  rfl

@[simp] theorem Blocks.clearFault_book (p : Blocks) (b : BayNo) : (p.clearFault b).book = p.book := by
  rfl

@[simp] theorem Blocks.clearFault_reloc (p : Blocks) (b : BayNo) : (p.clearFault b).reloc = p.reloc := by
  rfl

@[simp] theorem Blocks.clearFault_alloc (p : Blocks) (b : BayNo) : (p.clearFault b).alloc = p.alloc := by
  rfl

@[simp] theorem Blocks.clearFault_supply (p : Blocks) (b : BayNo) : (p.clearFault b).supply = p.supply := by
  rfl

@[simp] theorem Blocks.clearFault_notices (p : Blocks) (b : BayNo) : (p.clearFault b).notices = p.notices := by
  rfl

@[simp] theorem Blocks.clearFault_mail (p : Blocks) (b : BayNo) : (p.clearFault b).mail = p.mail := by
  rfl

/-! ## A budget staged -/

@[simp] theorem Blocks.stageBudget_clock (p : Blocks) (f : FeederNo) (n : Nat) : (p.stageBudget f n).clock = p.clock := by
  rfl

@[simp] theorem Blocks.stageBudget_boundaries (p : Blocks) (f : FeederNo) (n : Nat) : (p.stageBudget f n).boundaries = p.boundaries := by
  rfl

@[simp] theorem Blocks.stageBudget_level (p : Blocks) (f : FeederNo) (n : Nat) : (p.stageBudget f n).level = p.level := by
  rfl

@[simp] theorem Blocks.stageBudget_params (p : Blocks) (f : FeederNo) (n : Nat) : (p.stageBudget f n).params = p.params := by
  rfl

@[simp] theorem Blocks.stageBudget_zones (p : Blocks) (f : FeederNo) (n : Nat) : (p.stageBudget f n).zones = p.zones := by
  rfl

@[simp] theorem Blocks.stageBudget_book (p : Blocks) (f : FeederNo) (n : Nat) : (p.stageBudget f n).book = p.book := by
  rfl

@[simp] theorem Blocks.stageBudget_reloc (p : Blocks) (f : FeederNo) (n : Nat) : (p.stageBudget f n).reloc = p.reloc := by
  rfl

@[simp] theorem Blocks.stageBudget_bays (p : Blocks) (f : FeederNo) (n : Nat) : (p.stageBudget f n).bays = p.bays := by
  rfl

@[simp] theorem Blocks.stageBudget_supply (p : Blocks) (f : FeederNo) (n : Nat) : (p.stageBudget f n).supply = p.supply := by
  rfl

@[simp] theorem Blocks.stageBudget_notices (p : Blocks) (f : FeederNo) (n : Nat) : (p.stageBudget f n).notices = p.notices := by
  rfl

@[simp] theorem Blocks.stageBudget_mail (p : Blocks) (f : FeederNo) (n : Nat) : (p.stageBudget f n).mail = p.mail := by
  rfl

/-! ## A reserve ceiling written -/

@[simp] theorem Blocks.setReserve_clock (p : Blocks) (f : FeederNo) (n : Nat) : (p.setReserve f n).clock = p.clock := by
  simp [Blocks.setReserve]

@[simp] theorem Blocks.setReserve_boundaries (p : Blocks) (f : FeederNo) (n : Nat) : (p.setReserve f n).boundaries = p.boundaries := by
  simp [Blocks.setReserve]

@[simp] theorem Blocks.setReserve_level (p : Blocks) (f : FeederNo) (n : Nat) : (p.setReserve f n).level = p.level := by
  simp [Blocks.setReserve]

@[simp] theorem Blocks.setReserve_params (p : Blocks) (f : FeederNo) (n : Nat) : (p.setReserve f n).params = p.params := by
  simp [Blocks.setReserve]

@[simp] theorem Blocks.setReserve_zones (p : Blocks) (f : FeederNo) (n : Nat) : (p.setReserve f n).zones = p.zones := by
  simp [Blocks.setReserve]

@[simp] theorem Blocks.setReserve_book (p : Blocks) (f : FeederNo) (n : Nat) : (p.setReserve f n).book = p.book := by
  simp [Blocks.setReserve]

@[simp] theorem Blocks.setReserve_reloc (p : Blocks) (f : FeederNo) (n : Nat) : (p.setReserve f n).reloc = p.reloc := by
  simp [Blocks.setReserve]

@[simp] theorem Blocks.setReserve_bays (p : Blocks) (f : FeederNo) (n : Nat) : (p.setReserve f n).bays = p.bays := by
  simp [Blocks.setReserve]

@[simp] theorem Blocks.setReserve_supply (p : Blocks) (f : FeederNo) (n : Nat) : (p.setReserve f n).supply = p.supply := by
  simp [Blocks.setReserve]

@[simp] theorem Blocks.setReserve_notices (p : Blocks) (f : FeederNo) (n : Nat) : (p.setReserve f n).notices = p.notices := by
  simp [Blocks.setReserve]

/-! ## A site level written -/

@[simp] theorem Blocks.setGroupLevel_clock (p : Blocks) (g : GroupNo) (x : GroupLevel) : (p.setGroupLevel g x).clock = p.clock := by
  simp [Blocks.setGroupLevel]

@[simp] theorem Blocks.setGroupLevel_boundaries (p : Blocks) (g : GroupNo) (x : GroupLevel) : (p.setGroupLevel g x).boundaries = p.boundaries := by
  simp [Blocks.setGroupLevel]

@[simp] theorem Blocks.setGroupLevel_level (p : Blocks) (g : GroupNo) (x : GroupLevel) : (p.setGroupLevel g x).level = p.level := by
  simp [Blocks.setGroupLevel]

@[simp] theorem Blocks.setGroupLevel_params (p : Blocks) (g : GroupNo) (x : GroupLevel) : (p.setGroupLevel g x).params = p.params := by
  simp [Blocks.setGroupLevel]

@[simp] theorem Blocks.setGroupLevel_zones (p : Blocks) (g : GroupNo) (x : GroupLevel) : (p.setGroupLevel g x).zones = p.zones := by
  simp [Blocks.setGroupLevel]

/-! ## A target written -/

@[simp] theorem Blocks.selectSupply_clock (p : Blocks) (x : Target) : (p.selectSupply x).clock = p.clock := by
  simp [Blocks.selectSupply]

@[simp] theorem Blocks.selectSupply_boundaries (p : Blocks) (x : Target) : (p.selectSupply x).boundaries = p.boundaries := by
  simp [Blocks.selectSupply]

@[simp] theorem Blocks.selectSupply_level (p : Blocks) (x : Target) : (p.selectSupply x).level = p.level := by
  simp [Blocks.selectSupply]

@[simp] theorem Blocks.selectSupply_params (p : Blocks) (x : Target) : (p.selectSupply x).params = p.params := by
  simp [Blocks.selectSupply]

@[simp] theorem Blocks.selectSupply_zones (p : Blocks) (x : Target) : (p.selectSupply x).zones = p.zones := by
  simp [Blocks.selectSupply]

@[simp] theorem Blocks.selectSupply_book (p : Blocks) (x : Target) : (p.selectSupply x).book = p.book := by
  simp [Blocks.selectSupply]

@[simp] theorem Blocks.selectSupply_reloc (p : Blocks) (x : Target) : (p.selectSupply x).reloc = p.reloc := by
  simp [Blocks.selectSupply]

@[simp] theorem Blocks.selectSupply_bays (p : Blocks) (x : Target) : (p.selectSupply x).bays = p.bays := by
  simp [Blocks.selectSupply]

@[simp] theorem Blocks.selectSupply_alloc (p : Blocks) (x : Target) : (p.selectSupply x).alloc = p.alloc := by
  simp [Blocks.selectSupply]

@[simp] theorem Blocks.selectSupply_notices (p : Blocks) (x : Target) : (p.selectSupply x).notices = p.notices := by
  simp [Blocks.selectSupply]

@[simp] theorem Blocks.selectSupply_mail (p : Blocks) (x : Target) : (p.selectSupply x).mail = p.mail := by
  simp [Blocks.selectSupply]

/-! ## The target applied -/

@[simp] theorem Blocks.switchSupply_clock (p : Blocks) : (p.switchSupply).clock = p.clock := by
  simp [Blocks.switchSupply]

@[simp] theorem Blocks.switchSupply_boundaries (p : Blocks) : (p.switchSupply).boundaries = p.boundaries := by
  simp [Blocks.switchSupply]

@[simp] theorem Blocks.switchSupply_level (p : Blocks) : (p.switchSupply).level = p.level := by
  simp [Blocks.switchSupply]

@[simp] theorem Blocks.switchSupply_params (p : Blocks) : (p.switchSupply).params = p.params := by
  simp [Blocks.switchSupply]

@[simp] theorem Blocks.switchSupply_zones (p : Blocks) : (p.switchSupply).zones = p.zones := by
  simp [Blocks.switchSupply]

@[simp] theorem Blocks.switchSupply_book (p : Blocks) : (p.switchSupply).book = p.book := by
  simp [Blocks.switchSupply]

@[simp] theorem Blocks.switchSupply_reloc (p : Blocks) : (p.switchSupply).reloc = p.reloc := by
  simp [Blocks.switchSupply]

@[simp] theorem Blocks.switchSupply_bays (p : Blocks) : (p.switchSupply).bays = p.bays := by
  simp [Blocks.switchSupply]

/-! ## The clock set -/

@[simp] theorem Blocks.setClock_boundaries (p : Blocks) (m : Nat) : (p.setClock m).boundaries = p.boundaries := by
  rfl

@[simp] theorem Blocks.setClock_level (p : Blocks) (m : Nat) : (p.setClock m).level = p.level := by
  rfl

@[simp] theorem Blocks.setClock_params (p : Blocks) (m : Nat) : (p.setClock m).params = p.params := by
  rfl

@[simp] theorem Blocks.setClock_zones (p : Blocks) (m : Nat) : (p.setClock m).zones = p.zones := by
  rfl

@[simp] theorem Blocks.setClock_book (p : Blocks) (m : Nat) : (p.setClock m).book = p.book := by
  rfl

@[simp] theorem Blocks.setClock_reloc (p : Blocks) (m : Nat) : (p.setClock m).reloc = p.reloc := by
  rfl

@[simp] theorem Blocks.setClock_bays (p : Blocks) (m : Nat) : (p.setClock m).bays = p.bays := by
  rfl

@[simp] theorem Blocks.setClock_alloc (p : Blocks) (m : Nat) : (p.setClock m).alloc = p.alloc := by
  rfl

@[simp] theorem Blocks.setClock_supply (p : Blocks) (m : Nat) : (p.setClock m).supply = p.supply := by
  rfl

@[simp] theorem Blocks.setClock_notices (p : Blocks) (m : Nat) : (p.setClock m).notices = p.notices := by
  rfl

@[simp] theorem Blocks.setClock_mail (p : Blocks) (m : Nat) : (p.setClock m).mail = p.mail := by
  rfl

/-! ## The parameters set -/

@[simp] theorem Blocks.setParams_clock (p : Blocks) (x : Params) : (p.setParams x).clock = p.clock := by
  rfl

@[simp] theorem Blocks.setParams_boundaries (p : Blocks) (x : Params) : (p.setParams x).boundaries = p.boundaries := by
  rfl

@[simp] theorem Blocks.setParams_level (p : Blocks) (x : Params) : (p.setParams x).level = p.level := by
  rfl

@[simp] theorem Blocks.setParams_zones (p : Blocks) (x : Params) : (p.setParams x).zones = p.zones := by
  rfl

@[simp] theorem Blocks.setParams_book (p : Blocks) (x : Params) : (p.setParams x).book = p.book := by
  rfl

@[simp] theorem Blocks.setParams_reloc (p : Blocks) (x : Params) : (p.setParams x).reloc = p.reloc := by
  rfl

@[simp] theorem Blocks.setParams_bays (p : Blocks) (x : Params) : (p.setParams x).bays = p.bays := by
  rfl

@[simp] theorem Blocks.setParams_alloc (p : Blocks) (x : Params) : (p.setParams x).alloc = p.alloc := by
  rfl

@[simp] theorem Blocks.setParams_supply (p : Blocks) (x : Params) : (p.setParams x).supply = p.supply := by
  rfl

@[simp] theorem Blocks.setParams_mail (p : Blocks) (x : Params) : (p.setParams x).mail = p.mail := by
  rfl

/-! ## The mask set -/

@[simp] theorem Blocks.setMask_clock (p : Blocks) (x : BitVec 16) : (p.setMask x).clock = p.clock := by
  rfl

@[simp] theorem Blocks.setMask_boundaries (p : Blocks) (x : BitVec 16) : (p.setMask x).boundaries = p.boundaries := by
  rfl

@[simp] theorem Blocks.setMask_level (p : Blocks) (x : BitVec 16) : (p.setMask x).level = p.level := by
  rfl

@[simp] theorem Blocks.setMask_params (p : Blocks) (x : BitVec 16) : (p.setMask x).params = p.params := by
  rfl

@[simp] theorem Blocks.setMask_zones (p : Blocks) (x : BitVec 16) : (p.setMask x).zones = p.zones := by
  rfl

@[simp] theorem Blocks.setMask_book (p : Blocks) (x : BitVec 16) : (p.setMask x).book = p.book := by
  rfl

@[simp] theorem Blocks.setMask_reloc (p : Blocks) (x : BitVec 16) : (p.setMask x).reloc = p.reloc := by
  rfl

@[simp] theorem Blocks.setMask_bays (p : Blocks) (x : BitVec 16) : (p.setMask x).bays = p.bays := by
  rfl

@[simp] theorem Blocks.setMask_alloc (p : Blocks) (x : BitVec 16) : (p.setMask x).alloc = p.alloc := by
  rfl

@[simp] theorem Blocks.setMask_supply (p : Blocks) (x : BitVec 16) : (p.setMask x).supply = p.supply := by
  rfl

@[simp] theorem Blocks.setMask_mail (p : Blocks) (x : BitVec 16) : (p.setMask x).mail = p.mail := by
  rfl

/-! ## The allocation rebuilt -/

@[simp] theorem Blocks.restartAllocation_clock (p : Blocks) : (p.restartAllocation).clock = p.clock := by
  simp [Blocks.restartAllocation]

@[simp] theorem Blocks.restartAllocation_boundaries (p : Blocks) : (p.restartAllocation).boundaries = p.boundaries := by
  simp [Blocks.restartAllocation]

@[simp] theorem Blocks.restartAllocation_level (p : Blocks) : (p.restartAllocation).level = p.level := by
  simp [Blocks.restartAllocation]

@[simp] theorem Blocks.restartAllocation_params (p : Blocks) : (p.restartAllocation).params = p.params := by
  simp [Blocks.restartAllocation]

@[simp] theorem Blocks.restartAllocation_zones (p : Blocks) : (p.restartAllocation).zones = p.zones := by
  simp [Blocks.restartAllocation]

@[simp] theorem Blocks.restartAllocation_book (p : Blocks) : (p.restartAllocation).book = p.book := by
  simp [Blocks.restartAllocation]

@[simp] theorem Blocks.restartAllocation_reloc (p : Blocks) : (p.restartAllocation).reloc = p.reloc := by
  simp [Blocks.restartAllocation]

@[simp] theorem Blocks.restartAllocation_bays (p : Blocks) : (p.restartAllocation).bays = p.bays := by
  simp [Blocks.restartAllocation]

@[simp] theorem Blocks.restartAllocation_supply (p : Blocks) : (p.restartAllocation).supply = p.supply := by
  simp [Blocks.restartAllocation]

@[simp] theorem Blocks.restartAllocation_notices (p : Blocks) : (p.restartAllocation).notices = p.notices := by
  simp [Blocks.restartAllocation]

@[simp] theorem Blocks.restartAllocation_mail (p : Blocks) : (p.restartAllocation).mail = p.mail := by
  simp [Blocks.restartAllocation]

/-! ## RESTART LEVEL -/

@[simp] theorem Blocks.restartLevel_clock (p : Blocks) : (p.restartLevel).clock = p.clock := by
  rfl

@[simp] theorem Blocks.restartLevel_boundaries (p : Blocks) : (p.restartLevel).boundaries = p.boundaries := by
  rfl

@[simp] theorem Blocks.restartLevel_params (p : Blocks) : (p.restartLevel).params = p.params := by
  rfl

/-! ## A record admitted -/

@[simp] theorem admitHeld_clock (p : Blocks) (r : Record) : (admitHeld p r).blocks.clock = p.clock := by
  unfold admitHeld
  split
  · rfl
  · dsimp only [accept]
    split <;> simp

@[simp] theorem admitHeld_boundaries (p : Blocks) (r : Record) : (admitHeld p r).blocks.boundaries = p.boundaries := by
  unfold admitHeld
  split
  · rfl
  · dsimp only [accept]
    split <;> simp

@[simp] theorem admitHeld_level (p : Blocks) (r : Record) : (admitHeld p r).blocks.level = p.level := by
  unfold admitHeld
  split
  · rfl
  · dsimp only [accept]
    split <;> simp

@[simp] theorem admitHeld_params (p : Blocks) (r : Record) : (admitHeld p r).blocks.params = p.params := by
  unfold admitHeld
  split
  · rfl
  · dsimp only [accept]
    split <;> simp

@[simp] theorem admitHeld_reloc (p : Blocks) (r : Record) : (admitHeld p r).blocks.reloc = p.reloc := by
  unfold admitHeld
  split
  · rfl
  · dsimp only [accept]
    split <;> simp

@[simp] theorem admitHeld_bays (p : Blocks) (r : Record) : (admitHeld p r).blocks.bays = p.bays := by
  unfold admitHeld
  split
  · rfl
  · dsimp only [accept]
    split <;> simp

@[simp] theorem admitHeld_alloc (p : Blocks) (r : Record) : (admitHeld p r).blocks.alloc = p.alloc := by
  unfold admitHeld
  split
  · rfl
  · dsimp only [accept]
    split <;> simp

@[simp] theorem admitHeld_supply (p : Blocks) (r : Record) : (admitHeld p r).blocks.supply = p.supply := by
  unfold admitHeld
  split
  · rfl
  · dsimp only [accept]
    split <;> simp

/-! ## A record admitted -/

@[simp] theorem admitServing_clock (p : Blocks) (r : Record) : (admitServing p r).blocks.clock = p.clock := by
  unfold admitServing
  split
  · rfl
  · dsimp only [accept]
    simp

@[simp] theorem admitServing_boundaries (p : Blocks) (r : Record) : (admitServing p r).blocks.boundaries = p.boundaries := by
  unfold admitServing
  split
  · rfl
  · dsimp only [accept]
    simp

@[simp] theorem admitServing_level (p : Blocks) (r : Record) : (admitServing p r).blocks.level = p.level := by
  unfold admitServing
  split
  · rfl
  · dsimp only [accept]
    simp

@[simp] theorem admitServing_params (p : Blocks) (r : Record) : (admitServing p r).blocks.params = p.params := by
  unfold admitServing
  split
  · rfl
  · dsimp only [accept]
    simp

@[simp] theorem admitServing_reloc (p : Blocks) (r : Record) : (admitServing p r).blocks.reloc = p.reloc := by
  unfold admitServing
  split
  · rfl
  · dsimp only [accept]
    simp

@[simp] theorem admitServing_alloc (p : Blocks) (r : Record) : (admitServing p r).blocks.alloc = p.alloc := by
  unfold admitServing
  split
  · rfl
  · dsimp only [accept]
    simp

@[simp] theorem admitServing_supply (p : Blocks) (r : Record) : (admitServing p r).blocks.supply = p.supply := by
  unfold admitServing
  split
  · rfl
  · dsimp only [accept]
    simp

/-! ## The messages to the allocator on their way -/

@[simp] theorem Blocks.raise_toAlloc (p : Blocks) (y : Sender) (x : Raise) : (p.raise y x).mail.toAlloc = p.mail.toAlloc := rfl
@[simp] theorem Blocks.sendAlloc_toAlloc (p : Blocks) (x : AllocMsg) : (p.sendAlloc x).mail.toAlloc = p.mail.toAlloc ++ [x] := rfl
@[simp] theorem Blocks.sendRemoval_toAlloc (p : Blocks) (x : Ticket) : (p.sendRemoval x).mail.toAlloc = p.mail.toAlloc := rfl
@[simp] theorem Blocks.sendBay_toAlloc (p : Blocks) (x : BayMsg) : (p.sendBay x).mail.toAlloc = p.mail.toAlloc := rfl
@[simp] theorem Blocks.sendHold_toAlloc (p : Blocks) (b : BayNo) : (p.sendHold b).mail.toAlloc = p.mail.toAlloc := rfl
@[simp] theorem Blocks.sendUnhold_toAlloc (p : Blocks) (b : BayNo) : (p.sendUnhold b).mail.toAlloc = p.mail.toAlloc := rfl

@[simp] theorem Blocks.cutFeeder_toAlloc (p : Blocks) (f : FeederNo) : (p.cutFeeder f).mail.toAlloc = p.mail.toAlloc := by
  unfold Blocks.cutFeeder
  split <;> simp

@[simp] theorem Blocks.ceilingChanged_toAlloc (p : Blocks) (f : FeederNo) (old : Nat) :
    (p.ceilingChanged f old).mail.toAlloc = p.mail.toAlloc := by
  unfold Blocks.ceilingChanged
  (repeat' split) <;> simp

@[simp] theorem Blocks.setReserve_toAlloc (p : Blocks) (f : FeederNo) (n : Nat) :
    (p.setReserve f n).mail.toAlloc = p.mail.toAlloc := by
  simp [Blocks.setReserve]

@[simp] theorem Blocks.allocBoundary_toAlloc (p : Blocks) : p.allocBoundary.mail.toAlloc = p.mail.toAlloc := by
  unfold Blocks.allocBoundary
  split
  · rfl
  · exact foldl_leaves (fun q : Blocks => q.mail.toAlloc) _ _ _ fun q f _ => by simp [Blocks.rebalanceFeeder]

@[simp] theorem Blocks.allocSupply_toAlloc (p : Blocks) (x : SupplyState) :
    (p.allocSupply x).mail.toAlloc = p.mail.toAlloc := by
  unfold Blocks.allocSupply
  dsimp only
  (repeat' split)
  · rfl
  · rfl
  · exact foldl_leaves (fun q : Blocks => q.mail.toAlloc) _ _ _ fun q f _ => by simp

@[simp] theorem Blocks.bayBoundary_toAlloc (p : Blocks) : p.bayBoundary.mail.toAlloc = p.mail.toAlloc := by
  unfold Blocks.bayBoundary
  split
  · rfl
  · refine foldl_leaves (fun q : Blocks => q.mail.toAlloc) _ _ _ fun q b _ => ?_
    unfold Blocks.countBay
    dsimp only
    split <;> simp

@[simp] theorem Blocks.offerFault_toAlloc (p : Blocks) (x : Capture) : (p.offerFault x).mail.toAlloc = p.mail.toAlloc := by
  unfold Blocks.offerFault
  split <;> simp

theorem Blocks.takeBay_toAlloc (p : Blocks) (m : BayMsg) {f : Blocks → Blocks}
    (h : ∀ q, (f q).mail.toAlloc = q.mail.toAlloc) : (p.takeBay m f).mail.toAlloc = p.mail.toAlloc := by
  unfold Blocks.takeBay
  (repeat' split) <;> simp [h]

@[simp] theorem Blocks.takeHold_toAlloc (p : Blocks) (b : BayNo) : (p.takeHold b).mail.toAlloc = p.mail.toAlloc :=
  p.takeBay_toAlloc _ fun _ => rfl
@[simp] theorem Blocks.takeUnhold_toAlloc (p : Blocks) (b : BayNo) : (p.takeUnhold b).mail.toAlloc = p.mail.toAlloc :=
  p.takeBay_toAlloc _ fun _ => rfl
@[simp] theorem Blocks.takeEnd_toAlloc (p : Blocks) (b : BayNo) : (p.takeEnd b).mail.toAlloc = p.mail.toAlloc :=
  p.takeBay_toAlloc _ fun _ => rfl

@[simp] theorem Blocks.takeRemoval_toAlloc (p : Blocks) (t : Ticket) : (p.takeRemoval t).mail.toAlloc = p.mail.toAlloc := by
  unfold Blocks.takeRemoval
  (repeat' split) <;> simp

theorem Blocks.takeAlloc_mem (p : Blocks) (m : AllocMsg) {f : Blocks → Blocks}
    (h : ∀ q, (f q).mail.toAlloc = q.mail.toAlloc) {x : AllocMsg} (hx : x ∈ (p.takeAlloc m f).mail.toAlloc) :
    x ∈ p.mail.toAlloc := by
  unfold Blocks.takeAlloc at hx
  split at hx
  · exact hx
  · rename_i m' rest he
    split at hx
    · rw [h] at hx
      rw [he]
      exact List.mem_cons_of_mem _ hx
    · exact hx

theorem Blocks.takeRequest_mem (p : Blocks) (b : BayNo) (n : Nat) {x : AllocMsg} (hx : x ∈ (p.takeRequest b n).mail.toAlloc) :
    x ∈ p.mail.toAlloc := by
  unfold Blocks.takeRequest at hx
  refine Blocks.takeAlloc_mem p _ ?_ hx
  intro q; rfl

theorem Blocks.takeRelease_mem (p : Blocks) (b : BayNo) {x : AllocMsg} (hx : x ∈ (p.takeRelease b).mail.toAlloc) :
    x ∈ p.mail.toAlloc := by
  unfold Blocks.takeRelease at hx
  refine Blocks.takeAlloc_mem p _ ?_ hx
  intro q; rfl

end Sys2Proof.Machine
end

