-- ==== Sys2Proof/Laws/Steps.lean ====
section
/-! SUPPORT. What one command can do to the blocks, said once: `Change` lists every change, and `exec_change` says that
each command that runs makes one of them (or is one of the two reset commands). -/

namespace Sys2Proof.Machine

/-- What the checks of a booking found of the record to be created (R25, R26, R27, R29, R30). -/
def Blocks.Fits (p : Blocks) (r : Record) : Prop :=
  p.level = .opened ∧ p.book.tokenHasRoom r.token = true ∧ p.book.tokenIsFree r.token r.start r.length = true ∧
  p.book.bayHasRoom r.bay = true ∧ fitsGap p.params.turnoverGap r.start r.length (p.book.timeline r.bay) = true ∧
  (15 ≤ r.length ∧ r.length ≤ 720) ∧ 6 ≤ r.draw

/-- The changes of the blocks, each with what was checked before it. -/
inductive Change : Blocks → Blocks → Prop
  | nothing (p) : Change p p
  | fault (p) (x : Capture) : Change p (p.offerFault x)
  | booked (p) (r : Record) : r.state = .booked ∨ r.state = .held → r.relocPending = false → r.outcome = none → p.Fits r →
      Change p (admitHeld p r).blocks
  | bookedServing (p) (r : Record) : r.state = .session → r.relocPending = false → r.outcome = none → p.Fits r →
      (p.bay r.bay).state.occupied = true → Change p (admitServing p r).blocks
  | extended (p) (sl : Slot) (r : Record) (n : Nat) : p.book.rec? sl = some r → r.state ≠ .settled →
      firstRefusal (extendChecks p sl r n) = none → Change p (p.extend sl r n)
  | settled (p) (sl : Slot) (o : Result) : o ≠ .completed → Change p (p.settle false sl o none)
  | claimed (p) (sl : Slot) (r : Record) : p.book.rec? sl = some r → r.state = .held → (p.bay r.bay).presence = true →
      (p.bay r.bay).state ≠ .serving → (p.bay r.bay).state.outOfService = false → (p.bay r.bay).action ≠ .close →
      Change p (p.claim sl r)
  | collected (p) (sl : Slot) (r : Record) : p.book.rec? sl = some r → r.state = .settled → Change p (p.collect sl)
  | zones (p) (z : ZoneMap) : Change p (p.withZones z)
  | configured (p) (b : BayNo) (c : BayConfig) : (p.bay b).state = .disabled → 6 ≤ c.maxDraw → Change p (p.configure b c)
  | enabled (p) (b : BayNo) : (p.bay b).state = .disabled → p.fieldFault b = false → Change p (p.enable b)
  | disabled (p) (b : BayNo) : Change p (p.disable b)
  | faultCleared (p) (b : BayNo) : (p.bay b).state ≠ .disabled → p.fieldFault b = false → Change p (p.clearFault b)
  | budget (p) (f : FeederNo) (n : Nat) : Change p (p.stageBudget f n)
  | reserve (p) (f : FeederNo) (n : Nat) : Change p (p.setReserve f n)
  | groupLevel (p) (g : GroupNo) (l : GroupLevel) : Change p (p.setGroupLevel g l)
  | target (p) (t : Target) : Change p (p.selectSupply t)
  | switched (p) : Change p p.switchSupply
  | clock (p) (m : Nat) : m ≤ Config.setClockMax → Change p (p.setClock m)
  | params (p) (body : List Byte) (q : Params) : p.level = .configuring → parameterFields p.params body = some q → Change p (p.setParams q)
  | opened (p) : Change p (p.withLevel .opened)
  | restarted (p) : Change p p.restartLevel
  | rebuilt (p) : Change p p.restartAllocation
  | noticesCleared (p) (sel : BitVec 16) (bays : Option (BitVec 96)) (modules : Option (BitVec 12)) :
      Change p (p.withNotices (p.notices.clearNamed sel bays modules))
  | mask (p) (m : BitVec 16) : Change p (p.setMask m)
  | stepBay (p) (b : BayNo) (x : Reason) (rest : List Entry) : p.reloc = .bay b x :: rest → Change p (p.stepBay b)
  | stepRecord (p) (t : Ticket) (rest : List Entry) : p.reloc = .record t :: rest → Change p (p.stepRecord t)
  | raised (p) (y : Sender) (x : Raise) : Change p (p.raise y x)
  | polled (p) : Change p p.poll
  | reported (p) (k : ModuleNo) (x : ModuleReport) : Change p (p.takeReport k x)
  | lost (p) (k : ModuleNo) : Change p (p.loseModule k)
  | minute (p) : Change p p.minuteBoundary
  | pass (p) : Change p p.bookBoundary
  | windows (p) : Change p p.bayBoundary
  | settleCount (p) : Change p p.supplyBoundary
  | rebalanced (p) : Change p p.allocBoundary
  | fall (p) : Change p p.mainsOkFall
  | rise (p) : Change p p.mainsOkRise
  | dr (p) (h : Bool) : Change p (p.drChange h)
  | alarm (p) (h : Bool) : Change p (p.alarmChange h)
  | request (p) (b : BayNo) (n : Nat) : Change p (p.takeRequest b n)
  | release (p) (b : BayNo) : Change p (p.takeRelease b)
  | hold (p) (b : BayNo) : Change p (p.takeHold b)
  | unhold (p) (b : BayNo) : Change p (p.takeUnhold b)
  | endServing (p) (b : BayNo) : Change p (p.takeEnd b)
  | removal (p) (t : Ticket) : Change p (p.takeRemoval t)
  | raiseTaken (p) (y : Sender) (x : Raise) : Change p (p.takeRaise y x)
  | tick (p) : Change p p.tick

/-! ## The judgements -/

theorem refuse_change (p : Blocks) (st : Status) : Change p (refuse p st).blocks := .nothing p

theorem refuseWith_change (p : Blocks) (st : Status) (x : List Byte) : Change p (refuseWith p st x).blocks := .nothing p

theorem accept_change {p q : Blocks} (x : List Byte) (h : Change p q) : Change p (accept q x).blocks := h

theorem judged_change {may : Permission} {refused : Blocks → List Byte}
    {judge : Port → Class → List Byte → Blocks → Answer} (port : Port) (r : Request) (p : Blocks)
    (h : ∀ port c body p, Change p (judge port c body p).blocks) : Change p (judged may refused judge port r p).blocks := by
  unfold judged
  (repeat' split)
  · exact .nothing p
  · exact h ..
  · exact .nothing p

theorem withNoField_change {bad : Blocks → List Byte} {judge : Port → Class → Blocks → Answer}
    (h : ∀ port c p, Change p (judge port c p).blocks) (port : Port) (c : Class) (body : List Byte) (p : Blocks) :
    Change p (withNoField bad judge port c body p).blocks := by
  unfold withNoField
  split
  · exact h ..
  · exact .nothing p

theorem Blocks.stateAtBooking_pending (p : Blocks) (n : Nat) : p.stateAtBooking n = .booked ∨ p.stateAtBooking n = .held := by
  unfold Blocks.stateAtBooking
  split <;> simp

theorem Booking.inRange_ranges {f : Booking} (h : f.inRange = true) : (15 ≤ f.length ∧ f.length ≤ 720) ∧ 6 ≤ f.draw := by
  simp only [Booking.inRange, Bool.and_eq_true, decide_eq_true_eq] at h
  exact ⟨h.1.1.1.2, h.2.1⟩

theorem bookBayFields_ranges {body : List Byte} {ref : BayRef} {f : Booking} (h : bookBayFields body = some (ref, f)) :
    (15 ≤ f.length ∧ f.length ≤ 720) ∧ 6 ≤ f.draw := by
  unfold bookBayFields at h
  split at h
  · cases h
  · simp only [Option.bind_eq_some_iff] at h
    obtain ⟨_, _, _, _, _, _, h⟩ := h
    split at h
    · rename_i hr; cases h; exact Booking.inRange_ranges hr
    · cases h

theorem bookZoneFields_ranges {body : List Byte} {z : ZoneNo} {f : Booking} (h : bookZoneFields body = some (z, f)) :
    (15 ≤ f.length ∧ f.length ≤ 720) ∧ 6 ≤ f.draw := by
  unfold bookZoneFields at h
  split at h
  · cases h
  · split at h
    · simp only [Option.bind_eq_some_iff] at h
      obtain ⟨_, _, _, _, h⟩ := h
      split at h
      · rename_i hr; cases h; exact Booking.inRange_ranges hr
      · cases h
    · cases h

theorem bookNowFields_ranges {m : Nat} {body : List Byte} {ref : BayRef} {f : Booking}
    (h : bookNowFields m body = some (ref, f)) : (15 ≤ f.length ∧ f.length ≤ 720) ∧ 6 ≤ f.draw := by
  unfold bookNowFields at h
  split at h
  · cases h
  · simp only [Option.bind_eq_some_iff] at h
    obtain ⟨_, _, _, _, h⟩ := h
    split at h
    · rename_i hr; cases h; exact Booking.inRange_ranges hr
    · cases h

theorem judgeBookBay_change (port : Port) (c : Class) (body : List Byte) (p : Blocks) :
    Change p (judgeBookBay port c body p).blocks := by
  unfold judgeBookBay
  (repeat' split) <;> first
    | exact .nothing p
    | exact .fault p _
    | skip
  rename_i hl _ _ _ hb _ _ _ _ hf
  refine .booked p _ (p.stateAtBooking_pending _) rfl rfl ?_
  rw [firstRefusal_none] at hf
  simp [bookBayChecks, startChecks, tokenAndPool, timelineChecks] at hf
  exact ⟨by simpa using hl, hf.2.2.2.2.1, hf.2.2.2.2.2.1, hf.2.2.2.2.2.2.2.1, hf.2.2.2.2.2.2.2.2, bookBayFields_ranges hb⟩

theorem judgeBookZone_change (port : Port) (c : Class) (body : List Byte) (p : Blocks) :
    Change p (judgeBookZone port c body p).blocks := by
  unfold judgeBookZone
  (repeat' (split <;> try dsimp only)) <;> first
    | exact .nothing p
    | exact .fault p _
    | skip
  rename_i hl _ _ _ hb _ _ _ hf _ _ hz
  refine .booked p _ (p.stateAtBooking_pending _) rfl rfl ?_
  rw [firstRefusal_none] at hf
  simp [startChecks, tokenAndPool] at hf
  have hc := List.find?_some hz
  simp only [zoneCandidate, Bool.and_eq_true] at hc
  exact ⟨by simpa using hl, hf.2.2.1, hf.2.2.2.1, hc.1.2, hc.2, bookZoneFields_ranges hb⟩

theorem judgeBookNow_change (port : Port) (c : Class) (body : List Byte) (p : Blocks) :
    Change p (judgeBookNow port c body p).blocks := by
  unfold judgeBookNow
  (repeat' split) <;> first
    | exact .nothing p
    | exact .fault p _
    | skip
  all_goals
    rename_i hl _ _ _ hb _ _ _ _ hf ho
    rw [firstRefusal_none] at hf
    simp [bookNowChecks, tokenAndPool, timelineChecks] at hf
    have fits : ∀ r : Record, r.token = _ → r.start = _ → r.length = _ → r.bay = _ → r.draw = _ → p.Fits r :=
      fun r h1 h2 h3 h4 h5 => ⟨by simpa using hl, by rw [h1]; exact hf.2.2.2.1, by rw [h1, h2, h3]; exact hf.2.2.2.2.1,
        by rw [h4]; exact hf.2.2.2.2.2.2.1, by rw [h2, h3, h4]; exact hf.2.2.2.2.2.2.2,
        by rw [h3, h5]; exact bookNowFields_ranges hb⟩
  · exact .bookedServing p _ rfl rfl rfl (fits _ rfl rfl rfl rfl rfl) ho
  · exact .booked p _ (.inr rfl) rfl rfl (fits _ rfl rfl rfl rfl rfl)

/-- What resolution gives stands in its slot (R6). -/
theorem Book.resolve_rec {k : Book} {c : Class} {t : Ticket} {token : Token} {sl : Slot} {r : Record}
    (h : k.resolve c t token = .ok (sl, r)) : k.rec? sl = some r := by
  unfold Book.resolve at h
  (repeat' split at h) <;> first
    | contradiction
    | (cases h; assumption)

theorem judgeExtend_change (port : Port) (c : Class) (body : List Byte) (p : Blocks) :
    Change p (judgeExtend port c body p).blocks := by
  unfold judgeExtend
  (repeat' split) <;> first
    | exact .nothing p
    | skip
  rename_i hr _ hf
  refine .extended p _ _ _ (Book.resolve_rec hr) ?_ hf
  rw [firstRefusal_none] at hf
  simp [extendChecks] at hf
  exact hf.1.2

theorem judgeCancel_change (port : Port) (c : Class) (body : List Byte) (p : Blocks) :
    Change p (judgeCancel port c body p).blocks := by
  unfold judgeCancel
  (repeat' split) <;> first
    | exact .nothing p
    | exact .settled p _ _ (by decide)

theorem judgeClaim_change (port : Port) (c : Class) (body : List Byte) (p : Blocks) :
    Change p (judgeClaim port c body p).blocks := by
  unfold judgeClaim
  (repeat' split) <;> first
    | exact .nothing p
    | skip
  rename_i hr _ hf
  rw [firstRefusal_none] at hf
  simp [claimChecks] at hf
  exact .claimed p _ _ (Book.resolve_rec hr) hf.2.1 hf.2.2.1 hf.2.2.2.1 hf.2.2.2.2.1 hf.2.2.2.2.2

theorem judgeListBay_change (port : Port) (c : Class) (body : List Byte) (p : Blocks) :
    Change p (judgeListBay port c body p).blocks := by
  unfold judgeListBay
  (repeat' split) <;> first
    | exact .nothing p
    | exact .fault p _

theorem judgeLookup_change (port : Port) (c : Class) (body : List Byte) (p : Blocks) :
    Change p (judgeLookup port c body p).blocks := by
  unfold judgeLookup
  (repeat' split) <;> exact .nothing p

theorem judgeFindToken_change (port : Port) (c : Class) (body : List Byte) (p : Blocks) :
    Change p (judgeFindToken port c body p).blocks := by
  unfold judgeFindToken
  (repeat' split) <;> exact .nothing p

theorem judgeEndSession_change (port : Port) (c : Class) (body : List Byte) (p : Blocks) :
    Change p (judgeEndSession port c body p).blocks := by
  unfold judgeEndSession
  (repeat' split) <;> first
    | exact .nothing p
    | exact .settled p _ _ (by decide)

theorem judgeCollect_change (port : Port) (c : Class) (body : List Byte) (p : Blocks) :
    Change p (judgeCollect port c body p).blocks := by
  unfold judgeCollect
  (repeat' split) <;> first
    | exact .nothing p
    | skip
  rename_i hr _ hs
  exact .collected p _ _ (Book.resolve_rec hr) (by simpa using hs)

theorem judgePoolStatus_change (port : Port) (c : Class) (body : List Byte) (p : Blocks) :
    Change p (judgePoolStatus port c body p).blocks := by
  unfold judgePoolStatus
  (repeat' split) <;> exact .nothing p

theorem judgeWriteZone_change (port : Port) (c : Class) (body : List Byte) (p : Blocks) :
    Change p (judgeWriteZone port c body p).blocks := by
  unfold judgeWriteZone
  (repeat' split) <;> first
    | exact .nothing p
    | exact .zones p _

theorem judgeReadZone_change (port : Port) (c : Class) (body : List Byte) (p : Blocks) :
    Change p (judgeReadZone port c body p).blocks := by
  unfold judgeReadZone
  (repeat' split) <;> exact .nothing p

theorem configureFields_range {body : List Byte} {b : BayNo} {x : BayConfig} (h : configureFields body = some (b, x)) :
    6 ≤ x.maxDraw := by
  unfold configureFields at h
  split at h
  · cases h
  · simp only [Option.bind_eq_some_iff] at h
    obtain ⟨_, _, _, _, _, _, _, _, _, _, _, _, _, _, _, _, h⟩ := h
    split at h
    · rename_i hr; cases h; exact hr.1
    · cases h

theorem judgeConfigureBay_change (port : Port) (c : Class) (body : List Byte) (p : Blocks) :
    Change p (judgeConfigureBay port c body p).blocks := by
  unfold judgeConfigureBay
  (repeat' split) <;> first
    | exact .nothing p
    | exact .configured p _ _ (by simp_all) (configureFields_range (by assumption))

theorem judgeEnableBay_change (port : Port) (c : Class) (body : List Byte) (p : Blocks) :
    Change p (judgeEnableBay port c body p).blocks := by
  unfold judgeEnableBay
  (repeat' split) <;> first
    | exact .nothing p
    | skip
  rename_i hf
  rw [firstRefusal_none] at hf
  simp at hf
  exact .enabled p _ hf.2.1 hf.2.2

theorem judgeDisableBay_change (port : Port) (c : Class) (body : List Byte) (p : Blocks) :
    Change p (judgeDisableBay port c body p).blocks := by
  unfold judgeDisableBay
  (repeat' split) <;> first
    | exact .nothing p
    | exact .disabled p _

theorem judgeClearFault_change (port : Port) (c : Class) (body : List Byte) (p : Blocks) :
    Change p (judgeClearFault port c body p).blocks := by
  unfold judgeClearFault
  (repeat' split) <;> first
    | exact .nothing p
    | skip
  rename_i hf
  rw [firstRefusal_none] at hf
  simp at hf
  exact .faultCleared p _ hf.2.1 hf.2.2

theorem judgeReadBay_change (port : Port) (c : Class) (body : List Byte) (p : Blocks) :
    Change p (judgeReadBay port c body p).blocks := by
  unfold judgeReadBay
  (repeat' split) <;> exact .nothing p

theorem judgeSetBudget_change (port : Port) (c : Class) (body : List Byte) (p : Blocks) :
    Change p (judgeSetBudget port c body p).blocks := by
  unfold judgeSetBudget
  (repeat' split) <;> first
    | exact .nothing p
    | exact .budget p _ _

theorem judgeSetReserveCeiling_change (port : Port) (c : Class) (body : List Byte) (p : Blocks) :
    Change p (judgeSetReserveCeiling port c body p).blocks := by
  unfold judgeSetReserveCeiling
  (repeat' split) <;> first
    | exact .nothing p
    | exact .reserve p _ _

theorem judgeReadFeeder_change (port : Port) (c : Class) (body : List Byte) (p : Blocks) :
    Change p (judgeReadFeeder port c body p).blocks := by
  unfold judgeReadFeeder
  (repeat' split) <;> exact .nothing p

theorem judgeSetGroupLevel_change (port : Port) (c : Class) (body : List Byte) (p : Blocks) :
    Change p (judgeSetGroupLevel port c body p).blocks := by
  unfold judgeSetGroupLevel
  split
  · exact .nothing p
  · rename_i g l _
    exact accept_change _ (.groupLevel p g l)

theorem judgeSelectSupply_change (port : Port) (c : Class) (body : List Byte) (p : Blocks) :
    Change p (judgeSelectSupply port c body p).blocks := by
  unfold judgeSelectSupply
  split
  · exact refuse_change p _
  · rename_i t _
    exact .target p t

theorem clockFields_range {body : List Byte} {m : Nat} (h : clockFields body = some m) : m ≤ Config.setClockMax := by
  unfold clockFields at h
  split at h
  · rename_i hb; cases h; exact hb.2
  · contradiction

theorem judgeSetClock_change (port : Port) (c : Class) (body : List Byte) (p : Blocks) :
    Change p (judgeSetClock port c body p).blocks := by
  unfold judgeSetClock
  (repeat' split) <;> first
    | exact .nothing p
    | exact .clock p _ (clockFields_range (by assumption))

theorem judgeSetParameters_change (port : Port) (c : Class) (body : List Byte) (p : Blocks) :
    Change p (judgeSetParameters port c body p).blocks := by
  unfold judgeSetParameters
  (repeat' split) <;> first
    | exact .nothing p
    | exact .params p body _ (by simp_all) (by assumption)

theorem judgeOpenLevel_change (port : Port) (c : Class) (p : Blocks) : Change p (judgeOpenLevel port c p).blocks := by
  unfold judgeOpenLevel
  split
  · exact .nothing p
  · exact .opened p

theorem judgeRestart_change (body : List Byte) (p : Blocks) : Change p (judgeRestart body p).blocks := by
  unfold judgeRestart
  split
  · exact .nothing p
  · exact .restarted p
  · exact .rebuilt p

theorem judgeClearNotices_change (port : Port) (c : Class) (body : List Byte) (p : Blocks) :
    Change p (judgeClearNotices port c body p).blocks := by
  unfold judgeClearNotices
  (repeat' split) <;> first
    | exact .nothing p
    | exact .noticesCleared p _ _ _

theorem judgeSetMask_change (port : Port) (c : Class) (body : List Byte) (p : Blocks) :
    Change p (judgeSetMask port c body p).blocks := by
  unfold judgeSetMask
  split
  · exact .nothing p
  · exact .mask p _

/-! ## The machine -/

/-- What one command can do to the machine: nothing; a service turn at a port; a relocation turn; a change behind the ports;
an event at a port, which may raise; RESET falling or returning high. -/
inductive Effect : State → State → Prop
  | nothing (s) : Effect s s
  | turn (s) (port : Port) (r : Request) (a : Answer) : s.turnDue port r = true → Change s.blocks a.blocks →
      Effect s (s.finishTurn port r a)
  | relocation (s) (p : Blocks) : s.relocationDue = true → Change s.blocks p → Effect s (s.finishStep p)
  | blocks (s) (p : Blocks) : s.resetLow = false → Change s.blocks p → Effect s (s.withBlocks p)
  | siteWrite (s) (bytes : List Byte) : s.resetLow = false → Effect s (siteWrite bytes s)
  | siteRead (s) (n : Nat) : s.resetLow = false → Effect s (siteRead n s)
  | siteBadTransfer (s) (bytes : List Byte) : s.resetLow = false → Effect s (siteBadTransfer bytes s)
  | rampFrame (s) (bytes : List Byte) : s.resetLow = false → Effect s (rampFrame bytes s)
  | rampByteTimeout (s) : s.resetLow = false → Effect s (rampByteTimeout s)
  | rampResponseSent (s) : s.resetLow = false → Effect s (rampResponseSent s)
  | rampFrameStart (s) : s.resetLow = false → Effect s (rampFrameStart s)
  | reset (s) : Effect s (powerOnReset s)
  | released (s) (m d a : Bool) : Effect s (resetRelease m d a s)

theorem serve_effect {isRow : Request → Bool} {may : Permission} {refused : Blocks → List Byte}
    {judge : Port → Class → List Byte → Blocks → Answer} (port : Port) (r : Request) (s : State)
    (h : ∀ port c body p, Change p (judge port c body p).blocks) :
    ∃ t, serve isRow may refused judge port r s = .next t ∧ Effect s t := by
  rw [serve_eq]
  refine ⟨_, rfl, ?_⟩
  split
  · rename_i hd
    simp only [Bool.and_eq_true] at hd
    exact .turn s port r _ hd.1 (judged_change port r s.blocks h)
  · exact .nothing s

theorem atBlocks_effect (f : Blocks → Blocks) (s : State) (h : ∀ p, Change p (f p)) :
    ∃ t, atBlocks f s = .next t ∧ Effect s t := by
  cases hr : s.resetLow with
  | true => exact ⟨s, by simp [hr], .nothing s⟩
  | false => exact ⟨_, by simp [hr], .blocks s _ hr (h s.blocks)⟩

theorem whileRunning_effect (f : State → State) (s : State) (h : s.resetLow = false → Effect s (f s)) :
    ∃ t, whileRunning f s = .next t ∧ Effect s t := by
  cases hr : s.resetLow with
  | true => exact ⟨s, by simp [hr], .nothing s⟩
  | false => exact ⟨_, by simp [hr], h hr⟩

/-- Every command answers a next state, and its effect is one of those listed. -/
theorem exec_effect (c : Instr) (s : State) : ∃ t, exec c s = .next t ∧ Effect s t := by
  cases c with
  | bookBay port r => exact serve_effect port r s judgeBookBay_change
  | bookZone port r => exact serve_effect port r s judgeBookZone_change
  | bookNow port r => exact serve_effect port r s judgeBookNow_change
  | extendRecord port r => exact serve_effect port r s judgeExtend_change
  | cancel port r => exact serve_effect port r s judgeCancel_change
  | claim port r => exact serve_effect port r s judgeClaim_change
  | lookupTicket port r => exact serve_effect port r s judgeLookup_change
  | findToken port r => exact serve_effect port r s judgeFindToken_change
  | listBay port r => exact serve_effect port r s judgeListBay_change
  | endSession port r => exact serve_effect port r s judgeEndSession_change
  | collect port r => exact serve_effect port r s judgeCollect_change
  | poolStatus port r => exact serve_effect port r s judgePoolStatus_change
  | writeZone port r => exact serve_effect port r s judgeWriteZone_change
  | readZone port r => exact serve_effect port r s judgeReadZone_change
  | readAccessFault port r => exact serve_effect port r s (withNoField_change fun _ _ p => .nothing p)
  | clearAccessFault port r => exact serve_effect port r s (withNoField_change fun _ _ p => .zones p _)
  | configureBay port r => exact serve_effect port r s judgeConfigureBay_change
  | enableBay port r => exact serve_effect port r s judgeEnableBay_change
  | disableBay port r => exact serve_effect port r s judgeDisableBay_change
  | clearFault port r => exact serve_effect port r s judgeClearFault_change
  | readBay port r => exact serve_effect port r s judgeReadBay_change
  | setBudget port r => exact serve_effect port r s judgeSetBudget_change
  | setReserveCeiling port r => exact serve_effect port r s judgeSetReserveCeiling_change
  | readFeeder port r => exact serve_effect port r s judgeReadFeeder_change
  | setGroupLevel port r => exact serve_effect port r s judgeSetGroupLevel_change
  | selectSupply port r => exact serve_effect port r s judgeSelectSupply_change
  | switchSupply port r => exact serve_effect port r s (withNoField_change fun _ _ p => .switched p)
  | readSupply port r => exact serve_effect port r s (withNoField_change fun _ _ p => .nothing p)
  | setClock port r => exact serve_effect port r s judgeSetClock_change
  | setParameters port r => exact serve_effect port r s judgeSetParameters_change
  | openLevel port r => exact serve_effect port r s (withNoField_change judgeOpenLevel_change)
  | restartLevel port r => exact serve_effect port r s fun _ _ => judgeRestart_change
  | restartAllocation port r => exact serve_effect port r s fun _ _ => judgeRestart_change
  | readNotices port r => exact serve_effect port r s (withNoField_change fun _ _ p => .nothing p)
  | clearNotices port r => exact serve_effect port r s judgeClearNotices_change
  | setNoticeMask port r => exact serve_effect port r s judgeSetMask_change
  | identify port r => exact serve_effect port r s (withNoField_change fun _ _ p => .nothing p)
  | unknownRequest port r =>
    simp only [exec, execUnknownRequest]
    split
    · rename_i hd
      simp only [Bool.and_eq_true] at hd
      exact ⟨_, rfl, .turn s port r _ hd.1 (.nothing _)⟩
    · exact ⟨_, rfl, .nothing s⟩
  | relocationStepBayEntry =>
    simp only [exec, execRelocationStepBayEntry]
    split
    · rename_i hd hr
      exact ⟨_, rfl, .relocation s _ hd (.stepBay _ _ _ _ hr)⟩
    · exact ⟨_, rfl, .nothing s⟩
  | relocationStepRecordEntry =>
    simp only [exec, execRelocationStepRecordEntry]
    split
    · rename_i hd hr
      exact ⟨_, rfl, .relocation s _ hd (.stepRecord _ _ _ hr)⟩
    · exact ⟨_, rfl, .nothing s⟩
  | siteWrite bytes => exact whileRunning_effect _ s (.siteWrite s bytes)
  | siteRead n => exact whileRunning_effect _ s (.siteRead s n)
  | siteBadTransfer bytes => exact whileRunning_effect _ s (.siteBadTransfer s bytes)
  | rampFrame bytes => exact whileRunning_effect _ s (.rampFrame s bytes)
  | rampByteTimeout => exact whileRunning_effect _ s (.rampByteTimeout s)
  | rampResponseSent => exact whileRunning_effect _ s (.rampResponseSent s)
  | modulePoll => exact atBlocks_effect Blocks.poll s .polled
  | moduleReport k x => exact atBlocks_effect (fun p => p.takeReport k x) s fun p => .reported p k x
  | moduleFound k x => exact atBlocks_effect (fun p => p.takeReport k x) s fun p => .reported p k x
  | moduleLost k => exact atBlocks_effect (fun p => p.loseModule k) s fun p => .lost p k
  | minuteBoundary => exact atBlocks_effect Blocks.minuteBoundary s .minute
  | deadlinePass => exact atBlocks_effect Blocks.bookBoundary s .pass
  | claimWindowCount => exact atBlocks_effect Blocks.bayBoundary s .windows
  | claimWindowExpiry b =>
    refine atBlocks_effect (fun p => if (p.bay b).windowExpires then p.bayBoundary else p) s fun p => ?_
    split
    · exact .windows p
    · exact .nothing p
  | settleCount => exact atBlocks_effect Blocks.supplyBoundary s .settleCount
  | settleExpiry =>
    refine atBlocks_effect (fun p => if p.settleExpires then p.supplyBoundary else p) s fun p => ?_
    split
    · exact .settleCount p
    · exact .nothing p
  | rebalanceBoundary => exact atBlocks_effect Blocks.allocBoundary s .rebalanced
  | mainsOkFall => exact atBlocks_effect Blocks.mainsOkFall s .fall
  | mainsOkRise => exact atBlocks_effect Blocks.mainsOkRise s .rise
  | drChange h => exact atBlocks_effect (fun p => p.drChange h) s fun p => .dr p h
  | alarmChange h => exact atBlocks_effect (fun p => p.alarmChange h) s fun p => .alarm p h
  | powerOnReset => exact ⟨_, rfl, .reset s⟩
  | sessionRequest b n => exact atBlocks_effect (fun p => p.takeRequest b n) s fun p => .request p b n
  | release b => exact atBlocks_effect (fun p => p.takeRelease b) s fun p => .release p b
  | hold b => exact atBlocks_effect (fun p => p.takeHold b) s fun p => .hold p b
  | unhold b => exact atBlocks_effect (fun p => p.takeUnhold b) s fun p => .unhold p b
  | endServing b => exact atBlocks_effect (fun p => p.takeEnd b) s fun p => .endServing p b
  | removeRecordEntry t => exact atBlocks_effect (fun p => p.takeRemoval t) s fun p => .removal p t
  | noticeRaise y x => exact atBlocks_effect (fun p => p.takeRaise y x) s fun p => .raiseTaken p y x
  | rampFrameStart => exact whileRunning_effect _ s (.rampFrameStart s)
  | resetRelease m d a => exact ⟨_, rfl, .released s m d a⟩

/-- One step of the machine has the same effects, on the state without the command taken. -/
theorem step_effect (s : State) : ∃ t rest, step s = .next t ∧ Effect { s with pending := rest } t := by
  unfold step
  split
  · rename_i h
    refine ⟨tick s, s.pending, rfl, ?_⟩
    unfold Sys2Proof.Machine.tick
    split
    · exact .nothing s
    · rename_i hr
      exact .blocks s _ (by simpa using hr) (.tick _)
  · obtain ⟨t, ht, he⟩ := exec_effect (by assumption) { s with pending := (by assumption) }
    exact ⟨t, _, ht, he⟩

end Sys2Proof.Machine
end

