-- ==== Sys2Proof/Laws/BookSteps.lean ====
section
/-! SUPPORT. What a command can do to the book, said once: `BookReach` is what every event but a creation, an EXTEND, a COLLECT
and a restart can do, and `change_book` says that each change of the blocks is one of these at the book. -/

namespace Sys2Proof.Machine

/-- Changes of the book by settlements, by moves to a bay that was found eligible, by rewrites of a live record that keep what
places it, and by the held report, one after another. `gap` is the turnover gap in force. -/
inductive BookReach (gap : Nat) : Book → Book → Prop
  | refl (k) : BookReach gap k k
  | report (k : Book) (b : BayNo) (h : Bool) : BookReach gap k { k with heldReport := setAt k.heldReport b h }
  | put (k : Book) (sl : Slot) (r r' : Record) : k.rec? sl = some r → r.state ≠ .settled → r'.state ≠ .settled →
      r'.ticket = r.ticket → r'.token = r.token → r'.bay = r.bay → r'.start = r.start → r'.length = r.length →
      r'.outcome = r.outcome → r'.draw = r.draw →
      BookReach gap k (k.put sl r')
  | settle (k : Book) (sl : Slot) (o : Result) (c : Option Cause) (m : Nat) : BookReach gap k (k.settle sl o c m)
  | move (k : Book) (sl : Slot) (r : Record) (b : BayNo) : k.rec? sl = some r → r.state ≠ .settled → b ≠ r.bay →
      k.bayHasRoom b = true → fitsGap gap r.start r.length (k.timeline b) = true → BookReach gap k (k.move sl r b)
  | trans {k l m : Book} : BookReach gap k l → BookReach gap l m → BookReach gap k m

/-- The draws of the records, and those of the session requests on their way, are at least 6 (R29, R117). -/
def Blocks.DrawsSound (p : Blocks) : Prop :=
  (∀ (sl : Slot) (r : Record), p.book.rec? sl = some r → 6 ≤ r.draw) ∧
  ∀ (b : BayNo) (n : Nat), AllocMsg.sessionRequest b n ∈ p.mail.toAlloc → 6 ≤ n

/-- A book whose records' draws are in range, with one record rewritten. -/
theorem Book.draws_put {k : Book} (h : ∀ (sl : Slot) (r : Record), k.rec? sl = some r → 6 ≤ r.draw) {sl : Slot} {r : Record}
    (hr : 6 ≤ r.draw) (x : Slot) (y : Record) (hy : (k.put sl r).rec? x = some y) : 6 ≤ y.draw := by
  simp only [Book.put, Book.rec?, Fin.getElem_fin, setAt_get] at hy
  split at hy
  · cases hy; exact hr
  · exact h x y hy

theorem Book.draws_settle {k : Book} (h : ∀ (sl : Slot) (r : Record), k.rec? sl = some r → 6 ≤ r.draw) (sl : Slot) (o : Result)
    (c : Option Cause) (m : Nat) (x : Slot) (y : Record) (hy : (k.settle sl o c m).rec? x = some y) : 6 ≤ y.draw := by
  unfold Book.settle at hy
  split at hy
  · exact h x y hy
  · split at hy
    · exact h x y hy
    · rename_i r hr _
      exact Book.draws_put h (r := r.settledWith o c m) (h sl r hr) x y hy

theorem Blocks.DrawsSound.congr {p q : Blocks} (h : p.DrawsSound) (hb : q.book = p.book)
    (hm : ∀ b n, AllocMsg.sessionRequest b n ∈ q.mail.toAlloc → AllocMsg.sessionRequest b n ∈ p.mail.toAlloc) :
    q.DrawsSound := ⟨by rw [hb]; exact h.1, fun b n hn => h.2 b n (hm b n hn)⟩

/-- A change of the blocks that does this to the book, leaves the level state and the parameters, and keeps the notice
unit's flags in agreement and the draws in range. -/
def Blocks.Reaches (p q : Blocks) : Prop :=
  q.level = p.level ∧ q.params = p.params ∧ BookReach p.params.turnoverGap p.book q.book ∧
  (p.NoticesAgree → q.NoticesAgree) ∧ (p.DrawsSound → q.DrawsSound)

theorem Blocks.NoticesAgree.congr {p q : Blocks} (h : p.NoticesAgree) (hn : q.notices = p.notices)
    (hp : q.params.poolLow = p.params.poolLow) (hf : q.book.free = p.book.free) (hs : q.book.settled = p.book.settled) :
    q.NoticesAgree := by
  simpa only [Blocks.NoticesAgree, Book.poolLow, Book.settledWaiting, hn, hp, hf, hs] using h

/-- The pool conditions re-evaluated leave the flags in agreement. -/
theorem Blocks.evalPool_agree (p : Blocks) : p.evalPool.NoticesAgree := ⟨rfl, rfl, rfl⟩

theorem Blocks.Reaches.refl (p : Blocks) : p.Reaches p := ⟨rfl, rfl, .refl _, id, id⟩

theorem Blocks.Reaches.trans {p q t : Blocks} (h : p.Reaches q) (h' : q.Reaches t) : p.Reaches t :=
  ⟨h'.1.trans h.1, h'.2.1.trans h.2.1, h.2.2.1.trans (by have := h'.2.2.1; rwa [h.2.1] at this),
    fun hn => h'.2.2.2.1 (h.2.2.2.1 hn), fun hn => h'.2.2.2.2 (h.2.2.2.2 hn)⟩

/-- A change that leaves the book and the notice unit. -/
theorem Blocks.Reaches.of_book {p q : Blocks} (hl : q.level = p.level) (hp : q.params = p.params) (hb : q.book = p.book)
    (hn : q.notices = p.notices)
    (hm : ∀ b n, AllocMsg.sessionRequest b n ∈ q.mail.toAlloc → AllocMsg.sessionRequest b n ∈ p.mail.toAlloc) :
    p.Reaches q :=
  ⟨hl, hp, by rw [hb]; exact .refl _, fun h => h.congr hn (by rw [hp]) (by rw [hb]) (by rw [hb]), fun h => h.congr hb hm⟩

/-- Changes with the same book, notice unit, level state and parameters after them. -/
theorem Blocks.Reaches.congr {p q t : Blocks} (h : p.Reaches q) (hl : t.level = q.level) (hp : t.params = q.params)
    (hb : t.book = q.book) (hn : t.notices = q.notices)
    (hm : ∀ b n, AllocMsg.sessionRequest b n ∈ t.mail.toAlloc → AllocMsg.sessionRequest b n ∈ q.mail.toAlloc) :
    p.Reaches t := h.trans (.of_book hl hp hb hn hm)

theorem Blocks.Reaches.foldl {β : Type} (f : Blocks → β → Blocks) (xs : List β) (p : Blocks)
    (h : ∀ q : Blocks, ∀ x ∈ xs, q.Reaches (f q x)) : p.Reaches (xs.foldl f p) :=
  foldl_keeps (fun q => p.Reaches q) f xs p (.refl p) fun q hq x hx => hq.trans (h q x hx)

theorem Blocks.report_reaches (p : Blocks) (b : BayNo) (h : Bool) : p.Reaches (p.report b h) := ⟨rfl, rfl, .report _ b h, id, id⟩

theorem Blocks.sendHold_reaches (p : Blocks) (b : BayNo) : p.Reaches (p.sendHold b) := ⟨rfl, rfl, .report _ b true, id, id⟩

theorem Blocks.sendUnhold_reaches (p : Blocks) (b : BayNo) : p.Reaches (p.sendUnhold b) := ⟨rfl, rfl, .report _ b false, id, id⟩

theorem Blocks.settle_reaches (p : Blocks) (quiet : Bool) (sl : Slot) (o : Result) (c : Option Cause) :
    p.Reaches (p.settle quiet sl o c) := by
  unfold Blocks.settle
  split
  · exact .refl p
  · split
    · exact .refl p
    · have h1 : p.Reaches ((p.withBook (p.book.settle sl o c p.now)).evalPool) :=
        ⟨by simp, by simp, by simpa using BookReach.settle p.book sl o c p.now, fun _ => Blocks.evalPool_agree _,
          fun h => ⟨fun x y hy => Book.draws_settle h.1 sl o c p.now x y (by simpa using hy), fun b n hn => h.2 b n (by simpa using hn)⟩⟩
      dsimp only
      revert h1
      generalize (p.withBook (p.book.settle sl o c p.now)).evalPool = q
      intro h1
      rename_i r _ _
      have h2 : p.Reaches (if c = some .bayLost then q.raise .book .stranded else q) := by
        split
        · exact h1.congr (by simp) (by simp) (by simp) (by simp) (by simp)
        · exact h1
      revert h2
      generalize (if c = some .bayLost then q.raise .book .stranded else q) = q2
      intro h2
      have h3 : p.Reaches (if r.state = .session then q2.sendAlloc (.release r.bay) else q2) := by
        split
        · exact h2.congr (by simp) (by simp) (by simp) (by simp) (by simp)
        · exact h2
      revert h3
      generalize (if r.state = .session then q2.sendAlloc (.release r.bay) else q2) = q3
      intro h3
      have h4 : p.Reaches (if r.state = .held ∧ quiet = false ∧ q3.book.hasHeld r.bay = false
          then q3.sendUnhold r.bay else q3) := by
        split
        · exact h3.trans (Blocks.sendUnhold_reaches _ _)
        · exact h3
      revert h4
      generalize (if r.state = .held ∧ quiet = false ∧ q3.book.hasHeld r.bay = false
          then q3.sendUnhold r.bay else q3) = q4
      intro h4
      have h5 : p.Reaches (if r.relocPending then q4.sendRemoval r.ticket else q4) := by
        split
        · exact h4.congr (by simp) (by simp) (by simp) (by simp) (by simp)
        · exact h4
      split
      · exact h5.congr (by simp) (by simp) (by simp) (by simp) (by simp)
      · exact h5

theorem Blocks.putRecord_reaches {p : Blocks} {sl : Slot} {r r' : Record} (h : p.book.rec? sl = some r)
    (hl : r.state ≠ .settled) (hl' : r'.state ≠ .settled) (h1 : r'.ticket = r.ticket) (h2 : r'.token = r.token)
    (h3 : r'.bay = r.bay) (h4 : r'.start = r.start) (h5 : r'.length = r.length)
    (h6 : r'.outcome = r.outcome) (h7 : r'.draw = r.draw) : p.Reaches (p.putRecord sl r') :=
  ⟨rfl, rfl, .put _ sl r r' h hl hl' h1 h2 h3 h4 h5 h6 h7, id, fun hd =>
    ⟨Book.draws_put hd.1 (by rw [h7]; exact hd.1 sl r h), hd.2⟩⟩

theorem Blocks.bayEntryDue_reaches (p : Blocks) (b : BayNo) (x : Reason) : p.Reaches (p.bayEntryDue b x) := by
  unfold Blocks.bayEntryDue
  (repeat' split)
  · exact .of_book (by simp) (by simp) (by simp) (by simp) (by simp)
  · exact .refl p
  · exact .of_book (by simp) (by simp) (by simp) (by simp) (by simp)
  · exact .foldl _ _ _ fun q sl _ => Blocks.settle_reaches q _ _ _ _

theorem Blocks.loseBay_reaches (p : Blocks) (b : BayNo) (l : Loss) : p.Reaches (p.loseBay b l) := by
  have h1 : p.Reaches (p.setBay b ((p.bay b).lost l)) := .of_book (by simp) (by simp) (by simp) (by simp) (by simp)
  unfold Blocks.loseBay
  dsimp only
  split
  · exact (h1.trans (Blocks.settle_reaches _ _ _ _ _)).trans (Blocks.bayEntryDue_reaches _ _ _)
  · exact h1.trans (Blocks.bayEntryDue_reaches _ _ _)

theorem Blocks.setAction_reaches (p : Blocks) (b : BayNo) (x : Action) : p.Reaches (p.setAction b x) := by
  unfold Blocks.setAction
  dsimp only
  split
  · exact .refl p
  · split
    · exact (Blocks.Reaches.of_book (by simp) (by simp) (by simp) (by simp) (by simp)).trans (Blocks.bayEntryDue_reaches _ _ _)
    · split
      · exact .of_book (by simp) (by simp) (by simp) (by simp) (by simp)
      · exact .of_book (by simp) (by simp) (by simp) (by simp) (by simp)

theorem Blocks.recomputeMembers_reaches (p : Blocks) (among : GroupNo → Bool) : p.Reaches (p.recomputeMembers among) :=
  .foldl _ _ _ fun q b _ => by
    split
    · exact Blocks.setAction_reaches _ _ _
    · exact .refl _

/-- The target search finds an eligible bay other than the one the record leaves (R111). -/
theorem target_spec {p : Blocks} {r : Record} {b : BayNo} (h : target p r = some b) :
    b ≠ r.bay ∧ p.book.bayHasRoom b = true ∧ fitsGap p.params.turnoverGap r.start r.length (p.book.timeline b) = true ∧
    p.available b = true ∧ fits r.originClass r.accessible (p.bay b).config.cls = true := by
  have h1 := List.find?_some h
  have h2 := List.mem_of_find?_eq_some h
  simp only [eligible, Bool.and_eq_true] at h1
  simp only [candidates, List.mem_filter, bne_iff_ne, ne_eq] at h2
  exact ⟨h2.2, h1.1.1.2, h1.1.2, h1.1.1.1.1, h1.1.1.1.2⟩

theorem Blocks.moveRecord_reaches {p : Blocks} {sl : Slot} {r : Record} {b : BayNo} (hr : p.book.rec? sl = some r)
    (hl : r.state ≠ .settled) (hb : b ≠ r.bay) (h1 : p.book.bayHasRoom b = true)
    (h2 : fitsGap p.params.turnoverGap r.start r.length (p.book.timeline b) = true) : p.Reaches (p.moveRecord sl r b) := by
  have h3 : p.Reaches ((p.withBook (p.book.move sl r b)).markUsed r.originClass r.originZone) := by
    refine ⟨by cases r.originZone <;> rfl, by cases r.originZone <;> rfl, ?_, by cases r.originZone <;> exact id,
      fun hd => (show (p.withBook (p.book.move sl r b)).DrawsSound from ⟨Book.draws_put (k := p.book.leaveTimeline r.bay sl) hd.1
        (r := r.movedTo b) (hd.1 sl r hr), hd.2⟩).congr (by cases r.originZone <;> rfl) (by cases r.originZone <;> exact fun _ _ => id)⟩
    have : ((p.withBook (p.book.move sl r b)).markUsed r.originClass r.originZone).book = p.book.move sl r b := by
      cases r.originZone <;> rfl
    rw [this]
    exact .move _ sl r b hr hl hb h1 h2
  unfold Blocks.moveRecord
  dsimp only
  revert h3
  generalize ((p.withBook (p.book.move sl r b)).markUsed r.originClass r.originZone) = q
  intro h3
  have h4 : p.Reaches (if r.relocPending then q.withReloc (q.reloc.filter (· != .record r.ticket)) else q) := by
    split
    · exact h3.congr (by simp) (by simp) (by simp) (by simp) (by simp)
    · exact h3
  revert h4
  generalize (if r.relocPending then q.withReloc (q.reloc.filter (· != .record r.ticket)) else q) = q2
  intro h4
  have h5 : p.Reaches (if r.state = .held ∧ (!p.book.hasHeld b) = true then q2.sendHold b else q2) := by
    split
    · exact h4.trans (Blocks.sendHold_reaches _ _)
    · exact h4
  revert h5
  generalize (if r.state = .held ∧ (!p.book.hasHeld b) = true then q2.sendHold b else q2) = q3
  intro h5
  refine Blocks.Reaches.congr (q := if r.state = .held ∧ q3.book.hasHeld r.bay = false then q3.sendUnhold r.bay else q3) ?_
    (by simp) (by simp) (by simp) (by simp) (by simp)
  split
  · exact h5.trans (Blocks.sendUnhold_reaches _ _)
  · exact h5

theorem Blocks.relocate_reaches {p : Blocks} {sl : Slot} {r : Record} (hr : p.book.rec? sl = some r)
    (hl : r.state ≠ .settled) : p.Reaches (p.relocate sl r) := by
  unfold Blocks.relocate
  split
  · rename_i ht
    obtain ⟨h1, h2, h3, _⟩ := target_spec ht
    exact Blocks.moveRecord_reaches hr hl h1 h2 h3
  · exact Blocks.settle_reaches _ _ _ _ _

/-- What a filtered timeline lists. -/
theorem Book.mem_slotsWhere {k : Book} {b : BayNo} {cond : RecState → Bool} {sl : Slot} (h : sl ∈ k.slotsWhere b cond) :
    sl ∈ k.slotsOn b ∧ ∃ r, k.rec? sl = some r ∧ cond r.state = true := by
  simpa [Book.slotsWhere, List.mem_filter, Option.any_eq_true] using h

theorem RecState.pending_live {x : RecState} (h : x.pending = true) : x ≠ .settled := by
  intro e; subst e; simp [RecState.pending] at h

theorem Blocks.stepBay_reaches (p : Blocks) (b : BayNo) : p.Reaches (p.stepBay b) := by
  unfold Blocks.stepBay
  split
  · exact .of_book (by simp) (by simp) (by simp) (by simp) (by simp)
  · rename_i sl rest hp
    split
    · exact .refl p
    · rename_i r hr
      obtain ⟨_, r', hr', hs⟩ := Book.mem_slotsWhere (k := p.book) (b := b) (cond := RecState.pending) (sl := sl)
        (by rw [show p.book.slotsWhere b RecState.pending = sl :: rest from hp]; simp)
      rw [hr] at hr'
      cases hr'
      exact Blocks.relocate_reaches hr (RecState.pending_live hs)

theorem Book.byTicket_rec {k : Book} {t : Ticket} {sl : Slot} {r : Record} (h : k.byTicket t = some (sl, r)) :
    k.rec? sl = some r ∧ r.ticket = t := by
  simp only [Book.byTicket, Option.bind_eq_some_iff] at h
  obtain ⟨sl', _, r', h2, h3⟩ := h
  split at h3
  · cases h3; exact ⟨h2, ‹_›⟩
  · cases h3

theorem Book.put_same (k : Book) (sl : Slot) (r : Record) (h : k.rec? sl = some r) : k.put sl r = k := by
  have : setAt k.pool sl (some r) = k.pool := by
    simp only [Book.rec?] at h
    simp [setAt, ← h]
  simp [Book.put, this]

theorem Blocks.stepRecord_reaches (p : Blocks) (t : Ticket)
    (hs : ∀ sl r, p.book.byTicket t = some (sl, r) → r.state = .settled → r.relocPending = false) :
    p.Reaches (p.stepRecord t) := by
  unfold Blocks.stepRecord
  split
  · exact .of_book (by simp) (by simp) (by simp) (by simp) (by simp)
  · rename_i sl r hr
    have hr' := (Book.byTicket_rec hr).1
    split
    · rename_i hc
      exact (Blocks.relocate_reaches hr' (by rw [hc.1]; decide)).congr (by simp) (by simp) (by simp) (by simp) (by simp)
    · by_cases hl : r.state = .settled
      · refine .of_book (by simp) (by simp) ?_ (by simp) (by simp)
        have : { r with relocPending := false } = r := by
          have := hs sl r hr hl
          cases r; simp_all
        simp only [this, Blocks.withReloc_book, Blocks.putRecord, Blocks.withBook_book]
        exact Book.put_same _ _ _ hr'
      · exact Blocks.Reaches.congr (q := p.putRecord sl { r with relocPending := false })
          (Blocks.putRecord_reaches hr' hl hl rfl rfl rfl rfl rfl rfl rfl) (by simp) (by simp) (by simp) (by simp) (by simp)

theorem Blocks.departure_reaches (p : Blocks) (b : BayNo) : p.Reaches (p.departure b) := by
  have h1 : p.Reaches (p.setBay b ((p.bay b).rest p.params.claimWindow)) := .of_book (by simp) (by simp) (by simp) (by simp) (by simp)
  unfold Blocks.departure
  dsimp only
  split
  · exact h1.trans (Blocks.settle_reaches _ _ _ _ _)
  · exact h1

theorem Blocks.presenceEvent_reaches (p : Blocks) (b : BayNo) (on : Bool) : p.Reaches (p.presenceEvent b on) := by
  have h1 : ∀ x, p.Reaches (p.setBay b x) := fun x => .of_book (by simp) (by simp) (by simp) (by simp) (by simp)
  unfold Blocks.presenceEvent
  dsimp only
  split
  · exact .of_book (by simp) (by simp) (by simp) (by simp) (by simp)
  · exact .of_book (by simp) (by simp) (by simp) (by simp) (by simp)
  · exact .of_book (by simp) (by simp) (by simp) (by simp) (by simp)
  · exact .of_book (by simp) (by simp) (by simp) (by simp) (by simp)
  · exact (h1 _).trans (Blocks.departure_reaches _ _)
  · exact h1 _

theorem Blocks.faultEvent_reaches (p : Blocks) (b : BayNo) (on : Bool) : p.Reaches (p.faultEvent b on) := by
  have h1 : ∀ x, p.Reaches (p.setBay b x) := fun x => .of_book (by simp) (by simp) (by simp) (by simp) (by simp)
  unfold Blocks.faultEvent
  dsimp only
  split
  · exact h1 _
  · split
    · exact (Blocks.Reaches.of_book (by simp) (by simp) (by simp) (by simp) (by simp)).trans (Blocks.loseBay_reaches _ _ _)
    · exact .of_book (by simp) (by simp) (by simp) (by simp) (by simp)

/-- The record in a vehicle state that a bay serves. -/
theorem Book.servingOn_spec {k : Book} {b : BayNo} {sl : Slot} (h : k.servingOn b = some sl) :
    sl ∈ k.slotsOn b ∧ ∃ r, k.rec? sl = some r ∧ r.state.vehicle = true :=
  Book.mem_slotsWhere (List.mem_of_head? h)

theorem RecState.vehicle_live {x : RecState} (h : x.vehicle = true) : x ≠ .settled := by
  intro e; subst e; simp [RecState.vehicle] at h

theorem Blocks.doneReport_reaches (p : Blocks) (b : BayNo) : p.Reaches (p.doneReport b) := by
  unfold Blocks.doneReport
  (repeat' split)
  · exact .refl p
  · exact .refl p
  · rename_i sl _ _ r hr hs
    exact Blocks.Reaches.congr (q := p.putRecord sl { r with state := .parked })
      (Blocks.putRecord_reaches hr (by rw [hs]; decide) (by simp) rfl rfl rfl rfl rfl rfl rfl) (by simp) (by simp) (by simp) (by simp) (by simp)
  · exact .refl p
  · exact .refl p

theorem Blocks.reportBay_reaches (p : Blocks) (b : BayNo) (x y z : Bool) : p.Reaches (p.reportBay b x y z) := by
  unfold Blocks.reportBay
  dsimp only
  have h1 : p.Reaches (if y != (p.bay b).faultLine then p.faultEvent b y else p) := by
    split
    · exact Blocks.faultEvent_reaches _ _ _
    · exact .refl p
  revert h1
  generalize (if y != (p.bay b).faultLine then p.faultEvent b y else p) = q
  intro h1
  have h2 : p.Reaches (if x != (q.bay b).presence then q.presenceEvent b x else q) := by
    split
    · exact h1.trans (Blocks.presenceEvent_reaches _ _ _)
    · exact h1
  split
  · exact h2.trans (Blocks.doneReport_reaches _ _)
  · exact h2

theorem Blocks.takeReport_reaches (p : Blocks) (k : ModuleNo) (x : ModuleReport) : p.Reaches (p.takeReport k x) := by
  unfold Blocks.takeReport
  split
  · exact (Blocks.Reaches.of_book (by simp) (by simp) (by simp) (by simp) (by simp)).trans
      (.foldl _ _ _ fun q i _ => Blocks.reportBay_reaches _ _ _ _ _)
  · exact (Blocks.Reaches.of_book (q := p.setModule k (.online 0)) (by simp) (by simp) (by simp) (by simp) (by simp)).trans
      (.foldl _ _ _ fun q i _ => .of_book (by simp) (by simp) (by simp) (by simp) (by simp))

theorem Blocks.loseModule_reaches (p : Blocks) (k : ModuleNo) : p.Reaches (p.loseModule k) := by
  unfold Blocks.loseModule
  split
  · exact .refl p
  · refine Blocks.Reaches.congr (q := (moduleBays k).foldl Blocks.loseModuleBay (p.setModule k .offline)) ?_ (by simp) (by simp)
      (by simp) (by simp) (by simp)
    refine (Blocks.Reaches.of_book (q := p.setModule k .offline) (by simp) (by simp) (by simp) (by simp) (by simp)).trans
      (.foldl _ _ _ fun q b _ => ?_)
    have h1 : ∀ x, q.Reaches (q.setBay b x) := fun x => .of_book (by simp) (by simp) (by simp) (by simp) (by simp)
    unfold Blocks.loseModuleBay
    dsimp only
    (repeat' split)
    · exact .refl q
    · exact (h1 _).trans (Blocks.loseBay_reaches _ _ _)
    · exact h1 _

theorem Blocks.tick_reaches (p : Blocks) : p.Reaches p.tick := by
  have h : p.Reaches ((List.finRange Config.moduleCount).foldl Blocks.tickModule p) :=
    .foldl _ _ _ fun q k _ => by
      unfold Blocks.tickModule
      (repeat' split)
      · exact .refl q
      · exact Blocks.loseModule_reaches _ _
      · exact .of_book (by simp) (by simp) (by simp) (by simp) (by simp)
  unfold Blocks.tick
  dsimp only
  split <;> exact h.congr (by simp) (by simp) (by simp) (by simp) (by simp)

theorem Blocks.passRecord_reaches (m : Nat) (p : Blocks) (sl : Slot) : p.Reaches (p.passRecord m sl) := by
  have h1 : ∀ p : Blocks, p.Reaches (p.checkHoldLead m sl) := fun p => by
    unfold Blocks.checkHoldLead
    (repeat' split)
    · exact .refl p
    · rename_i r hr hc
      exact Blocks.putRecord_reaches hr (by rw [hc.1]; decide) (by simp) rfl rfl rfl rfl rfl rfl rfl
    · exact .refl p
  have h2 : ∀ p : Blocks, p.Reaches (p.checkGrace m sl) := fun p => by
    unfold Blocks.checkGrace
    (repeat' split)
    · exact .refl p
    · exact Blocks.settle_reaches _ _ _ _ _
    · exact .refl p
  have h3 : ∀ p : Blocks, p.Reaches (p.checkOccupied m sl) := fun p => by
    unfold Blocks.checkOccupied
    (repeat' split)
    · exact .refl p
    · rename_i r hr hc _
      exact Blocks.Reaches.congr (q := p.putRecord sl { r with relocPending := true })
        (Blocks.putRecord_reaches hr (by rw [hc.1]; decide) (by simp [hc.1]) rfl rfl rfl rfl rfl rfl rfl) (by simp) (by simp) (by simp) (by simp) (by simp)
    · exact Blocks.settle_reaches _ _ _ _ _
    · exact .refl p
  have h4 : ∀ p : Blocks, p.Reaches (p.checkEnd m sl) := fun p => by
    unfold Blocks.checkEnd
    dsimp only
    split
    · exact .refl p
    · rename_i r hr
      split
      · rename_i hc
        have : p.Reaches (p.putRecord sl { r with state := .overstay }) :=
          Blocks.putRecord_reaches hr (by rcases hc.1 with e | e <;> rw [e] <;> decide) (by simp) rfl rfl rfl rfl rfl rfl rfl
        split
        · exact this.congr (by simp) (by simp) (by simp) (by simp) (by simp)
        · exact this.congr (by simp) (by simp) (by simp) (by simp) (by simp)
      · exact .refl p
  exact (((h1 _).trans (h2 _)).trans (h3 _)).trans (h4 _)

theorem Blocks.deadlinePass_reaches (m : Nat) (p : Blocks) : p.Reaches (p.deadlinePass m) :=
  .foldl _ _ _ fun q b _ => by
    have : q.Reaches ((q.book.slotsOn b).foldl (Blocks.passRecord m) q) :=
      .foldl _ _ _ fun q sl _ => Blocks.passRecord_reaches m q sl
    unfold Blocks.passBay Blocks.compareHeld
    split
    · exact this.trans (Blocks.sendHold_reaches _ _)
    · exact this.trans (Blocks.sendUnhold_reaches _ _)
    · exact this

theorem Blocks.bookBoundary_reaches (p : Blocks) : p.Reaches p.bookBoundary := by
  unfold Blocks.bookBoundary
  dsimp only
  (repeat' split)
  · exact .refl p
  · exact (Blocks.Reaches.of_book (by simp) (by simp) (by simp) (by simp) (by simp)).trans (Blocks.deadlinePass_reaches _ _)
  · exact .of_book (by simp) (by simp) (by simp) (by simp) (by simp)

theorem Blocks.claim_reaches {p : Blocks} {sl : Slot} {r : Record} (hr : p.book.rec? sl = some r) (hs : r.state = .held) :
    p.Reaches (p.claim sl r) := by
  have h1 : p.Reaches (p.putRecord sl { r with state := .session, arrival := some p.now, relocPending := false }) :=
    Blocks.putRecord_reaches hr (by rw [hs]; decide) (by simp) rfl rfl rfl rfl rfl rfl rfl
  have h2 : ∀ q : Blocks, q.level = p.level → q.params = p.params →
      q.book = (p.putRecord sl { r with state := .session, arrival := some p.now, relocPending := false }).book →
      q.notices = p.notices → q.mail.toAlloc = p.mail.toAlloc ++ [.sessionRequest r.bay r.draw] → p.Reaches q := by
    intro q e1 e2 e3 e4 e5
    refine ⟨e1, e2, by rw [e3]; exact h1.2.2.1, fun h => (h1.2.2.2.1 h).congr e4 (by rw [e2]; rfl) (by rw [e3]) (by rw [e3]),
      fun h => ⟨by rw [e3]; exact (h1.2.2.2.2 h).1, fun b n hn => ?_⟩⟩
    rw [e5, List.mem_append, List.mem_singleton] at hn
    rcases hn with hn | hn
    · exact h.2 b n hn
    · cases hn; exact h.1 sl r hr
  unfold Blocks.claim
  dsimp only
  split <;> exact h2 _ (by simp) (by simp) (by simp) (by simp) (by simp)

/-- The flags agree after an update of the notice unit that recomputes ATTN and leaves the level flags. -/
theorem Blocks.NoticesAgree.update {p : Blocks} (h : p.NoticesAgree) {n : Notices} (ha : n.attn = n.wantsAttn)
    (hl : n.poolLow = p.notices.poolLow) (hs : n.settledWaiting = p.notices.settledWaiting) :
    (p.withNotices n).NoticesAgree := ⟨ha, hl.trans h.2.1, hs.trans h.2.2⟩

theorem Blocks.disable_reaches (p : Blocks) (b : BayNo) : p.Reaches (p.disable b) := by
  have clear : ∀ q : Blocks, q.Reaches (q.withNotices (q.notices.clearBay b)) := fun q =>
    ⟨rfl, rfl, .refl _, fun h => h.update rfl rfl rfl, id⟩
  unfold Blocks.disable
  dsimp only
  refine Blocks.Reaches.trans ?_ (clear _)
  split
  · exact .refl p
  · exact (Blocks.loseBay_reaches p b .disabled).congr (by simp) (by simp) (by simp) (by simp) (by simp)

theorem Blocks.setSupply_reaches (p : Blocks) (x : SupplyState) : p.Reaches (p.setSupply x) := by
  unfold Blocks.setSupply
  dsimp only
  split
  · exact .refl p
  · have h : ∀ q : Blocks, q.level = p.level → q.params = p.params → q.book = p.book → q.notices = p.notices →
        q.mail.toAlloc = p.mail.toAlloc →
        p.Reaches (if supplyChangeTold p.supply.state x then q.withNotices (q.notices.take .supplyChanged) else q) := by
      intro q h1 h2 h3 h4 h5
      refine (Blocks.Reaches.of_book h1 h2 h3 h4 fun b n => by rw [h5]; exact id).trans ?_
      split
      · exact ⟨rfl, rfl, .refl _, fun h => h.update rfl rfl rfl, id⟩
      · exact .refl q
    exact h _ (by simp) (by simp) (by simp) (by simp) (by simp)

theorem Blocks.takeRaise_reaches (p : Blocks) (y : Sender) (x : Raise) : p.Reaches (p.takeRaise y x) := by
  unfold Blocks.takeRaise
  split
  · refine Blocks.Reaches.trans
      (q := p.withMail { p.mail with raises := p.mail.raises.erase (y, x) }) (.of_book (by simp) (by simp) (by simp) (by simp) (by simp))
      ⟨rfl, rfl, .refl _, fun h => h.update ?_ ?_ ?_, id⟩ <;> cases x <;> rfl
  · exact .refl p

theorem Blocks.supplyBoundary_reaches (p : Blocks) : p.Reaches p.supplyBoundary := by
  unfold Blocks.supplyBoundary
  dsimp only
  (repeat' split)
  · exact .refl p
  · exact (Blocks.Reaches.of_book (by simp) (by simp) (by simp) (by simp) (by simp)).trans (Blocks.setSupply_reaches _ _)
  · exact .of_book (by simp) (by simp) (by simp) (by simp) (by simp)
  · exact .of_book (by simp) (by simp) (by simp) (by simp) (by simp)

theorem Blocks.mainsOkFall_reaches (p : Blocks) : p.Reaches p.mainsOkFall := by
  unfold Blocks.mainsOkFall
  dsimp only
  (repeat' split)
  · exact (Blocks.Reaches.of_book (by simp) (by simp) (by simp) (by simp) (by simp)).trans (Blocks.setSupply_reaches _ _)
  · exact .of_book (by simp) (by simp) (by simp) (by simp) (by simp)
  · exact .of_book (by simp) (by simp) (by simp) (by simp) (by simp)
  · exact .of_book (by simp) (by simp) (by simp) (by simp) (by simp)
  · exact .refl p

/-- What a change of the blocks is at the book. -/
inductive BookChange (p q : Blocks) : Prop
  | reach : p.Reaches q → BookChange p q
  | create (r : Record) (k : Book) (r' : Record) : p.Fits r → r.state ≠ .settled → r.outcome = none → p.book.create r = some (k, r') →
      q.level = p.level → q.params = p.params → BookReach p.params.turnoverGap k q.book → q.NoticesAgree →
      (p.DrawsSound → q.DrawsSound) → BookChange p q
  | extend (sl : Slot) (r : Record) (n : Nat) : p.book.rec? sl = some r → r.state ≠ .settled →
      firstRefusal (extendChecks p sl r n) = none → q = p.extend sl r n → BookChange p q
  | collect (sl : Slot) (r : Record) : p.book.rec? sl = some r → r.state = .settled → q = p.collect sl → BookChange p q
  | restart : q.book = p.book.restart → q.level = .configuring → q.params = p.params → q.NoticesAgree →
      (p.DrawsSound → q.DrawsSound) → BookChange p q
  | params : q.book = p.book → p.level = .configuring → q.level = p.level → q.NoticesAgree →
      (p.DrawsSound → q.DrawsSound) → BookChange p q
  | opened : q.book = p.book → q.params = p.params → q.level = .opened → (p.NoticesAgree → q.NoticesAgree) →
      (p.DrawsSound → q.DrawsSound) → BookChange p q

/-- No settled record is marked for relocation (R10). -/
def Book.SettledUnmarked (k : Book) : Prop :=
  ∀ (sl : Slot) (r : Record), k.rec? sl = some r → r.state = .settled → r.relocPending = false

/-- A record of a draw in range joins a book whose records' draws are. -/
theorem Book.draws_create {k l : Book} {r r' : Record} (h : ∀ (sl : Slot) (x : Record), k.rec? sl = some x → 6 ≤ x.draw)
    (hd : 6 ≤ r.draw) (hc : k.create r = some (l, r')) (sl : Slot) (x : Record) (hx : l.rec? sl = some x) : 6 ≤ x.draw := by
  unfold Book.create at hc
  split at hc
  · cases hc
  · rename_i s0 rest _
    cases hc
    exact Book.draws_put (k := { k with free := rest }) h
      (r := { r with ticket := { slot := s0.val, gen := k.gens[s0] } }) hd sl x hx

theorem change_book {p q : Blocks} (hu : p.book.SettledUnmarked) (h : Change p q) : BookChange p q := by
  cases h with
  | booked r hs hp ho hf =>
    unfold admitHeld
    cases hc : p.book.create r with
    | none => exact .reach (.refl p)
    | some x =>
      obtain ⟨k, r'⟩ := x
      have h := Blocks.evalPool_agree ((p.withBook k).markUsed r.originClass r.originZone)
      refine .create r k r' hf (by rcases hs with e | e <;> rw [e] <;> decide) ho hc ?_ ?_ ?_ ?_ ?_ <;> dsimp only [accept] <;> split
      · simp
      · simp
      · simp
      · simp
      · simpa [Blocks.sendHold, Blocks.report] using BookReach.report k r.bay true
      · simpa using BookReach.refl k
      · exact h.congr (by simp) (by simp) (by simp [Blocks.sendHold, Blocks.report]) (by simp [Blocks.sendHold, Blocks.report])
      · exact h
      · exact fun hp => ⟨fun sl x hx => Book.draws_create hp.1 hf.2.2.2.2.2.2 hc sl x
          (by simpa [Blocks.sendHold, Blocks.report, Book.rec?] using hx), fun b n hn => hp.2 b n (by simpa using hn)⟩
      · exact fun hp => ⟨fun sl x hx => Book.draws_create hp.1 hf.2.2.2.2.2.2 hc sl x (by simpa using hx),
          fun b n hn => hp.2 b n (by simpa using hn)⟩
  | bookedServing r hs hp ho hf hb =>
    unfold admitServing
    cases hc : p.book.create r with
    | none => exact .reach (.refl p)
    | some x =>
      obtain ⟨k, r'⟩ := x
      have h := Blocks.evalPool_agree ((p.withBook k).markUsed r.originClass r.originZone)
      refine .create r k r' hf (by rw [hs]; decide) ho hc (by simp [accept]) (by simp [accept])
        (by simpa [accept] using BookReach.refl k) ?_ fun hp =>
        ⟨fun sl x hx => Book.draws_create hp.1 hf.2.2.2.2.2.2 hc sl x (by simpa [accept] using hx), fun b n hn => ?_⟩
      rotate_left
      · simp only [accept, Blocks.sendAlloc_toAlloc, Blocks.setBay_mail, Blocks.evalPool_mail, Blocks.markUsed_mail,
          Blocks.withBook_mail, List.mem_append, List.mem_singleton] at hn
        rcases hn with hn | hn
        · exact hp.2 b n hn
        · cases hn; exact hf.2.2.2.2.2.2
      exact h.congr (by simp [accept]) (by simp [accept]) (by simp [accept]) (by simp [accept])
  | extended sl r n h1 h2 h3 => exact .extend sl r n h1 h2 h3 rfl
  | settled sl o ho => exact .reach (Blocks.settle_reaches _ _ _ _ _)
  | claimed sl r h1 h2 => exact .reach (Blocks.claim_reaches h1 h2)
  | collected sl r h1 h2 => exact .collect sl r h1 h2 rfl
  | configured b c h _ => exact .reach ((Blocks.Reaches.of_book (by simp) (by simp) (by simp) (by simp) (by simp)).trans (Blocks.setAction_reaches _ _ _))
  | disabled b => exact .reach (Blocks.disable_reaches p b)
  | groupLevel g l =>
    exact .reach ((Blocks.Reaches.of_book (by simp) (by simp) (by simp) (by simp) (by simp)).trans (Blocks.recomputeMembers_reaches _ _))
  | params body x h1 h2 =>
    exact .params (by simp) h1 (by simp) (Blocks.evalPool_agree _) fun h => h.congr (by simp) (by simp)
  | opened => exact .opened rfl rfl rfl (fun h => h.congr rfl rfl rfl rfl) fun h => h.congr rfl fun _ _ => id
  | restarted => 
    refine .restart rfl rfl (by rw [Blocks.restartLevel_params]) (Blocks.evalPool_agree _) fun _ => ⟨fun x y hy => ?_, fun b n hn => ?_⟩
    · have : p.book.restart.rec? x = some y := hy
      simp [Book.restart, Book.powerOn, Book.rec?] at this
    · have : AllocMsg.sessionRequest b n ∈ Mail.powerOn.toAlloc := hn
      simp [Mail.powerOn] at this
  | stepBay b x rest h => exact .reach (Blocks.stepBay_reaches p b)
  | stepRecord t rest h =>
    exact .reach (Blocks.stepRecord_reaches p t fun sl r h1 h2 => hu sl r (Book.byTicket_rec h1).1 h2)
  | reported k x => exact .reach (Blocks.takeReport_reaches p k x)
  | lost k => exact .reach (Blocks.loseModule_reaches p k)
  | pass => exact .reach (Blocks.bookBoundary_reaches p)
  | dr x => exact .reach ((Blocks.Reaches.of_book (by simp) (by simp) (by simp) (by simp) (by simp)).trans (Blocks.recomputeMembers_reaches _ _))
  | alarm x => exact .reach ((Blocks.Reaches.of_book (by simp) (by simp) (by simp) (by simp) (by simp)).trans (Blocks.recomputeMembers_reaches _ _))
  | tick => exact .reach (Blocks.tick_reaches p)
  | switched => exact .reach (Blocks.setSupply_reaches _ _)
  | settleCount => exact .reach (Blocks.supplyBoundary_reaches p)
  | fall => exact .reach (Blocks.mainsOkFall_reaches p)
  | noticesCleared sel bays modules => exact .reach ⟨rfl, rfl, .refl _, fun h => h.update rfl rfl rfl, id⟩
  | mask m => exact .reach ⟨rfl, rfl, .refl _, fun h => h.update rfl rfl rfl, id⟩
  | raiseTaken y x => exact .reach (Blocks.takeRaise_reaches p y x)
  | request b n => exact .reach (.of_book (by simp) (by simp) (by simp) (by simp) fun _ _ => p.takeRequest_mem b n)
  | release b => exact .reach (.of_book (by simp) (by simp) (by simp) (by simp) fun _ _ => p.takeRelease_mem b)
  | _ => exact .reach (.of_book (by simp) (by simp) (by simp) (by simp) (by simp))

/-- Every change keeps ATTN and the level flags in agreement. -/
theorem change_notices {p q : Blocks} (hu : p.book.SettledUnmarked) (h : Change p q) (hp : p.NoticesAgree) : q.NoticesAgree := by
  cases change_book hu h with
  | reach h => exact h.2.2.2.1 hp
  | create r k r' _ _ _ _ _ _ _ h _ => exact h
  | extend sl r n h1 h2 h3 h4 => subst h4; exact hp.congr rfl rfl rfl rfl
  | collect sl r h1 h2 h3 => subst h3; exact Blocks.evalPool_agree _
  | restart h1 h2 h3 h _ => exact h
  | params h1 h2 h3 h _ => exact h
  | opened h1 h2 h3 h _ => exact h hp

/-- Every change keeps the draws in range (R29, R117). -/
theorem change_draws {p q : Blocks} (hu : p.book.SettledUnmarked) (h : Change p q) (hp : p.DrawsSound) : q.DrawsSound := by
  cases change_book hu h with
  | reach h => exact h.2.2.2.2 hp
  | create r k r' _ _ _ _ _ _ _ _ h => exact h hp
  | extend sl r n h1 h2 h3 h4 => subst h4; exact ⟨Book.draws_put hp.1 (hp.1 sl r h1), hp.2⟩
  | collect sl r h1 h2 h3 =>
    subst h3
    refine ⟨fun x y hy => ?_, hp.2⟩
    have : (p.book.collect sl).rec? x = some y := hy
    simp only [Book.collect, Book.rec?, Fin.getElem_fin, setAt_get] at this
    split at this
    · cases this
    · exact hp.1 x y this
  | restart h1 h2 h3 h4 h => exact h hp
  | params h1 h2 h3 h4 h => exact h hp
  | opened h1 h2 h3 h4 h => exact h hp

end Sys2Proof.Machine
end

