-- ==== Sys2Proof/Laws/Book.lean ====
section
/-! SUPPORT. What the book's operations do to the pool, the timelines and the settled set, and that every change keeps each
record in exactly one place (R5, R8, R10, R12, R13, R24). -/

namespace Sys2Proof.Machine

/-! ## Lists -/

theorem insertByStart_perm (f : Slot → Nat) (s : Nat) (sl : Slot) (xs : List Slot) :
    (insertByStart f s sl xs).Perm (sl :: xs) := by
  induction xs with
  | nil => exact .refl _
  | cons x xs ih =>
    unfold insertByStart
    split
    · exact (ih.cons x).trans (.swap sl x xs)
    · exact .refl _

theorem insertSlot_perm (sl : Slot) (xs : List Slot) : (insertSlot sl xs).Perm (sl :: xs) := by
  induction xs with
  | nil => exact .refl _
  | cons x xs ih =>
    unfold insertSlot
    split
    · exact (ih.cons x).trans (.swap sl x xs)
    · exact .refl _

theorem mem_insertByStart {f : Slot → Nat} {s : Nat} {sl x : Slot} {xs : List Slot} :
    x ∈ insertByStart f s sl xs ↔ x = sl ∨ x ∈ xs := by
  rw [(insertByStart_perm f s sl xs).mem_iff, List.mem_cons]

theorem mem_insertSlot {sl x : Slot} {xs : List Slot} : x ∈ insertSlot sl xs ↔ x = sl ∨ x ∈ xs := by
  rw [(insertSlot_perm sl xs).mem_iff, List.mem_cons]

theorem nodup_insertByStart {f : Slot → Nat} {s : Nat} {sl : Slot} {xs : List Slot} (h : xs.Nodup) (hn : sl ∉ xs) :
    (insertByStart f s sl xs).Nodup := (insertByStart_perm f s sl xs).nodup_iff.2 (List.nodup_cons.2 ⟨hn, h⟩)

theorem nodup_insertSlot {sl : Slot} {xs : List Slot} (h : xs.Nodup) (hn : sl ∉ xs) : (insertSlot sl xs).Nodup :=
  (insertSlot_perm sl xs).nodup_iff.2 (List.nodup_cons.2 ⟨hn, h⟩)

theorem nextGen_lt (g : Nat) : nextGen g < Config.generations := by
  unfold nextGen
  split
  · assumption
  · decide

/-! ## Reading after writing -/

theorem Book.rec_put (k : Book) (sl sl' : Slot) (r : Record) :
    (k.put sl r).rec? sl' = if sl = sl' then some r else k.rec? sl' := by
  simp [Book.put, Book.rec?, setAt_get]

@[simp] theorem Book.slotsOn_put (k : Book) (sl : Slot) (r : Record) (b : BayNo) : (k.put sl r).slotsOn b = k.slotsOn b := rfl
@[simp] theorem Book.free_put (k : Book) (sl : Slot) (r : Record) : (k.put sl r).free = k.free := rfl
@[simp] theorem Book.settled_put (k : Book) (sl : Slot) (r : Record) : (k.put sl r).settled = k.settled := rfl
@[simp] theorem Book.gens_put (k : Book) (sl : Slot) (r : Record) : (k.put sl r).gens = k.gens := rfl
@[simp] theorem Book.tokens_put (k : Book) (sl : Slot) (r : Record) : (k.put sl r).tokens = k.tokens := rfl

@[simp] theorem Book.rec_joinTimeline (k : Book) (b : BayNo) (s : Nat) (sl sl' : Slot) :
    (k.joinTimeline b s sl).rec? sl' = k.rec? sl' := rfl
@[simp] theorem Book.rec_leaveTimeline (k : Book) (b : BayNo) (sl sl' : Slot) :
    (k.leaveTimeline b sl).rec? sl' = k.rec? sl' := rfl

theorem Book.slotsOn_joinTimeline (k : Book) (b c : BayNo) (s : Nat) (sl : Slot) :
    (k.joinTimeline b s sl).slotsOn c = if b = c then insertByStart k.startOf s sl (k.slotsOn b) else k.slotsOn c := by
  simp only [Book.joinTimeline, Book.slotsOn, Fin.getElem_fin, setAt_get]

theorem Book.slotsOn_leaveTimeline (k : Book) (b c : BayNo) (sl : Slot) :
    (k.leaveTimeline b sl).slotsOn c = if b = c then (k.slotsOn b).filter (· != sl) else k.slotsOn c := by
  simp only [Book.leaveTimeline, Book.slotsOn, Fin.getElem_fin, setAt_get]

/-! ## Every record in one place -/

theorem Book.Sound.congr {k l : Book} (h : k.Sound) (hp : l.pool = k.pool) (hg : l.gens = k.gens) (hf : l.free = k.free)
    (ht : l.timelines = k.timelines) (hs : l.settled = k.settled) : l.Sound := by
  have hr : l.rec? = k.rec? := by funext sl; simp [Book.rec?, hp]
  have hb : l.slotsOn = k.slotsOn := by funext b; simp [Book.slotsOn, ht]
  simpa only [Book.Sound, hr, hb, hg, hf, hs] using h

/-- The outcome and the relocation mark of a settled record (R3, R10). -/
theorem Book.Sound.unmarked {k : Book} (h : k.Sound) : k.SettledUnmarked := fun sl r hr => (h.2.2.2.2.2.2.2.2 sl r hr).2

theorem Book.Sound.put {k : Book} (h : k.Sound) {sl : Slot} {r r' : Record} (hr : k.rec? sl = some r) (hl : r.state ≠ .settled)
    (hl' : r'.state ≠ .settled) (ht : r'.ticket = r.ticket) (hb : r'.bay = r.bay) (ho : r'.outcome = r.outcome) :
    (k.put sl r').Sound := by
  obtain ⟨h1, h2, h3, h4, h5, h6, h7, h8, h9⟩ := h
  refine ⟨h1, h2, h3, fun x => ?_, fun x => ?_, fun b x => ?_, fun x y hy => ?_, h8, fun x y hy => ?_⟩
  · rw [Book.rec_put]
    by_cases e : sl = x
    · subst e; simp [h4, hr]
    · simpa [e] using h4 x
  · rw [Book.rec_put]
    by_cases e : sl = x
    · subst e
      have := h5 sl
      simp [hr, hl] at this
      simp [this, hl']
    · simpa [e] using h5 x
  · rw [Book.rec_put]
    by_cases e : sl = x
    · subst e
      have := h6 b sl
      simp [hr, hl] at this
      simp [this, hl', hb]
    · simpa [e] using h6 b x
  · rw [Book.rec_put] at hy
    by_cases e : sl = x
    · subst e; simp at hy; subst hy; rw [ht]; exact h7 sl r hr
    · rw [if_neg e] at hy; exact h7 x y hy
  · rw [Book.rec_put] at hy
    by_cases e : sl = x
    · subst e; simp at hy; subst hy
      refine ⟨?_, fun e => absurd e hl'⟩
      rw [ho]
      simpa [hl, hl'] using (h9 sl r hr).1
    · rw [if_neg e] at hy; exact h9 x y hy

/-- What the settlement of a live record gives at the book (R10). -/
theorem Book.settle_spec {k : Book} {sl : Slot} {r : Record} (hr : k.rec? sl = some r) (hl : r.state ≠ .settled) (o : Result)
    (c : Option Cause) (m : Nat) :
    (k.settle sl o c m).free = k.free ∧ (k.settle sl o c m).gens = k.gens ∧
    (k.settle sl o c m).settled = insertSlot sl k.settled ∧ (k.settle sl o c m).heldReport = k.heldReport ∧
    (k.settle sl o c m).tokens = leaveEntry r.token sl k.tokens ∧
    (∀ x, (k.settle sl o c m).rec? x = if sl = x then some (r.settledWith o c m) else k.rec? x) ∧
    (∀ b, (k.settle sl o c m).slotsOn b = if r.bay = b then (k.slotsOn b).filter (· != sl) else k.slotsOn b) := by
  unfold Book.settle
  simp only [hr, if_neg hl]
  refine ⟨rfl, rfl, rfl, rfl, rfl, fun x => Book.rec_put k sl x _, fun b => ?_⟩
  refine (Book.slotsOn_leaveTimeline _ _ b _).trans ?_
  split
  · rename_i e; subst e; rfl
  · rfl

/-- A settlement that finds no live record changes nothing (R9). -/
theorem Book.settle_none {k : Book} {sl : Slot} (h : ∀ r, k.rec? sl = some r → r.state = .settled) (o : Result)
    (c : Option Cause) (m : Nat) : k.settle sl o c m = k := by
  unfold Book.settle
  split
  · rfl
  · rename_i r hr; rw [if_pos (h r hr)]

theorem Book.Sound.settle {k : Book} (h : k.Sound) (sl : Slot) (o : Result) (c : Option Cause) (m : Nat) :
    (k.settle sl o c m).Sound := by
  by_cases hx : ∀ r, k.rec? sl = some r → r.state = .settled
  · rw [Book.settle_none hx]; exact h
  · simp only [not_forall] at hx
    obtain ⟨r, hr, hl⟩ := hx
    obtain ⟨h1, h2, h3, h4, h5, h6, h7, h8, h9⟩ := h
    obtain ⟨e1, e2, e3, _, _, rd, tl⟩ := Book.settle_spec hr hl o c m
    have hns : sl ∉ k.settled := fun hm => by
      obtain ⟨r', hr', hs⟩ := (h5 sl).1 hm
      rw [hr] at hr'; cases hr'; exact hl hs
    refine ⟨e1 ▸ h1, e3 ▸ nodup_insertSlot h2 hns, fun b => ?_, fun x => ?_, fun x => ?_, fun b x => ?_, fun x y hy => ?_,
      e2 ▸ h8, fun x y hy => ?_⟩
    · rw [tl]
      split
      · exact (h3 _).filter _
      · exact h3 _
    · rw [rd, e1]
      by_cases e : sl = x
      · subst e; simp [h4, hr]
      · simpa [e] using h4 x
    · rw [rd, e3, mem_insertSlot]
      by_cases e : sl = x
      · subst e; simp [Record.settledWith]
      · have e' : ¬ x = sl := fun y => e y.symm
        simpa [e, e'] using h5 x
    · rw [rd, tl]
      by_cases e : sl = x
      · subst e
        simp only [if_true, Option.some.injEq, exists_eq_left']
        constructor
        · intro hm
          split at hm
          · simp at hm
          · rename_i hb
            obtain ⟨r', hr', _, hb'⟩ := (h6 b sl).1 hm
            rw [hr] at hr'; cases hr'; exact absurd hb' hb
        · rintro ⟨hs, _⟩; exact absurd rfl hs
      · have e' : ¬ x = sl := fun y => e y.symm
        rw [if_neg e]
        split
        · rename_i hb; subst hb; simpa [e'] using h6 r.bay x
        · exact h6 b x
    · rw [rd] at hy
      by_cases e : sl = x
      · subst e; simp at hy; subst hy; rw [e2]; exact h7 sl r hr
      · rw [if_neg e] at hy; rw [e2]; exact h7 x y hy
    · rw [rd] at hy
      by_cases e : sl = x
      · subst e; simp at hy; subst hy; simp [Record.settledWith]
      · rw [if_neg e] at hy; exact h9 x y hy

theorem Book.Sound.move {k : Book} (h : k.Sound) {sl : Slot} {r : Record} (hr : k.rec? sl = some r) (hl : r.state ≠ .settled)
    {b : BayNo} (hb : b ≠ r.bay) : (k.move sl r b).Sound := by
  obtain ⟨h1, h2, h3, h4, h5, h6, h7, h8, h9⟩ := h
  have rd : ∀ x, (k.move sl r b).rec? x = if sl = x then some (r.movedTo b) else k.rec? x := fun x => Book.rec_put k sl x _
  have tl : ∀ c, (k.move sl r b).slotsOn c =
      if b = c then insertByStart ((k.leaveTimeline r.bay sl).put sl (r.movedTo b)).startOf r.start sl (k.slotsOn b)
      else if r.bay = c then (k.slotsOn r.bay).filter (· != sl) else k.slotsOn c := fun c => by
    simp only [Book.move, Book.slotsOn_joinTimeline, Book.slotsOn_put, Book.slotsOn_leaveTimeline]
    split
    · rename_i e; rw [if_neg (fun x => hb x.symm)]
    · rfl
  have hnb : sl ∉ k.slotsOn b := fun hm => by
    obtain ⟨r', hr', _, hb'⟩ := (h6 b sl).1 hm
    rw [hr] at hr'; cases hr'; exact hb hb'.symm
  refine ⟨h1, h2, fun c => ?_, fun x => ?_, fun x => ?_, fun c x => ?_, fun x y hy => ?_, h8, fun x y hy => ?_⟩
  · rw [tl]
    (repeat' split)
    · exact nodup_insertByStart (h3 b) hnb
    · exact (h3 _).filter _
    · exact h3 _
  · rw [rd]
    show x ∈ k.free ↔ _
    by_cases e : sl = x
    · subst e; simp [h4, hr]
    · simpa [e] using h4 x
  · rw [rd]
    show x ∈ k.settled ↔ _
    by_cases e : sl = x
    · subst e
      have := h5 sl
      simp [hr, hl] at this
      simp [this, Record.movedTo, hl]
    · simpa [e] using h5 x
  · rw [rd, tl]
    by_cases e : sl = x
    · subst e
      simp only [if_true, Option.some.injEq, exists_eq_left']
      have hs : (r.movedTo b).state ≠ .settled := hl
      have hbb : (r.movedTo b).bay = b := rfl
      rw [hbb]
      by_cases e2 : b = c
      · subst e2; simp [mem_insertByStart, hs]
      · rw [if_neg e2]
        simp only [e2, and_false, iff_false]
        split
        · simp
        · intro hm
          obtain ⟨r', hr', _, hb'⟩ := (h6 c sl).1 hm
          rw [hr] at hr'; cases hr'; exact absurd hb' ‹_›
    · have e' : ¬ x = sl := fun y => e y.symm
      rw [if_neg e]
      split
      · rename_i e2; subst e2; simpa [mem_insertByStart, e'] using h6 b x
      · split
        · rename_i e3; subst e3; simpa [e'] using h6 r.bay x
        · exact h6 c x
  · rw [rd] at hy
    by_cases e : sl = x
    · subst e; simp at hy; subst hy; exact h7 sl r hr
    · rw [if_neg e] at hy; exact h7 x y hy
  · rw [rd] at hy
    by_cases e : sl = x
    · subst e; simp at hy; subst hy; exact ⟨(h9 sl r hr).1, fun _ => rfl⟩
    · rw [if_neg e] at hy; exact h9 x y hy

theorem Book.Sound.reach {g : Nat} {k l : Book} (h : BookReach g k l) (hk : k.Sound) : l.Sound := by
  induction h with
  | refl => exact hk
  | report k b x => exact hk.congr rfl rfl rfl rfl rfl
  | put k sl r r' h1 h2 h3 h4 h5 h6 h7 h8 h9 _ => exact hk.put h1 h2 h3 h4 h6 h9
  | settle k sl o c m => exact hk.settle sl o c m
  | move k sl r b h1 h2 h3 h4 h5 => exact hk.move h1 h2 h3
  | trans _ _ i1 i2 => exact i2 (i1 hk)

/-- What creation gives (R1). -/
theorem Book.create_spec {k l : Book} {r r' : Record} (h : k.create r = some (l, r')) :
    ∃ sl rest, k.free = sl :: rest ∧ r' = { r with ticket := { slot := sl.val, gen := k.gens[sl] } } ∧
      l.free = rest ∧ l.gens = k.gens ∧ l.settled = k.settled ∧ l.heldReport = k.heldReport ∧
      (∀ x, l.rec? x = if sl = x then some r' else k.rec? x) ∧
      (∀ b, l.slotsOn b = if r.bay = b then insertByStart (k.put sl r').startOf r.start sl (k.slotsOn r.bay) else k.slotsOn b) ∧
      l.tokens = joinEntry (k.put sl r').startOf r.token r.start sl k.tokens := by
  unfold Book.create at h
  split at h
  · cases h
  · rename_i sl rest hf
    injection h with h
    injection h with h1 h2
    refine ⟨sl, rest, hf, h2.symm, ?_, ?_, ?_, ?_, ?_, ?_, ?_⟩
    all_goals subst h1; subst h2
    · rfl
    · rfl
    · rfl
    · rfl
    · intro x
      exact Book.rec_put k sl x _
    · intro b
      exact Book.slotsOn_joinTimeline _ _ b _ _
    · rfl

theorem Book.Sound.create {k l : Book} (h : k.Sound) {r r' : Record} (hs : r.state ≠ .settled) (ho : r.outcome = none)
    (hc : k.create r = some (l, r')) : l.Sound := by
  obtain ⟨h1, h2, h3, h4, h5, h6, h7, h8, h9⟩ := h
  obtain ⟨sl, rest, hf, hr', e1, e2, e3, _, rd, tl, _⟩ := Book.create_spec hc
  have hfree : k.rec? sl = none := (h4 sl).1 (by rw [hf]; simp)
  rw [hf] at h1
  obtain ⟨hn1, hn2⟩ := List.nodup_cons.1 h1
  have hs' : r'.state ≠ .settled := by rw [hr']; exact hs
  have hb' : r'.bay = r.bay := by rw [hr']
  have hnon : ∀ b, sl ∉ k.slotsOn b := fun b hm => by
    obtain ⟨x, hx, _⟩ := (h6 b sl).1 hm
    rw [hfree] at hx; cases hx
  refine ⟨e1 ▸ hn2, e3 ▸ h2, fun b => ?_, fun x => ?_, fun x => ?_, fun b x => ?_, fun x y hy => ?_, e2 ▸ h8, fun x y hy => ?_⟩
  · rw [tl]
    split
    · exact nodup_insertByStart (h3 _) (hnon _)
    · exact h3 b
  · rw [rd, e1]
    by_cases e : sl = x
    · subst e; simp [hn1]
    · have := h4 x
      rw [hf, List.mem_cons] at this
      have e' : ¬ x = sl := fun y => e y.symm
      simpa [e, e'] using this
  · rw [rd, e3]
    by_cases e : sl = x
    · subst e
      have := h5 sl
      simp [hfree] at this
      simp [this, hs']
    · simpa [e] using h5 x
  · rw [rd, tl]
    by_cases e : sl = x
    · subst e
      simp only [if_true, Option.some.injEq, exists_eq_left', hb']
      by_cases e2 : r.bay = b
      · simp [e2, mem_insertByStart, hs']
      · simp [e2, hnon b]
    · have e' : ¬ x = sl := fun y => e y.symm
      rw [if_neg e]
      split
      · rename_i e2; subst e2; simpa [mem_insertByStart, e'] using h6 r.bay x
      · exact h6 b x
  · rw [rd] at hy
    by_cases e : sl = x
    · subst e; simp at hy; subst hy; rw [hr', e2]
    · rw [if_neg e] at hy; rw [e2]; exact h7 x y hy
  · rw [rd] at hy
    by_cases e : sl = x
    · subst e; simp at hy; subst hy
      have ho' : r'.outcome = none := by rw [hr']; exact ho
      exact ⟨by simp [ho', hs'], fun e => absurd e hs'⟩
    · rw [if_neg e] at hy; exact h9 x y hy

theorem Book.Sound.collect {k : Book} (h : k.Sound) {sl : Slot} {r : Record} (hr : k.rec? sl = some r)
    (hs : r.state = .settled) : (k.collect sl).Sound := by
  obtain ⟨h1, h2, h3, h4, h5, h6, h7, h8, h9⟩ := h
  have rd : ∀ x, (k.collect sl).rec? x = if sl = x then none else k.rec? x := fun x => by
    simp [Book.collect, Book.rec?, setAt_get]
  have gens : ∀ x : Slot, (k.collect sl).gens[x] = if sl = x then nextGen k.gens[sl] else k.gens[x] := fun x => by
    simp only [Book.collect, Fin.getElem_fin, setAt_get]
  have hnf : sl ∉ k.free := fun hm => by rw [(h4 sl).1 hm] at hr; cases hr
  refine ⟨?_, h2.filter _, h3, fun x => ?_, fun x => ?_, fun b x => ?_, fun x y hy => ?_, fun x => ?_, fun x y hy => ?_⟩
  · show (k.free ++ [sl]).Nodup
    rw [List.nodup_append]
    exact ⟨h1, by simp, fun a ha b hb => by simp at hb; subst hb; exact fun e => hnf (e ▸ ha)⟩
  · rw [rd]
    show x ∈ k.free ++ [sl] ↔ _
    by_cases e : sl = x
    · subst e; simp
    · have e' : ¬ x = sl := fun y => e y.symm
      simpa [e, e'] using h4 x
  · rw [rd]
    show x ∈ k.settled.filter (· != sl) ↔ _
    by_cases e : sl = x
    · subst e; simp
    · have e' : ¬ x = sl := fun y => e y.symm
      simpa [e, e'] using h5 x
  · rw [rd]
    show x ∈ k.slotsOn b ↔ _
    by_cases e : sl = x
    · subst e
      have := h6 b sl
      simp [hr, hs] at this
      simp [this]
    · simpa [e] using h6 b x
  · rw [rd] at hy
    by_cases e : sl = x
    · simp [e] at hy
    · rw [if_neg e] at hy; rw [gens, if_neg e]; exact h7 x y hy
  · rw [gens]
    split
    · exact nextGen_lt _
    · exact h8 x
  · rw [rd] at hy
    by_cases e : sl = x
    · simp [e] at hy
    · rw [if_neg e] at hy; exact h9 x y hy

theorem Book.rec_empty (sl : Slot) : Book.powerOn.rec? sl = none := by
  simp [Book.powerOn, Book.rec?]

theorem Book.slotsOn_empty (b : BayNo) : Book.powerOn.slotsOn b = [] := by
  simp [Book.powerOn, Book.slotsOn]

/-- A book with no record and every slot free is sound, whatever its generations. -/
theorem Book.Sound.empty (g : Vector Nat Config.poolSize) (h : ∀ sl : Slot, g[sl] < Config.generations) :
    { Book.powerOn with gens := g }.Sound := by
  have rd : ∀ sl : Slot, { Book.powerOn with gens := g }.rec? sl = none := fun sl => by simp [Book.powerOn, Book.rec?]
  have tl : ∀ b : BayNo, { Book.powerOn with gens := g }.slotsOn b = [] := fun b => by simp [Book.powerOn, Book.slotsOn]
  have fr : { Book.powerOn with gens := g }.free = List.finRange Config.poolSize := by simp only [Book.powerOn]
  refine ⟨by rw [fr]; exact List.nodup_finRange Config.poolSize, by simp [Book.powerOn], fun b => by rw [tl]; exact List.nodup_nil, fun x => ?_, fun x => ?_,
    fun b x => ?_, fun x y hy => ?_, h, fun x y hy => ?_⟩
  · rw [rd, fr]; simp
  · rw [rd]; simp [Book.powerOn]
  · rw [rd, tl]; simp
  · rw [rd] at hy; cases hy
  · rw [rd] at hy; cases hy

theorem Book.Sound.restart {k : Book} (h : k.Sound) : k.restart.Sound := by
  refine Book.Sound.empty _ fun sl => ?_
  simp only [Fin.getElem_fin, Vector.getElem_ofFn]
  split
  · exact nextGen_lt _
  · exact h.2.2.2.2.2.2.2.1 sl

/-- Every change keeps every record in exactly one place. -/
theorem change_bookSound {p q : Blocks} (h : Change p q) (hp : p.book.Sound) : q.book.Sound := by
  cases change_book hp.unmarked h with
  | reach h => exact Book.Sound.reach h.2.2.1 hp
  | create r k r' hf hs ho hc _ _ hr _ => exact Book.Sound.reach hr (hp.create hs ho hc)
  | extend sl r n h1 h2 h3 h4 => subst h4; exact hp.put h1 h2 h2 rfl rfl rfl
  | collect sl r h1 h2 h3 => subst h3; simpa [Blocks.collect] using hp.collect h1 h2
  | restart h1 h2 h3 h4 => rw [h1]; exact hp.restart
  | params h1 h2 h3 h4 => rw [h1]; exact hp
  | opened h1 h2 h3 h4 => rw [h1]; exact hp

end Sys2Proof.Machine
end

