-- ==== Sys2Proof/Laws/Alloc.lean ====
section
/-! SUPPORT. What the allocator's operations leave: the copies of the supply state and of the actions; and that every post
command stays the one its session asks for (R84). -/

namespace Sys2Proof.Machine

/-! ## The copies of the supply state and of the actions -/

@[simp] theorem Allocator.setFeeder_supply (a : Allocator) (f : FeederNo) (x : Feeder) : (a.setFeeder f x).supply = a.supply := rfl
@[simp] theorem Allocator.setFeeder_actions (a : Allocator) (f : FeederNo) (x : Feeder) : (a.setFeeder f x).actions = a.actions := rfl
@[simp] theorem Allocator.putSession_supply (a : Allocator) (b : BayNo) (o : Option Session) : (a.putSession b o).supply = a.supply := rfl
@[simp] theorem Allocator.putSession_actions (a : Allocator) (b : BayNo) (o : Option Session) : (a.putSession b o).actions = a.actions := rfl
@[simp] theorem Allocator.joinGrants_supply (a : Allocator) (f : FeederNo) (b : BayNo) : (a.joinGrants f b).supply = a.supply := rfl
@[simp] theorem Allocator.joinGrants_actions (a : Allocator) (f : FeederNo) (b : BayNo) : (a.joinGrants f b).actions = a.actions := rfl
@[simp] theorem Allocator.joinQueue_supply (a : Allocator) (f : FeederNo) (b : BayNo) : (a.joinQueue f b).supply = a.supply := rfl
@[simp] theorem Allocator.joinQueue_actions (a : Allocator) (f : FeederNo) (b : BayNo) : (a.joinQueue f b).actions = a.actions := rfl
@[simp] theorem Allocator.leaveLists_supply (a : Allocator) (f : FeederNo) (b : BayNo) : (a.leaveLists f b).supply = a.supply := rfl
@[simp] theorem Allocator.leaveLists_actions (a : Allocator) (f : FeederNo) (b : BayNo) : (a.leaveLists f b).actions = a.actions := rfl
@[simp] theorem Allocator.place_supply (a : Allocator) (b : BayNo) (m : Nat) (x : Session) : (a.place b m x).supply = a.supply := by unfold Allocator.place; dsimp only; (repeat' split) <;> simp
@[simp] theorem Allocator.place_actions (a : Allocator) (b : BayNo) (m : Nat) (x : Session) : (a.place b m x).actions = a.actions := by unfold Allocator.place; dsimp only; (repeat' split) <;> simp
@[simp] theorem Allocator.request_supply (a : Allocator) (b : BayNo) (d : Nat) (c : BayConfig) : (a.request b d c).supply = a.supply := by unfold Allocator.request; (repeat' split) <;> simp
@[simp] theorem Allocator.request_actions (a : Allocator) (b : BayNo) (d : Nat) (c : BayConfig) : (a.request b d c).actions = a.actions := by unfold Allocator.request; (repeat' split) <;> simp
@[simp] theorem Allocator.serveOne_supply (f : FeederNo) (a : Allocator) (b : BayNo) :
    (Allocator.serveOne f a b).supply = a.supply := by unfold Allocator.serveOne; (repeat' split) <;> simp
@[simp] theorem Allocator.serveOne_actions (f : FeederNo) (a : Allocator) (b : BayNo) :
    (Allocator.serveOne f a b).actions = a.actions := by unfold Allocator.serveOne; (repeat' split) <;> simp
@[simp] theorem Allocator.serveQueue_supply (a : Allocator) (f : FeederNo) : (a.serveQueue f).supply = a.supply := foldl_leaves Allocator.supply _ _ _ fun q x _ => by simp
@[simp] theorem Allocator.serveQueue_actions (a : Allocator) (f : FeederNo) : (a.serveQueue f).actions = a.actions := foldl_leaves Allocator.actions _ _ _ fun q x _ => by simp
@[simp] theorem Allocator.release_supply (a : Allocator) (b : BayNo) : (a.release b).supply = a.supply := by unfold Allocator.release; (repeat' split) <;> simp
@[simp] theorem Allocator.release_actions (a : Allocator) (b : BayNo) : (a.release b).actions = a.actions := by unfold Allocator.release; (repeat' split) <;> simp
@[simp] theorem Allocator.trimOne_supply (f : FeederNo) (a : Allocator) (b : BayNo) :
    (Allocator.trimOne f a b).supply = a.supply := by unfold Allocator.trimOne; (repeat' split) <;> simp
@[simp] theorem Allocator.trimOne_actions (f : FeederNo) (a : Allocator) (b : BayNo) :
    (Allocator.trimOne f a b).actions = a.actions := by unfold Allocator.trimOne; (repeat' split) <;> simp
@[simp] theorem Allocator.requeueOne_supply (f : FeederNo) (a : Allocator) (b : BayNo) :
    (Allocator.requeueOne f a b).supply = a.supply := by unfold Allocator.requeueOne; dsimp only; (repeat' split) <;> simp
@[simp] theorem Allocator.requeueOne_actions (f : FeederNo) (a : Allocator) (b : BayNo) :
    (Allocator.requeueOne f a b).actions = a.actions := by unfold Allocator.requeueOne; dsimp only; (repeat' split) <;> simp
@[simp] theorem Allocator.cut_supply (a : Allocator) (f : FeederNo) : (a.cut f).supply = a.supply := (foldl_leaves Allocator.supply _ _ _ fun q x _ => by simp).trans (foldl_leaves Allocator.supply _ _ _ fun q x _ => by simp)
@[simp] theorem Allocator.cut_actions (a : Allocator) (f : FeederNo) : (a.cut f).actions = a.actions := (foldl_leaves Allocator.actions _ _ _ fun q x _ => by simp).trans (foldl_leaves Allocator.actions _ _ _ fun q x _ => by simp)
@[simp] theorem Allocator.topUpOne_supply (f : FeederNo) (a : Allocator) (b : BayNo) :
    (Allocator.topUpOne f a b).supply = a.supply := by unfold Allocator.topUpOne; (repeat' split) <;> simp
@[simp] theorem Allocator.topUpOne_actions (f : FeederNo) (a : Allocator) (b : BayNo) :
    (Allocator.topUpOne f a b).actions = a.actions := by unfold Allocator.topUpOne; (repeat' split) <;> simp
@[simp] theorem Allocator.topUp_supply (a : Allocator) (f : FeederNo) : (a.topUp f).supply = a.supply := foldl_leaves Allocator.supply _ _ _ fun q x _ => by simp
@[simp] theorem Allocator.topUp_actions (a : Allocator) (f : FeederNo) : (a.topUp f).actions = a.actions := foldl_leaves Allocator.actions _ _ _ fun q x _ => by simp
@[simp] theorem Allocator.switchBudget_supply (a : Allocator) (f : FeederNo) : (a.switchBudget f).supply = a.supply := by unfold Allocator.switchBudget; split <;> simp
@[simp] theorem Allocator.switchBudget_actions (a : Allocator) (f : FeederNo) : (a.switchBudget f).actions = a.actions := by unfold Allocator.switchBudget; split <;> simp
@[simp] theorem Allocator.clearLists_supply (a : Allocator) (f : FeederNo) : (a.clearLists f).supply = a.supply := rfl
@[simp] theorem Allocator.clearLists_actions (a : Allocator) (f : FeederNo) : (a.clearLists f).actions = a.actions := rfl
@[simp] theorem Allocator.suspendOne_supply (a : Allocator) (b : BayNo) :
    (Allocator.suspendOne a b).supply = a.supply := rfl
@[simp] theorem Allocator.suspendOne_actions (a : Allocator) (b : BayNo) :
    (Allocator.suspendOne a b).actions = a.actions := rfl
@[simp] theorem Allocator.suspendAll_supply (a : Allocator)  : (a.suspendAll ).supply = a.supply := (foldl_leaves Allocator.supply _ _ _ fun q x _ => by simp).trans (foldl_leaves Allocator.supply _ _ _ fun q x _ => by simp)
@[simp] theorem Allocator.suspendAll_actions (a : Allocator)  : (a.suspendAll ).actions = a.actions := (foldl_leaves Allocator.actions _ _ _ fun q x _ => by simp).trans (foldl_leaves Allocator.actions _ _ _ fun q x _ => by simp)
@[simp] theorem Allocator.resumeOne_supply (c : BayNo → BayConfig) (m : Action → Bool) (a : Allocator) (b : BayNo) :
    (Allocator.resumeOne c m a b).supply = a.supply := by unfold Allocator.resumeOne; (repeat' split) <;> simp
@[simp] theorem Allocator.resumeOne_actions (c : BayNo → BayConfig) (m : Action → Bool) (a : Allocator) (b : BayNo) :
    (Allocator.resumeOne c m a b).actions = a.actions := by unfold Allocator.resumeOne; (repeat' split) <;> simp
@[simp] theorem Allocator.resumeAll_supply (a : Allocator) (c : BayNo → BayConfig) : (a.resumeAll c).supply = a.supply := foldl_leaves Allocator.supply _ _ _ fun q x _ => by simp
@[simp] theorem Allocator.resumeAll_actions (a : Allocator) (c : BayNo → BayConfig) : (a.resumeAll c).actions = a.actions := foldl_leaves Allocator.actions _ _ _ fun q x _ => by simp
@[simp] theorem Allocator.rebuild_supply (a : Allocator) (c : BayNo → BayConfig) : (a.rebuild c).supply = a.supply := (foldl_leaves Allocator.supply _ _ _ fun q x _ => by simp).trans (by simp)
@[simp] theorem Allocator.rebuild_actions (a : Allocator) (c : BayNo → BayConfig) : (a.rebuild c).actions = a.actions := (foldl_leaves Allocator.actions _ _ _ fun q x _ => by simp).trans (by simp)
@[simp] theorem Allocator.curtail_supply (a : Allocator) (b : BayNo) (new : Action) (m : Nat) :
    (a.curtail b new m).supply = a.supply := by unfold Allocator.curtail; dsimp only; (repeat' split) <;> simp
@[simp] theorem Allocator.curtail_actions (a : Allocator) (b : BayNo) (new : Action) (m : Nat) :
    (a.curtail b new m).actions = setAt a.actions b new := by
  unfold Allocator.curtail; dsimp only; (repeat' split) <;> simp

/-! ## At the blocks -/

@[simp] theorem Blocks.cutFeeder_alloc_supply (p : Blocks) (f : FeederNo) : (p.cutFeeder f).alloc.supply = p.alloc.supply := by unfold Blocks.cutFeeder; split <;> simp
@[simp] theorem Blocks.cutFeeder_alloc_actions (p : Blocks) (f : FeederNo) : (p.cutFeeder f).alloc.actions = p.alloc.actions := by unfold Blocks.cutFeeder; split <;> simp
@[simp] theorem Blocks.ceilingChanged_alloc_supply (p : Blocks) (f : FeederNo) (old : Nat) : (p.ceilingChanged f old).alloc.supply = p.alloc.supply := by unfold Blocks.ceilingChanged; (repeat' split) <;> simp
@[simp] theorem Blocks.ceilingChanged_alloc_actions (p : Blocks) (f : FeederNo) (old : Nat) : (p.ceilingChanged f old).alloc.actions = p.alloc.actions := by unfold Blocks.ceilingChanged; (repeat' split) <;> simp
@[simp] theorem Blocks.rebalanceFeeder_alloc_supply (p : Blocks) (f : FeederNo) : (p.rebalanceFeeder f).alloc.supply = p.alloc.supply := by simp [Blocks.rebalanceFeeder]
@[simp] theorem Blocks.rebalanceFeeder_alloc_actions (p : Blocks) (f : FeederNo) : (p.rebalanceFeeder f).alloc.actions = p.alloc.actions := by simp [Blocks.rebalanceFeeder]
@[simp] theorem Blocks.rebalance_alloc_supply (p : Blocks)  : (p.rebalance ).alloc.supply = p.alloc.supply := foldl_leaves (fun q : Blocks => q.alloc.supply) _ _ _ fun q x _ => by simp
@[simp] theorem Blocks.rebalance_alloc_actions (p : Blocks)  : (p.rebalance ).alloc.actions = p.alloc.actions := foldl_leaves (fun q : Blocks => q.alloc.actions) _ _ _ fun q x _ => by simp
@[simp] theorem Blocks.setReserve_alloc_supply (p : Blocks) (f : FeederNo) (n : Nat) : (p.setReserve f n).alloc.supply = p.alloc.supply := by simp [Blocks.setReserve]
@[simp] theorem Blocks.setReserve_alloc_actions (p : Blocks) (f : FeederNo) (n : Nat) : (p.setReserve f n).alloc.actions = p.alloc.actions := by simp [Blocks.setReserve]
@[simp] theorem Blocks.stageBudget_alloc_supply (p : Blocks) (f : FeederNo) (n : Nat) : (p.stageBudget f n).alloc.supply = p.alloc.supply := by simp [Blocks.stageBudget]
@[simp] theorem Blocks.stageBudget_alloc_actions (p : Blocks) (f : FeederNo) (n : Nat) : (p.stageBudget f n).alloc.actions = p.alloc.actions := by simp [Blocks.stageBudget]
@[simp] theorem Blocks.restartAllocation_alloc_supply (p : Blocks)  : (p.restartAllocation ).alloc.supply = p.alloc.supply := by simp [Blocks.restartAllocation]
@[simp] theorem Blocks.restartAllocation_alloc_actions (p : Blocks)  : (p.restartAllocation ).alloc.actions = p.alloc.actions := by simp [Blocks.restartAllocation]
@[simp] theorem Blocks.takeRequest_alloc_supply (p : Blocks) (b : BayNo) (n : Nat) : (p.takeRequest b n).alloc.supply = p.alloc.supply := by unfold Blocks.takeRequest Blocks.takeAlloc; (repeat' split) <;> simp
@[simp] theorem Blocks.takeRequest_alloc_actions (p : Blocks) (b : BayNo) (n : Nat) : (p.takeRequest b n).alloc.actions = p.alloc.actions := by unfold Blocks.takeRequest Blocks.takeAlloc; (repeat' split) <;> simp
@[simp] theorem Blocks.takeRelease_alloc_supply (p : Blocks) (b : BayNo) : (p.takeRelease b).alloc.supply = p.alloc.supply := by unfold Blocks.takeRelease Blocks.takeAlloc; (repeat' split) <;> simp
@[simp] theorem Blocks.takeRelease_alloc_actions (p : Blocks) (b : BayNo) : (p.takeRelease b).alloc.actions = p.alloc.actions := by unfold Blocks.takeRelease Blocks.takeAlloc; (repeat' split) <;> simp
@[simp] theorem Blocks.allocBoundary_alloc_supply (p : Blocks)  : (p.allocBoundary ).alloc.supply = p.alloc.supply := by unfold Blocks.allocBoundary; split <;> simp
@[simp] theorem Blocks.allocBoundary_alloc_actions (p : Blocks)  : (p.allocBoundary ).alloc.actions = p.alloc.actions := by unfold Blocks.allocBoundary; split <;> simp

/-- The allocator's copy is the new supply state. -/
@[simp] theorem Blocks.allocSupply_alloc_supply (p : Blocks) (x : SupplyState) : (p.allocSupply x).alloc.supply = x := by
  unfold Blocks.allocSupply
  dsimp only
  (repeat' split)
  · simp
  · simp
  · exact foldl_leaves (fun q : Blocks => q.alloc.supply) _ _ _ fun q f _ => by simp

@[simp] theorem Blocks.allocSupply_alloc_actions (p : Blocks) (x : SupplyState) :
    (p.allocSupply x).alloc.actions = p.alloc.actions := by
  unfold Blocks.allocSupply
  dsimp only
  (repeat' split)
  · simp
  · simp
  · exact foldl_leaves (fun q : Blocks => q.alloc.actions) _ _ _ fun q f _ => by simp

@[simp] theorem Blocks.setSupply_alloc_actions (p : Blocks) (x : SupplyState) :
    (p.setSupply x).alloc.actions = p.alloc.actions := by
  unfold Blocks.setSupply
  dsimp only
  (repeat' split) <;> simp

/-- Where the copy agreed before a change of supply state, it agrees after. -/
theorem Blocks.setSupply_alloc_supply {p : Blocks} (x : SupplyState) (h : p.alloc.supply = p.supply.state) :
    (p.setSupply x).alloc.supply = (p.setSupply x).supply.state := by
  unfold Blocks.setSupply
  dsimp only
  (repeat' split) <;> simp [h]

/-! ## Post commands -/

namespace Allocator.PostsAgree

theorem setFeeder {a : Allocator} (h : a.PostsAgree) (f : FeederNo) (x : Feeder) : (a.setFeeder f x).PostsAgree := h

theorem putSession {a : Allocator} (h : a.PostsAgree) (b : BayNo) (o : Option Session) : (a.putSession b o).PostsAgree := by
  intro c
  have := h c
  simp only [Allocator.putSession, Allocator.session, Fin.getElem_fin, setAt_get] at this ⊢
  split
  · rfl
  · exact this

end Allocator.PostsAgree

theorem Allocator.place_posts {a : Allocator} (h : a.PostsAgree) (b : BayNo) (m : Nat) (x : Session) :
    (a.place b m x).PostsAgree := by
  unfold Allocator.place
  dsimp only
  (repeat' split)
  · exact h.putSession _ _
  · exact (h.putSession _ _).setFeeder _ _
  · exact (h.putSession _ _).setFeeder _ _

theorem Allocator.request_posts {a : Allocator} (h : a.PostsAgree) (b : BayNo) (d : Nat) (c : BayConfig) :
    (a.request b d c).PostsAgree := by
  unfold Allocator.request
  (repeat' split)
  · exact Allocator.place_posts h _ _ _
  · exact Allocator.place_posts h _ _ _
  · exact h

theorem Allocator.serveOne_posts {a : Allocator} (h : a.PostsAgree) (f : FeederNo) (b : BayNo) :
    (Allocator.serveOne f a b).PostsAgree := by
  unfold Allocator.serveOne
  (repeat' split)
  · exact h
  · exact ((h.setFeeder f _).putSession _ _).setFeeder _ _
  · exact h

theorem Allocator.serveQueue_posts {a : Allocator} (h : a.PostsAgree) (f : FeederNo) : (a.serveQueue f).PostsAgree :=
  foldl_keeps _ _ _ _ h fun _ ha b _ => Allocator.serveOne_posts ha f b

theorem Allocator.release_posts {a : Allocator} (h : a.PostsAgree) (b : BayNo) : (a.release b).PostsAgree := by
  unfold Allocator.release
  split
  · exact h
  · exact Allocator.serveQueue_posts ((h.setFeeder _ _).putSession _ _) _

theorem Allocator.cut_posts {a : Allocator} (h : a.PostsAgree) (f : FeederNo) : (a.cut f).PostsAgree := by
  refine foldl_keeps _ _ _ _ (foldl_keeps _ _ _ _ h fun q hq b _ => ?_) fun q hq b _ => ?_
  · unfold Allocator.trimOne
    split
    · exact hq
    · exact hq.putSession _ _
  · unfold Allocator.requeueOne
    (repeat' split)
    · exact hq
    · exact ((hq.setFeeder _ _).putSession _ _).setFeeder _ _
    · exact hq

theorem Allocator.topUp_posts {a : Allocator} (h : a.PostsAgree) (f : FeederNo) : (a.topUp f).PostsAgree := by
  refine foldl_keeps _ _ _ _ h fun q hq b _ => ?_
  unfold Allocator.topUpOne
  split
  · exact hq
  · exact hq.putSession _ _

theorem Allocator.switchBudget_posts {a : Allocator} (h : a.PostsAgree) (f : FeederNo) : (a.switchBudget f).PostsAgree := by
  unfold Allocator.switchBudget
  split
  · exact h.setFeeder _ _
  · exact h

theorem Allocator.suspendAll_posts {a : Allocator} (h : a.PostsAgree) : a.suspendAll.PostsAgree := by
  exact foldl_keeps _ _ _ _ (foldl_keeps _ _ _ _ h fun q hq f _ => hq.setFeeder _ _) fun q hq b _ => hq.putSession _ _

theorem Allocator.resumeOne_posts {a : Allocator} (h : a.PostsAgree) (c : BayNo → BayConfig) (m : Action → Bool) (b : BayNo) :
    (Allocator.resumeOne c m a b).PostsAgree := by
  unfold Allocator.resumeOne
  (repeat' split)
  · exact h
  · exact Allocator.place_posts h _ _ _
  · exact h

theorem Allocator.resumeAll_posts {a : Allocator} (h : a.PostsAgree) (c : BayNo → BayConfig) : (a.resumeAll c).PostsAgree :=
  foldl_keeps _ _ _ _ h fun _ ha b _ => Allocator.resumeOne_posts ha _ _ b

theorem Allocator.rebuild_posts {a : Allocator} (h : a.PostsAgree) (c : BayNo → BayConfig) : (a.rebuild c).PostsAgree :=
  foldl_keeps _ _ _ _ (Allocator.suspendAll_posts h) fun _ ha b _ => Allocator.resumeOne_posts ha _ _ b

theorem Allocator.curtail_posts {a : Allocator} (h : a.PostsAgree) (b : BayNo) (new : Action) (m : Nat) :
    (a.curtail b new m).PostsAgree := by
  have h' : { a with actions := setAt a.actions b new }.PostsAgree := h
  unfold Allocator.curtail
  dsimp only
  (repeat' split)
  · exact h'
  · exact Allocator.place_posts h' _ _ _
  · exact Allocator.serveQueue_posts ((h'.setFeeder _ _).putSession _ _) _
  · exact Allocator.serveQueue_posts (h'.putSession _ _) _
  · exact h'.putSession _ _

theorem Allocator.restart_posts (a : Allocator) (x : Vector Action Config.bayCount) : (a.restart x).PostsAgree := by
  intro b
  simp [Allocator.restart, Allocator.session]

theorem Blocks.cutFeeder_posts {p : Blocks} (h : p.alloc.PostsAgree) (f : FeederNo) : (p.cutFeeder f).alloc.PostsAgree := by
  unfold Blocks.cutFeeder
  split
  · exact Allocator.cut_posts h f
  · exact h

theorem Blocks.ceilingChanged_posts {p : Blocks} (h : p.alloc.PostsAgree) (f : FeederNo) (old : Nat) :
    (p.ceilingChanged f old).alloc.PostsAgree := by
  unfold Blocks.ceilingChanged
  (repeat' split)
  · exact Allocator.serveQueue_posts h f
  · exact Blocks.cutFeeder_posts h f
  · exact h

theorem Blocks.rebalance_posts {p : Blocks} (h : p.alloc.PostsAgree) : p.rebalance.alloc.PostsAgree := by
  refine foldl_keeps (fun q : Blocks => q.alloc.PostsAgree) _ _ _ h fun q hq f _ => ?_
  exact Allocator.topUp_posts (Allocator.serveQueue_posts
    (Blocks.cutFeeder_posts (p := q.withAlloc (q.alloc.switchBudget f)) (Allocator.switchBudget_posts hq f) f) f) f

theorem Blocks.allocSupply_posts {p : Blocks} (h : p.alloc.PostsAgree) (x : SupplyState) :
    (p.allocSupply x).alloc.PostsAgree := by
  have h' : { p.alloc with supply := x }.PostsAgree := h
  unfold Blocks.allocSupply
  dsimp only
  (repeat' split)
  · simpa using Allocator.suspendAll_posts h'
  · simpa using Allocator.resumeAll_posts h' _
  · exact foldl_keeps (fun q : Blocks => q.alloc.PostsAgree) _ _ _ (by simpa using h') fun q hq f _ =>
      Blocks.ceilingChanged_posts hq f _

theorem Blocks.setSupply_posts {p : Blocks} (h : p.alloc.PostsAgree) (x : SupplyState) : (p.setSupply x).alloc.PostsAgree := by
  unfold Blocks.setSupply
  dsimp only
  split
  · exact h
  · split
    · rw [Blocks.withNotices_alloc]; exact Blocks.allocSupply_posts (by simpa using h) x
    · exact Blocks.allocSupply_posts (by simpa using h) x

theorem Blocks.setAction_posts {p : Blocks} (h : p.alloc.PostsAgree) (b : BayNo) (x : Action) :
    (p.setAction b x).alloc.PostsAgree := by
  unfold Blocks.setAction
  dsimp only
  (repeat' split)
  · exact h
  all_goals simpa using Allocator.curtail_posts h b x _

theorem Blocks.recomputeMembers_posts {p : Blocks} (h : p.alloc.PostsAgree) (among : GroupNo → Bool) :
    (p.recomputeMembers among).alloc.PostsAgree :=
  foldl_keeps (fun q : Blocks => q.alloc.PostsAgree) _ _ _ h fun q hq b _ => by
    split
    · exact Blocks.setAction_posts hq _ _
    · exact hq

theorem Blocks.restartLevel_alloc (p : Blocks) :
    p.restartLevel.alloc = p.alloc.restart (p.supply.restart p.bays.bays).actions := rfl

/-- Every change keeps the post commands in agreement with the sessions. -/
theorem change_posts {p q : Blocks} (h : Change p q) (hp : p.alloc.PostsAgree) : q.alloc.PostsAgree := by
  cases h with
  | configured b c h _ =>
    refine Blocks.setAction_posts ?_ _ _
    simpa using hp
  | budget f n => exact hp
  | reserve f n =>
    refine Blocks.ceilingChanged_posts ?_ f _
    simpa using hp.setFeeder f _
  | groupLevel g l =>
    refine Blocks.recomputeMembers_posts ?_ _
    simpa using hp
  | switched => exact Blocks.setSupply_posts hp _
  | restarted => rw [Blocks.restartLevel_alloc]; exact Allocator.restart_posts _ _
  | rebuilt =>
    simpa [Blocks.restartAllocation] using Allocator.rebuild_posts hp _
  | settleCount =>
    unfold Blocks.supplyBoundary
    dsimp only
    (repeat' split)
    · exact hp
    · refine Blocks.setSupply_posts ?_ _
      simpa using hp
    · simpa using hp
    · simpa using hp
  | rebalanced =>
    unfold Blocks.allocBoundary
    split
    · exact hp
    · refine Blocks.rebalance_posts ?_
      simpa using hp
  | fall =>
    unfold Blocks.mainsOkFall
    dsimp only
    (repeat' split)
    · refine Blocks.setSupply_posts ?_ _
      simpa using hp
    all_goals simpa using hp
  | dr x =>
    refine Blocks.recomputeMembers_posts ?_ _
    simpa using hp
  | alarm x =>
    refine Blocks.recomputeMembers_posts ?_ _
    simpa using hp
  | request b n =>
    unfold Blocks.takeRequest Blocks.takeAlloc
    (repeat' split)
    · exact hp
    · simpa using Allocator.request_posts hp _ _ _
    · exact hp
  | release b =>
    unfold Blocks.takeRelease Blocks.takeAlloc
    (repeat' split)
    · exact hp
    · simpa using Allocator.release_posts hp _
    · exact hp
  | _ => simpa using hp

end Sys2Proof.Machine
end

