-- ==== Sys2Proof/Laws/Bays.lean ====
section
/-! SUPPORT. What each operation does to the bay entries, and that every change keeps them sound (R82, R83, R87, R102). -/

namespace Sys2Proof.Machine

/-! ## one entry -/

theorem Bay.rest_sound (x : Bay) {win : Nat} (h1 : 1 ≤ win) (h2 : win ≤ 15) : (x.rest win).Sound := by
  unfold Bay.rest
  cases hp : x.presence <;> cases hh : x.heldMark <;>
    simp [Bay.unclaim, Bay.enter, Bay.resign, Bay.Sound, BayState.occupied, hp, hh, h1, h2]

theorem Bay.fault_sound (x : Bay) (c : FaultCause) : (x.fault c).Sound := by
  simp [Bay.fault, Bay.resign, Bay.Sound, BayState.occupied]

theorem Bay.disabled_sound (x : Bay) : (x.enter .disabled).Sound := by
  simp [Bay.enter, Bay.resign, Bay.Sound, BayState.occupied]

theorem Bay.lost_sound (x : Bay) (l : Loss) : (x.lost l).Sound := by
  cases l
  · exact x.fault_sound _
  · exact x.fault_sound _
  · exact x.disabled_sound

theorem Bay.serve_sound {x : Bay} (h : x.presence = true) : x.serve.Sound := by
  simp [Bay.serve, Bay.enter, Bay.resign, Bay.Sound, BayState.occupied, h]

theorem Bay.hold_sound {x : Bay} (h : x.Sound) : x.hold.Sound := by
  unfold Bay.hold
  cases hs : x.state <;> simp_all [Bay.enter, Bay.resign, Bay.Sound, BayState.occupied]

theorem Bay.unhold_sound {x : Bay} (h : x.Sound) : x.unhold.Sound := by
  unfold Bay.unhold
  cases hs : x.state <;> simp_all [Bay.enter, Bay.resign, Bay.Sound, BayState.occupied]

theorem Bay.endServing_sound {x : Bay} (h : x.Sound) {win : Nat} (h1 : 1 ≤ win) (h2 : win ≤ 15) : (x.endServing win).Sound := by
  unfold Bay.endServing
  cases hs : x.state <;> simp_all [Bay.unclaim, Bay.resign, Bay.Sound, BayState.occupied]

theorem Bay.countWindow_sound {x : Bay} (h : x.Sound) : x.countWindow.Sound := by
  unfold Bay.countWindow
  split
  · rename_i hs
    split
    · simp_all [Bay.resign, Bay.Sound, BayState.occupied]
    · simp_all [Bay.Sound]; omega
  · exact h

theorem Bay.setAction_sound {x : Bay} (h : x.Sound) (a : Action) : (x.setAction a).Sound := by
  obtain ⟨h1, h2, h3, h4, h5, h6, h7, _⟩ := h
  exact ⟨h1, h2, h3, h4, h5, h6, h7, rfl⟩

theorem Bay.restart_sound {x : Bay} (h : x.Sound) (a : Action) {win : Nat} (h1 : 1 ≤ win) (h2 : win ≤ 15) : (x.restart a win).Sound := by
  unfold Bay.restart
  dsimp only
  split
  · exact Bay.disabled_sound _
  · split
    · cases hs : x.state <;> simp_all [BayState.outOfService, Bay.resign, Bay.Sound, BayState.occupied]
    · exact Bay.rest_sound _ h1 h2

theorem Bay.restart_out (x : Bay) (a : Action) (win : Nat) (h : x.state.outOfService = true) : (x.restart a win).state.outOfService = true := by
  unfold Bay.restart
  dsimp only
  split
  · rfl
  · simp [h, Bay.resign]

/-! ## all entries -/

theorem Blocks.BaysSound.congr {p q : Blocks} (hb : q.bays = p.bays) (hp : q.params = p.params) (h : p.BaysSound) : q.BaysSound := by
  simp only [Blocks.BaysSound, Blocks.bay_congr hb, Blocks.moduleState_congr hb, hp]; exact h

theorem Blocks.BaysSound.setBay {p : Blocks} (h : p.BaysSound) (b : BayNo) {x : Bay} (hx : x.Sound)
    (ho : p.moduleState (moduleOf b) = .offline → x.state.outOfService = true) : (p.setBay b x).BaysSound := by
  refine ⟨fun c => ?_, fun c hc => ?_, ?_⟩
  · rw [Blocks.bay_setBay]; split
    · exact hx
    · exact h.1 c
  · rw [Blocks.bay_setBay]; split
    · rename_i e; subst e; exact ho (by simpa using hc)
    · exact h.2.1 c (by simpa using hc)
  · simpa using h.2.2

/-- an update that keeps the state -/
theorem Blocks.BaysSound.setBayKeep {p : Blocks} (h : p.BaysSound) (b : BayNo) {x : Bay} (hx : x.Sound)
    (ho : x.state.outOfService = (p.bay b).state.outOfService) : (p.setBay b x).BaysSound :=
  h.setBay b hx fun hm => by rw [ho]; exact h.2.1 b hm

theorem Blocks.BaysSound.online {p : Blocks} (h : p.BaysSound) {b : BayNo} (hs : (p.bay b).state.outOfService = false) :
    p.moduleState (moduleOf b) ≠ .offline := fun hm => by simp [h.2.1 b hm] at hs

theorem Blocks.BaysSound.win {p : Blocks} (h : p.BaysSound) : 1 ≤ p.params.claimWindow ∧ p.params.claimWindow ≤ 15 := h.2.2

theorem loseBay_baysSound {p : Blocks} (h : p.BaysSound) (b : BayNo) (l : Loss) : (p.loseBay b l).BaysSound := by
  have h1 : (p.setBay b ((p.bay b).lost l)).BaysSound := by
    refine h.setBay b (Bay.lost_sound _ _) fun _ => ?_
    cases l <;> rfl
  unfold Blocks.loseBay
  dsimp only
  split
  · exact Blocks.BaysSound.congr (by simp) (by simp) h1
  · exact Blocks.BaysSound.congr (by simp) (by simp) h1

theorem setAction_baysSound {p : Blocks} (h : p.BaysSound) (b : BayNo) (a : Action) : (p.setAction b a).BaysSound := by
  unfold Blocks.setAction
  dsimp only
  split
  · exact h
  · have h2 : (p.setBay b ((p.bay b).setAction a)).BaysSound := h.setBayKeep b (Bay.setAction_sound (h.1 b) a) rfl
    (repeat' split) <;> exact Blocks.BaysSound.congr (by simp [Blocks.setBay, Blocks.bay]) (by simp) h2

theorem recomputeMembers_baysSound {p : Blocks} (h : p.BaysSound) (x) : (p.recomputeMembers x).BaysSound := by
  refine foldl_keeps _ _ _ p h fun q hq b _ => ?_
  split
  · exact setAction_baysSound hq _ _
  · exact hq

theorem faultEvent_baysSound {p : Blocks} (h : p.BaysSound) (b : BayNo) (on : Bool) : (p.faultEvent b on).BaysSound := by
  have h1 : (p.setBay b { p.bay b with faultLine := on }).BaysSound := h.setBayKeep b (h.1 b) rfl
  unfold Blocks.faultEvent
  dsimp only
  split
  · exact h1
  · have h2 : ((p.setBay b { p.bay b with faultLine := on }).setBay b { (p.setBay b { p.bay b with faultLine := on }).bay b with sticky := true }).BaysSound :=
      h1.setBayKeep b (h1.1 b) rfl
    split
    · exact loseBay_baysSound (Blocks.BaysSound.congr (by simp) (by simp) h2) _ _
    · exact Blocks.BaysSound.congr (by simp) (by simp) h2

theorem Bay.presenceSound {x : Bay} (h : x.Sound) (on : Bool) (hs : x.state.outOfService = true) : { x with presence := on }.Sound := by
  cases hs' : x.state <;> simp_all [Bay.Sound, BayState.outOfService, BayState.occupied]

theorem Blocks.setBay_twice (p : Blocks) (b : BayNo) (x y : Bay) : (p.setBay b x).setBay b y = p.setBay b y := by
  simp [Blocks.setBay, Blocks.withBays, setAt]

theorem Bay.presence_sound {x : Bay} {on : Bool} (h : x.Sound) (n1 : x.state = .vacant → on = true → False)
    (n2 : x.state = .awaiting → on = true → False) (n3 : x.state = .unclaimed → on = false → False)
    (n4 : x.state = .squatted → on = false → False) (n5 : x.state = .serving → on = false → False) :
    { x with presence := on }.Sound := by
  obtain ⟨c, st, pr, fl, sti, fc, hm, w, o, ac, si⟩ := x
  cases st <;> cases on <;> simp_all [Bay.Sound, BayState.occupied]

theorem presenceEvent_baysSound {p : Blocks} (h : p.BaysSound) (b : BayNo) (on : Bool) : (p.presenceEvent b on).BaysSound := by
  have hw := h.win
  have hb := h.1 b
  unfold Blocks.presenceEvent
  dsimp only
  simp only [Blocks.bay_setBay_same, Blocks.setBay_twice, Blocks.setBay_params]
  have key : ∀ x : Bay, x.Sound → (p.bay b).state.outOfService = false → (p.setBay b x).BaysSound := fun x hx ho =>
    h.setBay b hx fun hm => absurd hm (h.online ho)
  split
  · rename_i hs; exact key _ (by simp_all [Bay.unclaim, Bay.resign, Bay.Sound, BayState.occupied]) (by simp_all [BayState.outOfService])
  · rename_i hs; exact key _ (by simp_all [Bay.unclaim, Bay.resign, Bay.Sound, BayState.occupied]) (by simp_all [BayState.outOfService])
  · rename_i hs; exact key _ (Bay.rest_sound _ hw.1 hw.2) (by simp_all [BayState.outOfService])
  · rename_i hs; exact key _ (Bay.rest_sound _ hw.1 hw.2) (by simp_all [BayState.outOfService])
  · rename_i hs
    unfold Blocks.departure
    simp only [Blocks.bay_setBay_same, Blocks.setBay_twice, Blocks.setBay_params]
    have := key _ (Bay.rest_sound { p.bay b with presence := false } hw.1 hw.2) (by simp_all [BayState.outOfService])
    split
    · exact Blocks.BaysSound.congr (by simp) (by simp) this
    · exact this
  · refine h.setBayKeep b ?_ rfl
    exact Bay.presence_sound hb (by assumption) (by assumption) (by assumption) (by assumption) (by assumption)

theorem reportBay_baysSound {p : Blocks} (h : p.BaysSound) (b : BayNo) (x y z : Bool) : (p.reportBay b x y z).BaysSound := by
  unfold Blocks.reportBay
  dsimp only
  have h1 : (if y != (p.bay b).faultLine then p.faultEvent b y else p).BaysSound := by
    split
    · exact faultEvent_baysSound h _ _
    · exact h
  revert h1
  generalize (if y != (p.bay b).faultLine then p.faultEvent b y else p) = q
  intro h1
  have h2 : (if x != (q.bay b).presence then q.presenceEvent b x else q).BaysSound := by
    split
    · exact presenceEvent_baysSound h1 _ _
    · exact h1
  split
  · exact Blocks.BaysSound.congr (by simp) (by simp) h2
  · exact h2

theorem setOnline_baysSound {p : Blocks} (h : p.BaysSound) (k : ModuleNo) (n : Nat) : (p.setModule k (.online n)).BaysSound := by
  refine ⟨h.1, fun c hc => ?_, h.2.2⟩
  rw [Blocks.moduleState_setModule] at hc
  split at hc
  · cases hc
  · exact h.2.1 c hc

theorem moduleOf_bayAt (k : ModuleNo) (i : Fin 8) : moduleOf (bayAt k i) = k := by
  have := i.isLt
  apply Fin.ext
  simp only [moduleOf, bayAt]
  omega

theorem takeReport_baysSound {p : Blocks} (h : p.BaysSound) (k : ModuleNo) (x : ModuleReport) : (p.takeReport k x).BaysSound := by
  unfold Blocks.takeReport
  split
  · exact foldl_keeps _ _ _ _ (setOnline_baysSound h k 0) fun q hq i _ => reportBay_baysSound hq _ _ _ _
  · rename_i hm
    refine (foldl_keeps (fun q : Blocks => q.BaysSound ∧ ∀ i, (q.bay (bayAt k i)).state.outOfService = true) _ _ _
      ⟨setOnline_baysSound h k 0, fun i => ?_⟩ fun q hq i _ => ?_).1
    · simp only [Blocks.bay_setModule]; exact h.2.1 _ (by rw [moduleOf_bayAt]; exact hm)
    · refine ⟨hq.1.setBayKeep _ ?_ rfl, fun j => ?_⟩
      · have h3 := hq.2 i
        have h4 := hq.1.1 (bayAt k i)
        cases hs' : (q.bay (bayAt k i)).state <;> simp_all [Bay.Sound, BayState.outOfService, BayState.occupied]
      · rw [Blocks.bay_setBay]; split
        · exact hq.2 i
        · exact hq.2 j

theorem loseModuleBay_out (p : Blocks) (b c : BayNo) (h : c = b ∨ (p.bay c).state.outOfService = true) :
    ((p.loseModuleBay b).bay c).state.outOfService = true := by
  have lost : ∀ q : Blocks, (c = b ∨ (q.bay c).state.outOfService = true) → ((q.loseBay b .linkLost).bay c).state.outOfService = true := by
    intro q hq
    unfold Blocks.loseBay
    dsimp only
    have : ((q.setBay b ((q.bay b).lost .linkLost)).bay c).state.outOfService = true := by
      rw [Blocks.bay_setBay]; split
      · rfl
      · rcases hq with e | e
        · exact absurd e.symm ‹_›
        · exact e
    split
    · rw [Blocks.bay_congr (q := q.setBay b ((q.bay b).lost .linkLost)) (by simp)]; exact this
    · rw [Blocks.bay_congr (q := q.setBay b ((q.bay b).lost .linkLost)) (by simp)]; exact this
  unfold Blocks.loseModuleBay
  dsimp only
  split
  · rename_i hs
    rcases h with e | e
    · subst e; rw [hs]; rfl
    · exact e
  · split
    · apply lost
      rcases h with e | e
      · exact .inl e
      · right; rw [Blocks.bay_setBay]; split
        · rename_i e'; subst e'; exact e
        · exact e
    · rw [Blocks.bay_setBay]
      rename_i hn
      split
      · rename_i e; subst e; simpa using hn
      · rcases h with e | e
        · exact absurd e.symm ‹_›
        · exact e

theorem loseModuleBay_sound {p : Blocks} (b : BayNo) (h : ∀ c, (p.bay c).Sound) : ∀ c, ((p.loseModuleBay b).bay c).Sound := by
  intro c
  unfold Blocks.loseModuleBay
  dsimp only
  have h1 : ∀ c, ((p.setBay b { p.bay b with sticky := true }).bay c).Sound := by
    intro c; rw [Blocks.bay_setBay]; split
    · exact h b
    · exact h c
  split
  · exact h c
  · split
    · unfold Blocks.loseBay
      dsimp only
      have h2 : ∀ q : Blocks, (∀ c, (q.bay c).Sound) → ((q.setBay b ((q.bay b).lost .linkLost)).bay c).Sound := by
        intro q hq; rw [Blocks.bay_setBay]; split
        · exact Bay.lost_sound _ _
        · exact hq c
      split
      · rw [Blocks.bay_congr (q := (p.setBay b { p.bay b with sticky := true }).setBay b (((p.setBay b { p.bay b with sticky := true }).bay b).lost .linkLost)) (by simp)]
        exact h2 _ h1
      · rw [Blocks.bay_congr (q := (p.setBay b { p.bay b with sticky := true }).setBay b (((p.setBay b { p.bay b with sticky := true }).bay b).lost .linkLost)) (by simp)]
        exact h2 _ h1
    · exact h1 c

@[simp] theorem loseBay_modules (p : Blocks) (b : BayNo) (l : Loss) : (p.loseBay b l).bays.modules = p.bays.modules := by
  unfold Blocks.loseBay
  dsimp only
  split <;> simp

@[simp] theorem loseModuleBay_modules (p : Blocks) (b : BayNo) : (p.loseModuleBay b).bays.modules = p.bays.modules := by
  unfold Blocks.loseModuleBay
  dsimp only
  (repeat' split) <;> simp

theorem mem_moduleBays (k : ModuleNo) (c : BayNo) : c ∈ moduleBays k ↔ moduleOf c = k := by
  simp only [moduleBays, List.mem_map, List.mem_finRange, true_and, moduleOf, Fin.ext_iff]
  constructor
  · rintro ⟨i, hi⟩; have := i.isLt; omega
  · intro h; exact ⟨⟨c.val % 8, by omega⟩, by simp only; omega⟩

theorem loseModule_baysSound {p : Blocks} (h : p.BaysSound) (k : ModuleNo) : (p.loseModule k).BaysSound := by
  unfold Blocks.loseModule
  split
  · exact h
  · refine Blocks.BaysSound.congr (p := (moduleBays k).foldl Blocks.loseModuleBay (p.setModule k .offline)) (by simp) (by simp) ?_
    have hout : ∀ (xs : List BayNo) (q : Blocks) (c : BayNo), (c ∈ xs ∨ (q.bay c).state.outOfService = true) →
        ((xs.foldl Blocks.loseModuleBay q).bay c).state.outOfService = true := by
      intro xs
      induction xs with
      | nil => intro q c hc; simpa using hc
      | cons x xs ih =>
        intro q c hc
        refine ih _ c ?_
        rcases hc with hc | hc
        · rcases List.mem_cons.1 hc with e | e
          · exact .inr (loseModuleBay_out q x c (.inl e))
          · exact .inl e
        · exact .inr (loseModuleBay_out q x c (.inr hc))
    have hmod : ((moduleBays k).foldl Blocks.loseModuleBay (p.setModule k .offline)).bays.modules = (p.setModule k .offline).bays.modules :=
      foldl_leaves (fun q : Blocks => q.bays.modules) _ _ _ fun q b _ => by simp
    have hpar : ((moduleBays k).foldl Blocks.loseModuleBay (p.setModule k .offline)).params = (p.setModule k .offline).params :=
      foldl_leaves (fun q : Blocks => q.params) _ _ _ fun q b _ => by simp
    refine ⟨foldl_keeps (fun q : Blocks => ∀ c, (q.bay c).Sound) _ _ _ h.1 fun q hq b _ => loseModuleBay_sound b hq, fun c hc => hout _ _ c ?_, ?_⟩
    · have hc' : (p.setModule k .offline).moduleState (moduleOf c) = .offline := by
        simpa [Blocks.moduleState, hmod] using hc
      rw [Blocks.moduleState_setModule] at hc'
      by_cases e : k = moduleOf c
      · exact .inl ((mem_moduleBays k c).2 e.symm)
      · rw [if_neg e] at hc'; exact .inr (h.2.1 c hc')
    · rw [hpar]; exact h.2.2

theorem countBay_baysSound {p : Blocks} (h : p.BaysSound) (b : BayNo) : (Blocks.countBay p b).BaysSound := by
  have : (p.setBay b (p.bay b).countWindow).BaysSound := by
    refine h.setBayKeep b (Bay.countWindow_sound (h.1 b)) ?_
    unfold Bay.countWindow
    split
    · rename_i hs; split
      · simp [Bay.resign, hs, BayState.outOfService]
      · rfl
    · rfl
  unfold Blocks.countBay
  dsimp only
  split
  · exact Blocks.BaysSound.congr (by simp) (by simp) this
  · exact this

theorem tick_baysSound {p : Blocks} (h : p.BaysSound) : p.tick.BaysSound := by
  have : ((List.finRange Config.moduleCount).foldl Blocks.tickModule p).BaysSound :=
    foldl_keeps _ _ _ p h fun q hq k _ => by
      unfold Blocks.tickModule
      split
      · exact hq
      · split
        · exact loseModule_baysSound hq k
        · exact setOnline_baysSound hq k _
  unfold Blocks.tick
  dsimp only
  split <;> exact Blocks.BaysSound.congr (by simp) (by simp) this

theorem params_window {old q : Params} {body} (h : parameterFields old body = some q) (ho : 1 ≤ old.claimWindow ∧ old.claimWindow ≤ 15) :
    1 ≤ q.claimWindow ∧ q.claimWindow ≤ 15 := by
  unfold parameterFields at h
  split at h
  · cases h
  · simp only [Option.bind_eq_some_iff, Option.map_eq_some_iff] at h
    obtain ⟨_, _, _, _, _, _, cw, hcw, _, _, _, _, rfl⟩ := h
    simp only [optIn, Option.bind_eq_some_iff] at hcw
    obtain ⟨o, ho', hc⟩ := hcw
    split at hc
    · cases hc
      rename_i hall
      cases cw with
      | none => exact ho
      | some n => simpa using hall
    · cases hc

theorem change_baysSound {p q} (h : Change p q) (hp : p.BaysSound) : q.BaysSound := by
  have hw := hp.win
  cases h with
  | bookedServing r h1 h2 h3 h4 ho =>
    unfold admitServing
    split
    · exact hp
    · refine Blocks.BaysSound.congr (p := p.setBay r.bay (p.bay r.bay).serve) (by simp [accept, Blocks.setBay, Blocks.bay]) (by simp [accept]) ?_
      refine hp.setBay _ (Bay.serve_sound ((hp.1 _).2.2.2.2.1 ho)) fun hm => ?_
      have := hp.2.1 _ hm
      revert ho this; cases (p.bay r.bay).state <;> simp [BayState.occupied, BayState.outOfService]
  | claimed sl r h1 h2 h3 h4 h5 h6 =>
    refine Blocks.BaysSound.congr (p := p.setBay r.bay (p.bay r.bay).serve) ?_ (by simp) ?_
    · unfold Blocks.claim; dsimp only; split <;> simp [Blocks.setBay, Blocks.bay]
    · exact hp.setBay _ (Bay.serve_sound h3) fun hm => absurd hm (hp.online h5)
  | configured b c h _ =>
    exact setAction_baysSound (hp.setBayKeep b (x := { p.bay b with config := c }) (hp.1 b) rfl) _ _
  | enabled b h1 h2 =>
    refine hp.setBay _ (Bay.rest_sound _ hw.1 hw.2) fun hm => ?_
    simp [Blocks.fieldFault, hm, ModuleState.isOnline] at h2
  | disabled b =>
    unfold Blocks.disable
    dsimp only
    split
    · exact Blocks.BaysSound.congr (by simp) (by simp) hp
    · refine Blocks.BaysSound.congr (p := (p.loseBay b .disabled).setBay b _) (by simp; rfl) (by simp) ?_
      have hl := loseBay_baysSound hp b .disabled
      refine hl.setBay _ ?_ ?_
      · have e : (p.loseBay b .disabled).bay b = (p.bay b).lost .disabled := by
          rw [Blocks.bay_congr (q := p.setBay b ((p.bay b).lost .disabled))]
          · simp
          · unfold Blocks.loseBay; dsimp only; split <;> simp
        rw [e]; simp [Bay.lost, Bay.enter, Bay.resign, Bay.Sound, BayState.occupied]
      · intro _
        have e : (p.loseBay b .disabled).bay b = (p.bay b).lost .disabled := by
          rw [Blocks.bay_congr (q := p.setBay b ((p.bay b).lost .disabled))]
          · simp
          · unfold Blocks.loseBay; dsimp only; split <;> simp
        rw [e]; rfl
  | faultCleared b h1 h2 =>
    unfold Blocks.clearFault
    dsimp only
    split
    · refine hp.setBay _ (Bay.rest_sound _ hw.1 hw.2) fun hm => ?_
      simp [Blocks.fieldFault, hm, ModuleState.isOnline] at h2
    · exact hp.setBayKeep _ (hp.1 b) rfl
  | groupLevel g l => exact recomputeMembers_baysSound (Blocks.BaysSound.congr (by simp) (by simp) hp) _
  | dr x => exact recomputeMembers_baysSound (Blocks.BaysSound.congr (by simp) (by simp) hp) _
  | alarm x => exact recomputeMembers_baysSound (Blocks.BaysSound.congr (by simp) (by simp) hp) _
  | params body x hl hx =>
    exact ⟨hp.1, hp.2.1, by simpa [Blocks.setParams] using params_window hx hw⟩
  | restarted =>
    refine ⟨fun b => ?_, fun b hb => ?_, by rw [Blocks.restartLevel_params]; exact hw⟩
    · have : (p.restartLevel.bay b) = (p.bay b).restart (p.supply.restart p.bays.bays).actions[b] p.params.claimWindow := by
        simp [Blocks.restartLevel, Blocks.bay, Blocks.evalPool]
      rw [this]; exact Bay.restart_sound (hp.1 b) _ hw.1 hw.2
    · have : (p.restartLevel.bay b) = (p.bay b).restart (p.supply.restart p.bays.bays).actions[b] p.params.claimWindow := by
        simp [Blocks.restartLevel, Blocks.bay, Blocks.evalPool]
      have hm : p.restartLevel.bays.modules = p.bays.modules := by simp [Blocks.restartLevel, Blocks.evalPool]
      rw [this]; exact Bay.restart_out _ _ _ (hp.2.1 b (by simpa [Blocks.moduleState, hm] using hb))
  | polled => exact ⟨hp.1, hp.2.1, hw⟩
  | reported k x => exact takeReport_baysSound hp k x
  | lost k => exact loseModule_baysSound hp k
  | windows =>
    unfold Blocks.bayBoundary
    split
    · exact hp
    · exact foldl_keeps _ _ _ _ (Blocks.BaysSound.congr (by simp) (by simp) hp) fun q hq b _ => countBay_baysSound hq b
  | hold b =>
    unfold Blocks.takeHold Blocks.takeBay
    split
    · exact hp
    · split
      · refine (Blocks.BaysSound.congr (p := p) (by simp) (by simp) hp).setBayKeep b (Bay.hold_sound (hp.1 b)) ?_
        show (Bay.hold (p.bay b)).state.outOfService = (p.bay b).state.outOfService
        unfold Bay.hold; cases hs : (p.bay b).state <;> simp [Bay.enter, Bay.resign, BayState.outOfService]
      · exact hp
  | unhold b =>
    unfold Blocks.takeUnhold Blocks.takeBay
    split
    · exact hp
    · split
      · refine (Blocks.BaysSound.congr (p := p) (by simp) (by simp) hp).setBayKeep b (Bay.unhold_sound (hp.1 b)) ?_
        show (Bay.unhold (p.bay b)).state.outOfService = (p.bay b).state.outOfService
        unfold Bay.unhold; cases hs : (p.bay b).state <;> simp [Bay.enter, Bay.resign, BayState.outOfService]
      · exact hp
  | endServing b =>
    unfold Blocks.takeEnd Blocks.takeBay
    split
    · exact hp
    · split
      · refine (Blocks.BaysSound.congr (p := p) (by simp) (by simp) hp).setBayKeep b (Bay.endServing_sound (hp.1 b) hw.1 hw.2) ?_
        show (Bay.endServing (p.bay b) _).state.outOfService = (p.bay b).state.outOfService
        unfold Bay.endServing; cases hs : (p.bay b).state <;> simp [Bay.unclaim, Bay.resign, BayState.outOfService, hs]
      · exact hp
  | tick => exact tick_baysSound hp
  | _ => exact Blocks.BaysSound.congr (by simp) (by simp) hp

end Sys2Proof.Machine
end

