-- ==== Sys2Proof/Laws/Controls.lean ====
section
/-! SUPPORT. What each operation does to the configurations and the effective actions of the bays, and that every change
keeps the copies of the actions in agreement and the actions following the groups (R142 to R146). -/

namespace Sys2Proof.Machine

/-! ## Configuration and action of every bay -/

/-- The configuration and the effective action of every bay. -/
def Blocks.controls (p : Blocks) : BayNo → BayConfig × Action := fun b => ((p.bay b).config, (p.bay b).action)

theorem Blocks.controls_congr {p q : Blocks} (h : p.bays = q.bays) : p.controls = q.controls := by
  funext b
  simp [Blocks.controls, Blocks.bay_congr h]

/-- A bay entry rewritten with the same configuration and action. -/
theorem Blocks.controls_setBay (p : Blocks) (b : BayNo) (x : Bay) (hc : x.config = (p.bay b).config)
    (ha : x.action = (p.bay b).action) : (p.setBay b x).controls = p.controls := by
  funext c
  simp only [Blocks.controls, Blocks.bay_setBay]
  split
  · rename_i e; subst e; rw [hc, ha]
  · rfl

@[simp] theorem Bay.rest_config (x : Bay) (w : Nat) : (x.rest w).config = x.config := by
  unfold Bay.rest; split <;> rfl
@[simp] theorem Bay.rest_action (x : Bay) (w : Nat) : (x.rest w).action = x.action := by
  unfold Bay.rest; split <;> rfl
@[simp] theorem Bay.lost_config (x : Bay) (l : Loss) : (x.lost l).config = x.config := by cases l <;> rfl
@[simp] theorem Bay.lost_action (x : Bay) (l : Loss) : (x.lost l).action = x.action := by cases l <;> rfl
@[simp] theorem Bay.serve_config (x : Bay) : x.serve.config = x.config := rfl
@[simp] theorem Bay.serve_action (x : Bay) : x.serve.action = x.action := rfl
@[simp] theorem Bay.hold_config (x : Bay) : x.hold.config = x.config := by
  unfold Bay.hold; dsimp only; split <;> rfl
@[simp] theorem Bay.hold_action (x : Bay) : x.hold.action = x.action := by
  unfold Bay.hold; dsimp only; split <;> rfl
@[simp] theorem Bay.unhold_config (x : Bay) : x.unhold.config = x.config := by
  unfold Bay.unhold; dsimp only; split <;> rfl
@[simp] theorem Bay.unhold_action (x : Bay) : x.unhold.action = x.action := by
  unfold Bay.unhold; dsimp only; split <;> rfl
@[simp] theorem Bay.endServing_config (x : Bay) (w : Nat) : (x.endServing w).config = x.config := by
  unfold Bay.endServing; split <;> rfl
@[simp] theorem Bay.endServing_action (x : Bay) (w : Nat) : (x.endServing w).action = x.action := by
  unfold Bay.endServing; split <;> rfl
@[simp] theorem Bay.countWindow_config (x : Bay) : x.countWindow.config = x.config := by
  unfold Bay.countWindow; (repeat' split) <;> rfl
@[simp] theorem Bay.countWindow_action (x : Bay) : x.countWindow.action = x.action := by
  unfold Bay.countWindow; (repeat' split) <;> rfl
@[simp] theorem Bay.restart_config (x : Bay) (a : Action) (w : Nat) : (x.restart a w).config = x.config := by
  unfold Bay.restart; dsimp only; (repeat' split) <;> simp [Bay.enter, Bay.resign]
@[simp] theorem Bay.restart_action (x : Bay) (a : Action) (w : Nat) : (x.restart a w).action = a := by
  unfold Bay.restart; dsimp only; (repeat' split) <;> simp [Bay.enter, Bay.resign]

/-- The bay entries after a loss: the lost bay's alone is rewritten. -/
theorem Blocks.loseBay_bay (p : Blocks) (b : BayNo) (l : Loss) (c : BayNo) :
    (p.loseBay b l).bay c = if b = c then (p.bay b).lost l else p.bay c := by
  rw [Blocks.bay_congr (q := p.setBay b ((p.bay b).lost l)), Blocks.bay_setBay]
  unfold Blocks.loseBay
  dsimp only
  split <;> simp

@[simp] theorem Blocks.loseBay_controls (p : Blocks) (b : BayNo) (l : Loss) : (p.loseBay b l).controls = p.controls := by
  funext c
  simp only [Blocks.controls, Blocks.loseBay_bay]
  split
  · rename_i e; subst e; simp
  · rfl

@[simp] theorem Blocks.departure_controls (p : Blocks) (b : BayNo) : (p.departure b).controls = p.controls := by
  unfold Blocks.departure
  dsimp only
  split
  · rw [Blocks.controls_congr (q := p.setBay b ((p.bay b).rest p.params.claimWindow)) (by simp)]
    exact Blocks.controls_setBay _ _ _ (by simp) (by simp)
  · exact Blocks.controls_setBay _ _ _ (by simp) (by simp)

@[simp] theorem Blocks.presenceEvent_controls (p : Blocks) (b : BayNo) (on : Bool) :
    (p.presenceEvent b on).controls = p.controls := by
  have h1 : (p.setBay b { p.bay b with presence := on }).controls = p.controls := Blocks.controls_setBay _ _ _ rfl rfl
  unfold Blocks.presenceEvent
  dsimp only
  split
  · exact (Blocks.controls_setBay _ _ _ (by rfl) (by rfl)).trans h1
  · exact (Blocks.controls_setBay _ _ _ (by rfl) (by rfl)).trans h1
  · exact (Blocks.controls_setBay _ _ _ (by simp) (by simp)).trans h1
  · exact (Blocks.controls_setBay _ _ _ (by simp) (by simp)).trans h1
  · rw [Blocks.departure_controls, h1]
  · exact h1

@[simp] theorem Blocks.faultEvent_controls (p : Blocks) (b : BayNo) (on : Bool) :
    (p.faultEvent b on).controls = p.controls := by
  have h1 : (p.setBay b { p.bay b with faultLine := on }).controls = p.controls := Blocks.controls_setBay _ _ _ rfl rfl
  unfold Blocks.faultEvent
  dsimp only
  split
  · exact h1
  · split
    · rw [Blocks.loseBay_controls, Blocks.controls_congr (Blocks.raise_bays _ _ _)]
      exact (Blocks.controls_setBay _ _ _ (by rfl) (by rfl)).trans h1
    · rw [Blocks.controls_congr (Blocks.raise_bays _ _ _)]
      exact (Blocks.controls_setBay _ _ _ (by rfl) (by rfl)).trans h1

@[simp] theorem Blocks.reportBay_controls (p : Blocks) (b : BayNo) (x y z : Bool) :
    (p.reportBay b x y z).controls = p.controls := by
  unfold Blocks.reportBay
  dsimp only
  (repeat' split) <;> simp [Blocks.controls_congr (Blocks.doneReport_bays _ _)]

@[simp] theorem Blocks.setModule_controls (p : Blocks) (k : ModuleNo) (m : ModuleState) :
    (p.setModule k m).controls = p.controls := rfl

@[simp] theorem Blocks.takeReport_controls (p : Blocks) (k : ModuleNo) (x : ModuleReport) :
    (p.takeReport k x).controls = p.controls := by
  unfold Blocks.takeReport
  split
  · exact (foldl_leaves Blocks.controls _ _ _ fun q b _ => by simp).trans (by simp)
  · exact (foldl_leaves Blocks.controls _ _ _ fun q i _ => by
      refine Blocks.controls_setBay _ _ _ ?_ ?_ <;> rfl).trans (by simp)

@[simp] theorem Blocks.loseModuleBay_controls (p : Blocks) (b : BayNo) : (p.loseModuleBay b).controls = p.controls := by
  have h1 : (p.setBay b { p.bay b with sticky := true }).controls = p.controls := Blocks.controls_setBay _ _ _ rfl rfl
  unfold Blocks.loseModuleBay
  dsimp only
  (repeat' split) <;> simp [h1]

@[simp] theorem Blocks.loseModule_controls (p : Blocks) (k : ModuleNo) : (p.loseModule k).controls = p.controls := by
  unfold Blocks.loseModule
  split
  · rfl
  · rw [Blocks.controls_congr (Blocks.raise_bays _ _ _)]
    exact (foldl_leaves Blocks.controls _ _ _ fun q b _ => by simp).trans (by simp)

@[simp] theorem Blocks.tick_controls (p : Blocks) : p.tick.controls = p.controls := by
  have h : ((List.finRange Config.moduleCount).foldl Blocks.tickModule p).controls = p.controls :=
    foldl_leaves Blocks.controls _ _ _ fun q k _ => by
      unfold Blocks.tickModule
      (repeat' split) <;> simp
  unfold Blocks.tick
  dsimp only
  split
  · rw [Blocks.controls_congr (Blocks.minuteBoundary_bays _), h]
  · rw [Blocks.controls_congr (Blocks.withClock_bays _ _), h]

@[simp] theorem Blocks.bayBoundary_controls (p : Blocks) : p.bayBoundary.controls = p.controls := by
  unfold Blocks.bayBoundary
  split
  · rfl
  · refine (foldl_leaves Blocks.controls _ _ _ fun q b _ => ?_).trans (Blocks.controls_congr (Blocks.withBoundaries_bays _ _))
    unfold Blocks.countBay
    dsimp only
    split
    · rw [Blocks.controls_congr (Blocks.raise_bays _ _ _), Blocks.controls_setBay _ _ _ (by simp) (by simp)]
    · rw [Blocks.controls_setBay _ _ _ (by simp) (by simp)]

@[simp] theorem Blocks.claim_controls (p : Blocks) (sl : Slot) (r : Record) : (p.claim sl r).controls = p.controls := by
  rw [Blocks.controls_congr (q := p.setBay r.bay (p.bay r.bay).serve)]
  · exact Blocks.controls_setBay _ _ _ rfl rfl
  · unfold Blocks.claim; dsimp only; split <;> simp [Blocks.setBay, Blocks.bay]

@[simp] theorem Blocks.disable_controls (p : Blocks) (b : BayNo) : (p.disable b).controls = p.controls := by
  unfold Blocks.disable
  dsimp only
  rw [Blocks.controls_congr (Blocks.withNotices_bays _ _)]
  split
  · rfl
  · exact (Blocks.controls_setBay _ _ _ (by rfl) (by rfl)).trans (Blocks.loseBay_controls _ _ _)

@[simp] theorem Blocks.clearFault_controls (p : Blocks) (b : BayNo) : (p.clearFault b).controls = p.controls := by
  unfold Blocks.clearFault
  dsimp only
  split
  · exact Blocks.controls_setBay _ _ _ (by simp) (by simp)
  · exact Blocks.controls_setBay _ _ _ rfl rfl

@[simp] theorem Blocks.enable_controls (p : Blocks) (b : BayNo) : (p.enable b).controls = p.controls :=
  Blocks.controls_setBay _ _ _ (by simp) (by simp)

@[simp] theorem admitServing_controls (p : Blocks) (r : Record) : (admitServing p r).blocks.controls = p.controls := by
  unfold admitServing
  split
  · rfl
  · rw [Blocks.controls_congr (q := p.setBay r.bay (p.bay r.bay).serve)]
    · exact Blocks.controls_setBay _ _ _ rfl rfl
    · simp [accept, Blocks.setBay, Blocks.bay]

@[simp] theorem Blocks.takeHold_controls (p : Blocks) (b : BayNo) : (p.takeHold b).controls = p.controls := by
  unfold Blocks.takeHold Blocks.takeBay
  (repeat' split)
  · rfl
  · exact (Blocks.controls_setBay _ _ _ (by simp) (by simp)).trans (Blocks.controls_congr (Blocks.withMail_bays _ _))
  · rfl

@[simp] theorem Blocks.takeUnhold_controls (p : Blocks) (b : BayNo) : (p.takeUnhold b).controls = p.controls := by
  unfold Blocks.takeUnhold Blocks.takeBay
  (repeat' split)
  · rfl
  · exact (Blocks.controls_setBay _ _ _ (by simp) (by simp)).trans (Blocks.controls_congr (Blocks.withMail_bays _ _))
  · rfl

@[simp] theorem Blocks.takeEnd_controls (p : Blocks) (b : BayNo) : (p.takeEnd b).controls = p.controls := by
  unfold Blocks.takeEnd Blocks.takeBay
  (repeat' split)
  · rfl
  · exact (Blocks.controls_setBay _ _ _ (by simp) (by simp)).trans (Blocks.controls_congr (Blocks.withMail_bays _ _))
  · rfl

/-! ## One change of an effective action -/

/-- What a change of one effective action leaves of the supply unit. -/
theorem Blocks.setAction_supply (p : Blocks) (b : BayNo) (x : Action) :
    (p.setAction b x).supply = { p.supply with actions := setAt p.supply.actions b x } := by
  unfold Blocks.setAction
  dsimp only
  split
  · rename_i h
    have : setAt p.supply.actions b x = p.supply.actions := by subst h; simp [setAt]
    rw [this]
  · (repeat' split) <;> simp

theorem Blocks.setAction_alloc_actions {p : Blocks} (h : p.alloc.actions = p.supply.actions) (b : BayNo) (x : Action) :
    (p.setAction b x).alloc.actions = (p.setAction b x).supply.actions := by
  unfold Blocks.setAction
  dsimp only
  (repeat' split) <;> simp [h]

@[simp] theorem Blocks.setAction_alloc_supply (p : Blocks) (b : BayNo) (x : Action) :
    (p.setAction b x).alloc.supply = p.alloc.supply := by
  unfold Blocks.setAction
  dsimp only
  (repeat' split) <;> simp

/-- The bay entries after a change of one effective action. -/
theorem Blocks.setAction_bay {p : Blocks} (b : BayNo) (x : Action) (c : BayNo) (h : p.supply.actions[b] = (p.bay b).action)
    (hs : (p.bay b).sign = signOf (p.bay b).state (p.bay b).action) :
    (p.setAction b x).bay c = if b = c then (p.bay b).setAction x else p.bay c := by
  unfold Blocks.setAction
  dsimp only
  split
  · rename_i e
    split
    · rename_i e'; subst e'; rw [← e, h]; simp [Bay.setAction, Bay.resign, ← hs]
    · rfl
  · have : ∀ q : Blocks, q.bays = (p.setBay b ((p.bay b).setAction x)).bays →
        q.bay c = if b = c then (p.bay b).setAction x else p.bay c := by
      intro q hq
      rw [Blocks.bay_congr hq, Blocks.bay_setBay]
    refine this _ ?_
    (repeat' split) <;> simp [Blocks.setBay, Blocks.bay]

theorem Blocks.setAction_controls (p : Blocks) (b : BayNo) (x : Action) (h : p.supply.actions[b] = (p.bay b).action) :
    (p.setAction b x).controls = fun c => ((p.bay c).config, if b = c then x else (p.bay c).action) := by
  unfold Blocks.setAction
  dsimp only
  split
  · rename_i e
    funext c
    simp only [Blocks.controls]
    split
    · rename_i e'; subst e'; rw [← e, h]
    · rfl
  · have : ∀ q : Blocks, q.bays = (p.setBay b ((p.bay b).setAction x)).bays →
        q.controls = fun c => ((p.bay c).config, if b = c then x else (p.bay c).action) := by
      intro q hq
      rw [Blocks.controls_congr hq]
      funext c
      simp only [Blocks.controls, Blocks.bay_setBay]
      split
      · rename_i e'; subst e'; rfl
      · rfl
    refine this _ ?_
    (repeat' split) <;> simp [Blocks.setBay, Blocks.bay]

theorem Blocks.ActionCopies.congr {p q : Blocks} (h : p.ActionCopies) (ha : q.alloc.actions = p.alloc.actions)
    (hs : q.supply.actions = p.supply.actions) (hc : q.controls = p.controls) : q.ActionCopies := by
  refine ⟨by rw [ha, hs]; exact h.1, fun b => ?_⟩
  have := congrArg Prod.snd (congrFun hc b)
  simp only [Blocks.controls] at this
  rw [this, hs]
  exact h.2 b

theorem Blocks.ActionCopies.setAction {p : Blocks} (h : p.ActionCopies) (b : BayNo) (x : Action) :
    (p.setAction b x).ActionCopies := by
  refine ⟨Blocks.setAction_alloc_actions h.1 b x, fun c => ?_⟩
  have hc := congrArg Prod.snd (congrFun (p.setAction_controls b x (h.2 b).symm) c)
  simp only [Blocks.controls] at hc
  rw [hc, Blocks.setAction_supply]
  simp only [Fin.getElem_fin, setAt_get]
  split
  · rfl
  · exact h.2 c

theorem Blocks.ActionCopies.recomputeMembers {p : Blocks} (h : p.ActionCopies) (among : GroupNo → Bool) :
    (p.recomputeMembers among).ActionCopies :=
  foldl_keeps Blocks.ActionCopies _ _ _ h fun q hq b _ => by
    split
    · exact hq.setAction _ _
    · exact hq

/-! ## Groups -/

theorem GroupLevel.max_normal (g : GroupLevel) : g.max .normal = g := by cases g <;> rfl

/-- The action a bay's groups give depends on its configuration and the levels of its groups alone. -/
theorem SupplyUnit.actionFor_congr (u v : SupplyUnit) (c : BayConfig)
    (h : ∀ g : GroupNo, c.groups[g] = true → u.level g = v.level g) : u.actionFor c = v.actionFor c := by
  unfold SupplyUnit.actionFor
  congr 1
  funext a g
  split
  · rename_i hg; rw [h g hg]
  · rfl

theorem SupplyUnit.actionFor_actions (u : SupplyUnit) (v : Vector Action Config.bayCount) (c : BayConfig) :
    { u with actions := v }.actionFor c = u.actionFor c := rfl

/-- What a recomputation of members gives: every member's action is the one its groups give, the others are as they
were. -/
theorem Blocks.recompute_fold (among : GroupNo → Bool) (xs : List BayNo) (hn : xs.Nodup) (p : Blocks) (h : p.ActionCopies) :
    let q := xs.foldl (fun p b =>
      if (List.finRange 3).any fun g => among g && (p.bay b).config.groups[g] then p.recompute b else p) p
    q.ActionCopies ∧ (∃ v, q.supply = { p.supply with actions := v }) ∧ (∀ c, (q.bay c).config = (p.bay c).config) ∧
    ∀ c : BayNo, q.supply.actions[c] =
      if c ∈ xs ∧ ((List.finRange 3).any fun g => among g && (p.bay c).config.groups[g]) = true
      then p.supply.actionFor (p.bay c).config else p.supply.actions[c] := by
  induction xs generalizing p with
  | nil => exact ⟨h, ⟨_, rfl⟩, fun _ => rfl, fun c => by simp⟩
  | cons b xs ih =>
    obtain ⟨hb, hn⟩ := List.nodup_cons.1 hn
    simp only [List.foldl_cons]
    split
    · rename_i hm
      have h' : (p.recompute b).ActionCopies := h.setAction b _
      have hs : (p.recompute b).supply = { p.supply with actions := setAt p.supply.actions b (p.supply.actionFor (p.bay b).config) } :=
        Blocks.setAction_supply _ _ _
      have hc : ∀ c, ((p.recompute b).bay c).config = (p.bay c).config := fun c =>
        congrArg Prod.fst (congrFun (p.setAction_controls b (p.supply.actionFor (p.bay b).config) (h.2 b).symm) c)
      obtain ⟨i1, ⟨v, i2⟩, i3, i4⟩ := ih hn (p.recompute b) h'
      refine ⟨i1, ⟨v, by rw [i2, hs]⟩, fun c => by rw [i3, hc], fun c => ?_⟩
      rw [i4 c, hc c, hs, SupplyUnit.actionFor_actions]
      simp only [Fin.getElem_fin, setAt_get, List.mem_cons]
      by_cases e : b = c
      · subst e
        rw [if_neg fun x => hb x.1, if_pos rfl, if_pos ⟨.inl rfl, hm⟩]
      · have e' : ¬ c = b := fun x => e x.symm
        simp [e, e']
    · rename_i hm
      obtain ⟨i1, i2, i3, i4⟩ := ih hn p h
      refine ⟨i1, i2, i3, fun c => ?_⟩
      rw [i4 c]
      by_cases e : c = b
      · subst e
        rw [if_neg fun x => hb x.1, if_neg fun x => hm x.2]
      · simp [e]

/-- A change of the groups' levels followed by the recomputation of the members of the groups changed keeps every action
following its groups. -/
theorem Blocks.recomputeMembers_follow {p : Blocks} (u : SupplyUnit) (among : GroupNo → Bool) (h : p.ActionCopies)
    (hf : p.ActionsFollowGroups) (hu : u.actions = p.supply.actions)
    (hl : ∀ g : GroupNo, among g = false → u.level g = p.supply.level g) :
    ((p.withSupply u).recomputeMembers among).ActionsFollowGroups := by
  have h' : (p.withSupply u).ActionCopies := h.congr (by simp) (by simpa using hu) rfl
  obtain ⟨_, ⟨v, h2⟩, h3, h4⟩ := Blocks.recompute_fold among (List.finRange Config.bayCount) (List.nodup_finRange _) _ h'
  intro b
  have h5 := h4 b
  change ((p.withSupply u).recomputeMembers among).supply = _ at h2
  change ((p.withSupply u).recomputeMembers among).supply.actions[b] = _ at h5
  have h6 : (((p.withSupply u).recomputeMembers among).bay b).config = ((p.withSupply u).bay b).config := h3 b
  rw [h5, h6, h2, SupplyUnit.actionFor_actions]
  have e : (p.withSupply u).bay b = p.bay b := rfl
  simp only [List.mem_finRange, true_and, Blocks.withSupply_supply, e]
  split
  · rfl
  · rename_i hm
    have h7 : u.actions[b] = p.supply.actions[b] := by rw [hu]
    rw [h7, hf b]
    refine SupplyUnit.actionFor_congr _ _ _ fun g hg => (hl g ?_).symm
    simp only [List.any_eq_true, not_exists, Bool.and_eq_true] at hm
    have := hm g
    simp only [List.mem_finRange, true_and, hg, and_true] at this
    simpa using this

theorem Blocks.ActionsFollowGroups.congr {p q : Blocks} (h : p.ActionsFollowGroups) (ha : q.supply.actions = p.supply.actions)
    (hl : q.supply.level = p.supply.level) (hc : q.controls = p.controls) : q.ActionsFollowGroups := by
  intro b
  have := congrArg Prod.fst (congrFun hc b)
  simp only [Blocks.controls] at this
  rw [ha, this, h b]
  exact SupplyUnit.actionFor_congr _ _ _ fun g _ => by rw [hl]

theorem Blocks.setSupply_ownActions (p : Blocks) (x : SupplyState) : (p.setSupply x).supply.actions = p.supply.actions := by
  unfold Blocks.setSupply
  dsimp only
  (repeat' split) <;> simp

theorem Blocks.setSupply_levels (p : Blocks) (x : SupplyState) : (p.setSupply x).supply.level = p.supply.level := by
  unfold Blocks.setSupply
  dsimp only
  (repeat' split) <;> (funext g; simp [SupplyUnit.level])

/-- The bays' actions agree with the supply unit's, and follow the groups. -/
theorem change_actions {p q : Blocks} (h : Change p q) (hp : p.ActionCopies ∧ p.ActionsFollowGroups) :
    q.ActionCopies ∧ q.ActionsFollowGroups := by
  have keep : ∀ q : Blocks, q.alloc.actions = p.alloc.actions → q.supply.actions = p.supply.actions →
      q.supply.level = p.supply.level → q.controls = p.controls → q.ActionCopies ∧ q.ActionsFollowGroups :=
    fun q h1 h2 h3 h4 => ⟨hp.1.congr h1 h2 h4, hp.2.congr h2 h3 h4⟩
  cases h with
  | configured b c hb _ =>
    have h1 : (p.setBay b { p.bay b with config := c }).ActionCopies := by
      refine ⟨hp.1.1, fun d => ?_⟩
      rw [Blocks.bay_setBay]
      split
      · rename_i e; subst e; exact hp.1.2 b
      · exact hp.1.2 d
    refine ⟨h1.setAction b _, fun d => ?_⟩
    unfold Blocks.configure Blocks.recompute
    have h2 := congrArg Prod.fst (congrFun ((p.setBay b { p.bay b with config := c }).setAction_controls b
      ((p.setBay b { p.bay b with config := c }).supply.actionFor ((p.setBay b { p.bay b with config := c }).bay b).config)
      (h1.2 b).symm) d)
    simp only [Blocks.controls] at h2
    rw [h2, Blocks.setAction_supply, SupplyUnit.actionFor_actions]
    simp only [Fin.getElem_fin, setAt_get, Blocks.bay_setBay, Blocks.setBay_supply]
    by_cases e : b = d
    · subst e; simp; rfl
    · simp only [if_neg e]; exact hp.2 d
  | groupLevel g l =>
    refine ⟨Blocks.ActionCopies.recomputeMembers (hp.1.congr (by simp) (by simp) (Blocks.controls_congr (by simp))) _, ?_⟩
    refine Blocks.recomputeMembers_follow _ _ hp.1 hp.2 rfl fun g' hg => ?_
    have : g ≠ g' := fun e => by subst e; simp at hg
    simp [SupplyUnit.level, setAt_get, this]
  | target t => exact keep _ rfl rfl rfl rfl
  | switched =>
    exact keep _ (Blocks.setSupply_alloc_actions _ _) (Blocks.setSupply_ownActions _ _) (Blocks.setSupply_levels _ _)
      (Blocks.controls_congr (Blocks.setSupply_bays _ _))
  | restarted =>
    have hb : ∀ b : BayNo, p.restartLevel.bay b =
        (p.bay b).restart (p.supply.restart p.bays.bays).actions[b] p.params.claimWindow := fun b => by
      simp [Blocks.restartLevel, Blocks.bay, Blocks.evalPool]
    have hs : p.restartLevel.supply = p.supply.restart p.bays.bays := rfl
    refine ⟨⟨rfl, fun b => ?_⟩, fun b => ?_⟩
    · rw [hb, hs, Bay.restart_action]
    · rw [hb, hs, Bay.restart_config]
      simp only [SupplyUnit.restart, Fin.getElem_fin, Vector.getElem_map]
      rfl
  | settleCount =>
    unfold Blocks.supplyBoundary
    dsimp only
    (repeat' split)
    · exact hp
    · refine keep _ ?_ ?_ ?_ ?_
      · rw [Blocks.setSupply_alloc_actions]; simp
      · rw [Blocks.setSupply_ownActions]; simp
      · rw [Blocks.setSupply_levels]; simp
      · rw [Blocks.controls_congr (Blocks.setSupply_bays _ _)]; exact Blocks.controls_congr (by simp)
    · exact keep _ (by simp) (by simp) (by simp; rfl) (Blocks.controls_congr (by simp))
    · exact keep _ (by simp) (by simp) (by simp) (Blocks.controls_congr (by simp))
  | fall =>
    unfold Blocks.mainsOkFall
    dsimp only
    (repeat' split)
    · refine keep _ ?_ ?_ ?_ ?_
      · rw [Blocks.setSupply_alloc_actions]; simp
      · rw [Blocks.setSupply_ownActions]; simp
      · rw [Blocks.setSupply_levels]; simp; rfl
      · rw [Blocks.controls_congr (Blocks.setSupply_bays _ _)]; exact Blocks.controls_congr (by simp)
    · exact keep _ (by simp) (by simp) (by simp; rfl) (Blocks.controls_congr (by simp))
    · exact keep _ (by simp) (by simp) (by simp; rfl) (Blocks.controls_congr (by simp))
    · exact keep _ (by simp) (by simp) (by simp; rfl) (Blocks.controls_congr (by simp))
    · exact hp
  | rise => exact keep _ rfl rfl rfl rfl
  | dr x =>
    refine ⟨Blocks.ActionCopies.recomputeMembers (hp.1.congr (by simp) (by simp) (Blocks.controls_congr (by simp))) _, ?_⟩
    refine Blocks.recomputeMembers_follow _ _ hp.1 hp.2 rfl fun g hg => ?_
    have : g ≠ 0 := fun e => by subst e; simp at hg
    simp [SupplyUnit.level, this]
  | alarm x =>
    refine ⟨Blocks.ActionCopies.recomputeMembers (hp.1.congr (by simp) (by simp) (Blocks.controls_congr (by simp))) _, ?_⟩
    exact Blocks.recomputeMembers_follow _ _ hp.1 hp.2 rfl fun g hg => by simp at hg
  | _ =>
    refine keep _ (by simp) (by simp) (by simp) ?_
    first
      | simp
      | exact Blocks.controls_congr (by simp)
      | rfl

/-! ## The copy of the supply state -/

/-- The allocator's copy of the supply state agrees with the supply unit's (R135). -/
def Blocks.SupplyCopied (p : Blocks) : Prop := p.alloc.supply = p.supply.state

theorem Blocks.SupplyCopied.congr {p q : Blocks} (h : p.SupplyCopied) (ha : q.alloc.supply = p.alloc.supply)
    (hs : q.supply.state = p.supply.state) : q.SupplyCopied := by
  unfold Blocks.SupplyCopied; rw [ha, hs]; exact h

theorem Blocks.setAction_supplyCopied {p : Blocks} (h : p.SupplyCopied) (b : BayNo) (x : Action) :
    (p.setAction b x).SupplyCopied :=
  h.congr (by simp) (by rw [Blocks.setAction_supply])

theorem Blocks.recomputeMembers_supplyCopied {p : Blocks} (h : p.SupplyCopied) (among : GroupNo → Bool) :
    (p.recomputeMembers among).SupplyCopied :=
  foldl_keeps _ _ _ _ h fun q hq b _ => by
    split
    · exact Blocks.setAction_supplyCopied hq _ _
    · exact hq

/-- Every change keeps the allocator's copy of the supply state in agreement. -/
theorem change_supplyCopied {p q : Blocks} (h : Change p q) (hp : p.SupplyCopied) : q.SupplyCopied := by
  cases h with
  | configured b c h _ =>
    refine Blocks.setAction_supplyCopied ?_ _ _
    exact hp.congr (by simp) (by simp)
  | groupLevel g l =>
    refine Blocks.recomputeMembers_supplyCopied ?_ _
    exact hp.congr (by simp) (by simp)
  | switched => exact Blocks.setSupply_alloc_supply _ hp
  | restarted => exact hp.congr (by rw [Blocks.restartLevel_alloc]; rfl) rfl
  | settleCount =>
    unfold Blocks.supplyBoundary
    dsimp only
    (repeat' split)
    · exact hp
    · refine Blocks.setSupply_alloc_supply _ ?_
      simpa [Blocks.SupplyCopied] using hp
    · exact hp.congr (by simp) (by simp)
    · exact hp.congr (by simp) (by simp)
  | fall =>
    unfold Blocks.mainsOkFall
    dsimp only
    (repeat' split)
    · refine Blocks.setSupply_alloc_supply _ ?_
      simpa [Blocks.SupplyCopied] using hp
    all_goals exact hp.congr (by simp) (by simp)
  | dr h =>
    refine Blocks.recomputeMembers_supplyCopied ?_ _
    exact hp.congr (by simp) (by simp)
  | alarm h =>
    refine Blocks.recomputeMembers_supplyCopied ?_ _
    exact hp.congr (by simp) (by simp)
  | _ => exact hp.congr (by simp) (by simp [Blocks.selectSupply, Blocks.mainsOkRise])

end Sys2Proof.Machine
end

