-- ==== Sys2Proof/Laws/Ceilings.lean ====
section
/-! SUPPORT. The allocator's lists and its granted totals: what each operation does to them, and that every change keeps the
lists sound and every granted total within its ceiling (R117, R119 to R126, R129). -/

namespace Sys2Proof.Machine

namespace Allocator

/-! ## Reading after writing -/

theorem feeder_setFeeder (a : Allocator) (f g : FeederNo) (x : Feeder) :
    (a.setFeeder f x).feeder g = if f = g then x else a.feeder g := by
  simp [Allocator.setFeeder, Allocator.feeder, setAt_get]

@[simp] theorem session_setFeeder (a : Allocator) (f : FeederNo) (x : Feeder) (b : BayNo) :
    (a.setFeeder f x).session b = a.session b := rfl

@[simp] theorem session_leaveLists (a : Allocator) (f : FeederNo) (b c : BayNo) :
    (a.leaveLists f b).session c = a.session c := rfl

theorem session_putSession (a : Allocator) (b c : BayNo) (o : Option Session) :
    (a.putSession b o).session c = if b = c then o else a.session c := by
  simp [Allocator.putSession, Allocator.session, setAt_get]

@[simp] theorem feeder_putSession (a : Allocator) (b : BayNo) (o : Option Session) (f : FeederNo) :
    (a.putSession b o).feeder f = a.feeder f := rfl

theorem putSession_twice (a : Allocator) (b : BayNo) (o o' : Option Session) :
    (a.putSession b o).putSession b o' = a.putSession b o' := by
  simp [Allocator.putSession, setAt]

@[simp] theorem ceiling_putSession (a : Allocator) (b : BayNo) (o : Option Session) (f : FeederNo) :
    (a.putSession b o).ceiling f = a.ceiling f := rfl

/-- A feeder rewritten with its budget and reserve ceiling keeps every ceiling. -/
theorem ceiling_setFeeder (a : Allocator) (f g : FeederNo) (x : Feeder) (hb : x.budget = (a.feeder f).budget)
    (hr : x.reserve = (a.feeder f).reserve) : (a.setFeeder f x).ceiling g = a.ceiling g := by
  unfold Allocator.ceiling
  rw [feeder_setFeeder, setFeeder_supply]
  split
  · rename_i e; subst e; cases a.supply <;> simp [Feeder.ceiling, hb, hr]
  · rfl

@[simp] theorem ceiling_leaveLists (a : Allocator) (f g : FeederNo) (b : BayNo) :
    (a.leaveLists f b).ceiling g = a.ceiling g := ceiling_setFeeder _ _ _ _ (by rfl) (by rfl)

@[simp] theorem ceiling_joinGrants (a : Allocator) (f g : FeederNo) (b : BayNo) :
    (a.joinGrants f b).ceiling g = a.ceiling g := ceiling_setFeeder _ _ _ _ (by rfl) (by rfl)

@[simp] theorem ceiling_joinQueue (a : Allocator) (f g : FeederNo) (b : BayNo) :
    (a.joinQueue f b).ceiling g = a.ceiling g := ceiling_setFeeder _ _ _ _ (by rfl) (by rfl)

/-! ## Where a session stands -/

/-- The bay is on none of the lists: it has no session, or a SUSPENDED one. -/
def Off (a : Allocator) (b : BayNo) : Prop := ∀ x, a.session b = some x → x.phase = .suspended

theorem ListsSound.off_grants {a : Allocator} (h : a.ListsSound) {b : BayNo} (hb : a.Off b) (f : FeederNo) :
    b ∉ (a.feeder f).grants := fun hm => by
  obtain ⟨x, hx, _, hp⟩ := (h.2.1 f b).1 hm
  rw [hb x hx] at hp; cases hp

theorem ListsSound.off_queue {a : Allocator} (h : a.ListsSound) {b : BayNo} (hb : a.Off b) (f : FeederNo) :
    b ∉ (a.feeder f).queue := fun hm => by
  obtain ⟨x, hx, _, hp⟩ := (h.2.2.1 f b).1 hm
  rw [hb x hx] at hp; cases hp

/-- A total over a list that a rewritten session is not on. -/
theorem grants_sum_other (a : Allocator) (b : BayNo) (o : Option Session) (xs : List BayNo) (h : b ∉ xs) :
    (xs.map (a.putSession b o).grantOf).sum = (xs.map a.grantOf).sum := by
  congr 1
  refine List.map_congr_left fun c hc => ?_
  unfold Allocator.grantOf
  rw [session_putSession, if_neg]
  rintro rfl; exact h hc

/-! ## The operations on one session -/

/-- A SUSPENDED session, or none, put at a bay that is on no list. -/
theorem putOff_sound {a : Allocator} (h : a.ListsSound) {b : BayNo} (hb : a.Off b) {o : Option Session}
    (ho : ∀ x, o = some x → x.phase = .suspended ∧ x.grant = 0) :
    (a.putSession b o).ListsSound ∧ ∀ f, (a.putSession b o).granted f = a.granted f := by
  refine ⟨⟨h.1, fun f c => ?_, fun f c => ?_, fun c x hx hp => ?_⟩, fun f => ?_⟩
  · rw [feeder_putSession, session_putSession]
    by_cases e : b = c
    · subst e
      rw [if_pos rfl]
      refine ⟨fun hm => absurd hm (h.off_grants hb f), ?_⟩
      rintro ⟨x, hx, _, hp⟩
      rw [(ho x hx).1] at hp; cases hp
    · rw [if_neg e]; exact h.2.1 f c
  · rw [feeder_putSession, session_putSession]
    by_cases e : b = c
    · subst e
      rw [if_pos rfl]
      refine ⟨fun hm => absurd hm (h.off_queue hb f), ?_⟩
      rintro ⟨x, hx, _, hp⟩
      rw [(ho x hx).1] at hp; cases hp
    · rw [if_neg e]; exact h.2.2.1 f c
  · rw [session_putSession] at hx
    split at hx
    · exact (ho x hx).2
    · exact h.2.2.2 c x hx hp
  · unfold Allocator.granted
    rw [feeder_putSession]
    exact grants_sum_other a b o _ (h.off_grants hb f)

/-- A session leaves its list, and its entry becomes SUSPENDED or is removed. -/
theorem leave_sound {a : Allocator} (h : a.ListsSound) {b : BayNo} {s : Session} (hs : a.session b = some s)
    {o : Option Session} (ho : ∀ x, o = some x → x.phase = .suspended ∧ x.grant = 0) :
    ((a.leaveLists s.feeder b).putSession b o).ListsSound ∧
    (∀ f, ((a.leaveLists s.feeder b).putSession b o).granted f ≤ a.granted f) ∧
    (∀ f, s.feeder ≠ f → ((a.leaveLists s.feeder b).putSession b o).feeder f = a.feeder f) ∧
    ((a.leaveLists s.feeder b).putSession b o).feeder s.feeder =
      { a.feeder s.feeder with grants := (a.feeder s.feeder).grants.filter (· != b), queue := (a.feeder s.feeder).queue.filter (· != b) } := by
  have fd : ∀ f, ((a.leaveLists s.feeder b).putSession b o).feeder f = if s.feeder = f then
      { a.feeder s.feeder with grants := (a.feeder s.feeder).grants.filter (· != b), queue := (a.feeder s.feeder).queue.filter (· != b) }
      else a.feeder f := fun f => feeder_setFeeder _ _ _ _
  have notG : ∀ f, s.feeder ≠ f → b ∉ (a.feeder f).grants := fun f hf hm => by
    obtain ⟨x, hx, hxf, _⟩ := (h.2.1 f b).1 hm
    rw [hs] at hx; cases hx; exact hf hxf
  have notQ : ∀ f, s.feeder ≠ f → b ∉ (a.feeder f).queue := fun f hf hm => by
    obtain ⟨x, hx, hxf, _⟩ := (h.2.2.1 f b).1 hm
    rw [hs] at hx; cases hx; exact hf hxf
  refine ⟨⟨fun f => ?_, fun f c => ?_, fun f c => ?_, fun c x hx hp => ?_⟩, fun f => ?_, fun f hf => ?_, ?_⟩
  · rw [fd]
    split
    · exact ⟨(h.1 _).1.filter _, (h.1 _).2.filter _⟩
    · exact h.1 f
  · rw [fd, session_putSession]
    by_cases e : b = c
    · subst e
      rw [if_pos rfl]
      constructor
      · intro hm
        split at hm
        · simp at hm
        · exact absurd hm (notG f ‹_›)
      · rintro ⟨x, hx, _, hp⟩
        rw [(ho x hx).1] at hp; cases hp
    · have e' : ¬ c = b := fun q => e q.symm
      rw [if_neg e]
      split
      · rename_i ef; subst ef; simpa [e'] using h.2.1 s.feeder c
      · exact h.2.1 f c
  · rw [fd, session_putSession]
    by_cases e : b = c
    · subst e
      rw [if_pos rfl]
      constructor
      · intro hm
        split at hm
        · simp at hm
        · exact absurd hm (notQ f ‹_›)
      · rintro ⟨x, hx, _, hp⟩
        rw [(ho x hx).1] at hp; cases hp
    · have e' : ¬ c = b := fun q => e q.symm
      rw [if_neg e]
      split
      · rename_i ef; subst ef; simpa [e'] using h.2.2.1 s.feeder c
      · exact h.2.2.1 f c
  · rw [session_putSession] at hx
    split at hx
    · exact (ho x hx).2
    · exact h.2.2.2 c x hx hp
  · unfold Allocator.granted
    rw [fd]
    have key : ∀ xs : List BayNo, b ∉ xs →
        (xs.map ((a.leaveLists s.feeder b).putSession b o).grantOf).sum = (xs.map a.grantOf).sum := fun xs hx =>
      grants_sum_other (a.leaveLists s.feeder b) b o xs hx
    split
    · rename_i ef; subst ef
      rw [key _ (by simp)]
      exact List.Sublist.sum_le_sum ((List.filter_sublist).map _) fun x _ => Nat.zero_le x
    · rw [key _ (notG f ‹_›)]
  · rw [fd, if_neg hf]
  · rw [fd, if_pos rfl]

/-- A session on no list becomes CHARGING with a grant, at the tail of its feeder's grant list. -/
theorem joinGrants_sound {a : Allocator} (h : a.ListsSound) {b : BayNo} (hb : a.Off b) {x : Session} (hx : x.phase = .charging) :
    ((a.putSession b (some x)).joinGrants x.feeder b).ListsSound ∧
    (∀ f, ((a.putSession b (some x)).joinGrants x.feeder b).granted f = a.granted f + if x.feeder = f then x.grant else 0) ∧
    (∀ f, (((a.putSession b (some x)).joinGrants x.feeder b).feeder f).queue = (a.feeder f).queue) := by
  have fd : ∀ f, ((a.putSession b (some x)).joinGrants x.feeder b).feeder f =
      if x.feeder = f then { a.feeder x.feeder with grants := (a.feeder x.feeder).grants ++ [b] } else a.feeder f :=
    fun f => feeder_setFeeder _ _ _ _
  have ss : ∀ c, ((a.putSession b (some x)).joinGrants x.feeder b).session c = if b = c then some x else a.session c :=
    fun c => session_putSession a b c _
  refine ⟨⟨fun f => ?_, fun f c => ?_, fun f c => ?_, fun c y hy hp => ?_⟩, fun f => ?_, fun f => ?_⟩
  · rw [fd]
    split
    · refine ⟨?_, (h.1 _).2⟩
      show ((a.feeder x.feeder).grants ++ [b]).Nodup
      rw [List.nodup_append]
      exact ⟨(h.1 _).1, by simp, fun c hc d hd => by simp at hd; subst hd; rintro rfl; exact h.off_grants hb _ hc⟩
    · exact h.1 f
  · rw [fd, ss]
    by_cases e : b = c
    · subst e
      rw [if_pos rfl]
      split
      · rename_i ef; subst ef; simp [hx]
      · rename_i ef; simp [h.off_grants hb f, ef]
    · have e' : ¬ c = b := fun q => e q.symm
      rw [if_neg e]
      split
      · rename_i ef; subst ef; simpa [e'] using h.2.1 x.feeder c
      · exact h.2.1 f c
  · rw [fd, ss]
    have hq : c ∈ (if x.feeder = f then { a.feeder x.feeder with grants := (a.feeder x.feeder).grants ++ [b] } else a.feeder f).queue ↔
        c ∈ (a.feeder f).queue := by
      split
      · rename_i ef; subst ef; exact Iff.rfl
      · exact Iff.rfl
    rw [hq]
    by_cases e : b = c
    · subst e
      rw [if_pos rfl]
      simp [h.off_queue hb f, hx]
    · rw [if_neg e]; exact h.2.2.1 f c
  · rw [ss] at hy
    split at hy
    · cases hy; exact absurd hx hp
    · exact h.2.2.2 c y hy hp
  · unfold Allocator.granted
    rw [fd]
    have gr : ∀ c, ((a.putSession b (some x)).joinGrants x.feeder b).grantOf c = (a.putSession b (some x)).grantOf c := fun c => rfl
    have gr' : ((a.putSession b (some x)).joinGrants x.feeder b).grantOf = (a.putSession b (some x)).grantOf := funext gr
    rw [gr']
    split
    · rename_i ef; subst ef
      rw [List.map_append, List.sum_append, grants_sum_other a b _ _ (h.off_grants hb _)]
      simp [Allocator.grantOf, session_putSession]
    · rw [grants_sum_other a b _ _ (h.off_grants hb _)]; rfl
  · rw [fd]
    split
    · rename_i ef; subst ef; rfl
    · rfl

/-- A session on no list becomes QUEUED with grant 0, on its feeder's wait queue. -/
theorem enqueue_sound {a : Allocator} (h : a.ListsSound) {b : BayNo} (hb : a.Off b) {x : Session} (hx : x.phase = .queued)
    (hg : x.grant = 0) {q : List BayNo} (hq : q.Perm (b :: (a.feeder x.feeder).queue)) :
    ((a.putSession b (some x)).setFeeder x.feeder { a.feeder x.feeder with queue := q }).ListsSound ∧
    (∀ f, ((a.putSession b (some x)).setFeeder x.feeder { a.feeder x.feeder with queue := q }).granted f = a.granted f) ∧
    (∀ f, (((a.putSession b (some x)).setFeeder x.feeder { a.feeder x.feeder with queue := q }).feeder f).grants = (a.feeder f).grants) := by
  have fd : ∀ f, ((a.putSession b (some x)).setFeeder x.feeder { a.feeder x.feeder with queue := q }).feeder f =
      if x.feeder = f then { a.feeder x.feeder with queue := q } else a.feeder f := fun f => feeder_setFeeder _ _ _ _
  have ss : ∀ c, ((a.putSession b (some x)).setFeeder x.feeder { a.feeder x.feeder with queue := q }).session c =
      if b = c then some x else a.session c := fun c => session_putSession a b c _
  have gr : ∀ f, (((a.putSession b (some x)).setFeeder x.feeder { a.feeder x.feeder with queue := q }).feeder f).grants =
      (a.feeder f).grants := fun f => by
    rw [fd]
    split
    · rename_i ef; subst ef; rfl
    · rfl
  refine ⟨⟨fun f => ?_, fun f c => ?_, fun f c => ?_, fun c y hy hp => ?_⟩, fun f => ?_, gr⟩
  · rw [fd]
    split
    · refine ⟨(h.1 _).1, ?_⟩
      show q.Nodup
      rw [hq.nodup_iff, List.nodup_cons]
      exact ⟨h.off_queue hb _, (h.1 _).2⟩
    · exact h.1 f
  · rw [gr, ss]
    by_cases e : b = c
    · subst e
      rw [if_pos rfl]
      simp [h.off_grants hb f, hx]
    · rw [if_neg e]; exact h.2.1 f c
  · rw [fd, ss]
    by_cases e : b = c
    · subst e
      rw [if_pos rfl]
      split
      · rename_i ef; subst ef
        show b ∈ q ↔ _
        rw [hq.mem_iff]; simp [hx]
      · rename_i ef; simp [h.off_queue hb f, ef]
    · have e' : ¬ c = b := fun q => e q.symm
      rw [if_neg e]
      split
      · rename_i ef; subst ef
        show c ∈ q ↔ _
        rw [hq.mem_iff]; simpa [e'] using h.2.2.1 x.feeder c
      · exact h.2.2.1 f c
  · rw [ss] at hy
    split at hy
    · cases hy; exact hg
    · exact h.2.2.2 c y hy hp
  · unfold Allocator.granted
    rw [gr]
    exact grants_sum_other a b _ _ (h.off_grants hb _)

/-- A session rewritten in its place: the same feeder and phase, and no grant outside CHARGING. -/
theorem adjust_sound {a : Allocator} (h : a.ListsSound) {b : BayNo} {s x : Session} (hs : a.session b = some s)
    (hf : x.feeder = s.feeder) (hp : x.phase = s.phase) (hg : x.phase ≠ .charging → x.grant = 0) :
    (a.putSession b (some x)).ListsSound ∧
    (∀ f, s.feeder ≠ f → (a.putSession b (some x)).granted f = a.granted f) ∧
    (a.putSession b (some x)).granted s.feeder + s.grant = a.granted s.feeder + x.grant := by
  refine ⟨⟨h.1, fun f c => ?_, fun f c => ?_, fun c y hy hc => ?_⟩, fun f hne => ?_, ?_⟩
  · rw [feeder_putSession, session_putSession]
    by_cases e : b = c
    · subst e
      rw [if_pos rfl]
      have := h.2.1 f b
      simpa [hs, hf, hp] using this
    · rw [if_neg e]; exact h.2.1 f c
  · rw [feeder_putSession, session_putSession]
    by_cases e : b = c
    · subst e
      rw [if_pos rfl]
      have := h.2.2.1 f b
      simpa [hs, hf, hp] using this
    · rw [if_neg e]; exact h.2.2.1 f c
  · rw [session_putSession] at hy
    split at hy
    · cases hy; exact hg hc
    · exact h.2.2.2 c y hy hc
  · unfold Allocator.granted
    rw [feeder_putSession]
    refine grants_sum_other a b _ _ fun hm => ?_
    obtain ⟨y, hy, hyf, _⟩ := (h.2.1 f b).1 hm
    rw [hs] at hy; cases hy; exact hne hyf
  · unfold Allocator.granted
    rw [feeder_putSession]
    by_cases hc : s.phase = .charging
    · have hm : b ∈ (a.feeder s.feeder).grants := (h.2.1 s.feeder b).2 ⟨s, hs, rfl, hc⟩
      obtain ⟨l1, l2, hl⟩ := List.append_of_mem hm
      have hn := (h.1 s.feeder).1
      rw [hl] at hn ⊢
      have h1 : b ∉ l1 := fun hm1 => by
        rw [List.nodup_append] at hn; exact hn.2.2 b hm1 b (by simp) rfl
      have h2 : b ∉ l2 := fun hm2 => by
        rw [List.nodup_append] at hn; exact (List.nodup_cons.1 hn.2.1).1 hm2
      have g1 : (a.putSession b (some x)).grantOf b = x.grant := by simp [Allocator.grantOf, session_putSession]
      have g2 : a.grantOf b = s.grant := by simp [Allocator.grantOf, hs]
      simp only [List.map_append, List.map_cons, List.sum_append, List.sum_cons, grants_sum_other a b _ _ h1,
        grants_sum_other a b _ _ h2, g1, g2]
      omega
    · have hm : b ∉ (a.feeder s.feeder).grants := fun hm => by
        obtain ⟨y, hy, _, hyp⟩ := (h.2.1 s.feeder b).1 hm
        rw [hs] at hy; cases hy; exact hc hyp
      rw [grants_sum_other a b _ _ hm, h.2.2.2 b s hs hc, hg (by rw [hp]; exact hc)]

/-! ## Operations that keep what is sound -/

/-- The change keeps the ceilings, the lists sound, and every total that is within its ceiling within it. -/
def Tame (a a' : Allocator) : Prop :=
  (∀ f, a'.ceiling f = a.ceiling f) ∧ a'.ListsSound ∧ ∀ f, a.granted f ≤ a.ceiling f → a'.granted f ≤ a'.ceiling f

theorem Tame.refl {a : Allocator} (h : a.ListsSound) : a.Tame a := ⟨fun _ => rfl, h, fun _ h => h⟩

theorem Tame.trans {a b c : Allocator} (h : a.Tame b) (h' : b.Tame c) : a.Tame c :=
  ⟨fun f => (h'.1 f).trans (h.1 f), h'.2.1, fun f hf => h'.2.2 f (h.2.2 f hf)⟩

/-- A fold of tame steps. -/
theorem Tame.foldl {β : Type} (g : Allocator → β → Allocator) (xs : List β) {a : Allocator} (h : a.ListsSound)
    (hg : ∀ q : Allocator, q.ListsSound → ∀ x ∈ xs, q.Tame (g q x)) : a.Tame (xs.foldl g a) :=
  foldl_keeps (fun q => a.Tame q) g xs a (.refl h) fun q hq x hx => hq.trans (hg q hq.2.1 x hx)

theorem place_tame {a : Allocator} (h : a.ListsSound) {b : BayNo} (hb : a.Off b) (m : Nat) (s : Session) :
    a.Tame (a.place b m s) := by
  unfold Allocator.place
  dsimp only
  split
  · obtain ⟨h1, h2⟩ := putOff_sound h hb (o := some { s with cap := capFor (a.action b) s.draw m, grant := 0, phase := .suspended })
      fun x hx => by cases hx; exact ⟨rfl, rfl⟩
    exact ⟨fun f => rfl, h1, fun f hf => by rw [h2]; exact hf⟩
  · split
    · rename_i hq
      obtain ⟨h1, h2, _⟩ := joinGrants_sound h hb
        (x := { s with cap := capFor (a.action b) s.draw m, grant := min (capFor (a.action b) s.draw m) (a.headroom s.feeder), phase := .charging }) rfl
      refine ⟨fun f => by simp, h1, fun f hf => ?_⟩
      rw [h2 f, ceiling_joinGrants, ceiling_putSession]
      split
      · rename_i ef
        have ef : s.feeder = f := ef
        subst ef
        have : min (capFor (a.action b) s.draw m) (a.headroom s.feeder) ≤ a.ceiling s.feeder - a.granted s.feeder :=
          Nat.min_le_right _ _
        show a.granted s.feeder + min (capFor (a.action b) s.draw m) (a.headroom s.feeder) ≤ _
        omega
      · exact hf
    · obtain ⟨h1, h2, _⟩ := enqueue_sound h hb (x := { s with cap := capFor (a.action b) s.draw m, grant := 0, phase := .queued })
        rfl rfl (q := (a.feeder s.feeder).queue ++ [b]) (List.perm_append_singleton _ _)
      exact ⟨fun f => by simp, h1, fun f hf => by rw [ceiling_joinQueue]; exact Nat.le_trans (Nat.le_of_eq (h2 f)) hf⟩

theorem serveOne_spec {a : Allocator} (h : a.ListsSound) {f : FeederNo} {b : BayNo} (hm : b ∈ (a.feeder f).queue) :
    a.Tame (Allocator.serveOne f a b) ∧
    (∀ c, c ≠ b → (c ∈ ((Allocator.serveOne f a b).feeder f).queue ↔ c ∈ (a.feeder f).queue)) ∧
    ∀ g, f ≠ g → (Allocator.serveOne f a b).granted g ≤ a.granted g := by
  obtain ⟨s, hs, hf, hp⟩ := (h.2.2.1 f b).1 hm
  unfold Allocator.serveOne
  split
  · rename_i hh
    simp only [hs]
    subst hf
    obtain ⟨l1, l2, l3, l4⟩ := leave_sound h hs (o := none) fun x hx => by cases hx
    have hb : ((a.leaveLists s.feeder b).putSession b none).Off b := fun x hx => by
      rw [session_putSession, if_pos rfl] at hx; cases hx
    obtain ⟨j1, j2, j3⟩ := joinGrants_sound l1 hb (x := { s with grant := min s.cap (a.headroom s.feeder), phase := .charging }) rfl
    rw [putSession_twice] at j1 j2 j3
    refine ⟨⟨fun g => by simp, j1, fun g hg => ?_⟩, fun c hc => ?_, fun g hg => ?_⟩
    · rw [ceiling_joinGrants, ceiling_putSession, ceiling_leaveLists]
      refine Nat.le_trans (Nat.le_of_eq (j2 g)) ?_
      have := l2 g
      split
      · rename_i ef
        have ef : s.feeder = g := ef
        subst ef
        have : min s.cap (a.headroom s.feeder) ≤ a.ceiling s.feeder - a.granted s.feeder := Nat.min_le_right _ _
        show _ + min s.cap (a.headroom s.feeder) ≤ _
        omega
      · omega
    · have := j3 s.feeder
      rw [this, l4]
      simp [hc]
    · refine Nat.le_trans (Nat.le_of_eq (j2 g)) ?_
      rw [if_neg (show ¬ s.feeder = g from hg)]
      exact l2 g
  · exact ⟨.refl h, fun c _ => Iff.rfl, fun g _ => Nat.le_refl _⟩

/-- Serving one feeder's queue (R122): it gives no other feeder a grant. -/
theorem serveQueue_spec {a : Allocator} (h : a.ListsSound) (f : FeederNo) :
    a.Tame (a.serveQueue f) ∧ ∀ g, f ≠ g → (a.serveQueue f).granted g ≤ a.granted g := by
  have key : ∀ (xs : List BayNo), xs.Nodup → ∀ q : Allocator, a.Tame q → (∀ g, f ≠ g → q.granted g ≤ a.granted g) →
      (∀ b ∈ xs, b ∈ (q.feeder f).queue) → a.Tame (xs.foldl (Allocator.serveOne f) q) ∧
        ∀ g, f ≠ g → (xs.foldl (Allocator.serveOne f) q).granted g ≤ a.granted g := by
    intro xs
    induction xs with
    | nil => intro _ q hq hg _; exact ⟨hq, hg⟩
    | cons b xs ih =>
      intro hn q hq hg hm
      obtain ⟨hb, hn⟩ := List.nodup_cons.1 hn
      obtain ⟨s1, s2, s3⟩ := serveOne_spec hq.2.1 (hm b (by simp))
      refine ih hn _ (hq.trans s1) (fun g hne => Nat.le_trans (s3 g hne) (hg g hne)) fun c hc => ?_
      refine (s2 c ?_).2 (hm c (by simp [hc]))
      rintro rfl; exact hb hc
  exact key _ (h.1 f).2 a (.refl h) (fun _ _ => Nat.le_refl _) fun b hb => hb

theorem serveQueue_tame {a : Allocator} (h : a.ListsSound) (f : FeederNo) : a.Tame (a.serveQueue f) := (serveQueue_spec h f).1

theorem release_tame {a : Allocator} (h : a.ListsSound) (b : BayNo) : a.Tame (a.release b) := by
  unfold Allocator.release
  split
  · exact .refl h
  · rename_i s hs
    obtain ⟨l1, l2, _⟩ := leave_sound h hs (o := none) fun x hx => by cases hx
    refine Tame.trans ⟨fun f => by simp, l1, fun f hf => ?_⟩ (serveQueue_tame l1 _)
    rw [ceiling_putSession, ceiling_leaveLists]
    exact Nat.le_trans (l2 f) hf

theorem request_tame {a : Allocator} (h : a.ListsSound) (b : BayNo) (d : Nat) (c : BayConfig) : a.Tame (a.request b d c) := by
  unfold Allocator.request
  (repeat' split)
  · rename_i hs
    exact place_tame h (fun x hx => by rw [hs] at hx; cases hx) _ _
  · rename_i s hs hp
    exact place_tame h (fun x hx => by rw [hs] at hx; cases hx; exact hp) _ _
  · exact .refl h

theorem resumeOne_tame {a : Allocator} (h : a.ListsSound) (c : BayNo → BayConfig) (m : Action → Bool) (b : BayNo) :
    a.Tame (Allocator.resumeOne c m a b) := by
  unfold Allocator.resumeOne
  (repeat' split)
  · exact .refl h
  · rename_i s hs hp
    exact place_tame h (fun x hx => by rw [hs] at hx; cases hx; exact hp.1) _ _
  · exact .refl h

theorem resumeAll_tame {a : Allocator} (h : a.ListsSound) (c : BayNo → BayConfig) : a.Tame (a.resumeAll c) :=
  .foldl _ _ h fun _ hq b _ => resumeOne_tame hq _ _ b

/-- A session's grant lowered, or left, in its place. -/
theorem lower_tame {a : Allocator} (h : a.ListsSound) {b : BayNo} {s x : Session} (hs : a.session b = some s)
    (hf : x.feeder = s.feeder) (hp : x.phase = s.phase) (hg : x.phase ≠ .charging → x.grant = 0) (hle : x.grant ≤ s.grant) :
    a.Tame (a.putSession b (some x)) := by
  obtain ⟨h1, h2, h3⟩ := adjust_sound h hs hf hp hg
  refine ⟨fun f => rfl, h1, fun f hw => ?_⟩
  rw [ceiling_putSession]
  by_cases e : s.feeder = f
  · subst e; omega
  · rw [h2 f e]; exact hw

theorem topUp_tame {a : Allocator} (h : a.ListsSound) (f : FeederNo) : a.Tame (a.topUp f) := by
  have key : ∀ q : Allocator, q.ListsSound → ∀ b ∈ (q.feeder f).grants, q.Tame (Allocator.topUpOne f q b) ∧
      ((Allocator.topUpOne f q b).feeder f).grants = (q.feeder f).grants := fun q hq b hm => by
    obtain ⟨s, hs, hf, hp⟩ := (hq.2.1 f b).1 hm
    unfold Allocator.topUpOne
    simp only [hs]
    subst hf
    obtain ⟨h1, h2, h3⟩ := adjust_sound hq hs (x := { s with grant := s.grant + min (s.cap - s.grant) (q.headroom s.feeder) })
      rfl rfl fun hc => absurd hp hc
    refine ⟨⟨fun g => rfl, h1, fun g hw => ?_⟩, rfl⟩
    rw [ceiling_putSession]
    by_cases e : s.feeder = g
    · subst e
      have : min (s.cap - s.grant) (q.headroom s.feeder) ≤ q.ceiling s.feeder - q.granted s.feeder := Nat.min_le_right _ _
      simp only at h3
      omega
    · rw [h2 g e]; exact hw
  have fold : ∀ (xs : List BayNo) (q : Allocator), a.Tame q → (∀ b ∈ xs, b ∈ (q.feeder f).grants) →
      a.Tame (xs.foldl (Allocator.topUpOne f) q) := by
    intro xs
    induction xs with
    | nil => intro q hq _; exact hq
    | cons b xs ih =>
      intro q hq hm
      obtain ⟨k1, k2⟩ := key q hq.2.1 b (hm b (by simp))
      exact ih _ (hq.trans k1) fun c hc => by rw [k2]; exact hm c (by simp [hc])
  exact fold _ a (.refl h) fun b hb => hb

theorem clearAll_spec (a : Allocator) : (∀ f, (((List.finRange Config.feederCount).foldl Allocator.clearLists a).feeder f).grants = [] ∧
    (((List.finRange Config.feederCount).foldl Allocator.clearLists a).feeder f).queue = []) ∧
    (∀ b, ((List.finRange Config.feederCount).foldl Allocator.clearLists a).session b = a.session b) ∧
    ∀ f, ((List.finRange Config.feederCount).foldl Allocator.clearLists a).ceiling f = a.ceiling f := by
  have fold : ∀ (xs : List FeederNo) (q : Allocator),
      (∀ f, (f ∈ xs ∨ (q.feeder f).grants = [] ∧ (q.feeder f).queue = []) →
        ((xs.foldl Allocator.clearLists q).feeder f).grants = [] ∧ ((xs.foldl Allocator.clearLists q).feeder f).queue = []) := by
    intro xs
    induction xs with
    | nil => intro q f hf; simpa using hf
    | cons g xs ih =>
      intro q f hf
      refine ih _ f ?_
      by_cases e : g = f
      · subst e
        right
        simp [Allocator.clearLists, feeder_setFeeder]
      · rcases hf with hf | hf
        · left
          rcases List.mem_cons.1 hf with e' | e'
          · exact absurd e'.symm e
          · exact e'
        · right
          simpa [Allocator.clearLists, feeder_setFeeder, e] using hf
  refine ⟨fun f => fold _ a f (.inl (List.mem_finRange f)), fun b => ?_, fun f => ?_⟩
  · exact foldl_leaves (fun q : Allocator => q.session b) _ _ _ fun q f _ => rfl
  · exact foldl_leaves (fun q : Allocator => q.ceiling f) _ _ _ fun q g _ => ceiling_setFeeder _ _ _ _ (by rfl) (by rfl)

theorem suspendOne_feeder (a : Allocator) (b : BayNo) : (Allocator.suspendOne a b).feeder = a.feeder := rfl

theorem suspendOne_ceiling (a : Allocator) (b : BayNo) : (Allocator.suspendOne a b).ceiling = a.ceiling := rfl

theorem suspend_fold (xs : List BayNo) (q : Allocator) (b : BayNo)
    (hb : b ∈ xs ∨ ∀ x, q.session b = some x → x.phase = .suspended ∧ x.grant = 0) :
    ∀ x, (xs.foldl Allocator.suspendOne q).session b = some x → x.phase = .suspended ∧ x.grant = 0 := by
  induction xs generalizing q with
  | nil => simpa using hb
  | cons c xs ih =>
    refine ih _ ?_
    by_cases e : c = b
    · subst e
      right
      intro x hx
      rw [Allocator.suspendOne, session_putSession, if_pos rfl] at hx
      obtain ⟨y, -, rfl⟩ := Option.map_eq_some_iff.1 hx
      exact ⟨rfl, rfl⟩
    · rcases hb with hb | hb
      · left
        rcases List.mem_cons.1 hb with e' | e'
        · exact absurd e'.symm e
        · exact e'
      · right
        intro x hx
        rw [Allocator.suspendOne, session_putSession, if_neg e] at hx
        exact hb x hx

/-- HALT: the lists empty and every session SUSPENDED (R125). -/
theorem suspendAll_spec (a : Allocator) : a.suspendAll.ListsSound ∧ (∀ f, a.suspendAll.granted f = 0) ∧
    (∀ f, a.suspendAll.ceiling f = a.ceiling f) ∧ ∀ b, a.suspendAll.Off b := by
  obtain ⟨c1, c2, c3⟩ := clearAll_spec a
  have e : a.suspendAll = (List.finRange Config.bayCount).foldl Allocator.suspendOne
      ((List.finRange Config.feederCount).foldl Allocator.clearLists a) := rfl
  rw [e]
  revert c1 c2 c3
  generalize (List.finRange Config.feederCount).foldl Allocator.clearLists a = c
  intro c1 c2 c3
  have hall := List.mem_finRange (n := Config.bayCount)
  revert hall
  generalize List.finRange Config.bayCount = xs
  intro hall
  have fd : (xs.foldl Allocator.suspendOne c).feeder = c.feeder :=
    foldl_leaves (fun q : Allocator => q.feeder) _ _ _ fun q b _ => suspendOne_feeder q b
  have cl : (xs.foldl Allocator.suspendOne c).ceiling = c.ceiling :=
    foldl_leaves (fun q : Allocator => q.ceiling) _ _ _ fun q b _ => suspendOne_ceiling q b
  have all : ∀ b x, (xs.foldl Allocator.suspendOne c).session b = some x → x.phase = .suspended ∧ x.grant = 0 := fun b =>
    suspend_fold xs c b (.inl (hall b))
  refine ⟨⟨fun f => ?_, fun f b => ?_, fun f b => ?_, fun b x hx _ => (all b x hx).2⟩, fun f => ?_, fun f => by rw [cl, c3],
    fun b x hx => (all b x hx).1⟩
  · rw [fd, (c1 f).1, (c1 f).2]; exact ⟨.nil, .nil⟩
  · rw [fd, (c1 f).1]
    refine ⟨fun hm => absurd hm (by simp), ?_⟩
    rintro ⟨x, hx, _, hp⟩
    rw [(all b x hx).1] at hp; cases hp
  · rw [fd, (c1 f).2]
    refine ⟨fun hm => absurd hm (by simp), ?_⟩
    rintro ⟨x, hx, _, hp⟩
    rw [(all b x hx).1] at hp; cases hp
  · unfold Allocator.granted
    rw [fd, (c1 f).1]; rfl

theorem rebuild_tame (a : Allocator) (c : BayNo → BayConfig) : (a.rebuild c).ListsSound ∧ (a.rebuild c).WithinCeilings := by
  obtain ⟨h1, h2, h3, _⟩ := a.suspendAll_spec
  have := Tame.foldl (Allocator.resumeOne c fun _ => true) (List.finRange Config.bayCount) h1 fun _ hq b _ => resumeOne_tame hq _ _ b
  exact ⟨this.2.1, fun f => this.2.2 f (by rw [h2]; exact Nat.zero_le _)⟩

/-! ## The cut -/

/-- What the cut gives: sound lists, the same ceilings, its feeder within its ceiling, and the others' totals kept. -/
theorem cut_spec {a : Allocator} (h : a.ListsSound) (f : FeederNo) : (a.cut f).ListsSound ∧ (∀ g, (a.cut f).ceiling g = a.ceiling g) ∧
    (a.cut f).granted f ≤ (a.cut f).ceiling f ∧ ∀ g, f ≠ g → (a.cut f).granted g = a.granted g := by
  let T : Allocator → Prop := fun q => q.ListsSound ∧ (∀ g, q.ceiling g = a.ceiling g) ∧ ∀ g, f ≠ g → q.granted g = a.granted g
  have trim : ∀ (xs : List BayNo) (q : Allocator), T q → (∀ b ∈ xs, b ∈ (q.feeder f).grants) →
      T (xs.foldl (Allocator.trimOne f) q) := by
    intro xs
    induction xs with
    | nil => intro q hq _; exact hq
    | cons b xs ih =>
      intro q hq hm
      obtain ⟨s, hs, hf, hp⟩ := (hq.1.2.1 f b).1 (hm b (by simp))
      have e : Allocator.trimOne f q b = q.putSession b (some { s with grant := s.grant - min (s.grant - Config.leastGrant) (q.granted f - q.ceiling f) }) := by
        unfold Allocator.trimOne; simp only [hs]
      obtain ⟨h1, h2, _⟩ := adjust_sound hq.1 hs (x := { s with grant := s.grant - min (s.grant - Config.leastGrant) (q.granted f - q.ceiling f) })
        rfl rfl fun hc => absurd hp hc
      simp only [List.foldl_cons, e]
      refine ih _ ⟨h1, hq.2.1, fun g hg => ?_⟩ fun c hc => hm c (by simp [hc])
      rw [h2 g (by rw [hf]; exact hg)]; exact hq.2.2 g hg
  have requeue : ∀ (xs : List BayNo) (q : Allocator), T q → xs.Nodup →
      ((∀ b, b ∈ (q.feeder f).grants ↔ b ∈ xs) ∨ q.granted f ≤ q.ceiling f) →
      T (xs.foldl (Allocator.requeueOne f) q) ∧
        (xs.foldl (Allocator.requeueOne f) q).granted f ≤ (xs.foldl (Allocator.requeueOne f) q).ceiling f := by
    intro xs
    induction xs with
    | nil =>
      intro q hq _ hc
      refine ⟨hq, ?_⟩
      rcases hc with hc | hc
      · have : (q.feeder f).grants = [] := List.eq_nil_iff_forall_not_mem.2 fun b hb => by
          have := (hc b).1 hb; cases this
        unfold Allocator.granted
        simp [this]
      · exact hc
    | cons b xs ih =>
      intro q hq hn hc
      obtain ⟨hb, hn⟩ := List.nodup_cons.1 hn
      simp only [List.foldl_cons]
      by_cases hx : q.ceiling f < q.granted f
      · rcases hc with hc | hc
        · obtain ⟨s, hs, hf, hp⟩ := (hq.1.2.1 f b).1 ((hc b).2 (by simp))
          subst hf
          obtain ⟨l1, l2, l3, l4⟩ := leave_sound hq.1 hs (o := none) fun x hx => by cases hx
          have hoff : ((q.leaveLists s.feeder b).putSession b none).Off b := fun x hx => by
            rw [session_putSession, if_pos rfl] at hx; cases hx
          obtain ⟨j1, j2, j3⟩ := enqueue_sound l1 hoff (x := { s with grant := 0, phase := .queued }) rfl rfl (List.Perm.refl _)
          have e : Allocator.requeueOne s.feeder q b =
              (((q.leaveLists s.feeder b).putSession b none).putSession b (some { s with grant := 0, phase := .queued })).setFeeder
                s.feeder { ((q.leaveLists s.feeder b).putSession b none).feeder s.feeder with
                  queue := b :: (((q.leaveLists s.feeder b).putSession b none).feeder s.feeder).queue } := by
            rw [putSession_twice]
            unfold Allocator.requeueOne
            simp only [hs, if_pos hx]
            rfl
          rw [e]
          refine ih _ ⟨j1, fun g => ?_, fun g hg => ?_⟩ hn (.inl fun c => ?_)
          · rw [ceiling_setFeeder _ _ _ _ (by rfl) (by rfl), ceiling_putSession, ceiling_putSession, ceiling_leaveLists]
            exact hq.2.1 g
          · refine (j2 g).trans (Eq.trans ?_ (hq.2.2 g hg))
            unfold Allocator.granted
            rw [l3 g hg]
            refine grants_sum_other (q.leaveLists s.feeder b) b none _ fun hm => ?_
            obtain ⟨y, hy, hyf, _⟩ := (hq.1.2.1 g b).1 hm
            rw [hs] at hy; cases hy; exact hg hyf
          · have := j3 s.feeder
            rw [this, l4]
            have h5 := hc c
            by_cases e' : c = b
            · subst e'; simp [hb]
            · simp [e'] at h5 ⊢; exact h5
        · omega
      · have e : Allocator.requeueOne f q b = q := by unfold Allocator.requeueOne; rw [if_neg hx]
        rw [e]
        exact ih q hq hn (.inr (by omega))
  have h0 : T a := ⟨h, fun _ => rfl, fun _ _ => rfl⟩
  have h1 : T ((a.feeder f).grants.reverse.foldl (Allocator.trimOne f) a) := trim _ a h0 fun b hb => by simpa using hb
  obtain ⟨r1, r2⟩ := requeue (((a.feeder f).grants.reverse.foldl (Allocator.trimOne f) a).feeder f).grants.reverse _ h1
    (List.nodup_reverse.2 (h1.1.1 f).1) (.inl fun b => by simp)
  exact ⟨r1.1, r1.2.1, r2, r1.2.2⟩

theorem curtail_tame {a : Allocator} (h : a.ListsSound) (b : BayNo) (new : Action) (m : Nat) : a.Tame (a.curtail b new m) := by
  have h' : { a with actions := setAt a.actions b new }.ListsSound := h
  have t' : a.Tame { a with actions := setAt a.actions b new } := ⟨fun _ => rfl, h', fun _ hf => hf⟩
  refine t'.trans ?_
  unfold Allocator.curtail
  dsimp only
  split
  · exact .refl h'
  · rename_i s hs
    split
    · rename_i hc
      exact place_tame h' (fun x hx => by rw [hs] at hx; cases hx; exact hc.2.2) _ _
    · split
      · obtain ⟨l1, l2, _⟩ := leave_sound h' hs (o := some { s with cap := capFor new s.draw m, grant := 0, phase := .suspended })
          fun x hx => by cases hx; exact ⟨rfl, rfl⟩
        refine Tame.trans ⟨fun f => by simp, l1, fun f hf => ?_⟩ (serveQueue_tame l1 _)
        rw [ceiling_putSession, ceiling_leaveLists]
        exact Nat.le_trans (l2 f) hf
      · split
        · rename_i hc
          have t := lower_tame h' hs (x := { s with cap := capFor new s.draw m, grant := min s.grant Config.leastGrant }) rfl rfl
            (fun hn => absurd hc.2 hn) (Nat.min_le_left _ _)
          exact t.trans (serveQueue_tame t.2.1 _)
        · exact lower_tame h' hs rfl rfl (fun hn => h.2.2.2 b s hs hn) (Nat.le_refl _)

end Allocator

/-! ## At the blocks -/

/-- A feeder rewritten outside its lists leaves the lists sound and every total. -/
theorem Allocator.setFeeder_lists {a : Allocator} (h : a.ListsSound) (f : FeederNo) (x : Feeder)
    (hg : x.grants = (a.feeder f).grants) (hq : x.queue = (a.feeder f).queue) :
    (a.setFeeder f x).ListsSound ∧ ∀ g, (a.setFeeder f x).granted g = a.granted g := by
  have fd : ∀ g, ((a.setFeeder f x).feeder g).grants = (a.feeder g).grants ∧ ((a.setFeeder f x).feeder g).queue = (a.feeder g).queue :=
    fun g => by
      rw [Allocator.feeder_setFeeder]
      split
      · rename_i e; subst e; exact ⟨hg, hq⟩
      · exact ⟨rfl, rfl⟩
  refine ⟨⟨fun g => by rw [(fd g).1, (fd g).2]; exact h.1 g, fun g b => by rw [(fd g).1]; exact h.2.1 g b,
    fun g b => by rw [(fd g).2]; exact h.2.2.1 g b, h.2.2.2⟩, fun g => ?_⟩
  unfold Allocator.granted
  rw [(fd g).1]; rfl

/-- The cut at one feeder, where needed. -/
theorem Blocks.cutFeeder_spec {p : Blocks} (h : p.alloc.ListsSound) (f : FeederNo) :
    (p.cutFeeder f).alloc.ListsSound ∧ (∀ g, (p.cutFeeder f).alloc.ceiling g = p.alloc.ceiling g) ∧
    (p.cutFeeder f).alloc.granted f ≤ (p.cutFeeder f).alloc.ceiling f ∧
    ∀ g, f ≠ g → (p.cutFeeder f).alloc.granted g = p.alloc.granted g := by
  unfold Blocks.cutFeeder
  split
  · simpa using Allocator.cut_spec h f
  · exact ⟨h, fun _ => rfl, by omega, fun _ _ => rfl⟩

theorem Blocks.ceilingChanged_spec {p : Blocks} (h : p.alloc.ListsSound) (f : FeederNo) (old : Nat)
    (ho : p.alloc.granted f ≤ old) :
    (p.ceilingChanged f old).alloc.ListsSound ∧ (∀ g, (p.ceilingChanged f old).alloc.ceiling g = p.alloc.ceiling g) ∧
    (p.ceilingChanged f old).alloc.granted f ≤ (p.ceilingChanged f old).alloc.ceiling f ∧
    ∀ g, f ≠ g → (p.ceilingChanged f old).alloc.granted g ≤ p.alloc.granted g := by
  unfold Blocks.ceilingChanged
  split
  · obtain ⟨t, hg⟩ := Allocator.serveQueue_spec h f
    rw [Blocks.withAlloc_alloc]
    exact ⟨t.2.1, t.1, t.2.2 f (by omega), hg⟩
  · split
    · obtain ⟨h1, h2, h3, h4⟩ := Blocks.cutFeeder_spec h f
      exact ⟨h1, h2, h3, fun g hg => Nat.le_of_eq (h4 g hg)⟩
    · exact ⟨h, fun _ => rfl, by omega, fun g _ => Nat.le_refl _⟩

theorem Blocks.rebalanceFeeder_sound {p : Blocks} (h : p.alloc.Sound) (f : FeederNo) : (p.rebalanceFeeder f).alloc.Sound := by
  have s1 : (p.alloc.switchBudget f).ListsSound ∧ (∀ g, (p.alloc.switchBudget f).granted g = p.alloc.granted g) ∧
      ∀ g, f ≠ g → (p.alloc.switchBudget f).ceiling g = p.alloc.ceiling g := by
    unfold Allocator.switchBudget
    split
    · obtain ⟨a1, a2⟩ := Allocator.setFeeder_lists h.1 f
        { p.alloc.feeder f with budget := (p.alloc.feeder f).staged, switchPending := false } rfl rfl
      refine ⟨a1, a2, fun g hg => ?_⟩
      unfold Allocator.ceiling
      rw [Allocator.feeder_setFeeder, if_neg hg]; rfl
    · exact ⟨h.1, fun _ => rfl, fun _ _ => rfl⟩
  obtain ⟨b1, b2, b3, b4⟩ := Blocks.cutFeeder_spec (p := p.withAlloc (p.alloc.switchBudget f)) s1.1 f
  have c1 : ((p.withAlloc (p.alloc.switchBudget f)).cutFeeder f).alloc.Sound := by
    refine ⟨b1, fun g => ?_⟩
    by_cases e : f = g
    · subst e; exact b3
    · rw [b4 g e, b2 g]
      simp only [Blocks.withAlloc_alloc]
      rw [s1.2.1 g, s1.2.2 g e]
      exact h.2 g
  unfold Blocks.rebalanceFeeder
  dsimp only
  rw [Blocks.withAlloc_alloc, Blocks.withAlloc_alloc]
  have t1 := Allocator.serveQueue_tame c1.1 f
  have t2 := t1.trans (Allocator.topUp_tame t1.2.1 f)
  exact ⟨t2.2.1, fun g => t2.2.2 g (c1.2 g)⟩

theorem Allocator.Tame.sound {a a' : Allocator} (t : a.Tame a') (h : a.Sound) : a'.Sound :=
  ⟨t.2.1, fun f => t.2.2 f (h.2 f)⟩

/-- A fold of ceiling changes over feeders, each told the ceiling before the change. -/
theorem Blocks.ceilings_fold (old : FeederNo → Nat) (xs : List FeederNo) (hn : xs.Nodup) (p : Blocks) (h : p.alloc.ListsSound)
    (hw : ∀ f, (f ∈ xs → p.alloc.granted f ≤ old f) ∧ (f ∉ xs → p.alloc.granted f ≤ p.alloc.ceiling f)) :
    (xs.foldl (fun p f => p.ceilingChanged f (old f)) p).alloc.Sound := by
  induction xs generalizing p with
  | nil => exact ⟨h, fun f => (hw f).2 (by simp)⟩
  | cons f xs ih =>
    obtain ⟨hf, hn⟩ := List.nodup_cons.1 hn
    obtain ⟨h1, h2, h3, h4⟩ := Blocks.ceilingChanged_spec h f (old f) ((hw f).1 (by simp))
    refine ih hn _ h1 fun g => ⟨fun hg => ?_, fun hg => ?_⟩
    · have hne : f ≠ g := by rintro rfl; exact hf hg
      exact Nat.le_trans (h4 g hne) ((hw g).1 (by simp [hg]))
    · by_cases e : f = g
      · subst e; exact h3
      · rw [h2 g]
        exact Nat.le_trans (h4 g e) ((hw g).2 (by simp [hg]; exact fun q => e q.symm))

theorem Blocks.allocSupply_sound {p : Blocks} (h : p.alloc.Sound) (x : SupplyState) : (p.allocSupply x).alloc.Sound := by
  have hl : { p.alloc with supply := x }.ListsSound := h.1
  unfold Blocks.allocSupply
  dsimp only
  split
  · obtain ⟨a1, a2, _⟩ := { p.alloc with supply := x }.suspendAll_spec
    simp only [Blocks.withAlloc_alloc]
    exact ⟨a1, fun f => by rw [a2]; exact Nat.zero_le _⟩
  · split
    · rename_i hh
      have hz : ∀ f, p.alloc.granted f = 0 := fun f => by
        have := h.2 f
        unfold Allocator.ceiling at this
        rw [hh] at this
        simpa [Feeder.ceiling] using this
      have t := Allocator.resumeAll_tame hl (p.withAlloc { p.alloc with supply := x }).configs
      simp only [Blocks.withAlloc_alloc]
      refine ⟨t.2.1, fun f => t.2.2 f ?_⟩
      show p.alloc.granted f ≤ _
      rw [hz]; exact Nat.zero_le _
    · refine Blocks.ceilings_fold p.alloc.ceiling _ (List.nodup_finRange _) _ (by simpa using hl) fun f => ⟨fun _ => h.2 f, fun hn => ?_⟩
      exact absurd (List.mem_finRange f) hn

theorem Blocks.setSupply_sound {p : Blocks} (h : p.alloc.Sound) (x : SupplyState) : (p.setSupply x).alloc.Sound := by
  unfold Blocks.setSupply
  dsimp only
  split
  · exact h
  · split
    · rw [Blocks.withNotices_alloc]; exact Blocks.allocSupply_sound (by simpa using h) x
    · exact Blocks.allocSupply_sound (by simpa using h) x

theorem Blocks.setAction_sound {p : Blocks} (h : p.alloc.Sound) (b : BayNo) (x : Action) : (p.setAction b x).alloc.Sound := by
  unfold Blocks.setAction
  dsimp only
  (repeat' split)
  · exact h
  all_goals simpa using (Allocator.curtail_tame h.1 b x _).sound h

theorem Blocks.recomputeMembers_sound {p : Blocks} (h : p.alloc.Sound) (among : GroupNo → Bool) :
    (p.recomputeMembers among).alloc.Sound :=
  foldl_keeps (fun q : Blocks => q.alloc.Sound) _ _ _ h fun q hq b _ => by
    split
    · exact Blocks.setAction_sound hq _ _
    · exact hq

theorem Allocator.restart_sound (a : Allocator) (x : Vector Action Config.bayCount) : (a.restart x).Sound := by
  have g : ∀ f, ((a.restart x).feeder f).grants = [] ∧ ((a.restart x).feeder f).queue = [] := fun f => by
    simp [Allocator.restart, Allocator.feeder]
  have se : ∀ b, (a.restart x).session b = none := fun b => by simp [Allocator.restart, Allocator.session]
  refine ⟨⟨fun f => ?_, fun f b => ?_, fun f b => ?_, fun b y hy => ?_⟩, fun f => ?_⟩
  · rw [(g f).1, (g f).2]; exact ⟨.nil, .nil⟩
  · rw [(g f).1, se]; simp
  · rw [(g f).2, se]; simp
  · rw [se] at hy; cases hy
  · unfold Allocator.granted
    rw [(g f).1]; exact Nat.zero_le _

/-- Every change keeps the allocator's lists sound and its totals within their ceilings. -/
theorem change_allocSound {p q : Blocks} (h : Change p q) (hp : p.alloc.Sound) : q.alloc.Sound := by
  cases h with
  | configured b c h _ =>
    refine Blocks.setAction_sound ?_ _ _
    simpa using hp
  | budget f n =>
    obtain ⟨a1, a2⟩ := Allocator.setFeeder_lists hp.1 f { p.alloc.feeder f with staged := n, switchPending := true } rfl rfl
    refine ⟨a1, fun g => ?_⟩
    refine Nat.le_trans (Nat.le_of_eq (a2 g)) (Nat.le_trans (hp.2 g) (Nat.le_of_eq ?_))
    exact (Allocator.ceiling_setFeeder _ _ _ _ (by rfl) (by rfl)).symm
  | reserve f n =>
    obtain ⟨a1, a2⟩ := Allocator.setFeeder_lists hp.1 f { p.alloc.feeder f with reserve := n } rfl rfl
    obtain ⟨b1, b2, b3, b4⟩ := Blocks.ceilingChanged_spec (p := p.withAlloc (p.alloc.setFeeder f { p.alloc.feeder f with reserve := n }))
      a1 f (p.alloc.ceiling f) (by rw [Blocks.withAlloc_alloc, a2]; exact hp.2 f)
    refine ⟨b1, fun g => ?_⟩
    by_cases e : f = g
    · subst e; exact b3
    · refine Nat.le_trans (b4 g e) ?_
      refine Nat.le_trans (Nat.le_of_eq (a2 g)) (Nat.le_trans (hp.2 g) (Nat.le_of_eq ?_))
      refine Eq.trans ?_ (b2 g).symm
      unfold Allocator.ceiling
      rw [Blocks.withAlloc_alloc, Allocator.feeder_setFeeder, if_neg e]; rfl
  | groupLevel g l =>
    refine Blocks.recomputeMembers_sound ?_ _
    simpa using hp
  | switched => exact Blocks.setSupply_sound hp _
  | restarted => rw [Blocks.restartLevel_alloc]; exact Allocator.restart_sound _ _
  | rebuilt =>
    have t : (p.alloc.rebuild p.configs).Sound := Allocator.rebuild_tame p.alloc p.configs
    simpa [Blocks.restartAllocation] using t
  | settleCount =>
    unfold Blocks.supplyBoundary
    dsimp only
    (repeat' split)
    · exact hp
    · refine Blocks.setSupply_sound ?_ _
      simpa using hp
    · simpa using hp
    · simpa using hp
  | rebalanced =>
    unfold Blocks.allocBoundary
    split
    · exact hp
    · exact foldl_keeps (fun q : Blocks => q.alloc.Sound) _ _ _ (by simpa using hp) fun q hq f _ => Blocks.rebalanceFeeder_sound hq f
  | fall =>
    unfold Blocks.mainsOkFall
    dsimp only
    (repeat' split)
    · refine Blocks.setSupply_sound ?_ _
      simpa using hp
    all_goals simpa using hp
  | dr x =>
    refine Blocks.recomputeMembers_sound ?_ _
    simpa using hp
  | alarm x =>
    refine Blocks.recomputeMembers_sound ?_ _
    simpa using hp
  | request b n =>
    unfold Blocks.takeRequest Blocks.takeAlloc
    (repeat' split)
    · exact hp
    · simpa using (Allocator.request_tame hp.1 _ _ _).sound hp
    · exact hp
  | release b =>
    unfold Blocks.takeRelease Blocks.takeAlloc
    (repeat' split)
    · exact hp
    · simpa using (Allocator.release_tame hp.1 _).sound hp
    · exact hp
  | _ => simpa using hp

end Sys2Proof.Machine
end

