-- ==== Sys2Proof/Laws/Grants.lean ====
section
/-! SUPPORT. Serving a wait queue, the trim and the requeue of a cut, and the top-up, each with everything it does to the
grants of its feeder (R122, R123, R126). -/

namespace Sys2Proof.Machine

namespace Allocator

/-! ## Serving a wait queue (R122) -/

theorem feeder_leaveLists (a : Allocator) (f g : FeederNo) (b : BayNo) : (a.leaveLists f b).feeder g =
    if f = g then { a.feeder f with
      grants := (a.feeder f).grants.filter (· != b), queue := (a.feeder f).queue.filter (· != b) } else a.feeder g :=
  feeder_setFeeder _ _ _ _

theorem feeder_joinGrants (a : Allocator) (f g : FeederNo) (b : BayNo) : (a.joinGrants f b).feeder g =
    if f = g then { a.feeder f with grants := (a.feeder f).grants ++ [b] } else a.feeder g :=
  feeder_setFeeder _ _ _ _

@[simp] theorem session_joinGrants (a : Allocator) (f : FeederNo) (b c : BayNo) :
    (a.joinGrants f b).session c = a.session c := rfl

theorem filter_bne_self {xs : List BayNo} {b : BayNo} (h : b ∉ xs) : xs.filter (· != b) = xs :=
  List.filter_eq_self.2 fun c hc => by
    simp only [bne_iff_ne, ne_eq]
    rintro rfl; exact h hc

/-- A session stands on the grant list or in the wait queue of a feeder, not on both. -/
theorem ListsSound.apart {a : Allocator} (h : a.ListsSound) {f g : FeederNo} {b : BayNo} (hq : b ∈ (a.feeder f).queue) :
    b ∉ (a.feeder g).grants := fun hm => by
  obtain ⟨x, hx, _, hp⟩ := (h.2.2.1 f b).1 hq
  obtain ⟨y, hy, _, hp'⟩ := (h.2.1 g b).1 hm
  rw [hx] at hy; cases hy; rw [hp] at hp'; cases hp'

theorem posts_putSession (a : Allocator) (b c : BayNo) (o : Option Session) :
    (a.putSession b o).posts[c] = if b = c then postFor o else a.posts[c] := setAt_get _ _ _ _

theorem grantOf_some {a : Allocator} {b : BayNo} {x : Session} (h : a.session b = some x) : a.grantOf b = x.grant := by
  simp [Allocator.grantOf, h]

/-- The grants of a list over which two allocators agree. -/
theorem map_grantOf_congr {a d : Allocator} {xs : List BayNo} (h : ∀ c ∈ xs, d.session c = a.session c) :
    xs.map d.grantOf = xs.map a.grantOf :=
  List.map_congr_left fun c hc => by unfold Allocator.grantOf; rw [h c hc]

/-- Serving the head of a wait queue under enough headroom. -/
theorem serveOne_head {a : Allocator} (h : a.ListsSound) {f : FeederNo} {b : BayNo} {xs : List BayNo}
    (hq : (a.feeder f).queue = b :: xs) (hh : 6 ≤ a.headroom f) :
    ∃ s, a.session b = some s ∧ s.feeder = f ∧
      (∀ c, (serveOne f a b).session c =
        if b = c then some { s with grant := min s.cap (a.headroom f), phase := .charging } else a.session c) ∧
      (∀ g, (serveOne f a b).feeder g =
        if f = g then { a.feeder f with grants := (a.feeder f).grants ++ [b], queue := xs } else a.feeder g) ∧
      (serveOne f a b).ListsSound ∧
      (∀ c, (serveOne f a b).posts[c] =
        if b = c then { enabled := true, limit := min s.cap (a.headroom f) } else a.posts[c]) ∧
      (serveOne f a b).headroom f = a.headroom f - min s.cap (a.headroom f) := by
  have hm : b ∈ (a.feeder f).queue := by rw [hq]; simp
  obtain ⟨s, hs, hf, hp⟩ := (h.2.2.1 f b).1 hm
  have hn := (h.1 f).2
  rw [hq] at hn
  have e : serveOne f a b = ((a.leaveLists f b).putSession b
      (some { s with grant := min s.cap (a.headroom f), phase := .charging })).joinGrants f b := by
    unfold serveOne
    rw [if_pos (show Config.leastGrant ≤ a.headroom f from hh)]
    simp only [hs]
  have ss : ∀ c, (serveOne f a b).session c =
      if b = c then some { s with grant := min s.cap (a.headroom f), phase := .charging } else a.session c := fun c => by
    rw [e, session_joinGrants, session_putSession, session_leaveLists]
  have fd : ∀ g, (serveOne f a b).feeder g =
      if f = g then { a.feeder f with grants := (a.feeder f).grants ++ [b], queue := xs } else a.feeder g := fun g => by
    rw [e, feeder_joinGrants]
    split
    · rename_i eg; subst eg
      rw [feeder_putSession, feeder_leaveLists, if_pos rfl]
      simp only [filter_bne_self (h.apart hm), hq]
      congr 1
      simp only [List.filter_cons, bne_self_eq_false, Bool.false_eq_true, if_false]
      exact filter_bne_self (List.nodup_cons.1 hn).1
    · rename_i eg
      rw [feeder_putSession, feeder_leaveLists, if_neg eg]
  refine ⟨s, hs, hf, ss, fd, (serveOne_spec h hm).1.2.1, fun c => ?_, ?_⟩
  · rw [e]
    exact posts_putSession _ _ _ _
  · have hc : (serveOne f a b).ceiling f = a.ceiling f := by
      unfold Allocator.ceiling
      rw [fd, if_pos rfl, serveOne_supply]
      cases a.supply <;> rfl
    have hg : (serveOne f a b).granted f = a.granted f + min s.cap (a.headroom f) := by
      have same : (a.feeder f).grants.map (serveOne f a b).grantOf = (a.feeder f).grants.map a.grantOf :=
        map_grantOf_congr fun c hc => by rw [ss, if_neg fun e => h.apart hm (e ▸ hc)]
      have one : (serveOne f a b).grantOf b = min s.cap (a.headroom f) := by simp [Allocator.grantOf, ss]
      unfold Allocator.granted
      rw [fd, if_pos rfl]
      simp only [List.map_append, List.sum_append, same, List.map_cons, List.map_nil, List.sum_cons, List.sum_nil, one,
        Nat.add_zero]
    unfold Allocator.headroom at *
    rw [hc, hg]
    omega

/-- With headroom below 6 nothing is served. -/
theorem serve_fold_short {a : Allocator} {f : FeederNo} (h : a.headroom f < 6) (xs : List BayNo) :
    xs.foldl (serveOne f) a = a := by
  induction xs with
  | nil => rfl
  | cons b xs ih =>
    have e : serveOne f a b = a := by
      unfold serveOne
      rw [if_neg (show ¬ Config.leastGrant ≤ a.headroom f by simp only [Config.leastGrant]; omega)]
    simp only [List.foldl_cons, e, ih]

/-- A member of a list of distinct members, and what stands before it, when a first member is put in front. -/
theorem cons_split {α : Type} {b c : α} {xs before after : List α} (h : b :: xs = before ++ c :: after) :
    before = [] ∧ c = b ∧ after = xs ∨ ∃ ys, before = b :: ys ∧ xs = ys ++ c :: after := by
  cases before with
  | nil => cases h; exact .inl ⟨rfl, rfl, rfl⟩
  | cons y ys => cases h; exact .inr ⟨ys, rfl, rfl⟩

/-- Serving a feeder's wait queue, said once (R122). -/
theorem serveQueue_served {a : Allocator} (h : a.ListsSound) (f : FeederNo) : a.QueueServed (a.serveQueue f) f := by
  have key : ∀ (xs : List BayNo) (q : Allocator), q.ListsSound → (q.feeder f).queue = xs →
      q.QueueServed (xs.foldl (serveOne f) q) f := by
    intro xs
    induction xs with
    | nil =>
      intro q hq he
      refine ⟨[], [], he, ?_, .inl rfl, by simp, fun _ _ => ⟨rfl, rfl⟩, fun _ _ => rfl, rfl, rfl⟩
      show q.feeder f = _
      rw [List.append_nil, ← he]
    | cons b xs ih =>
      intro q hq he
      by_cases hh : 6 ≤ q.headroom f
      · obtain ⟨s, hs, hf, ss, fd, hl, ps, hr⟩ := serveOne_head hq he hh
        have e1 : ((serveOne f q b).feeder f).queue = xs := by rw [fd, if_pos rfl]
        obtain ⟨served, rest, i1, i2, i3, i4, i5, i6, i7, i8⟩ := ih _ hl e1
        have hb : b ∉ served := by
          have := (hq.1 f).2
          rw [he, ← e1, i1] at this
          exact fun hm => (List.nodup_cons.1 this).1 (by simp [hm])
        have hsb : (xs.foldl (serveOne f) (serveOne f q b)).session b =
            some { s with grant := min s.cap (q.headroom f), phase := .charging } := by
          rw [(i5 b hb).1, ss, if_pos rfl]
        refine ⟨b :: served, rest, by rw [he, ← e1, i1]; rfl, ?_, i3, fun before after c hc => ?_, fun c hc => ?_,
          fun g hg => ?_, ?_, ?_⟩
        · rw [List.foldl_cons, i2, fd, if_pos rfl]
          simp
        · rw [List.foldl_cons]
          rcases cons_split hc with ⟨rfl, rfl, -⟩ | ⟨ys, rfl, hy⟩
          · exact ⟨s, _, _, rfl, by simpa using hh, rfl, hs, by simpa using hsb,
              by rw [(i5 _ hb).2, ps, if_pos rfl]; simp⟩
          · obtain ⟨x, h, n, j1, j2, j3, j4, j5, j6⟩ := i4 ys after c hy
            have hcb : b ≠ c := fun e => hb (by rw [e, hy]; simp)
            rw [ss, if_neg hcb] at j4
            refine ⟨x, h, n, ?_, j2, j3, j4, j5, j6⟩
            rw [j1, hr, List.map_cons, List.sum_cons, grantOf_some hsb]
            simp only
            omega
        · have hcs : c ∉ served := fun hm => hc (by simp [hm])
          have hcb : ¬ b = c := fun e => hc (by simp [e])
          rw [List.foldl_cons, (i5 c hcs).1, (i5 c hcs).2, ss, ps, if_neg hcb, if_neg hcb]
          exact ⟨rfl, rfl⟩
        · rw [List.foldl_cons, i6 g hg, fd, if_neg (fun e => hg e.symm)]
        · rw [List.foldl_cons, i7, serveOne_supply]
        · rw [List.foldl_cons, i8, serveOne_actions]
      · rw [serve_fold_short (by omega)]
        exact ⟨[], b :: xs, he, by rw [List.append_nil, ← he], .inr (by omega), by simp, fun _ _ => ⟨rfl, rfl⟩,
          fun _ _ => rfl, rfl, rfl⟩
  exact key _ a h rfl

/-! ## A change of one feeder's sessions -/

/-- The change is confined to feeder `f`: the other feeders and their sessions stay, and so do the supply state, the
actions, and the budgets. -/
def Within (f : FeederNo) (a d : Allocator) : Prop :=
  (∀ g, g ≠ f → d.feeder g = a.feeder g) ∧
  (∀ b, (∀ x, a.session b = some x → x.feeder ≠ f) → d.session b = a.session b) ∧
  (∀ b x, a.session b = some x → ∃ y, d.session b = some y ∧ y.feeder = x.feeder ∧ y.draw = x.draw ∧ y.cap = x.cap) ∧
  d.supply = a.supply ∧ d.actions = a.actions ∧
  d.feeder f = { a.feeder f with grants := (d.feeder f).grants, queue := (d.feeder f).queue }

theorem Within.refl (f : FeederNo) (a : Allocator) : Within f a a :=
  ⟨fun _ _ => rfl, fun _ _ => rfl, fun _ x hx => ⟨x, hx, rfl, rfl, rfl⟩, rfl, rfl, rfl⟩

theorem Within.trans {f : FeederNo} {a d e : Allocator} (h : Within f a d) (h' : Within f d e) : Within f a e := by
  obtain ⟨h1, h2, h3, h4, h5, h6⟩ := h
  obtain ⟨k1, k2, k3, k4, k5, k6⟩ := h'
  refine ⟨fun g hg => (k1 g hg).trans (h1 g hg), fun b hb => ?_, fun b x hx => ?_, k4.trans h4, k5.trans h5, ?_⟩
  · rw [k2 b, h2 b hb]
    intro x hx
    rw [h2 b hb] at hx
    exact hb x hx
  · obtain ⟨y, hy, a1, a2, a3⟩ := h3 b x hx
    obtain ⟨z, hz, b1, b2, b3⟩ := k3 b y hy
    exact ⟨z, hz, b1.trans a1, b2.trans a2, b3.trans a3⟩
  · rw [k6, h6]

/-- The other feeders' granted totals stay. -/
theorem Within.granted {f : FeederNo} {a d : Allocator} (h : Within f a d) (ha : a.ListsSound) {g : FeederNo} (hg : g ≠ f) :
    d.granted g = a.granted g := by
  unfold Allocator.granted
  rw [h.1 g hg]
  congr 1
  refine List.map_congr_left fun b hb => ?_
  obtain ⟨x, hx, hxf, _⟩ := (ha.2.1 g b).1 hb
  unfold Allocator.grantOf
  rw [h.2.1 b fun y hy => by rw [hx] at hy; cases hy; rw [hxf]; exact hg]

/-- Every ceiling stays. -/
theorem Within.ceiling {f : FeederNo} {a d : Allocator} (h : Within f a d) (g : FeederNo) : d.ceiling g = a.ceiling g := by
  unfold Allocator.ceiling
  rw [h.2.2.2.1]
  by_cases e : g = f
  · subst e
    rw [h.2.2.2.2.2]
    cases a.supply <;> rfl
  · rw [h.1 g e]

theorem Within.headroom {f : FeederNo} {a d : Allocator} (h : Within f a d) (ha : a.ListsSound) {g : FeederNo} (hg : g ≠ f) :
    d.headroom g = a.headroom g := by
  unfold Allocator.headroom
  rw [h.ceiling, h.granted ha hg]

theorem QueueServed.within {f : FeederNo} {a d : Allocator} (h : a.QueueServed d f) (ha : a.ListsSound) : Within f a d := by
  obtain ⟨served, rest, h1, h2, h3, h4, h5, h6, h7, h8⟩ := h
  refine ⟨h6, fun b hb => (h5 b fun hm => ?_).1, fun b x hx => ?_, h7, h8, by rw [h2]⟩
  · have : b ∈ (a.feeder f).queue := by rw [h1]; simp [hm]
    obtain ⟨x, hx, hf, _⟩ := (ha.2.2.1 f b).1 this
    exact hb x hx hf
  · by_cases hm : b ∈ served
    · obtain ⟨before, after, he⟩ := List.append_of_mem hm
      obtain ⟨y, _, n, -, -, -, hy, hd, -⟩ := h4 before after b he
      rw [hx] at hy; cases hy
      exact ⟨_, hd, rfl, rfl, rfl⟩
    · exact ⟨x, by rw [(h5 b hm).1, hx], rfl, rfl, rfl⟩

/-! ## The trim (R123, step 1) -/

/-- One grant rewritten: the granted total follows it. -/
theorem granted_rewrite {a : Allocator} (h : a.ListsSound) {f : FeederNo} {b : BayNo} {s x : Session}
    (hs : a.session b = some s) (hf : s.feeder = f) (hp : s.phase = .charging) (xf : x.feeder = s.feeder) (xp : x.phase = s.phase) :
    (a.putSession b (some x)).granted f + s.grant = a.granted f + x.grant := by
  subst hf
  have := (adjust_sound h hs xf xp fun hn => absurd (xp.trans hp) hn).2.2
  omega

/-- What the trim of one CHARGING session of the feeder does. -/
theorem trimOne_spec {a : Allocator} (h : a.ListsSound) {f : FeederNo} {b : BayNo} (hb : b ∈ (a.feeder f).grants)
    (h6 : 6 ≤ a.grantOf b) (hc : a.ceiling f ≤ a.granted f) :
    ∃ s, a.session b = some s ∧
      (∀ c, (trimOne f a b).session c = if b = c then some { s with grant := (trimOne f a b).grantOf b } else a.session c) ∧
      (∀ g, (trimOne f a b).feeder g = a.feeder g) ∧ (trimOne f a b).ListsSound ∧
      6 ≤ (trimOne f a b).grantOf b ∧ (trimOne f a b).grantOf b ≤ a.grantOf b ∧
      (trimOne f a b).granted f + a.grantOf b = a.granted f + (trimOne f a b).grantOf b ∧
      (∀ g, (trimOne f a b).ceiling g = a.ceiling g) ∧
      a.ceiling f ≤ (trimOne f a b).granted f ∧
      ((trimOne f a b).granted f = a.ceiling f ∨ (trimOne f a b).grantOf b = 6) ∧
      (a.granted f = a.ceiling f → (trimOne f a b).grantOf b = a.grantOf b) := by
  obtain ⟨s, hs, hf, hp⟩ := (h.2.1 f b).1 hb
  have e : trimOne f a b = a.putSession b (some { s with grant := s.grant - min (s.grant - 6) (a.granted f - a.ceiling f) }) := by
    unfold trimOne
    simp only [hs, Config.leastGrant]
  have hg : (trimOne f a b).grantOf b = s.grant - min (s.grant - 6) (a.granted f - a.ceiling f) := by
    rw [e]; simp [Allocator.grantOf, session_putSession]
  have hr := granted_rewrite h hs hf hp (x := { s with grant := s.grant - min (s.grant - 6) (a.granted f - a.ceiling f) }) rfl rfl
  rw [← e] at hr
  simp only at hr
  rw [grantOf_some hs] at h6
  refine ⟨s, hs, fun c => ?_, fun g => by rw [e]; rfl, ?_, ?_, ?_, ?_, fun g => by rw [e]; rfl, ?_, ?_, ?_⟩
  · rw [hg, e, session_putSession]
  · rw [e]
    exact (adjust_sound h hs (x := { s with grant := s.grant - min (s.grant - 6) (a.granted f - a.ceiling f) }) rfl rfl
      fun hn => absurd hp hn).1
  · rw [hg]; omega
  · rw [hg, grantOf_some hs]; omega
  · rw [hg, grantOf_some hs]; omega
  · omega
  · rw [hg]; omega
  · rw [hg, grantOf_some hs]; omega

/-- The trim of a list of grants, in its order: no grant below 6, none raised, and one is lowered only where those before
it are 6; it ends at the ceiling, or with every one of them at 6. -/
theorem trim_fold {f : FeederNo} : ∀ (xs : List BayNo) (a : Allocator), a.ListsSound → xs.Nodup →
    (∀ b ∈ xs, b ∈ (a.feeder f).grants) → (∀ b ∈ xs, 6 ≤ a.grantOf b) → a.ceiling f ≤ a.granted f →
    ∃ d, d = xs.foldl (trimOne f) a ∧ d.ListsSound ∧ (∀ g, d.feeder g = a.feeder g) ∧ (∀ g, d.ceiling g = a.ceiling g) ∧
      (∀ b, b ∉ xs → d.session b = a.session b) ∧
      (∀ b ∈ xs, ∃ s, a.session b = some s ∧ d.session b = some { s with grant := d.grantOf b } ∧
        6 ≤ d.grantOf b ∧ d.grantOf b ≤ a.grantOf b) ∧
      a.ceiling f ≤ d.granted f ∧ (d.granted f = a.ceiling f ∨ ∀ b ∈ xs, d.grantOf b = 6) ∧
      (a.granted f = a.ceiling f → ∀ b, d.grantOf b = a.grantOf b) ∧
      xs.Pairwise (fun newer older => d.grantOf older < a.grantOf older → d.grantOf newer = 6) := by
  intro xs
  induction xs with
  | nil =>
    intro a h _ _ _ hc
    exact ⟨a, rfl, h, fun _ => rfl, fun _ => rfl, fun _ _ => rfl, by simp, hc, .inr (by simp), fun _ _ => rfl, .nil⟩
  | cons b xs ih =>
    intro a h hn hm h6 hc
    obtain ⟨hb, hn⟩ := List.nodup_cons.1 hn
    obtain ⟨s, hs, ss, fd, hl, g6, gle, gsum, ce, gc, gor, gid⟩ := trimOne_spec h (hm b (by simp)) (h6 b (by simp)) hc
    have other : ∀ c, c ≠ b → (trimOne f a b).grantOf c = a.grantOf c := fun c hcb => by
      unfold Allocator.grantOf
      rw [ss c, if_neg (fun e => hcb e.symm)]
    have hne : ∀ c ∈ xs, c ≠ b := fun c hcx e => hb (e ▸ hcx)
    obtain ⟨d, hd, i1, i2, i3, i4, i5, i6, i7, i8, i9⟩ := ih (trimOne f a b) hl hn
      (fun c hcx => by rw [fd]; exact hm c (by simp [hcx])) (fun c hcx => by rw [other c (hne c hcx)]; exact h6 c (by simp [hcx]))
      (by rw [ce]; exact gc)
    have dbs : d.session b = (trimOne f a b).session b := i4 b hb
    have db : d.grantOf b = (trimOne f a b).grantOf b := by unfold Allocator.grantOf; rw [dbs]
    refine ⟨d, hd, i1, fun g => (i2 g).trans (fd g), fun g => (i3 g).trans (ce g), fun c hcx => ?_, fun c hcx => ?_, ?_, ?_, ?_, ?_⟩
    · have h1 : c ≠ b := fun e => hcx (by simp [e])
      rw [i4 c (fun hm => hcx (by simp [hm])), ss c, if_neg (fun e => h1 e.symm)]
    · rcases List.mem_cons.1 hcx with rfl | hcx
      · refine ⟨s, hs, ?_, by rw [db]; exact g6, by rw [db]; exact gle⟩
        rw [dbs, ss, if_pos rfl, db]
      · obtain ⟨t, j1, j2, j3, j4⟩ := i5 c hcx
        rw [ss c, if_neg (fun e => hne c hcx e.symm)] at j1
        exact ⟨t, j1, j2, j3, by rw [← other c (hne c hcx)]; exact j4⟩
    · rw [ce] at i6; exact i6
    · rw [ce] at i7 i8
      rcases gor with e | e
      · left
        have := i8 e
        refine Eq.trans ?_ e
        unfold Allocator.granted
        rw [i2 f]
        congr 1
        exact List.map_congr_left fun c _ => this c
      · rcases i7 with j | j
        · exact .inl j
        · right
          intro c hcx
          rcases List.mem_cons.1 hcx with rfl | hcx
          · rw [db]; exact e
          · exact j c hcx
    · intro e c
      have e1 : (trimOne f a b).granted f = (trimOne f a b).ceiling f := by
        rw [ce]; have := gid e; omega
      rw [i8 e1 c]
      by_cases hcb : c = b
      · subst hcb; exact gid e
      · exact other c hcb
    · refine List.Pairwise.cons (fun c hcx hlt => ?_) (i9.imp_of_mem fun {x y} hx hy hxy hlt => ?_)
      · rcases gor with e | e
        · exfalso
          have := i8 (by rw [ce]; exact e) c
          rw [other c (hne c hcx)] at this
          omega
        · rw [db]; exact e
      · refine hxy ?_
        rw [other y (hne y hy)]; exact hlt

/-! ## The requeue (R123, step 2) -/

/-- The requeue of a feeder's newest grant, where the granted total exceeds the ceiling. -/
theorem requeueOne_newest {a : Allocator} (h : a.ListsSound) {f : FeederNo} {b : BayNo} {xs : List BayNo}
    (hg : (a.feeder f).grants = xs ++ [b]) (hx : a.ceiling f < a.granted f) :
    ∃ s, a.session b = some s ∧
      (∀ c, (requeueOne f a b).session c = if b = c then some { s with grant := 0, phase := .queued } else a.session c) ∧
      (∀ g, (requeueOne f a b).feeder g =
        if f = g then { a.feeder f with grants := xs, queue := b :: (a.feeder f).queue } else a.feeder g) ∧
      (requeueOne f a b).ListsSound ∧ (∀ g, (requeueOne f a b).ceiling g = a.ceiling g) ∧
      (requeueOne f a b).granted f + a.grantOf b = a.granted f := by
  have hm : b ∈ (a.feeder f).grants := by rw [hg]; simp
  have hn := (h.1 f).1
  rw [hg, List.nodup_append] at hn
  have hbx : b ∉ xs := fun hb => hn.2.2 b hb b (by simp) rfl
  obtain ⟨s, hs, hf, hp⟩ := (h.2.1 f b).1 hm
  have hbq : b ∉ (a.feeder f).queue := fun hb => h.apart hb hm
  obtain ⟨l1, l2, l3, l4⟩ := leave_sound h hs (o := none) fun x hx => by cases hx
  have hoff : ((a.leaveLists s.feeder b).putSession b none).Off b := fun x hx => by
    rw [session_putSession, if_pos rfl] at hx; cases hx
  obtain ⟨j1, _, _⟩ := enqueue_sound l1 hoff (x := { s with grant := 0, phase := .queued }) rfl rfl (List.Perm.refl _)
  rw [putSession_twice] at j1
  have e : requeueOne f a b = ((a.leaveLists f b).putSession b (some { s with grant := 0, phase := .queued })).setFeeder f
      { (a.leaveLists f b).feeder f with queue := b :: ((a.leaveLists f b).feeder f).queue } := by
    unfold requeueOne
    rw [if_pos hx]
    simp only [hs]
    rfl
  have fd : ∀ g, (requeueOne f a b).feeder g =
        if f = g then { a.feeder f with grants := xs, queue := b :: (a.feeder f).queue } else a.feeder g := fun g => by
    rw [e, feeder_setFeeder]
    split
    · rw [feeder_leaveLists, if_pos rfl]
      simp only [filter_bne_self hbq, hg, List.filter_append, filter_bne_self hbx]
      simp
    · rename_i eg
      rw [feeder_putSession, feeder_leaveLists, if_neg eg]
  have ss : ∀ c, (requeueOne f a b).session c = if b = c then some { s with grant := 0, phase := .queued } else a.session c :=
    fun c => by rw [e, session_setFeeder, session_putSession, session_leaveLists]
  refine ⟨s, hs, ss, fd, ?_, fun g => ?_, ?_⟩
  · rw [e]; subst hf; exact j1
  · rw [e, ceiling_setFeeder _ _ _ _ (by rfl) (by rfl), ceiling_putSession, ceiling_leaveLists]
  · unfold Allocator.granted
    rw [fd, if_pos rfl, hg, List.map_append, List.sum_append]
    have : xs.map (requeueOne f a b).grantOf = xs.map a.grantOf := List.map_congr_left fun c hc => by
      unfold Allocator.grantOf
      rw [ss c, if_neg (by rintro rfl; exact hbx hc)]
    simp [this]

/-- Under a ceiling that holds nothing is requeued. -/
theorem requeue_fold_within {a : Allocator} {f : FeederNo} (h : a.granted f ≤ a.ceiling f) (xs : List BayNo) :
    xs.foldl (requeueOne f) a = a := by
  induction xs with
  | nil => rfl
  | cons b xs ih =>
    have e : requeueOne f a b = a := by
      unfold requeueOne
      rw [if_neg (by omega)]
    simp only [List.foldl_cons, e, ih]

/-- The requeue of a feeder's grants, newest first, where each of them is 6 or nothing exceeds: a last part of the list goes
to the front of the wait queue in its order, until the total is within the ceiling. -/
theorem requeue_fold {f : FeederNo} : ∀ (xs : List BayNo) (a : Allocator), a.ListsSound → (a.feeder f).grants = xs.reverse →
    (a.granted f ≤ a.ceiling f ∨ ∀ b ∈ xs, a.grantOf b = 6) →
    ∃ d kept back, d = xs.foldl (requeueOne f) a ∧ xs.reverse = kept ++ back ∧ d.ListsSound ∧
      (∀ g, d.feeder g = if f = g then { a.feeder f with grants := kept, queue := back ++ (a.feeder f).queue } else a.feeder g) ∧
      (∀ g, d.ceiling g = a.ceiling g) ∧ d.granted f ≤ a.ceiling f ∧
      (back ≠ [] → a.ceiling f < a.granted f ∧ a.ceiling f < d.granted f + 6) ∧
      (back = [] → d = a) ∧
      (∀ b ∈ back, ∃ s, a.session b = some s ∧ d.session b = some { s with grant := 0, phase := .queued }) ∧
      (∀ b, b ∉ back → d.session b = a.session b) := by
  intro xs
  induction xs with
  | nil =>
    intro a h hg _
    refine ⟨a, [], [], rfl, rfl, h, fun g => ?_, fun _ => rfl, ?_, by simp, fun _ => rfl, by simp, fun _ _ => rfl⟩
    · split
      · rename_i e; subst e
        have : (a.feeder f).grants = [] := hg
        rw [List.nil_append]
        cases hx : a.feeder f
        simp_all
      · rfl
    · unfold Allocator.granted
      rw [hg]; simp
  | cons b xs ih =>
    intro a h hg hc
    by_cases hx : a.ceiling f < a.granted f
    · have h6 : ∀ c ∈ b :: xs, a.grantOf c = 6 := hc.resolve_left (by omega)
      obtain ⟨s, hs, ss, fd, hl, ce, gsum⟩ := requeueOne_newest h (xs := xs.reverse) (b := b) (by rw [hg]; simp) hx
      have hn := (h.1 f).1
      rw [hg] at hn
      have hbx : b ∉ xs := (List.nodup_cons.1 (List.nodup_reverse.1 hn)).1
      obtain ⟨d, kept, back, hd, i0, i1, i2, i3, i4, i5, i6, i7, i8⟩ := ih (requeueOne f a b) hl (by rw [fd, if_pos rfl])
        (.inr fun c hcx => by
          rw [← h6 c (by simp [hcx])]
          unfold Allocator.grantOf
          rw [ss c, if_neg (by rintro rfl; exact hbx hcx)])
      have hback : ∀ c ∈ back, c ∈ xs := fun c hcb => by
        have : c ∈ xs.reverse := by rw [i0]; simp [hcb]
        simpa using this
      have hb6 := h6 b (by simp)
      refine ⟨d, kept, back ++ [b], hd, by rw [List.reverse_cons, i0, List.append_assoc], i1, fun g => ?_,
        fun g => (i3 g).trans (ce g), by rw [ce] at i4; exact i4, fun _ => ⟨hx, ?_⟩, fun e => by simp at e, fun c hcb => ?_, fun c hcb => ?_⟩
      · rw [i2, fd, fd, if_pos rfl]
        split
        · simp
        · rfl
      · by_cases hbk : back = []
        · rw [i6 hbk]; omega
        · have := (i5 hbk).2
          rw [ce] at this; exact this
      · rcases List.mem_append.1 hcb with hcb | hcb
        · obtain ⟨t, j1, j2⟩ := i7 c hcb
          rw [ss c, if_neg (by rintro rfl; exact hbx (hback _ hcb))] at j1
          exact ⟨t, j1, j2⟩
        · rw [List.mem_singleton] at hcb
          subst hcb
          exact ⟨s, hs, by rw [i8 c (fun hm => hbx (hback c hm)), ss, if_pos rfl]⟩
      · rw [i8 c (fun hm => hcb (by simp [hm])), ss, if_neg (by rintro rfl; exact hcb (by simp))]
    · rw [requeue_fold_within (by omega)]
      refine ⟨a, (b :: xs).reverse, [], rfl, by simp, h, fun g => ?_, fun _ => rfl, by omega, by simp, fun _ => rfl, by simp,
        fun _ _ => rfl⟩
      split
      · rename_i e; subst e
        rw [List.nil_append]
        cases hx : a.feeder f
        simp_all
      · rfl

/-! ## The top-up (R126, step 4) -/

/-- What the top-up of one CHARGING session of the feeder does. -/
theorem topUpOne_spec {a : Allocator} (h : a.ListsSound) {f : FeederNo} {b : BayNo} (hb : b ∈ (a.feeder f).grants) :
    ∃ s, a.session b = some s ∧
      (∀ c, (topUpOne f a b).session c =
        if b = c then some { s with grant := s.grant + min (s.cap - s.grant) (a.headroom f) } else a.session c) ∧
      (∀ g, (topUpOne f a b).feeder g = a.feeder g) ∧ (topUpOne f a b).ListsSound ∧
      (topUpOne f a b).headroom f = a.headroom f - min (s.cap - s.grant) (a.headroom f) ∧
      (∀ c, (topUpOne f a b).posts[c] =
        if b = c then { enabled := true, limit := s.grant + min (s.cap - s.grant) (a.headroom f) } else a.posts[c]) := by
  obtain ⟨s, hs, hf, hp⟩ := (h.2.1 f b).1 hb
  have e : topUpOne f a b = a.putSession b (some { s with grant := s.grant + min (s.cap - s.grant) (a.headroom f) }) := by
    unfold topUpOne
    simp only [hs]
  have hr := granted_rewrite h hs hf hp (x := { s with grant := s.grant + min (s.cap - s.grant) (a.headroom f) }) rfl rfl
  rw [← e] at hr
  simp only at hr
  refine ⟨s, hs, fun c => by rw [e, session_putSession], fun g => by rw [e]; rfl, ?_, ?_, fun c => ?_⟩
  · rw [e]
    exact (adjust_sound h hs (x := { s with grant := s.grant + min (s.cap - s.grant) (a.headroom f) }) rfl rfl
      fun hn => absurd hp hn).1
  rotate_left
  · rw [e]
    refine (posts_putSession _ _ _ _).trans ?_
    simp only [postFor, hp, if_true]
  · have hc : (topUpOne f a b).ceiling f = a.ceiling f := by rw [e]; rfl
    unfold Allocator.headroom at *
    rw [hc]
    omega

/-- The top-up of a list of grants: each is raised to its cap, or no headroom is left. -/
theorem topUp_fold {f : FeederNo} : ∀ (xs : List BayNo) (a : Allocator), a.ListsSound → xs.Nodup →
    (∀ b ∈ xs, b ∈ (a.feeder f).grants) →
    ∃ d, d = xs.foldl (topUpOne f) a ∧ d.ListsSound ∧ (∀ g, d.feeder g = a.feeder g) ∧
      (∀ b, b ∉ xs → d.session b = a.session b) ∧
      (∀ b ∈ xs, ∃ s n, a.session b = some s ∧ d.session b = some { s with grant := n } ∧ s.grant ≤ n ∧
        (n ≤ s.grant ∨ n ≤ s.cap) ∧ (s.cap ≤ n ∨ d.headroom f = 0)) ∧
      d.headroom f ≤ a.headroom f := by
  intro xs
  induction xs with
  | nil => intro a h _ _; exact ⟨a, rfl, h, fun _ => rfl, fun _ _ => rfl, by simp, Nat.le_refl _⟩
  | cons b xs ih =>
    intro a h hn hm
    obtain ⟨hb, hn⟩ := List.nodup_cons.1 hn
    obtain ⟨s, hs, ss, fd, hl, hh, -⟩ := topUpOne_spec h (hm b (by simp))
    have hne : ∀ c ∈ xs, b ≠ c := fun c hcx e => hb (e ▸ hcx)
    obtain ⟨d, hd, i1, i2, i3, i4, i5⟩ := ih (topUpOne f a b) hl hn fun c hcx => by rw [fd]; exact hm c (by simp [hcx])
    refine ⟨d, hd, i1, fun g => (i2 g).trans (fd g), fun c hcx => ?_, fun c hcx => ?_, by omega⟩
    · rw [i3 c (fun hm => hcx (by simp [hm])), ss, if_neg (by rintro rfl; exact hcx (by simp))]
    · rcases List.mem_cons.1 hcx with rfl | hcx
      · refine ⟨s, _, hs, by rw [i3 c hb, ss, if_pos rfl], by omega, by omega, by omega⟩
      · obtain ⟨t, n, j1, j2⟩ := i4 c hcx
        rw [ss, if_neg (hne c hcx)] at j1
        exact ⟨t, n, j1, j2⟩

/-- The top-up of a feeder's grants, said once (R126, step 4). -/
theorem topUp_toppedUp {a : Allocator} (h : a.ListsSound) (f : FeederNo) : a.ToppedUp (a.topUp f) f := by
  have key : ∀ (xs : List BayNo) (q d : Allocator), d = xs.foldl (topUpOne f) q → q.ListsSound → xs.Nodup →
      (∀ b ∈ xs, b ∈ (q.feeder f).grants) →
      (∀ (before after : List BayNo) (b : BayNo), xs = before ++ b :: after → ∃ (x : Session) (h n : Nat),
        h = q.headroom f - (before.map fun c => d.grantOf c - q.grantOf c).sum ∧
        n = x.grant + min (x.cap - x.grant) h ∧ q.session b = some x ∧ d.session b = some { x with grant := n } ∧
        d.posts[b] = { enabled := true, limit := n }) ∧
      (∀ b : BayNo, b ∉ xs → d.session b = q.session b ∧ d.posts[b] = q.posts[b]) ∧
      d = { q with sessions := d.sessions, posts := d.posts } := by
    intro xs
    induction xs with
    | nil => rintro q _ rfl _ _ _; exact ⟨by simp, fun _ _ => ⟨rfl, rfl⟩, rfl⟩
    | cons b xs ih =>
      intro q d hd hq hn hm
      obtain ⟨hb, hn⟩ := List.nodup_cons.1 hn
      obtain ⟨s, hs, ss, fd, hl, hh, ps⟩ := topUpOne_spec hq (hm b (by simp))
      obtain ⟨i1, i2, i3⟩ := ih (topUpOne f q b) d hd hl hn fun c hcx => by rw [fd]; exact hm c (by simp [hcx])
      have fr : topUpOne f q b = { q with sessions := (topUpOne f q b).sessions, posts := (topUpOne f q b).posts } := by
        unfold topUpOne; rw [hs]; rfl
      clear hd ih
      generalize topUpOne f q b = z at *
      have hsb : d.session b = some { s with grant := s.grant + min (s.cap - s.grant) (q.headroom f) } := by
        rw [(i2 b hb).1, ss, if_pos rfl]
      refine ⟨fun before after c hc => ?_, fun c hc => ?_, ?_⟩
      · rcases cons_split hc with ⟨rfl, rfl, -⟩ | ⟨ys, rfl, hy⟩
        · exact ⟨s, _, _, rfl, rfl, hs, by simpa using hsb, by rw [(i2 _ hb).2, ps, if_pos rfl]; simp⟩
        · obtain ⟨x, h, n, j1, j2, j3, j4, j5⟩ := i1 ys after c hy
          have hcb : b ≠ c := fun e => hb (by rw [e, hy]; simp)
          rw [ss, if_neg hcb] at j3
          refine ⟨x, h, n, ?_, j2, j3, j4, j5⟩
          have hmap : (ys.map fun c => d.grantOf c - z.grantOf c) = ys.map fun c => d.grantOf c - q.grantOf c :=
            List.map_congr_left fun c hc => by
              have : ¬ b = c := fun e => hb (by rw [e, hy]; simp [hc])
              have : z.grantOf c = q.grantOf c := by unfold Allocator.grantOf; rw [ss, if_neg this]
              rw [this]
          rw [j1, hh, hmap, List.map_cons, List.sum_cons, grantOf_some hsb, grantOf_some hs]
          simp only
          omega
      · have hcs : c ∉ xs := fun hm => hc (by simp [hm])
        have hcb : ¬ b = c := fun e => hc (by simp [e])
        rw [(i2 c hcs).1, (i2 c hcs).2, ss, ps, if_neg hcb, if_neg hcb]
        exact ⟨rfl, rfl⟩
      · rw [i3, fr]
  exact key _ a _ rfl h (h.1 f).1 fun _ hb => hb

/-! ## The post commands of a cut (R84, R123) -/

/-- A trim leaves the other bays' sessions and post commands, and writes the post command of its own. -/
theorem trimOne_posts (f : FeederNo) (a : Allocator) (b c : BayNo) :
    (b ≠ c → (trimOne f a b).session c = a.session c ∧ (trimOne f a b).posts[c] = a.posts[c]) ∧
    (a.session c ≠ none → (trimOne f a b).session c ≠ none) ∧
    (b = c → a.session c ≠ none → (trimOne f a b).posts[c] = postFor ((trimOne f a b).session c)) := by
  unfold trimOne
  cases hs : a.session b with
  | none => exact ⟨fun _ => ⟨rfl, rfl⟩, fun h => h, fun e h => absurd (e ▸ hs) h⟩
  | some s =>
    dsimp only
    rw [posts_putSession, session_putSession]
    refine ⟨fun e => by rw [if_neg e, if_neg e]; exact ⟨rfl, rfl⟩, fun h => ?_, fun e _ => by rw [if_pos e, if_pos e]⟩
    split
    · simp
    · exact h

/-- A requeue leaves the other bays' sessions and post commands, and keeps a post command that its session asks for. -/
theorem requeueOne_posts (f : FeederNo) (a : Allocator) (b c : BayNo) :
    (b ≠ c → (requeueOne f a b).session c = a.session c ∧ (requeueOne f a b).posts[c] = a.posts[c]) ∧
    (a.posts[c] = postFor (a.session c) → (requeueOne f a b).posts[c] = postFor ((requeueOne f a b).session c)) := by
  unfold requeueOne
  split
  · cases hs : a.session b with
    | none => exact ⟨fun _ => ⟨rfl, rfl⟩, fun h => h⟩
    | some s =>
      dsimp only
      rw [session_setFeeder, session_putSession, session_leaveLists]
      refine ⟨fun e => ⟨if_neg e, (posts_putSession _ _ _ _).trans (if_neg e)⟩, fun h =>
        (posts_putSession _ _ _ _).trans ?_⟩
      split
      · rfl
      · exact h
  · exact ⟨fun _ => ⟨rfl, rfl⟩, fun h => h⟩

/-- The trims of a list write the post command of every session on it. -/
theorem trim_fold_posts (f : FeederNo) (c : BayNo) : ∀ (xs : List BayNo) (a : Allocator), a.session c ≠ none →
    (c ∉ xs → (xs.foldl (trimOne f) a).posts[c] = a.posts[c]) ∧
    (c ∈ xs ∨ a.posts[c] = postFor (a.session c) →
      (xs.foldl (trimOne f) a).posts[c] = postFor ((xs.foldl (trimOne f) a).session c)) := by
  intro xs
  induction xs with
  | nil => exact fun a _ => ⟨fun _ => rfl, fun h => h.resolve_left (by simp)⟩
  | cons b xs ih =>
    intro a ha
    obtain ⟨t1, t2, t3⟩ := trimOne_posts f a b c
    obtain ⟨i1, i2⟩ := ih (trimOne f a b) (t2 ha)
    simp only [List.foldl_cons, List.mem_cons, not_or]
    refine ⟨fun h => (i1 h.2).trans (t1 fun e => h.1 e.symm).2, fun h => i2 ?_⟩
    by_cases e : b = c
    · exact .inr (t3 e ha)
    · rcases h with (h | h) | h
      · exact absurd h.symm e
      · exact .inl h
      · right
        rw [(t1 e).1, (t1 e).2]; exact h

/-- A cut writes the post commands of the sessions on the grant list, and leaves the others. -/
theorem cut_written {a : Allocator} (h : a.ListsSound) (f : FeederNo) (c : BayNo) :
    (c ∈ (a.feeder f).grants → (a.cut f).posts[c] = postFor ((a.cut f).session c)) ∧
    (c ∉ (a.feeder f).grants → (a.cut f).posts[c] = a.posts[c]) := by
  unfold cut
  dsimp only
  have fd : ((a.feeder f).grants.reverse.foldl (trimOne f) a).feeder f = a.feeder f :=
    foldl_leaves (fun q : Allocator => q.feeder f) _ _ _ fun q b _ => by unfold trimOne; split <;> rfl
  rw [fd]
  constructor
  · intro hc
    obtain ⟨x, hx, -⟩ := (h.2.1 f c).1 hc
    have := (trim_fold_posts f c (a.feeder f).grants.reverse a (by rw [hx]; simp)).2 (.inl (by simpa using hc))
    exact foldl_keeps (fun q : Allocator => q.posts[c] = postFor (q.session c)) _ _ _ this fun q hq b _ =>
      (requeueOne_posts f q b c).2 hq
  · intro hc
    have n : ∀ b ∈ (a.feeder f).grants.reverse, b ≠ c := fun b hb e => hc (by rw [← e]; simpa using hb)
    refine (foldl_leaves (fun q : Allocator => q.posts[c]) _ _ _ fun q b hb => ((requeueOne_posts f q b c).1 (n b hb)).2).trans ?_
    exact foldl_leaves (fun q : Allocator => q.posts[c]) _ _ _ fun q b hb => ((trimOne_posts f q b c).1 (n b hb)).2

/-! ## The cut and the top-up as wholes -/

/-- What a cut that is due does to the sessions: a CHARGING session of the feeder keeps at least 6 and gains nothing, or is
QUEUED with grant 0; every other session stays. The headroom left is below 6. -/
theorem cut_done {a : Allocator} (h : a.ListsSound) {f : FeederNo} (hc : a.ceiling f < a.granted f)
    (h6 : ∀ b ∈ (a.feeder f).grants, 6 ≤ a.grantOf b) :
    Within f a (a.cut f) ∧ (a.cut f).ListsSound ∧ (a.cut f).headroom f < 6 ∧
    (∀ b ∈ (a.feeder f).grants, ∃ x n, a.session b = some x ∧ 6 ≤ n ∧ n ≤ x.grant ∧
      ((a.cut f).session b = some { x with grant := n } ∨ (a.cut f).session b = some { x with grant := 0, phase := .queued })) ∧
    (∀ b, b ∉ (a.feeder f).grants → (a.cut f).session b = a.session b) := by
  obtain ⟨d, hd, t1, t2, t3, t4, t5, t6, t7, _, _⟩ := trim_fold (f := f) (a.feeder f).grants.reverse a h
    (List.nodup_reverse.2 (h.1 f).1) (by simp) (by simpa using h6) (by omega)
  obtain ⟨e, kept, back, he, r0, r1, r2, r3, r4, r5, r6, r7, r8⟩ := requeue_fold (f := f) (a.feeder f).grants.reverse d t1
    (by rw [t2]; simp) (by
      rcases t7 with e | e
      · left; rw [t3]; omega
      · right; exact e)
  have hcut : a.cut f = e := by
    rw [he]
    unfold Allocator.cut
    dsimp only
    rw [← hd, t2]
  have hk : (a.feeder f).grants = kept ++ back := by simpa using r0
  have one : ∀ b ∈ (a.feeder f).grants, ∃ x n, a.session b = some x ∧ 6 ≤ n ∧ n ≤ x.grant ∧
      (e.session b = some { x with grant := n } ∨ e.session b = some { x with grant := 0, phase := .queued }) := fun b hb => by
    obtain ⟨s, j1, j2, j3, j4⟩ := t5 b (by simpa using hb)
    refine ⟨s, d.grantOf b, j1, j3, by rw [← grantOf_some j1]; exact j4, ?_⟩
    by_cases hbk : b ∈ back
    · right
      obtain ⟨t, k1, k2⟩ := r7 b hbk
      rw [j2] at k1; cases k1
      exact k2
    · left
      rw [r8 b hbk, j2]
  have rest : ∀ b, b ∉ (a.feeder f).grants → e.session b = a.session b := fun b hb => by
    rw [r8 b (fun hm => hb (by simp [hk, hm])), t4 b (by simpa using hb)]
  rw [hcut]
  refine ⟨⟨fun g hg => by rw [r2, if_neg (fun e => hg e.symm), t2], fun b hb => rest b fun hm => ?_, fun b x hx => ?_, ?_, ?_, ?_⟩,
    r1, ?_, one, rest⟩
  · obtain ⟨x, hx, hf, _⟩ := (h.2.1 f b).1 hm
    exact hb x hx hf
  · by_cases hm : b ∈ (a.feeder f).grants
    · obtain ⟨y, n, j1, _, _, j2 | j2⟩ := one b hm <;> rw [hx] at j1 <;> cases j1 <;> exact ⟨_, j2, rfl, rfl, rfl⟩
    · exact ⟨x, by rw [rest b hm, hx], rfl, rfl, rfl⟩
  · rw [← hcut]; exact cut_supply a f
  · rw [← hcut]; exact cut_actions a f
  · rw [r2, if_pos rfl, t2]
  · unfold Allocator.headroom
    rw [r3, t3]
    by_cases hb : back = []
    · rw [r6 hb]
      rcases t7 with j | j
      · omega
      · omega
    · have := (r5 hb).2
      rw [t3] at this
      omega

/-- What the top-up does to the sessions of its feeder. -/
theorem topUp_done {a : Allocator} (h : a.ListsSound) (f : FeederNo) :
    Within f a (a.topUp f) ∧ (a.topUp f).ListsSound ∧ (a.topUp f).headroom f ≤ a.headroom f ∧
    (a.topUp f).feeder = a.feeder ∧
    (∀ b ∈ (a.feeder f).grants, ∃ x n, a.session b = some x ∧ (a.topUp f).session b = some { x with grant := n } ∧
      x.grant ≤ n ∧ (n ≤ x.grant ∨ n ≤ x.cap) ∧ (x.cap ≤ n ∨ (a.topUp f).headroom f = 0)) ∧
    (∀ b, b ∉ (a.feeder f).grants → (a.topUp f).session b = a.session b) := by
  obtain ⟨d, hd, t1, t2, t3, t4, t5⟩ := topUp_fold (f := f) (a.feeder f).grants a h (h.1 f).1 (fun _ hb => hb)
  have e : a.topUp f = d := hd.symm
  rw [e]
  refine ⟨⟨fun g _ => t2 g, fun b hb => t3 b fun hm => ?_, fun b x hx => ?_, ?_, ?_, ?_⟩, t1, t5, funext t2, t4, t3⟩
  · obtain ⟨x, hx, hf, _⟩ := (h.2.1 f b).1 hm
    exact hb x hx hf
  · by_cases hm : b ∈ (a.feeder f).grants
    · obtain ⟨y, n, j1, j2, _⟩ := t4 b hm
      rw [hx] at j1; cases j1
      exact ⟨_, j2, rfl, rfl, rfl⟩
    · exact ⟨x, by rw [t3 b hm, hx], rfl, rfl, rfl⟩
  · rw [← e]; exact topUp_supply a f
  · rw [← e]; exact topUp_actions a f
  · rw [t2]

end Allocator

end Sys2Proof.Machine
end

