-- ==== Sys2Proof/Laws/Ranges.lean ====
section
/-! SUPPORT. Grants and caps in their ranges, and wait queues served as far as the headroom goes: what keeps them so (R118,
R120, R122, R125, R129). -/

namespace Sys2Proof.Machine

namespace Allocator

/-- A session's draw, cap, grant and phase as its bay's action and the supply state allow (R118, R120, R125). -/
def InRange (a : Allocator) (b : BayNo) (x : Session) : Prop :=
  6 ≤ x.draw ∧ 6 ≤ x.cap ∧ (x.phase = .charging → 6 ≤ x.grant ∧ x.grant ≤ x.cap) ∧
  (a.action b = .trickle → x.cap = 6) ∧
  ((a.action b).runs = false ∨ a.supply = .halt → x.phase = .suspended)

/-- Every session is in range. -/
def AllInRange (a : Allocator) : Prop := ∀ (b : BayNo) (x : Session), a.session b = some x → a.InRange b x

/-- The feeder's wait queue is empty, or its headroom is below 6 (R122). -/
def Served (a : Allocator) (f : FeederNo) : Prop := (a.feeder f).queue = [] ∨ a.headroom f < 6

theorem grantsInRange_iff (a : Allocator) : a.GrantsInRange ↔ a.AllInRange ∧ ∀ f, a.Served f := Iff.rfl

/-- The lists are sound, every session is in range and every queue served. -/
def Ranged (a : Allocator) : Prop := a.ListsSound ∧ a.AllInRange ∧ ∀ f, a.Served f

theorem InRange.congr {a d : Allocator} {b : BayNo} {x : Session} (h : a.InRange b x) (ha : d.action b = a.action b)
    (hs : d.supply = a.supply) : d.InRange b x := by
  unfold InRange
  rw [ha, hs]; exact h

theorem Within.action {f : FeederNo} {a d : Allocator} (h : Within f a d) (b : BayNo) : d.action b = a.action b := by
  unfold Allocator.action
  rw [h.2.2.2.2.1]

theorem Within.served {f : FeederNo} {a d : Allocator} (h : Within f a d) (ha : a.ListsSound) {g : FeederNo} (hg : g ≠ f)
    (hq : a.Served g) : d.Served g := by
  unfold Served
  rw [h.1 g hg, h.headroom ha hg]
  exact hq

/-- A QUEUED or CHARGING session in range runs. -/
theorem InRange.runs {a : Allocator} {b : BayNo} {x : Session} (h : a.InRange b x) (hp : x.phase ≠ .suspended) :
    (a.action b).runs = true ∧ a.supply ≠ .halt := by
  refine ⟨?_, fun e => hp (h.2.2.2.2 (.inr e))⟩
  cases hr : (a.action b).runs with
  | true => rfl
  | false => exact absurd (h.2.2.2.2 (.inl hr)) hp

/-- A session in range changed to another phase and grant that its action and the supply state allow. -/
theorem InRange.change {a : Allocator} {b : BayNo} {x y : Session} (h : a.InRange b x) (hd : y.draw = x.draw) (hc : y.cap = x.cap)
    (hg : y.phase = .charging → 6 ≤ y.grant ∧ y.grant ≤ y.cap) (hp : x.phase ≠ .suspended ∨ y.phase = .suspended) :
    a.InRange b y := by
  refine ⟨by rw [hd]; exact h.1, by rw [hc]; exact h.2.1, hg, fun e => by rw [hc]; exact h.2.2.2.1 e, fun e => ?_⟩
  rcases hp with hp | hp
  · exact absurd (h.2.2.2.2 e) hp
  · exact hp

theorem serveQueue_ranged {a : Allocator} (h : a.ListsSound) (hs : a.AllInRange) (f : FeederNo) :
    (a.serveQueue f).ListsSound ∧ (a.serveQueue f).AllInRange ∧ (a.serveQueue f).Served f ∧
    ∀ g, g ≠ f → a.Served g → (a.serveQueue f).Served g := by
  have hq := serveQueue_served h f
  have hw := hq.within h
  refine ⟨(serveQueue_tame h f).2.1, fun b x hx => ?_, ?_, fun g hg hs => hw.served h hg hs⟩
  · obtain ⟨served, rest, h1, h2, h3, h4, h5, h6, h7, h8⟩ := hq
    refine InRange.congr (a := a) ?_ (hw.action b) h7
    by_cases hm : b ∈ served
    · obtain ⟨before, after, he⟩ := List.append_of_mem hm
      obtain ⟨y, m, n, -, j2, j3, j4, j5, -⟩ := h4 before after b he
      rw [hx] at j5; cases j5
      have hy := hs b y j4
      refine hy.change rfl rfl (fun _ => ⟨?_, ?_⟩) (.inl ?_)
      · have := hy.2.1; simp only; omega
      · simp only; omega
      have : b ∈ (a.feeder f).queue := by rw [h1]; simp [hm]
      obtain ⟨z, hz, _, hp⟩ := (h.2.2.1 f b).1 this
      rw [j4] at hz; cases hz
      rw [hp]; decide
    · exact hs b x (by rw [← (h5 b hm).1]; exact hx)
  · obtain ⟨served, rest, h1, h2, h3, _⟩ := hq
    rcases h3 with e | e
    · left; rw [h2]; exact e
    · exact .inr e

theorem cut_ranged {a : Allocator} (h : a.ListsSound) (hs : a.AllInRange) {f : FeederNo} (hc : a.ceiling f < a.granted f) :
    (a.cut f).ListsSound ∧ (a.cut f).AllInRange ∧ (a.cut f).Served f ∧ ∀ g, g ≠ f → a.Served g → (a.cut f).Served g := by
  have h6 : ∀ b ∈ (a.feeder f).grants, 6 ≤ a.grantOf b := fun b hb => by
    obtain ⟨x, hx, _, hp⟩ := (h.2.1 f b).1 hb
    rw [grantOf_some hx]
    exact ((hs b x hx).2.2.1 hp).1
  obtain ⟨hw, c1, c2, c3, c4⟩ := cut_done h hc h6
  refine ⟨c1, fun b x hx => ?_, .inr c2, fun g hg hs => hw.served h hg hs⟩
  refine InRange.congr (a := a) ?_ (hw.action b) hw.2.2.2.1
  by_cases hm : b ∈ (a.feeder f).grants
  · obtain ⟨y, n, j1, j2, j3, j4⟩ := c3 b hm
    obtain ⟨z, hz, _, hp⟩ := (h.2.1 f b).1 hm
    rw [j1] at hz; cases hz
    have hy := hs b y j1
    have hn : y.phase ≠ .suspended := by rw [hp]; decide
    rcases j4 with j4 | j4 <;> rw [hx] at j4 <;> cases j4
    · exact hy.change rfl rfl (fun _ => ⟨j2, Nat.le_trans j3 (hy.2.2.1 hp).2⟩) (.inl hn)
    · exact hy.change rfl rfl (fun e => by cases e) (.inl hn)
  · exact hs b x (by rw [← c4 b hm]; exact hx)

theorem topUp_ranged {a : Allocator} (h : a.ListsSound) (hs : a.AllInRange) (f : FeederNo) :
    (a.topUp f).ListsSound ∧ (a.topUp f).AllInRange ∧ ∀ g, a.Served g → (a.topUp f).Served g := by
  obtain ⟨hw, c1, c2, c3, c4, c5⟩ := topUp_done h f
  refine ⟨c1, fun b x hx => ?_, fun g hq => ?_⟩
  · refine InRange.congr (a := a) ?_ (hw.action b) hw.2.2.2.1
    by_cases hm : b ∈ (a.feeder f).grants
    · obtain ⟨y, n, j1, j2, j3, j4, _⟩ := c4 b hm
      obtain ⟨z, hz, _, hp⟩ := (h.2.1 f b).1 hm
      rw [j1] at hz; cases hz
      rw [hx] at j2; cases j2
      have hy := hs b y j1
      have := hy.2.2.1 hp
      exact hy.change rfl rfl (fun _ => ⟨by show 6 ≤ n; omega, by show n ≤ y.cap; omega⟩) (.inl (by rw [hp]; decide))
    · exact hs b x (by rw [← c5 b hm]; exact hx)
  · by_cases e : g = f
    · subst e
      rcases hq with e | e
      · left; rw [c3]; exact e
      · right; omega
    · exact hw.served h e hq

/-! ## Placing, leaving, resuming -/

theorem capFor_range {x : Action} {d m : Nat} (hd : 6 ≤ d) (hm : 6 ≤ m) :
    6 ≤ capFor x d m ∧ (x = .trickle → capFor x d m = 6) := by
  unfold capFor
  split
  · exact ⟨Nat.le_refl _, fun _ => rfl⟩
  · rename_i h
    exact ⟨by omega, fun e => absurd e h⟩

/-- The feeders whose lists and totals stay are served as before. -/
theorem Served.congr {a d : Allocator} {f : FeederNo} (h : a.Served f) (hq : (d.feeder f).queue = (a.feeder f).queue)
    (hc : d.ceiling f ≤ a.ceiling f) (hg : a.granted f ≤ d.granted f) : d.Served f := by
  unfold Served Allocator.headroom at *
  rw [hq]
  rcases h with h | h
  · exact .inl h
  · right; omega

theorem place_ranged {a : Allocator} (h : a.ListsSound) {b : BayNo} (hb : a.Off b)
    (hs : ∀ c, c ≠ b → ∀ x, a.session c = some x → a.InRange c x) (hq : ∀ f, a.Served f) {m : Nat} (hm : 6 ≤ m) {s : Session}
    (hd : 6 ≤ s.draw) : (a.place b m s).Ranged := by
  obtain ⟨k1, k2⟩ := capFor_range (x := a.action b) hd hm
  have rest : ∀ (d : Allocator) (o : Session), (∀ c, d.session c = if b = c then some o else a.session c) →
      (∀ c, d.action c = a.action c) → d.supply = a.supply → d.InRange b o → d.AllInRange := by
    intro d o h1 h2 h3 h4 c x hx
    rw [h1] at hx
    split at hx
    · rename_i e; subst e; cases hx; exact h4
    · rename_i e; exact (hs c (fun q => e q.symm) x hx).congr (h2 c) h3
  unfold Allocator.place
  dsimp only
  split
  · rename_i hc
    obtain ⟨h1, h2⟩ := putOff_sound h hb (o := some { s with cap := capFor (a.action b) s.draw m, grant := 0, phase := .suspended })
      fun x hx => by cases hx; exact ⟨rfl, rfl⟩
    refine ⟨h1, rest _ _ (fun c => session_putSession _ _ _ _) (fun _ => rfl) rfl ⟨hd, k1, fun e => (by cases e), k2, fun _ => rfl⟩,
      fun f => (hq f).congr rfl (Nat.le_refl _) (Nat.le_of_eq (h2 f).symm)⟩
  · rename_i hc
    have hrun : (a.action b).runs ≠ false ∧ a.supply ≠ .halt := ⟨fun e => hc (.inl e), fun e => hc (.inr e)⟩
    have no : ∀ {P : Prop}, ((a.action b).runs = false ∨ a.supply = .halt) → P := fun e => absurd e hc
    split
    · rename_i hc2
      have hh : 6 ≤ a.headroom s.feeder := hc2.2
      obtain ⟨h1, h2, h3⟩ := joinGrants_sound h hb
        (x := { s with cap := capFor (a.action b) s.draw m, grant := min (capFor (a.action b) s.draw m) (a.headroom s.feeder), phase := .charging }) rfl
      refine ⟨h1, rest _ _ (fun c => (session_joinGrants _ _ _ _).trans (session_putSession _ _ _ _)) (fun _ => rfl) rfl
        ⟨hd, k1, fun _ => ⟨?_, Nat.min_le_left _ _⟩, k2, no⟩, fun f => ?_⟩
      · show 6 ≤ min (capFor (a.action b) s.draw m) (a.headroom s.feeder)
        omega
      · by_cases e : s.feeder = f
        · subst e
          left
          exact (h3 s.feeder).trans hc2.1
        · refine (hq f).congr (h3 f) (Nat.le_of_eq (by simp)) (Nat.le_of_eq ?_)
          rw [h2 f, if_neg e]; rfl
    · rename_i hc2
      obtain ⟨h1, h2, h3⟩ := enqueue_sound h hb (x := { s with cap := capFor (a.action b) s.draw m, grant := 0, phase := .queued })
        rfl rfl (q := (a.feeder s.feeder).queue ++ [b]) (List.perm_append_singleton _ _)
      have ej : ∀ y : Session, (a.putSession b (some y)).joinQueue s.feeder b =
          (a.putSession b (some y)).setFeeder s.feeder { a.feeder s.feeder with queue := (a.feeder s.feeder).queue ++ [b] } :=
        fun _ => rfl
      rw [ej]
      refine ⟨h1, rest _ _ (fun c => session_putSession _ _ _ _) (fun _ => rfl) rfl ⟨hd, k1, fun e => (by cases e), k2, no⟩,
        fun f => ?_⟩
      have hce : ∀ y : Session, ((a.putSession b (some y)).setFeeder s.feeder
          { a.feeder s.feeder with queue := (a.feeder s.feeder).queue ++ [b] }).ceiling f = a.ceiling f := fun y => by
        rw [ceiling_setFeeder _ _ _ _ (by rfl) (by rfl), ceiling_putSession]
      by_cases e : s.feeder = f
      · subst e
        have h6 : a.headroom s.feeder < 6 := by
          rcases hq s.feeder with e | e
          · by_contra hn
            exact hc2 ⟨e, by show 6 ≤ _; omega⟩
          · exact e
        right
        unfold Allocator.headroom at h6 ⊢
        rw [hce]
        refine Nat.lt_of_le_of_lt (Nat.le_of_eq ?_) h6
        congr 1
        exact h2 s.feeder
      · refine (hq f).congr ?_ (Nat.le_of_eq (hce _)) (Nat.le_of_eq (h2 f).symm)
        rw [feeder_setFeeder, if_neg e]; rfl

/-- A session that leaves its list and the service of the queue it leaves headroom to. -/
theorem leave_ranged {a : Allocator} (h : a.ListsSound) {b : BayNo} {s : Session} (hs : a.session b = some s)
    (hr : ∀ c, c ≠ b → ∀ x, a.session c = some x → a.InRange c x) (hq : ∀ f, a.Served f) {o : Option Session}
    (ho : ∀ x, o = some x → x.phase = .suspended ∧ x.grant = 0 ∧ a.InRange b x) :
    (((a.leaveLists s.feeder b).putSession b o).serveQueue s.feeder).Ranged := by
  obtain ⟨l1, l2, l3, l4⟩ := leave_sound h hs fun x hx => ⟨(ho x hx).1, (ho x hx).2.1⟩
  have hall : ((a.leaveLists s.feeder b).putSession b o).AllInRange := fun c x hx => by
    rw [session_putSession] at hx
    split at hx
    · rename_i e; subst e; exact ((ho x hx).2.2).congr rfl rfl
    · rename_i e; exact (hr c (fun q => e q.symm) x hx).congr rfl rfl
  obtain ⟨r1, r2, r3, r4⟩ := serveQueue_ranged l1 hall s.feeder
  refine ⟨r1, r2, fun g => ?_⟩
  by_cases e : g = s.feeder
  · subst e; exact r3
  · refine r4 g e ((hq g).congr ?_ (Nat.le_of_eq (by simp)) (Nat.le_of_eq ?_))
    · rw [l3 g (fun q => e q.symm)]
    · unfold Allocator.granted
      rw [l3 g (fun q => e q.symm)]
      congr 1
      refine List.map_congr_left fun c hc => ?_
      obtain ⟨y, hy, hyf, _⟩ := (h.2.1 g c).1 hc
      have : b ≠ c := by
        rintro rfl
        rw [hs] at hy; cases hy; exact e hyf.symm
      unfold Allocator.grantOf
      rw [session_putSession, if_neg this]; rfl

theorem release_ranged {a : Allocator} (h : a.Ranged) (b : BayNo) : (a.release b).Ranged := by
  unfold Allocator.release
  split
  · exact h
  · rename_i s hs
    exact leave_ranged h.1 hs (fun c _ x hx => h.2.1 c x hx) h.2.2 fun x hx => by cases hx

theorem request_ranged {a : Allocator} (h : a.Ranged) (b : BayNo) {d : Nat} (hd : 6 ≤ d) {c : BayConfig} (hc : 6 ≤ c.maxDraw) :
    (a.request b d c).Ranged := by
  unfold Allocator.request
  (repeat' split)
  · rename_i hs
    exact place_ranged h.1 (fun x hx => by rw [hs] at hx; cases hx) (fun c _ x hx => h.2.1 c x hx) h.2.2 hc hd
  · rename_i s hs hp
    exact place_ranged h.1 (fun x hx => by rw [hs] at hx; cases hx; exact hp) (fun c _ x hx => h.2.1 c x hx) h.2.2 hc
      (h.2.1 b s hs).1
  · exact h

theorem resumeOne_ranged {a : Allocator} (h : a.Ranged) {c : BayNo → BayConfig} (hc : ∀ b, 6 ≤ (c b).maxDraw)
    (m : Action → Bool) (b : BayNo) : (Allocator.resumeOne c m a b).Ranged := by
  unfold Allocator.resumeOne
  (repeat' split)
  · exact h
  · rename_i s hs hp
    exact place_ranged h.1 (fun x hx => by rw [hs] at hx; cases hx; exact hp.1) (fun c _ x hx => h.2.1 c x hx) h.2.2 (hc b)
      (h.2.1 b s hs).1
  · exact h

/-- The sessions of a fold of suspensions. -/
theorem suspend_fold_sessions (xs : List BayNo) (q : Allocator) (hn : xs.Nodup) (b : BayNo) :
    (xs.foldl Allocator.suspendOne q).session b =
      if b ∈ xs then (q.session b).map fun x => { x with grant := 0, phase := .suspended } else q.session b := by
  induction xs generalizing q with
  | nil => rfl
  | cons c xs ih =>
    obtain ⟨hc, hn⟩ := List.nodup_cons.1 hn
    have one : (Allocator.suspendOne q c).session b =
        if c = b then (q.session b).map fun x => { x with grant := 0, phase := .suspended } else q.session b := by
      rw [Allocator.suspendOne, session_putSession]
      split
      · rename_i e; rw [e]
      · rfl
    rw [List.foldl_cons, ih _ hn, one]
    by_cases e : c = b
    · subst e
      simp [hc]
    · have e' : ¬ b = c := fun q => e q.symm
      simp [e, e']

/-- HALT and RESTART ALLOCATION: every session kept, SUSPENDED with grant 0, and every list empty (R125, R132). -/
theorem suspendAll_done (a : Allocator) :
    (∀ b, a.suspendAll.session b = (a.session b).map fun x => { x with grant := 0, phase := .suspended }) ∧
    (∀ f, a.suspendAll.feeder f = { a.feeder f with grants := [], queue := [] }) := by
  refine ⟨fun b => ?_, fun f => ?_⟩
  · have e : a.suspendAll = (List.finRange Config.bayCount).foldl Allocator.suspendOne
      ((List.finRange Config.feederCount).foldl Allocator.clearLists a) := rfl
    rw [e, suspend_fold_sessions _ _ (List.nodup_finRange _), if_pos (List.mem_finRange b), (clearAll_spec a).2.1]
  · have e : a.suspendAll.feeder = ((List.finRange Config.feederCount).foldl Allocator.clearLists a).feeder :=
      foldl_leaves (fun q : Allocator => q.feeder) _ _ _ fun q b _ => suspendOne_feeder q b
    rw [e]
    have key : ∀ (xs : List FeederNo) (q : Allocator), (xs.foldl Allocator.clearLists q).feeder f =
        if f ∈ xs then { q.feeder f with grants := [], queue := [] } else q.feeder f := by
      intro xs
      induction xs with
      | nil => intro q; rfl
      | cons g xs ih =>
        intro q
        rw [List.foldl_cons, ih]
        have : (Allocator.clearLists q g).feeder f = if g = f then { q.feeder g with grants := [], queue := [] } else q.feeder f :=
          feeder_setFeeder _ _ _ _
        rw [this]
        by_cases e : g = f
        · subst e; simp
        · have e' : ¬ f = g := fun q => e q.symm
          simp [e, e']
    rw [key, if_pos (List.mem_finRange f)]

theorem suspendAll_ranged {a : Allocator} (h : ∀ b x, a.session b = some x → 6 ≤ x.draw ∧ 6 ≤ x.cap ∧
    (a.action b = .trickle → x.cap = 6)) : a.suspendAll.Ranged := by
  obtain ⟨h1, h2⟩ := a.suspendAll_done
  refine ⟨a.suspendAll_spec.1, fun b x hx => ?_, fun f => .inl (by rw [h2])⟩
  rw [h1] at hx
  obtain ⟨y, hy, rfl⟩ := Option.map_eq_some_iff.1 hx
  obtain ⟨k1, k2, k3⟩ := h b y hy
  refine ⟨k1, k2, fun e => (by cases e), fun e => k3 ?_, fun _ => rfl⟩
  rw [← e]
  unfold Allocator.action
  rw [suspendAll_actions]

theorem resumeAll_ranged {a : Allocator} (h : a.Ranged) {c : BayNo → BayConfig} (hc : ∀ b, 6 ≤ (c b).maxDraw) :
    (a.resumeAll c).Ranged :=
  foldl_keeps (fun q : Allocator => q.Ranged) _ _ _ h fun _ hq b _ => resumeOne_ranged hq hc _ b

theorem rebuild_ranged {a : Allocator} (h : a.AllInRange) {c : BayNo → BayConfig} (hc : ∀ b, 6 ≤ (c b).maxDraw) :
    (a.rebuild c).Ranged :=
  foldl_keeps (fun q : Allocator => q.Ranged) _ _ _
    (suspendAll_ranged fun b x hx => ⟨(h b x hx).1, (h b x hx).2.1, (h b x hx).2.2.2.1⟩)
    fun _ hq b _ => resumeOne_ranged hq hc _ b

theorem restart_ranged (a : Allocator) (x : Vector Action Config.bayCount) : (a.restart x).Ranged := by
  refine ⟨(a.restart_sound x).1, fun b y hy => ?_, fun f => .inl ?_⟩
  · simp [Allocator.restart, Allocator.session] at hy
  · simp [Allocator.restart, Allocator.feeder]

/-- A bay's action changes (R129). -/
theorem curtail_ranged {a : Allocator} (h : a.Ranged) {b : BayNo} {new : Action} (hne : a.action b ≠ new) {m : Nat} (hm : 6 ≤ m) :
    (a.curtail b new m).Ranged := by
  obtain ⟨h1, h2, h3⟩ := h
  have ha : ∀ c, { a with actions := setAt a.actions b new }.action c = if b = c then new else a.action c := fun c => by
    simp only [Allocator.action, Fin.getElem_fin, setAt_get]
  have other : ∀ c, c ≠ b → ∀ x, a.session c = some x → { a with actions := setAt a.actions b new }.InRange c x :=
    fun c hc x hx => (h2 c x hx).congr (by rw [ha, if_neg (fun e => hc e.symm)]) rfl
  have hl : { a with actions := setAt a.actions b new }.ListsSound := h1
  have hsv : ∀ f, { a with actions := setAt a.actions b new }.Served f := h3
  have hab : { a with actions := setAt a.actions b new }.action b = new := by rw [ha, if_pos rfl]
  unfold Allocator.curtail
  dsimp only
  split
  · rename_i hs
    have hs : a.session b = none := hs
    refine ⟨hl, fun c x hx => other c (fun e => ?_) x hx, hsv⟩
    subst e
    have hx : a.session c = some x := hx
    rw [hs] at hx; cases hx
  · rename_i s hs
    have hs' : a.session b = some s := hs
    obtain ⟨r1, r2, r3, r4, r5⟩ := h2 b s hs'
    obtain ⟨k1, k2⟩ := capFor_range (x := new) r1 hm
    split
    · rename_i hc
      exact place_ranged hl (fun x hx => by rw [hs] at hx; cases hx; exact hc.2.2) other hsv hm r1
    · split
      · exact leave_ranged hl hs other hsv fun x hx => by
          cases hx
          exact ⟨rfl, rfl, r1, k1, fun e => (by cases e), fun e => k2 (hab.symm.trans e), fun _ => rfl⟩
      · rename_i hn1 hn2
        split
        · rename_i hc
          obtain ⟨g1, g2⟩ := r3 hc.2
          have hsup : a.supply ≠ .halt := fun e => by
            have := r5 (.inr e)
            rw [hc.2] at this; cases this
          have hmin : min s.grant Config.leastGrant = 6 := by simp only [Config.leastGrant]; omega
          rw [hmin]
          have hpx : ({ s with cap := capFor new s.draw m, grant := 6 } : Session).phase = .charging := hc.2
          obtain ⟨j1, j2, j3⟩ := adjust_sound hl hs (x := { s with cap := capFor new s.draw m, grant := 6 }) rfl rfl
            fun hn => absurd hc.2 hn
          have hall : ({ a with actions := setAt a.actions b new }.putSession b
              (some { s with cap := capFor new s.draw m, grant := 6 })).AllInRange := fun c x hx => by
            rw [session_putSession] at hx
            split at hx
            · rename_i e; subst e
              cases hx
              refine ⟨r1, k1, fun _ => ⟨Nat.le_refl _, k1⟩, fun e => k2 (hab.symm.trans e), fun e => ?_⟩
              rcases e with e | e
              · have e : new.runs = false := by rw [← e]; exact congrArg _ hab.symm
                rw [hc.1] at e; cases e
              · exact absurd e hsup
            · rename_i e; exact (other c (fun q => e q.symm) x hx).congr rfl rfl
          obtain ⟨q1, q2, q3, q4⟩ := serveQueue_ranged j1 hall s.feeder
          refine ⟨q1, q2, fun g => ?_⟩
          by_cases e : g = s.feeder
          · subst e; exact q3
          · exact q4 g e ((hsv g).congr rfl (Nat.le_refl _) (Nat.le_of_eq (j2 g (fun q => e q.symm)).symm))
        · rename_i hn3
          obtain ⟨j1, j2, j3⟩ := adjust_sound hl hs (x := { s with cap := capFor new s.draw m }) rfl rfl
            fun hn => h1.2.2.2 b s hs' hn
          have j3 : ({ a with actions := setAt a.actions b new }.putSession b (some { s with cap := capFor new s.draw m })).granted s.feeder
              + s.grant = { a with actions := setAt a.actions b new }.granted s.feeder + s.grant := j3
          refine ⟨j1, fun c x hx => ?_, fun g => (hsv g).congr rfl (Nat.le_refl _) (Nat.le_of_eq ?_)⟩
          · rw [session_putSession] at hx
            split at hx
            · rename_i e; subst e
              cases hx
              have old : s.phase ≠ .suspended → (a.action b).runs = true ∧ a.supply ≠ .halt :=
                fun hp => (h2 b s hs').runs hp
              have hnew : s.phase ≠ .suspended → new.runs = true := fun hp => by
                cases hr : new.runs with
                | true => rfl
                | false => exact absurd ⟨(old hp).1, hr, hp⟩ hn2
              refine ⟨r1, k1, fun hp => ?_, fun e => k2 (hab.symm.trans e), fun e => ?_⟩
              · obtain ⟨g1, g2⟩ := r3 hp
                refine ⟨g1, ?_⟩
                have ho := old (by rw [show s.phase = .charging from hp]; decide)
                have hw := hnew (by rw [show s.phase = .charging from hp]; decide)
                have ht : new ≠ .trickle := fun e => hn3 ⟨e, hp⟩
                have hcont : new = .continue := by
                  revert hw ht; cases new <;> simp [Action.runs]
                have hold : a.action b = .trickle := by
                  have h1 := ho.1
                  subst hcont
                  revert h1 hne
                  cases a.action b <;> simp [Action.runs]
                have := r4 hold
                show s.grant ≤ capFor new s.draw m
                omega
              · by_contra hp
                rcases e with e | e
                · have e : new.runs = false := by rw [← e]; exact congrArg _ hab.symm
                  rw [hnew hp] at e; cases e
                · exact (old hp).2 e
            · rename_i e; exact (other c (fun q => e q.symm) x hx).congr rfl rfl
          · by_cases e : s.feeder = g
            · subst e; omega
            · exact (j2 g e).symm

end Allocator

/-! ## The configurations, and the allocator's copy of the actions -/

theorem Blocks.setAction_config (p : Blocks) (b : BayNo) (x : Action) (c : BayNo) :
    ((p.setAction b x).bay c).config = (p.bay c).config := by
  have key : ∀ q : Blocks, q.bays = (p.setBay b ((p.bay b).setAction x)).bays → (q.bay c).config = (p.bay c).config := by
    intro q hq
    rw [Blocks.bay_congr hq, Blocks.bay_setBay]
    split
    · rename_i e; subst e; rfl
    · rfl
  unfold Blocks.setAction
  dsimp only
  (repeat' split)
  · rfl
  all_goals exact key _ (by simp [Blocks.setBay, Blocks.bay])

theorem Blocks.recomputeMembers_config (p : Blocks) (among : GroupNo → Bool) (c : BayNo) :
    ((p.recomputeMembers among).bay c).config = (p.bay c).config :=
  foldl_leaves (fun q : Blocks => (q.bay c).config) _ _ _ fun q b _ => by
    split
    · exact Blocks.setAction_config q b _ c
    · rfl

/-- Every bay's max draw is in its range (R80). -/
def Blocks.MaxDrawsSound (p : Blocks) : Prop := ∀ b : BayNo, 6 ≤ (p.bay b).config.maxDraw

theorem Blocks.MaxDrawsSound.congr {p q : Blocks} (h : p.MaxDrawsSound) (hc : ∀ b, (q.bay b).config = (p.bay b).config) :
    q.MaxDrawsSound := fun b => by rw [hc]; exact h b

/-- Every change keeps the max draws in their range. -/
theorem change_maxDraws {p q : Blocks} (h : Change p q) (hp : p.MaxDrawsSound) : q.MaxDrawsSound := by
  have controls : ∀ q : Blocks, q.controls = p.controls → q.MaxDrawsSound := fun q hc =>
    hp.congr fun b => congrArg Prod.fst (congrFun hc b)
  cases h with
  | configured b c h hm =>
    intro b'
    unfold Blocks.configure Blocks.recompute
    rw [Blocks.setAction_config, Blocks.bay_setBay]
    split
    · exact hm
    · exact hp b'
  | groupLevel g l =>
    refine hp.congr fun b => ?_
    unfold Blocks.setGroupLevel
    rw [Blocks.recomputeMembers_config]
    rfl
  | dr x =>
    refine hp.congr fun b => ?_
    unfold Blocks.drChange
    rw [Blocks.recomputeMembers_config]
    rfl
  | alarm x =>
    refine hp.congr fun b => ?_
    unfold Blocks.alarmChange
    rw [Blocks.recomputeMembers_config]
    rfl
  | restarted =>
    refine hp.congr fun b => ?_
    have e : p.restartLevel.bay b = (p.bay b).restart (p.supply.restart p.bays.bays).actions[b] p.params.claimWindow := by
      simp [Blocks.restartLevel, Blocks.bay, Blocks.evalPool]
    rw [e]
    unfold Bay.restart Bay.rest
    dsimp only
    (repeat' split) <;> rfl
  | _ =>
    refine controls _ ?_
    first
      | simp
      | exact Blocks.controls_congr (by simp)
      | rfl

/-- The allocator's copy of the effective actions agrees with the supply unit's (R145). -/
def Blocks.ActionsCopied (p : Blocks) : Prop := p.alloc.actions = p.supply.actions

theorem Blocks.ActionsCopied.congr {p q : Blocks} (h : p.ActionsCopied) (ha : q.alloc.actions = p.alloc.actions)
    (hs : q.supply.actions = p.supply.actions) : q.ActionsCopied := by
  unfold Blocks.ActionsCopied
  rw [ha, hs]; exact h

theorem Blocks.recomputeMembers_actionsCopied {p : Blocks} (h : p.ActionsCopied) (among : GroupNo → Bool) :
    (p.recomputeMembers among).ActionsCopied :=
  foldl_keeps (fun q : Blocks => q.ActionsCopied) _ _ _ h fun q hq b _ => by
    split
    · exact Blocks.setAction_alloc_actions hq _ _
    · exact hq

theorem change_actionsCopied {p q : Blocks} (h : Change p q) (hp : p.ActionsCopied) : q.ActionsCopied := by
  cases h with
  | configured b c h hm =>
    refine Blocks.setAction_alloc_actions ?_ _ _
    simpa [Blocks.ActionsCopied] using hp
  | groupLevel g l =>
    refine Blocks.recomputeMembers_actionsCopied ?_ _
    exact hp.congr (by simp) (by simp)
  | dr x =>
    refine Blocks.recomputeMembers_actionsCopied ?_ _
    exact hp.congr (by simp) (by simp)
  | alarm x =>
    refine Blocks.recomputeMembers_actionsCopied ?_ _
    exact hp.congr (by simp) (by simp)
  | restarted => exact rfl
  | switched => exact hp.congr (Blocks.setSupply_alloc_actions _ _) (Blocks.setSupply_ownActions _ _)
  | settleCount =>
    unfold Blocks.supplyBoundary
    dsimp only
    (repeat' split)
    · exact hp
    · exact hp.congr (by rw [Blocks.setSupply_alloc_actions]; simp) (by rw [Blocks.setSupply_ownActions]; simp)
    · exact hp.congr (by simp) (by simp)
    · exact hp.congr (by simp) (by simp)
  | fall =>
    unfold Blocks.mainsOkFall
    dsimp only
    (repeat' split)
    · exact hp.congr (by rw [Blocks.setSupply_alloc_actions]; simp) (by rw [Blocks.setSupply_ownActions]; simp)
    all_goals exact hp.congr (by simp) (by simp)
  | _ => exact hp.congr (by simp) (by simp [Blocks.selectSupply, Blocks.mainsOkRise])

/-! ## At the blocks -/

theorem Blocks.cutFeeder_ranged {p : Blocks} (h : p.alloc.ListsSound) (hs : p.alloc.AllInRange) (f : FeederNo) {old : Nat}
    (hc : p.alloc.ceiling f ≤ old) (hq : (p.alloc.feeder f).queue = [] ∨ old - p.alloc.granted f < 6) :
    (p.cutFeeder f).alloc.ListsSound ∧ (p.cutFeeder f).alloc.AllInRange ∧ (p.cutFeeder f).alloc.Served f ∧
    ∀ g, g ≠ f → p.alloc.Served g → (p.cutFeeder f).alloc.Served g := by
  unfold Blocks.cutFeeder
  split
  · rename_i hx
    simpa using Allocator.cut_ranged h hs hx
  · refine ⟨h, hs, ?_, fun _ _ hg => hg⟩
    rcases hq with e | e
    · exact .inl e
    · right
      unfold Allocator.headroom
      omega

theorem Blocks.cutFeeder_within (p : Blocks) (h : p.alloc.ListsSound) (hs : p.alloc.AllInRange) (f : FeederNo) :
    Allocator.Within f p.alloc (p.cutFeeder f).alloc := by
  unfold Blocks.cutFeeder
  split
  · rename_i hx
    simp only [Blocks.raise_alloc, Blocks.withAlloc_alloc]
    refine (Allocator.cut_done h hx fun b hb => ?_).1
    obtain ⟨x, hx, _, hp⟩ := (h.2.1 f b).1 hb
    rw [Allocator.grantOf_some hx]
    exact ((hs b x hx).2.2.1 hp).1
  · exact .refl f _

/-- A ceiling has changed from `old`, under which the queue was served (R124). -/
theorem Blocks.ceilingChanged_ranged {p : Blocks} (h : p.alloc.ListsSound) (hs : p.alloc.AllInRange) (f : FeederNo) {old : Nat}
    (hq : (p.alloc.feeder f).queue = [] ∨ old - p.alloc.granted f < 6) :
    (p.ceilingChanged f old).alloc.ListsSound ∧ (p.ceilingChanged f old).alloc.AllInRange ∧
    (p.ceilingChanged f old).alloc.Served f ∧ Allocator.Within f p.alloc (p.ceilingChanged f old).alloc := by
  unfold Blocks.ceilingChanged
  split
  · obtain ⟨r1, r2, r3, _⟩ := Allocator.serveQueue_ranged h hs f
    simp only [Blocks.withAlloc_alloc]
    exact ⟨r1, r2, r3, (Allocator.serveQueue_served h f).within h⟩
  · split
    · rename_i hc
      obtain ⟨r1, r2, r3, _⟩ := Blocks.cutFeeder_ranged h hs f (Nat.le_of_lt hc) hq
      exact ⟨r1, r2, r3, Blocks.cutFeeder_within p h hs f⟩
    · refine ⟨h, hs, ?_, .refl f _⟩
      rcases hq with e | e
      · exact .inl e
      · right
        unfold Allocator.headroom
        omega

theorem Blocks.ceilings_fold_ranged (old : FeederNo → Nat) (xs : List FeederNo) (hn : xs.Nodup) (p : Blocks)
    (h : p.alloc.ListsSound) (hs : p.alloc.AllInRange)
    (hw : ∀ f, (f ∈ xs → (p.alloc.feeder f).queue = [] ∨ old f - p.alloc.granted f < 6) ∧ (f ∉ xs → p.alloc.Served f)) :
    (xs.foldl (fun p f => p.ceilingChanged f (old f)) p).alloc.Ranged := by
  induction xs generalizing p with
  | nil => exact ⟨h, hs, fun f => (hw f).2 (by simp)⟩
  | cons f xs ih =>
    obtain ⟨hf, hn⟩ := List.nodup_cons.1 hn
    obtain ⟨h1, h2, h3, h4⟩ := Blocks.ceilingChanged_ranged h hs f ((hw f).1 (by simp))
    refine ih hn _ h1 h2 fun g => ⟨fun hg => ?_, fun hg => ?_⟩
    · have hne : g ≠ f := by rintro rfl; exact hf hg
      rw [h4.1 g hne, h4.granted h hne]
      exact (hw g).1 (by simp [hg])
    · by_cases e : g = f
      · subst e; exact h3
      · exact h4.served h e ((hw g).2 (by simp [hg, e]))

theorem Blocks.allocSupply_ranged {p : Blocks} (h : p.alloc.Ranged) (hm : p.MaxDrawsSound) (x : SupplyState) :
    (p.allocSupply x).alloc.Ranged := by
  have hl : { p.alloc with supply := x }.ListsSound := h.1
  unfold Blocks.allocSupply
  dsimp only
  split
  · simp only [Blocks.withAlloc_alloc]
    exact Allocator.suspendAll_ranged fun b y hy => ⟨(h.2.1 b y hy).1, (h.2.1 b y hy).2.1, (h.2.1 b y hy).2.2.2.1⟩
  · rename_i hx
    split
    · rename_i hh
      have hsus : ∀ b y, p.alloc.session b = some y → y.phase = .suspended := fun b y hy => (h.2.1 b y hy).2.2.2.2 (.inr hh)
      have hr : { p.alloc with supply := x }.Ranged := by
        refine ⟨hl, fun b y hy => ?_, fun f => .inl ?_⟩
        · obtain ⟨r1, r2, r3, r4, r5⟩ := h.2.1 b y hy
          exact ⟨r1, r2, r3, r4, fun _ => hsus b y hy⟩
        · refine List.eq_nil_iff_forall_not_mem.2 fun b hb => ?_
          obtain ⟨y, hy, _, hp⟩ := (h.1.2.2.1 f b).1 hb
          rw [hsus b y hy] at hp; cases hp
      simp only [Blocks.withAlloc_alloc]
      exact Allocator.resumeAll_ranged hr fun b => hm b
    · rename_i hh
      refine Blocks.ceilings_fold_ranged p.alloc.ceiling _ (List.nodup_finRange _) _ (by simpa using hl) (fun b y hy => ?_)
        fun f => ⟨fun _ => h.2.2 f, fun hn => absurd (List.mem_finRange f) hn⟩
      obtain ⟨r1, r2, r3, r4, r5⟩ := h.2.1 b y hy
      refine ⟨r1, r2, r3, r4, fun e => ?_⟩
      rcases e with e | e
      · exact r5 (.inl e)
      · exact absurd e hx

theorem Blocks.setSupply_ranged {p : Blocks} (h : p.alloc.Ranged) (hm : p.MaxDrawsSound) (x : SupplyState) :
    (p.setSupply x).alloc.Ranged := by
  unfold Blocks.setSupply
  dsimp only
  split
  · exact h
  · have hm' : (p.withSupply { p.supply with state := x, counter := if x = .returning then p.params.settle else 0 }).MaxDrawsSound := hm
    split
    · rw [Blocks.withNotices_alloc]; exact Blocks.allocSupply_ranged (by simpa using h) hm' x
    · exact Blocks.allocSupply_ranged (by simpa using h) hm' x

theorem Blocks.setAction_ranged {p : Blocks} (h : p.alloc.Ranged) (hm : p.MaxDrawsSound) (ha : p.ActionsCopied) (b : BayNo)
    (x : Action) : (p.setAction b x).alloc.Ranged := by
  unfold Blocks.setAction
  dsimp only
  split
  · exact h
  · rename_i hx
    have hne : p.alloc.action b ≠ x := by
      unfold Allocator.action
      rw [ha]; exact hx
    have := Allocator.curtail_ranged h hne (hm b)
    have e : ∀ q : Blocks, (p.withSupply q.supply).bay b = p.bay b := fun _ => rfl
    (repeat' split) <;> simpa [Blocks.bay] using this

/-- What keeps the grants in range at a change: the allocator's lists and sessions, the max draws, the copy of the
actions. -/
def Blocks.GrantsKept (p : Blocks) : Prop := p.alloc.Ranged ∧ p.MaxDrawsSound ∧ p.ActionsCopied

theorem Blocks.recomputeMembers_ranged {p : Blocks} (h : p.GrantsKept) (among : GroupNo → Bool) :
    (p.recomputeMembers among).alloc.Ranged :=
  (foldl_keeps (fun q : Blocks => q.GrantsKept) _ _ _ h fun q hq b _ => by
    split
    · exact ⟨Blocks.setAction_ranged hq.1 hq.2.1 hq.2.2 _ _, hq.2.1.congr fun c => Blocks.setAction_config q b _ c,
        Blocks.setAction_alloc_actions hq.2.2 _ _⟩
    · exact hq).1

theorem Blocks.rebalanceFeeder_ranged {p : Blocks} (h : p.alloc.Ranged) (f : FeederNo) : (p.rebalanceFeeder f).alloc.Ranged := by
  obtain ⟨h1, h2, h3⟩ := h
  have s1 : (p.alloc.switchBudget f).ListsSound ∧ (p.alloc.switchBudget f).AllInRange ∧
      ∀ g, g ≠ f → (p.alloc.switchBudget f).Served g := by
    unfold Allocator.switchBudget
    split
    · obtain ⟨a1, a2⟩ := Allocator.setFeeder_lists h1 f
        { p.alloc.feeder f with budget := (p.alloc.feeder f).staged, switchPending := false } rfl rfl
      refine ⟨a1, h2, fun g hg => (h3 g).congr ?_ (Nat.le_of_eq ?_) (Nat.le_of_eq (a2 g).symm)⟩
      · rw [Allocator.feeder_setFeeder, if_neg (fun e => hg e.symm)]
      · unfold Allocator.ceiling
        rw [Allocator.feeder_setFeeder, if_neg (fun e => hg e.symm)]; rfl
    · exact ⟨h1, h2, fun g _ => h3 g⟩
  have s2 : ((p.withAlloc (p.alloc.switchBudget f)).cutFeeder f).alloc.ListsSound ∧
      ((p.withAlloc (p.alloc.switchBudget f)).cutFeeder f).alloc.AllInRange ∧
      ∀ g, g ≠ f → ((p.withAlloc (p.alloc.switchBudget f)).cutFeeder f).alloc.Served g := by
    unfold Blocks.cutFeeder
    split
    · rename_i hx
      obtain ⟨r1, r2, _, r4⟩ := Allocator.cut_ranged (a := p.alloc.switchBudget f) s1.1 s1.2.1 hx
      simp only [Blocks.raise_alloc, Blocks.withAlloc_alloc]
      exact ⟨r1, r2, fun g hg => r4 g hg (s1.2.2 g hg)⟩
    · exact s1
  obtain ⟨r1, r2, r3, r4⟩ := Allocator.serveQueue_ranged s2.1 s2.2.1 f
  obtain ⟨t1, t2, t3⟩ := Allocator.topUp_ranged r1 r2 f
  unfold Blocks.rebalanceFeeder
  dsimp only
  rw [Blocks.withAlloc_alloc, Blocks.withAlloc_alloc]
  refine ⟨t1, t2, fun g => t3 g ?_⟩
  by_cases e : g = f
  · subst e; exact r3
  · exact r4 g e (s2.2.2 g e)

theorem restartLevel_ranged (p : Blocks) : p.restartLevel.alloc.Ranged := by
  have t := Allocator.restart_ranged p.alloc (p.supply.restart p.bays.bays).actions
  rw [Blocks.restartLevel_alloc]
  exact t

/-- Every change keeps the grants in range and the queues served, under draws and max draws in range. -/
theorem change_ranged {p q : Blocks} (h : Change p q) (hd : p.DrawsSound) (hp : p.GrantsKept) : q.alloc.Ranged := by
  obtain ⟨hr, hm, ha⟩ := hp
  cases h with
  | configured b c h hc =>
    refine Blocks.setAction_ranged (by simpa using hr) ?_ (by simpa [Blocks.ActionsCopied] using ha) _ _
    intro b'
    rw [Blocks.bay_setBay]
    split
    · exact hc
    · exact hm b'
  | budget f n =>
    obtain ⟨a1, a2⟩ := Allocator.setFeeder_lists hr.1 f { p.alloc.feeder f with staged := n, switchPending := true } rfl rfl
    refine ⟨a1, hr.2.1, fun g => (hr.2.2 g).congr ?_ (Nat.le_of_eq (Allocator.ceiling_setFeeder _ _ _ _ (by rfl) (by rfl)))
      (Nat.le_of_eq (a2 g).symm)⟩
    show ((p.alloc.setFeeder f _).feeder g).queue = _
    rw [Allocator.feeder_setFeeder]
    split
    · rename_i e; subst e; rfl
    · rfl
  | reserve f n =>
    obtain ⟨a1, a2⟩ := Allocator.setFeeder_lists hr.1 f { p.alloc.feeder f with reserve := n } rfl rfl
    obtain ⟨b1, b2, b3, b4⟩ := Blocks.ceilingChanged_ranged
      (p := p.withAlloc (p.alloc.setFeeder f { p.alloc.feeder f with reserve := n })) a1 hr.2.1 f (old := p.alloc.ceiling f) (by
        rw [Blocks.withAlloc_alloc, a2, Allocator.feeder_setFeeder, if_pos rfl]
        exact hr.2.2 f)
    refine ⟨b1, b2, fun g => ?_⟩
    by_cases e : g = f
    · subst e; exact b3
    · refine b4.served a1 e ((hr.2.2 g).congr ?_ (Nat.le_of_eq ?_) (Nat.le_of_eq (a2 g).symm))
      · rw [Blocks.withAlloc_alloc, Allocator.feeder_setFeeder, if_neg (fun q => e q.symm)]
      · unfold Allocator.ceiling
        rw [Blocks.withAlloc_alloc, Allocator.feeder_setFeeder, if_neg (fun q => e q.symm)]; rfl
  | groupLevel g l =>
    refine Blocks.recomputeMembers_ranged ⟨?_, ?_, ?_⟩ _
    · simpa using hr
    · exact hm.congr fun _ => rfl
    · simpa [Blocks.ActionsCopied] using ha
  | switched => exact Blocks.setSupply_ranged hr hm _
  | restarted => exact restartLevel_ranged p
  | rebuilt =>
    have t : (p.alloc.rebuild p.configs).Ranged := Allocator.rebuild_ranged hr.2.1 fun b => hm b
    simpa [Blocks.restartAllocation] using t
  | settleCount =>
    unfold Blocks.supplyBoundary
    dsimp only
    (repeat' split)
    · exact hr
    · refine Blocks.setSupply_ranged ?_ ?_ _
      · simpa using hr
      · exact hm.congr fun _ => rfl
    · simpa using hr
    · simpa using hr
  | rebalanced =>
    unfold Blocks.allocBoundary
    split
    · exact hr
    · exact foldl_keeps (fun q : Blocks => q.alloc.Ranged) _ _ _ (by simpa using hr) fun q hq f _ => Blocks.rebalanceFeeder_ranged hq f
  | fall =>
    unfold Blocks.mainsOkFall
    dsimp only
    (repeat' split)
    · refine Blocks.setSupply_ranged ?_ ?_ _
      · simpa using hr
      · exact hm.congr fun _ => rfl
    all_goals simpa using hr
  | dr x =>
    refine Blocks.recomputeMembers_ranged ⟨?_, ?_, ?_⟩ _
    · simpa using hr
    · exact hm.congr fun _ => rfl
    · simpa [Blocks.ActionsCopied] using ha
  | alarm x =>
    refine Blocks.recomputeMembers_ranged ⟨?_, ?_, ?_⟩ _
    · simpa using hr
    · exact hm.congr fun _ => rfl
    · simpa [Blocks.ActionsCopied] using ha
  | request b n =>
    unfold Blocks.takeRequest Blocks.takeAlloc
    split
    · exact hr
    · rename_i m rest he
      split
      · rename_i e
        subst e
        simp only [Blocks.withAlloc_alloc]
        refine Allocator.request_ranged hr b (hd.2 b n ?_) (hm b)
        rw [he]; simp
      · exact hr
  | release b =>
    unfold Blocks.takeRelease Blocks.takeAlloc
    (repeat' split)
    · exact hr
    · simpa using Allocator.release_ranged hr _
    · exact hr
  | _ => simpa using hr

/-- Every change keeps the grants sound. -/
theorem change_grantsSound {p q : Blocks} (h : Change p q) (hp : p.GrantsSound) : q.GrantsSound := by
  obtain ⟨hb, ha, hl, ⟨hr, hq⟩, hm, hd⟩ := hp
  obtain ⟨r1, r2, r3⟩ := change_ranged h hd ⟨⟨hl, hr, hq⟩, hm, ha⟩
  exact ⟨change_bookSound h hb, change_actionsCopied h ha, r1, ⟨r2, r3⟩, change_maxDraws h hm, change_draws hb.unmarked h hd⟩

end Sys2Proof.Machine
end

