-- ==== Sys2Proof/Laws/Placing.lean ====
section
/-! SUPPORT. The allocator's operations in the words of the statements: placing a session, giving everything back, resuming
and rebuilding, and a change of effective action (R120, R125, R129, R132). -/

namespace Sys2Proof.Machine

theorem Action.runs_false {x : Action} : x.runs = false ↔ x = .stop ∨ x = .close := by cases x <;> simp [Action.runs]

theorem Action.runs_true {x : Action} : x.runs = true ↔ x = .continue ∨ x = .trickle := by cases x <;> simp [Action.runs]

theorem Allocator.ext_get {a d : Allocator} (h1 : ∀ f, a.feeder f = d.feeder f) (h2 : ∀ b, a.session b = d.session b)
    (h3 : ∀ b : BayNo, a.posts[b] = d.posts[b]) (h4 : a.supply = d.supply) (h5 : a.actions = d.actions) : a = d := by
  cases a; cases d
  obtain rfl := h4
  obtain rfl := h5
  congr 1
  · exact Vector.ext fun i hi => h1 ⟨i, hi⟩
  · exact Vector.ext fun i hi => h2 ⟨i, hi⟩
  · exact Vector.ext fun i hi => h3 ⟨i, hi⟩

namespace Allocator

/-- Placing a session is R120's table. -/
theorem place_placedBy (a : Allocator) (b : BayNo) (m : Nat) (x : Session) : a.place b m x = a.placedBy b m x := by
  unfold place placedBy
  dsimp only
  have hc : (a.actions[b] = .stop ∨ a.actions[b] = .close ∨ a.supply = .halt) ↔ ((a.action b).runs = false ∨ a.supply = .halt) := by
    rw [Action.runs_false, or_assoc]; rfl
  by_cases h1 : (a.action b).runs = false ∨ a.supply = .halt
  · rw [if_pos h1, if_pos (hc.2 h1)]
    rfl
  · rw [if_neg h1, if_neg (fun e => h1 (hc.1 e))]
    by_cases h2 : (a.feeder x.feeder).queue = [] ∧ Config.leastGrant ≤ a.headroom x.feeder
    · rw [if_pos h2, if_pos (show _ ∧ 6 ≤ a.ceiling x.feeder - a.granted x.feeder from h2)]
      rfl
    · rw [if_neg h2, if_neg (show ¬ (_ ∧ 6 ≤ a.ceiling x.feeder - a.granted x.feeder) from h2)]
      rfl

/-- What placing makes of a session depends on its feeder and its draw alone. -/
theorem placedBy_congr (a : Allocator) (b : BayNo) (m : Nat) {x y : Session} (hf : x.feeder = y.feeder) (hd : x.draw = y.draw) :
    a.placedBy b m x = a.placedBy b m y := by
  cases x; cases y
  cases hf; cases hd
  rfl

/-- Where a request is taken by a table entry of its own. -/
theorem resumeOne_resumedBy (c : BayNo → BayConfig) (a : Allocator) (b : BayNo) :
    resumeOne c Action.runs a b = resumedBy (fun b => (c b).maxDraw) a b := by
  unfold resumeOne resumedBy
  cases a.session b with
  | none => rfl
  | some x =>
    dsimp only
    have hc : (x.phase = .suspended ∧ Action.runs (a.action b) = true) ↔
        (x.phase = .suspended ∧ (a.actions[b] = .continue ∨ a.actions[b] = .trickle)) := by
      rw [Action.runs_true]; rfl
    by_cases h : x.phase = .suspended ∧ Action.runs (a.action b) = true
    · rw [if_pos h, if_pos (hc.1 h), place_placedBy]
    · rw [if_neg h, if_neg (fun e => h (hc.2 e))]

/-- The exit from HALT (R125). -/
theorem resumeAll_resumedBy (a : Allocator) (c : BayNo → BayConfig) :
    a.resumeAll c = (List.finRange 96).foldl (resumedBy fun b => (c b).maxDraw) a := by
  unfold resumeAll
  have e : resumeOne c Action.runs = resumedBy fun b => (c b).maxDraw := by
    funext a b; exact resumeOne_resumedBy c a b
  rw [e]

/-- The post commands of a fold of suspensions. -/
theorem suspend_fold_posts (xs : List BayNo) (q : Allocator) (b : BayNo)
    (hb : b ∈ xs ∨ q.posts[b] = { enabled := false, limit := 0 }) :
    (xs.foldl suspendOne q).posts[b] = { enabled := false, limit := 0 } := by
  induction xs generalizing q with
  | nil => simpa using hb
  | cons c xs ih =>
    refine ih _ ?_
    have one : (suspendOne q c).posts[b] = if c = b then { enabled := false, limit := 0 } else q.posts[b] := by
      refine (posts_putSession _ _ _ _).trans ?_
      cases q.session c <;> rfl
    rw [one]
    by_cases e : c = b
    · exact .inr (if_pos e)
    · rw [if_neg e]
      rcases hb with hb | hb
      · exact .inl ((List.mem_cons.1 hb).resolve_left fun h => e h.symm)
      · exact .inr hb

/-- HALT entry and the first half of a rebuild (R125, R132). -/
theorem suspendAll_givenBack (a : Allocator) : a.suspendAll = a.givenBack := by
  obtain ⟨h1, h2⟩ := a.suspendAll_done
  refine ext_get (fun f => ?_) (fun b => ?_) (fun b => ?_) (by simp [givenBack]) (by simp [givenBack])
  · rw [h2]; simp [givenBack, feeder]
  · rw [h1]; simp [givenBack, session]
  · have e : a.suspendAll.posts[b] = { enabled := false, limit := 0 } :=
      suspend_fold_posts (List.finRange Config.bayCount) ((List.finRange Config.feederCount).foldl clearLists a) b
        (.inl (List.mem_finRange b))
    rw [e]
    simp [givenBack]

/-- A session stays what it is while sessions of other bays are placed. -/
theorem placedBy_session (a : Allocator) (b c : BayNo) (m : Nat) (x : Session) (h : b ≠ c) :
    (a.placedBy b m x).session c = a.session c := by
  have e : ∀ o, (setAt a.sessions b o)[c] = a.sessions[c] := fun o => (setAt_get _ _ _ _).trans (if_neg h)
  unfold placedBy
  dsimp only
  split
  · exact e _
  split
  · exact e _
  · exact e _

/-- RESTART ALLOCATION (R132): each session is placed with the feeder and draw it had. -/
theorem rebuild_placedBy (a : Allocator) (c : BayNo → BayConfig) : a.rebuild c =
    (List.finRange 96).foldl
      (fun d b => match a.session b with
        | none => d
        | some x => d.placedBy b (c b).maxDraw x) a.givenBack := by
  have key : ∀ (xs : List BayNo), xs.Nodup → ∀ d : Allocator,
      (∀ b ∈ xs, d.session b = (a.session b).map fun x => { x with grant := 0, phase := .suspended }) →
      xs.foldl (resumeOne c fun _ => true) d = xs.foldl
        (fun d b => match a.session b with
          | none => d
          | some x => d.placedBy b (c b).maxDraw x) d := by
    intro xs
    induction xs with
    | nil => intro _ d _; rfl
    | cons b xs ih =>
      intro hn d hd
      obtain ⟨hb, hn⟩ := List.nodup_cons.1 hn
      simp only [List.foldl_cons]
      have one : resumeOne c (fun _ => true) d b = match a.session b with
          | none => d
          | some x => d.placedBy b (c b).maxDraw x := by
        unfold resumeOne
        rw [hd b (by simp)]
        cases a.session b with
        | none => rfl
        | some x =>
          dsimp only [Option.map_some]
          rw [if_pos ⟨rfl, rfl⟩, place_placedBy]
          exact placedBy_congr _ _ _ rfl rfl
      rw [one]
      refine ih hn _ fun e he => ?_
      have hne : b ≠ e := fun q => hb (q ▸ he)
      rw [← hd e (by simp [he])]
      split
      · rfl
      · exact placedBy_session _ _ _ _ _ hne
  unfold rebuild
  rw [suspendAll_givenBack]
  refine key _ (List.nodup_finRange _) _ fun b _ => ?_
  simp [givenBack, session]

/-- A change of effective action at the allocator (R129). -/
theorem curtail_curtailed {a : Allocator} (h : a.ListsSound) (b : BayNo) (new : Action) (m : Nat) :
    a.Curtailed (a.curtail b new m) b new m := by
  rintro e rfl
  have h' : { a with actions := setAt a.actions b new }.ListsSound := h
  have act : { a with actions := setAt a.actions b new }.action b = new := setAt_same _ _ _
  refine ⟨fun hs => ?_, fun x y hs hy => ?_⟩
  · unfold curtail
    dsimp only
    have : { a with actions := setAt a.actions b new }.session b = none := hs
    rw [this]
  have hcap : y = { x with cap := capFor new x.draw m } := hy
  have hs' : { a with actions := setAt a.actions b new }.session b = some x := hs
  unfold curtail
  dsimp only
  rw [hs']
  subst hcap
  dsimp only
  have old : a.action b = a.actions[b] := rfl
  refine ⟨fun ho hn hp => ?_, fun ho hn hp => ?_, fun ho hn hp => ?_, fun hk => ?_⟩
  · rw [old, ho]
    subst hn
    rw [if_neg (by simp [Action.runs]), if_neg (by simp [Action.runs]), if_pos ⟨rfl, hp⟩]
    refine ⟨_, serveQueue_served ?_ _, ?_⟩
    · exact (adjust_sound h' hs' (x := { x with cap := capFor .trickle x.draw m, grant := min x.grant Config.leastGrant }) rfl rfl
        fun hn => absurd hp hn).1
    · simp only [putSession, postFor, hp, if_true]
      rfl
  · have h1 : (a.action b).runs = true := Action.runs_true.2 ho
    have h2 : new.runs = false := Action.runs_false.2 hn
    rw [h1, h2, if_neg (by simp), if_pos ⟨rfl, rfl, hp⟩]
    refine ⟨_, serveQueue_served ?_ _, rfl⟩
    exact (leave_sound h' hs' (o := some { x with cap := capFor new x.draw m, grant := 0, phase := .suspended }) fun z hz => by cases hz; exact ⟨rfl, rfl⟩).1
  · have h1 : (a.action b).runs = false := Action.runs_false.2 ho
    have h2 : new.runs = true := Action.runs_true.2 hn
    rw [h1, h2, if_pos ⟨rfl, rfl, hp⟩, place_placedBy]
    exact placedBy_congr _ _ _ rfl rfl
  · have n1 : ¬((a.action b).runs = false ∧ new.runs = true ∧ x.phase = .suspended) := by
      rintro ⟨q1, q2, q3⟩
      rw [old, Action.runs_false] at q1
      rw [Action.runs_true] at q2
      rcases hk with ⟨k1, _⟩ | ⟨k1, _⟩ | ⟨k1, _⟩
      · rw [k1] at q1; simp at q1
      · rw [k1] at q1; simp at q1
      · rcases k1 with k1 | k1 <;> rw [k1] at q2 <;> simp at q2
    have n2 : ¬((a.action b).runs = true ∧ new.runs = false ∧ x.phase ≠ .suspended) := by
      rintro ⟨q1, q2, q3⟩
      rcases hk with ⟨_, k1⟩ | ⟨_, k1, _⟩ | ⟨_, k1⟩
      · rw [k1] at q2; cases q2
      · rw [k1] at q2; cases q2
      · exact q3 k1
    have n3 : ¬(new = .trickle ∧ x.phase = .charging) := by
      rintro ⟨q1, q2⟩
      rcases hk with ⟨_, k1⟩ | ⟨_, _, k1⟩ | ⟨k1, _⟩
      · rw [k1] at q1; cases q1
      · exact k1 q2
      · rw [q1] at k1; simp at k1
    rw [if_neg n1, if_neg n2, if_neg n3]
    simp only [putSession, postFor]

end Allocator

end Sys2Proof.Machine
end

