-- ==== Sys2Proof/Laws/Ports.lean ====
section
/-! SUPPORT. What each effect does to the queue, the ports and the RESET line; step_keeps: a property that every change of the
blocks keeps is kept by every step. -/

namespace Sys2Proof.Machine

theorem effect_pending {s t} (h : Effect s t) : t.pending = s.pending := by
  cases h <;> try rfl
  all_goals first
    | (rename_i port r a _ _; cases port <;> rfl)
    | (unfold siteWrite; dsimp only; (repeat' split) <;> rfl)
    | (unfold siteRead; dsimp only; (repeat' split) <;> rfl)
    | (unfold siteBadTransfer; (repeat' split) <;> rfl)
    | (unfold rampFrame; dsimp only; (repeat' split) <;> rfl)
    | (unfold rampByteTimeout; (repeat' split) <;> rfl)
    | (unfold rampResponseSent; (repeat' split) <;> rfl)
    | (unfold resetRelease; dsimp only; (repeat' split) <;> rfl)

theorem effect_ports {s t} (h : Effect s t) (hp : s.PortsSound) : t.PortsSound := by
  cases h with
  | nothing => exact hp
  | turn port r a hd hc => cases port <;> simp_all [State.PortsSound, servedSlot]
  | relocation p hd hc => exact hp
  | blocks p hl hc => exact hp
  | siteWrite bytes hl =>
    unfold siteWrite; dsimp only
    split
    · exact hp
    · split
      · exact hp
      · simp_all [State.PortsSound, servedSlot]
  | siteRead n hl =>
    unfold siteRead; dsimp only
    split
    · split
      · simp_all [State.PortsSound, servedSlot]
      · simp_all [State.PortsSound, servedSlot]
    · simp_all [State.PortsSound, servedSlot]
  | siteBadTransfer => unfold siteBadTransfer; split <;> exact hp
  | rampFrame bytes hl =>
    unfold rampFrame; dsimp only
    split
    · split
      · exact hp
      · split
        · exact hp
        · simp_all [State.PortsSound, servedSlot]
    · exact hp
  | rampByteTimeout => unfold rampByteTimeout; split <;> exact hp
  | rampResponseSent =>
    unfold rampResponseSent
    split
    · simp_all [State.PortsSound, servedSlot]
    · exact hp
  | rampFrameStart => exact hp
  | reset => exact ⟨rfl, rfl, rfl⟩
  | released m d a => unfold resetRelease; dsimp only; split <;> exact hp

theorem effect_resetHeld {s t} (h : Effect s t) (hp : s.ResetHeld) : t.ResetHeld := by
  have low : ∀ port r, s.turnDue port r = true → s.resetLow = false := by
    intro port r h; simp [State.turnDue] at h; exact h.1.1
  have low' : s.relocationDue = true → s.resetLow = false := by
    intro h; simp [State.relocationDue] at h; exact h.1
  cases h with
  | nothing => exact hp
  | turn port r a hd hc => intro h; simp [low _ _ hd] at h
  | relocation p hd hc => intro h; simp [State.finishStep, low' hd] at h
  | reset => intro _; exact ⟨rfl, rfl, rfl, rfl⟩
  | released m d a => unfold resetRelease; dsimp only; split <;> first | exact hp | (intro h; simp at h)
  | siteWrite bytes hl => intro h; unfold siteWrite at h; dsimp only at h; (repeat' split at h) <;> simp_all [State.raise]
  | siteRead bytes hl => intro h; unfold siteRead at h; dsimp only at h; (repeat' split at h) <;> simp_all
  | siteBadTransfer bytes hl => intro h; unfold siteBadTransfer at h; (repeat' split at h) <;> simp_all [State.raise]
  | rampFrame bytes hl => intro h; unfold rampFrame at h; dsimp only at h; (repeat' split at h) <;> simp_all [State.raise]
  | rampByteTimeout hl => intro h; unfold rampByteTimeout at h; (repeat' split at h) <;> simp_all [State.raise]
  | rampResponseSent hl => intro h; unfold rampResponseSent at h; (repeat' split at h) <;> simp_all
  | rampFrameStart hl => intro h; unfold rampFrameStart at h; simp_all
  | blocks p hl hc => intro h; simp_all

/-- The blocks after any effect: a change of those before it, or the power-on state with the lines as sampled. -/
theorem effect_change {s t} (h : Effect s t) (hp : s.ResetHeld) :
    Change s.blocks t.blocks ∨ ∃ m d a, t.blocks = Blocks.powerOn m d a := by
  cases h with
  | nothing => exact .inl (.nothing _)
  | turn port r a hd hc => exact .inl (by simpa using hc)
  | relocation p hd hc => exact .inl hc
  | blocks p hl hc => exact .inl hc
  | siteWrite bytes hl =>
    left; unfold siteWrite; dsimp only
    (repeat' split) <;> first | exact .nothing _ | exact .raised _ _ _
  | siteRead n hl =>
    left; unfold siteRead; dsimp only
    (repeat' split) <;> exact .nothing _
  | siteBadTransfer bytes hl =>
    left; unfold siteBadTransfer
    split <;> first | exact .nothing _ | exact .raised _ _ _
  | rampFrame bytes hl =>
    left; unfold rampFrame; dsimp only
    (repeat' split) <;> first | exact .nothing _ | exact .raised _ _ _
  | rampByteTimeout =>
    left; unfold rampByteTimeout
    split <;> first | exact .nothing _ | exact .raised _ _ _
  | rampResponseSent => left; unfold rampResponseSent; split <;> exact .nothing _
  | rampFrameStart => exact .inl (.nothing _)
  | reset => exact .inr ⟨false, false, false, rfl⟩
  | released m d a =>
    unfold resetRelease; dsimp only
    split
    · rename_i hl
      right
      refine ⟨m, d, a, ?_⟩
      obtain ⟨e, _⟩ := hp hl
      rw [e]; rfl
    · exact .inl (.nothing _)

/-- A property that every change keeps from blocks where `Q` holds, and that the power-on state has, is kept by every step
from such blocks. -/
theorem step_keeps_where {P Q : Blocks → Prop} (keep : ∀ {p q}, Change p q → Q p → P p → P q)
    (powerOn : ∀ m d a, P (Blocks.powerOn m d a)) {s t : State} (h : s.ResetHeld ∧ P s.blocks) (hq : Q s.blocks)
    (ht : step s = .next t) : t.ResetHeld ∧ P t.blocks := by
  obtain ⟨u, rest, hu, he⟩ := step_effect s
  rw [hu] at ht
  cases ht
  have hr : State.ResetHeld { s with pending := rest } := h.1
  refine ⟨effect_resetHeld he hr, ?_⟩
  rcases effect_change he hr with hc | ⟨m, d, a, e⟩
  · exact keep hc hq h.2
  · rw [e]; exact powerOn m d a

/-- A property every change keeps and the power-on state has is kept by every step. -/
theorem step_keeps {P : Blocks → Prop} (keep : ∀ {p q}, Change p q → P p → P q)
    (powerOn : ∀ m d a, P (Blocks.powerOn m d a)) {s t : State} (h : s.ResetHeld ∧ P s.blocks)
    (ht : step s = .next t) : t.ResetHeld ∧ P t.blocks :=
  step_keeps_where (Q := fun _ => True) (fun hc _ => keep hc) powerOn h trivial ht

end Sys2Proof.Machine
end

