-- ==== Sys2Proof/Laws/Timelines.lean ====
section
/-! SUPPORT. The gap rule on the timelines: what the checks of a booking, a relocation step and an EXTEND give, and that every
change keeps the timelines spaced (R24, R25, R26). -/

namespace Sys2Proof.Machine

/-! ## Insertion in ascending start -/

/-- A slot inserted by its start into a list that ascends, in relation to those before and after it. -/
theorem insertByStart_pairwise {R : Slot → Slot → Prop} {f : Slot → Nat} {s : Nat} {sl : Slot} {xs : List Slot}
    (h : xs.Pairwise R) (hs : xs.Pairwise fun x y => f x ≤ f y) (hb : ∀ x ∈ xs, f x ≤ s → R x sl)
    (ha : ∀ x ∈ xs, s < f x → R sl x) : (insertByStart f s sl xs).Pairwise R := by
  induction xs with
  | nil => simp [insertByStart]
  | cons x xs ih =>
    obtain ⟨h1, h2⟩ := List.pairwise_cons.1 h
    obtain ⟨s1, s2⟩ := List.pairwise_cons.1 hs
    unfold insertByStart
    split
    · rename_i hx
      refine List.pairwise_cons.2 ⟨fun y hy => ?_, ih h2 s2 (fun y hy => hb y (by simp [hy])) fun y hy => ha y (by simp [hy])⟩
      rcases mem_insertByStart.1 hy with e | e
      · subst e; exact hb x (by simp) hx
      · exact h1 y e
    · rename_i hx
      refine List.pairwise_cons.2 ⟨fun y hy => ?_, h⟩
      rcases List.mem_cons.1 hy with e | e
      · subst e; exact ha y (by simp) (by omega)
      · exact ha y (by simp [e]) (by have := s1 y e; omega)

/-- The last of a list stands after each other of it. -/
theorem pairwise_getLast {α : Type} {R : α → α → Prop} {xs : List α} {l : α} (h : xs.Pairwise R) (hl : xs.getLast? = some l)
    {x : α} (hx : x ∈ xs) : x = l ∨ R x l := by
  obtain ⟨ys, rfl⟩ := List.getLast?_eq_some_iff.1 hl
  rcases List.mem_append.1 hx with e | e
  · exact .inr ((List.pairwise_append.1 h).2.2 x e l (by simp))
  · exact .inl (by simpa using e)

/-- The head of a list stands before each other of it. -/
theorem pairwise_head {α : Type} {R : α → α → Prop} {xs : List α} {l : α} (h : xs.Pairwise R) (hl : xs.head? = some l)
    {x : α} (hx : x ∈ xs) : x = l ∨ R l x := by
  cases xs with
  | nil => cases hl
  | cons y ys =>
    simp at hl; subst hl
    rcases List.mem_cons.1 hx with e | e
    · exact .inl e
    · exact .inr ((List.pairwise_cons.1 h).1 x e)

/-- What the gap rule of R25 gives against every record of a spaced timeline. -/
theorem fitsGap_spec {gap start len : Nat} {tl : List Record} (h : fitsGap gap start len tl = true)
    (hp : tl.Pairwise fun x y => x.endMinute + gap ≤ y.start) {x : Record} (hx : x ∈ tl) :
    (x.start ≤ start → x.endMinute + gap ≤ start) ∧ (start < x.start → start + len + gap ≤ x.start) := by
  simp only [fitsGap, Bool.and_eq_true] at h
  constructor
  · intro hs
    have hm : x ∈ tl.filter fun r => decide (r.start ≤ start) := by simp [hx, hs]
    obtain ⟨l, hl⟩ : ∃ l, (tl.filter fun r => decide (r.start ≤ start)).getLast? = some l := by
      cases hq : (tl.filter fun r => decide (r.start ≤ start)).getLast? with
      | none => rw [List.getLast?_eq_none_iff] at hq; rw [hq] at hm; cases hm
      | some l => exact ⟨l, rfl⟩
    have h1 := h.1
    rw [hl] at h1
    have h2 : l.endMinute + gap ≤ start := by simpa using h1
    have h3 : l ∈ tl.filter fun r => decide (r.start ≤ start) := List.mem_of_getLast? hl
    rcases pairwise_getLast (hp.filter _) hl hm with e | e
    · subst e; exact h2
    · have h4 : l.start ≤ start := by simpa using (List.mem_filter.1 h3).2
      omega
  · intro hs
    have hm : x ∈ tl.filter fun r => decide (start < r.start) := by simp [hx, hs]
    obtain ⟨l, hl⟩ : ∃ l, (tl.filter fun r => decide (start < r.start)).head? = some l := by
      cases hq : (tl.filter fun r => decide (start < r.start)).head? with
      | none => rw [List.head?_eq_none_iff] at hq; rw [hq] at hm; cases hm
      | some l => exact ⟨l, rfl⟩
    have h1 := h.2
    rw [hl] at h1
    have h2 : start + len + gap ≤ l.start := by simpa using h1
    rcases pairwise_head (hp.filter _) hl hm with e | e
    · subst e; exact h2
    · unfold Record.endMinute at e; omega

/-! ## Timelines as lists of slots -/

/-- The relation of the gap rule, between slots. -/
def Book.Apart (k : Book) (gap : Nat) (a b : Slot) : Prop :=
  ∀ x, k.rec? a = some x → ∀ y, k.rec? b = some y → x.endMinute + gap ≤ y.start

theorem Book.timeline_pairwise (k : Book) (gap : Nat) (b : BayNo) :
    ((k.timeline b).Pairwise fun x y => x.endMinute + gap ≤ y.start) ↔ (k.slotsOn b).Pairwise (k.Apart gap) := by
  unfold Book.timeline
  rw [List.pairwise_filterMap]
  rfl

/-- A sound book's timeline lists slots that hold records. -/
theorem Book.Sound.holds {k : Book} (h : k.Sound) {b : BayNo} {sl : Slot} (hm : sl ∈ k.slotsOn b) :
    ∃ r, k.rec? sl = some r ∧ r.state ≠ .settled ∧ r.bay = b := (h.2.2.2.2.2.1 b sl).1 hm

/-- The starts of a spaced timeline ascend, in a sound book. -/
theorem Book.Sound.ascending {k : Book} (h : k.Sound) {gap : Nat} (b : BayNo) (hp : (k.slotsOn b).Pairwise (k.Apart gap)) :
    (k.slotsOn b).Pairwise fun x y => k.startOf x ≤ k.startOf y := by
  refine hp.imp_of_mem fun {x y} hx hy hR => ?_
  obtain ⟨rx, h1, _⟩ := h.holds hx
  obtain ⟨ry, h2, _⟩ := h.holds hy
  have := hR rx h1 ry h2
  simp only [Book.startOf, h1, h2, Option.map_some, Option.getD_some]
  unfold Record.endMinute at this
  omega

theorem Book.Spaced.congr {k l : Book} {gap : Nat} (h : k.Spaced gap) (hp : l.pool = k.pool) (ht : l.timelines = k.timelines) :
    l.Spaced gap := by
  have hr : l.rec? = k.rec? := by funext sl; simp [Book.rec?, hp]
  have hb : l.slotsOn = k.slotsOn := by funext b; simp [Book.slotsOn, ht]
  have htl : l.timeline = k.timeline := by funext b; simp [Book.timeline, hr, hb]
  simpa only [Book.Spaced, hr, hb, htl] using h

/-- The gap rule of a slot list read in another pool that has the same windows. -/
theorem Apart.mono {k l : Book} {gap : Nat} {xs : List Slot} (h : xs.Pairwise (k.Apart gap))
    (hw : ∀ sl ∈ xs, ∀ x, l.rec? sl = some x → ∃ y, k.rec? sl = some y ∧ y.start = x.start ∧ x.endMinute ≤ y.endMinute) :
    xs.Pairwise (l.Apart gap) := by
  refine h.imp_of_mem fun {a b} ha hb hR => ?_
  intro x hx y hy
  obtain ⟨x', h1, h2, h3⟩ := hw a ha x hx
  obtain ⟨y', h4, h5, h6⟩ := hw b hb y hy
  have := hR x' h1 y' h4
  omega

/-- A record whose window fits joins a spaced timeline. -/
theorem Book.join_apart {k l : Book} {gap : Nat} (h : k.Sound) {b : BayNo} {sl : Slot} {r : Record}
    (hp : (k.slotsOn b).Pairwise (k.Apart gap)) (hn : sl ∉ k.slotsOn b)
    (hf : fitsGap gap r.start r.length (k.timeline b) = true)
    (hl : ∀ x, l.rec? x = if sl = x then some r else k.rec? x) :
    (insertByStart l.startOf r.start sl (k.slotsOn b)).Pairwise (l.Apart gap) := by
  have same : ∀ x ∈ k.slotsOn b, l.rec? x = k.rec? x := fun x hx => by
    rw [hl, if_neg]; rintro rfl; exact hn hx
  have tl : (k.timeline b).Pairwise fun x y => x.endMinute + gap ≤ y.start := (k.timeline_pairwise gap b).2 hp
  have mem : ∀ x ∈ k.slotsOn b, ∀ y, k.rec? x = some y → y ∈ k.timeline b := fun x hx y hy =>
    List.mem_filterMap.2 ⟨x, hx, hy⟩
  have hsl : l.rec? sl = some r := by rw [hl, if_pos rfl]
  refine insertByStart_pairwise ?_ ?_ (fun x hx hs => ?_) fun x hx hs => ?_
  · exact Apart.mono hp fun x hx y hy => ⟨y, by rw [← same x hx]; exact hy, rfl, Nat.le_refl _⟩
  · refine (h.ascending b hp).imp_of_mem fun {x y} hx hy hR => ?_
    simpa only [Book.startOf, same x hx, same y hy] using hR
  · intro y hy z hz
    rw [hsl] at hz; cases hz
    rw [same x hx] at hy
    have hs' : y.start ≤ r.start := by simpa [Book.startOf, same x hx, hy] using hs
    exact (fitsGap_spec hf tl (mem x hx y hy)).1 hs'
  · intro z hz y hy
    rw [hsl] at hz; cases hz
    rw [same x hx] at hy
    have hs' : r.start < y.start := by simpa [Book.startOf, same x hx, hy] using hs
    have := (fitsGap_spec hf tl (mem x hx y hy)).2 hs'
    unfold Record.endMinute
    omega

theorem insertByStart_length (f : Slot → Nat) (s : Nat) (sl : Slot) (xs : List Slot) :
    (insertByStart f s sl xs).length = xs.length + 1 := by
  simpa using (insertByStart_perm f s sl xs).length_eq

/-! ## Each operation -/

/-- What spaces the timelines, said of slots. -/
theorem Book.spaced_iff (k : Book) (gap : Nat) : k.Spaced gap ↔ (∀ b : BayNo, (k.slotsOn b).Pairwise (k.Apart gap)) ∧
    (∀ b : BayNo, (k.slotsOn b).length ≤ Config.timelineSize) ∧
    (∀ (sl : Slot) (r : Record), k.rec? sl = some r → 15 ≤ r.length ∧ r.length ≤ 720) := by
  simp only [Book.Spaced, Book.timeline_pairwise]

theorem Book.Spaced.reach {gap : Nat} {k l : Book} (h : BookReach gap k l) (hk : k.Sound) (hs : k.Spaced gap) : l.Spaced gap := by
  induction h with
  | refl => exact hs
  | report k b x => exact hs.congr rfl rfl
  | put k sl r r' h1 h2 h3 h4 h5 h6 h7 h8 h9 _ =>
    rw [Book.spaced_iff] at hs ⊢
    obtain ⟨s1, s2, s3⟩ := hs
    have e : r'.endMinute = r.endMinute := by simp [Record.endMinute, h7, h8]
    refine ⟨fun b => Apart.mono (s1 b) fun x hx y hy => ?_, s2, fun x y hy => ?_⟩
    · rw [Book.rec_put] at hy
      split at hy
      · rename_i e'; subst e'; cases hy; exact ⟨r, h1, h7.symm, by omega⟩
      · exact ⟨y, hy, rfl, Nat.le_refl _⟩
    · rw [Book.rec_put] at hy
      split at hy
      · cases hy; rw [h8]; exact s3 sl r h1
      · exact s3 x y hy
  | settle k sl o c m =>
    by_cases hx : ∀ r, k.rec? sl = some r → r.state = .settled
    · rw [Book.settle_none hx]; exact hs
    · simp only [not_forall] at hx
      obtain ⟨r, hr, hl⟩ := hx
      obtain ⟨_, _, _, _, _, rd, tl⟩ := Book.settle_spec hr hl o c m
      rw [Book.spaced_iff] at hs ⊢
      obtain ⟨s1, s2, s3⟩ := hs
      have w : ∀ x y, (k.settle sl o c m).rec? x = some y →
          ∃ z, k.rec? x = some z ∧ z.start = y.start ∧ y.endMinute ≤ z.endMinute ∧ z.length = y.length := fun x y hy => by
        rw [rd] at hy
        split at hy
        · rename_i e'; subst e'; cases hy; exact ⟨r, hr, rfl, Nat.le_refl _, rfl⟩
        · exact ⟨y, hy, rfl, Nat.le_refl _, rfl⟩
      refine ⟨fun b => ?_, fun b => ?_, fun x y hy => ?_⟩
      · rw [tl]
        have : (k.slotsOn b).Pairwise ((k.settle sl o c m).Apart gap) := Apart.mono (s1 b) fun x _ y hy =>
          let ⟨z, h1, h2, h3, _⟩ := w x y hy; ⟨z, h1, h2, h3⟩
        split
        · exact this.filter _
        · exact this
      · rw [tl]
        split
        · exact Nat.le_trans (List.length_filter_le _ _) (s2 b)
        · exact s2 b
      · obtain ⟨z, h1, _, _, h4⟩ := w x y hy
        rw [← h4]; exact s3 x z h1
  | move k sl r b hr hl hb hroom hfit =>
    rw [Book.spaced_iff] at hs ⊢
    obtain ⟨s1, s2, s3⟩ := hs
    have rd : ∀ x, (k.move sl r b).rec? x = if sl = x then some (r.movedTo b) else k.rec? x := fun x => Book.rec_put k sl x _
    have hnb : sl ∉ k.slotsOn b := fun hm => by
      obtain ⟨r', hr', _, hb'⟩ := hk.holds hm
      rw [hr] at hr'; cases hr'; exact hb hb'.symm
    have tl : ∀ c, (k.move sl r b).slotsOn c =
        if b = c then insertByStart ((k.leaveTimeline r.bay sl).put sl (r.movedTo b)).startOf r.start sl (k.slotsOn b)
        else if r.bay = c then (k.slotsOn r.bay).filter (· != sl) else k.slotsOn c := fun c => by
      simp only [Book.move, Book.slotsOn_joinTimeline, Book.slotsOn_put, Book.slotsOn_leaveTimeline]
      split
      · rename_i e; rw [if_neg (fun x => hb x.symm)]
      · rfl
    have w : ∀ x y, (k.move sl r b).rec? x = some y →
        ∃ z, k.rec? x = some z ∧ z.start = y.start ∧ y.endMinute ≤ z.endMinute ∧ z.length = y.length := fun x y hy => by
      rw [rd] at hy
      split at hy
      · rename_i e'; subst e'; cases hy; exact ⟨r, hr, rfl, Nat.le_refl _, rfl⟩
      · exact ⟨y, hy, rfl, Nat.le_refl _, rfl⟩
    have keep : ∀ c, (k.slotsOn c).Pairwise ((k.move sl r b).Apart gap) := fun c => Apart.mono (s1 c) fun x _ y hy =>
      let ⟨z, h1, h2, h3, _⟩ := w x y hy; ⟨z, h1, h2, h3⟩
    refine ⟨fun c => ?_, fun c => ?_, fun x y hy => ?_⟩
    · rw [tl]
      split
      · exact Book.join_apart (r := r.movedTo b) hk (s1 b) hnb hfit rd
      · split
        · exact (keep _).filter _
        · exact keep _
    · rw [tl]
      split
      · rw [insertByStart_length]
        have : (k.slotsOn b).length < Config.timelineSize := by simpa [Book.bayHasRoom] using hroom
        omega
      · split
        · exact Nat.le_trans (List.length_filter_le _ _) (s2 _)
        · exact s2 _
    · obtain ⟨z, h1, _, _, h4⟩ := w x y hy
      rw [← h4]; exact s3 x z h1
  | trans h1 h2 i1 i2 => exact i2 (Book.Sound.reach h1 hk) (i1 hk hs)

theorem Book.Spaced.create {gap : Nat} {k l : Book} (hk : k.Sound) (hs : k.Spaced gap) {r r' : Record}
    (hc : k.create r = some (l, r')) (hroom : k.bayHasRoom r.bay = true)
    (hfit : fitsGap gap r.start r.length (k.timeline r.bay) = true) (hlen : 15 ≤ r.length ∧ r.length ≤ 720) :
    l.Spaced gap := by
  obtain ⟨sl, rest, hf, hr', _, _, _, _, rd, tl, _⟩ := Book.create_spec hc
  rw [Book.spaced_iff] at hs ⊢
  obtain ⟨s1, s2, s3⟩ := hs
  have hfree : k.rec? sl = none := (hk.2.2.2.1 sl).1 (by rw [hf]; simp)
  have hnon : ∀ b, sl ∉ k.slotsOn b := fun b hm => by
    obtain ⟨x, hx, _⟩ := hk.holds hm
    rw [hfree] at hx; cases hx
  have e1 : r'.start = r.start := by rw [hr']
  have e2 : r'.length = r.length := by rw [hr']
  refine ⟨fun b => ?_, fun b => ?_, fun x y hy => ?_⟩
  · rw [tl]
    split
    · have hst : (k.put sl r').startOf = l.startOf := by
        funext x
        simp only [Book.startOf, rd, Book.rec_put]
      rw [hst, ← e1]
      exact Book.join_apart hk (s1 _) (hnon _) (by rw [e1, e2]; exact hfit) rd
    · refine Apart.mono (s1 b) fun x hx y hy => ?_
      rw [rd, if_neg] at hy
      · exact ⟨y, hy, rfl, Nat.le_refl _⟩
      · rintro rfl; exact hnon b hx
  · rw [tl]
    split
    · rw [insertByStart_length]
      have : (k.slotsOn r.bay).length < Config.timelineSize := by simpa [Book.bayHasRoom] using hroom
      omega
    · exact s2 b
  · rw [rd] at hy
    split at hy
    · cases hy; rw [e2]; exact hlen
    · exact s3 x y hy

theorem Book.Spaced.extend {p : Blocks} (hk : p.book.Sound) (hs : p.book.Spaced p.params.turnoverGap) {sl : Slot} {r : Record}
    {n : Nat} (hr : p.book.rec? sl = some r) (hl : r.state ≠ .settled) (hc : firstRefusal (extendChecks p sl r n) = none) :
    (p.extend sl r n).book.Spaced p.params.turnoverGap := by
  rw [firstRefusal_none] at hc
  simp only [extendChecks, List.mem_cons, List.not_mem_nil, or_false, forall_eq_or_imp, forall_eq] at hc
  obtain ⟨_, hlen, hafter, _⟩ := hc
  have hlen' : r.length + n ≤ 720 := by simpa using hlen
  have htl := hs.1
  rw [Book.spaced_iff] at hs
  obtain ⟨s1, s2, s3⟩ := hs
  have hp : 0 < r.length := by have := (s3 sl r hr).1; omega
  have hbook : (p.extend sl r n).book = p.book.put sl { r with length := r.length + n } := rfl
  rw [hbook, Book.spaced_iff]
  refine ⟨fun b => ?_, s2, fun x y hy => ?_⟩
  · refine (s1 b).imp_of_mem fun {x y} hx hy hR => ?_
    intro u hu v hv
    rw [Book.rec_put] at hu hv
    by_cases e1 : sl = x
    · subst e1
      simp at hu; subst hu
      by_cases e2 : sl = y
      · subst e2
        have := hR r hr r hr
        unfold Record.endMinute at this
        omega
      · rw [if_neg e2] at hv
        have h1 := hR r hr v hv
        obtain ⟨r0, h0, _, hb0⟩ := hk.holds hx
        rw [hr] at h0; cases h0
        subst hb0
        have h2 : v ∈ p.book.timeline r.bay := List.mem_filterMap.2 ⟨y, hy, hv⟩
        have h3 : r.start < v.start := by unfold Record.endMinute at h1; omega
        have hm : v ∈ (p.book.timeline r.bay).filter fun x => decide (r.start < x.start) := by simp [h2, h3]
        cases hh : ((p.book.timeline r.bay).filter fun x => decide (r.start < x.start)).head? with
        | none => rw [List.head?_eq_none_iff] at hh; rw [hh] at hm; cases hm
        | some w =>
          rw [hh] at hafter
          have h4 : r.endMinute + n + p.params.turnoverGap ≤ w.start := by simpa using hafter
          show r.start + (r.length + n) + p.params.turnoverGap ≤ v.start
          unfold Record.endMinute at h4
          rcases pairwise_head ((htl r.bay).filter _) hh hm with e | e
          · subst e; omega
          · unfold Record.endMinute at e; omega
    · rw [if_neg e1] at hu
      by_cases e2 : sl = y
      · subst e2
        simp at hv; subst hv
        exact hR u hu r hr
      · rw [if_neg e2] at hv
        exact hR u hu v hv
  · rw [Book.rec_put] at hy
    split at hy
    · cases hy
      have := s3 sl r hr
      exact ⟨by show 15 ≤ r.length + n; omega, hlen'⟩
    · exact s3 x y hy

theorem Book.Spaced.of_empty {k : Book} {gap : Nat} (h : ∀ b, k.slotsOn b = [])
    (hl : ∀ (sl : Slot) (r : Record), k.rec? sl = some r → 15 ≤ r.length ∧ r.length ≤ 720) : k.Spaced gap := by
  rw [Book.spaced_iff]
  exact ⟨fun b => by rw [h]; exact .nil, fun b => by rw [h]; simp, hl⟩

/-- A book with empty timelines keeps them empty: it holds no live record. -/
theorem Book.reach_empty {gap : Nat} {k l : Book} (h : BookReach gap k l) (hk : k.Sound) (he : ∀ b, k.slotsOn b = []) :
    ∀ b, l.slotsOn b = [] := by
  have dead : ∀ k : Book, k.Sound → (∀ b, k.slotsOn b = []) → ∀ sl r, k.rec? sl = some r → r.state = .settled := by
    intro k hk he sl r hr
    by_contra hl
    have := (hk.2.2.2.2.2.1 r.bay sl).2 ⟨r, hr, hl, rfl⟩
    rw [he] at this; cases this
  induction h with
  | refl => exact he
  | report k b x => exact he
  | put k sl r r' h1 h2 => exact absurd (dead k hk he sl r h1) h2
  | settle k sl o c m => rw [Book.settle_none (dead k hk he sl)]; exact he
  | move k sl r b h1 h2 => exact absurd (dead k hk he sl r h1) h2
  | trans h1 h2 i1 i2 => exact i2 (Book.Sound.reach h1 hk) (i1 hk he)

theorem Book.rec_restart (k : Book) (sl : Slot) : k.restart.rec? sl = none := by
  simp [Book.restart, Book.powerOn, Book.rec?]

theorem Book.slotsOn_restart (k : Book) (b : BayNo) : k.restart.slotsOn b = [] := by
  simp [Book.restart, Book.powerOn, Book.slotsOn]

/-- Every change keeps the timelines sound. -/
theorem change_timelines {p q : Blocks} (h : Change p q) (hp : p.TimelinesSound) : q.TimelinesSound := by
  obtain ⟨h1, h2, h3⟩ := hp
  refine ⟨change_bookSound h h1, ?_⟩
  cases change_book h1.unmarked h with
  | reach h =>
    rw [h.2.1]
    refine ⟨Book.Spaced.reach h.2.2.1 h1 h2, fun hc => ?_⟩
    exact Book.reach_empty h.2.2.1 h1 (h3 (by rw [← h.1]; exact hc))
  | create r k r' hf hs ho hc hl hpa hr _ =>
    obtain ⟨f1, f2, f3, f4, f5, f6, _⟩ := hf
    rw [hpa]
    refine ⟨Book.Spaced.reach hr (h1.create hs ho hc) (h2.create h1 hc f4 f5 f6), fun hcf => ?_⟩
    rw [hl, f1] at hcf; cases hcf
  | extend sl r n e1 e2 e3 e4 =>
    subst e4
    exact ⟨Book.Spaced.extend h1 h2 e1 e2 e3, h3⟩
  | collect sl r e1 e2 e3 =>
    subst e3
    rw [show (p.collect sl).params = p.params by simp [Blocks.collect]]
    have hb : (p.collect sl).book = p.book.collect sl := by simp [Blocks.collect]
    have rd : ∀ x, (p.book.collect sl).rec? x = if sl = x then none else p.book.rec? x := fun x => by
      simp [Book.collect, Book.rec?, setAt_get]
    rw [hb]
    rw [Book.spaced_iff] at h2 ⊢
    obtain ⟨s1, s2, s3⟩ := h2
    refine ⟨⟨fun b => Apart.mono (s1 b) fun x hx y hy => ?_, s2, fun x y hy => ?_⟩, fun hc => ?_⟩
    · rw [rd] at hy
      split at hy
      · cases hy
      · exact ⟨y, hy, rfl, Nat.le_refl _⟩
    · rw [rd] at hy
      split at hy
      · cases hy
      · exact s3 x y hy
    · exact h3 (by simpa [Blocks.collect] using hc)
  | restart e1 e2 e3 e4 =>
    rw [e1]
    exact ⟨Book.Spaced.of_empty (Book.slotsOn_restart _) (fun sl r hr => by rw [Book.rec_restart] at hr; cases hr),
      fun _ => Book.slotsOn_restart _⟩
  | params e1 e2 e3 e4 =>
    rw [e1]
    exact ⟨Book.Spaced.of_empty (h3 e2) h2.2.2, fun _ => h3 e2⟩
  | opened e1 e2 e3 e4 =>
    rw [e1, e2]
    exact ⟨h2, fun hc => by rw [e3] at hc; cases hc⟩

end Sys2Proof.Machine
end

