-- ==== Sys2Proof/Laws/Tokens.lean ====
section
/-! SUPPORT. The token index (R27): what joining and leaving an entry give, and that every change keeps the index sound. -/

namespace Sys2Proof.Machine

/-! ## Entries -/

/-- The entries after a slot has left a token's: what each lists. -/
theorem mem_leaveEntry {t : Token} {sl : Slot} {es : List TokenEntry} (hs : es.Pairwise fun d e => d.token < e.token)
    {e : TokenEntry} : e ∈ leaveEntry t sl es ↔
      (e ∈ es ∧ e.token ≠ t) ∨ ∃ d ∈ es, d.token = t ∧ d.slots.filter (· != sl) ≠ [] ∧
        e = { d with slots := d.slots.filter (· != sl) } := by
  induction es with
  | nil => simp [leaveEntry]
  | cons d es ih =>
    obtain ⟨h1, h2⟩ := List.pairwise_cons.1 hs
    unfold leaveEntry
    split
    · rename_i hd
      have hne : ∀ x ∈ es, x.token ≠ t := fun x hx e => by
        have := h1 x hx; rw [hd, e] at this; exact absurd this (BitVec.lt_irrefl _)
      split
      · rename_i hf
        constructor
        · intro hm; exact .inl ⟨by simp [hm], hne e hm⟩
        · rintro (⟨hm, ht⟩ | ⟨x, hm, ht, hx, _⟩)
          · rcases List.mem_cons.1 hm with e' | e'
            · subst e'; exact absurd hd ht
            · exact e'
          · rcases List.mem_cons.1 hm with e' | e'
            · subst e'; exact absurd hf hx
            · exact absurd ht (hne x e')
      · rename_i y ys hf
        constructor
        · intro hm
          rcases List.mem_cons.1 hm with e' | e'
          · exact .inr ⟨d, by simp, hd, by rw [hf]; simp, by rw [hf]; exact e'⟩
          · exact .inl ⟨by simp [e'], hne e e'⟩
        · rintro (⟨hm, ht⟩ | ⟨x, hm, ht, hx, he⟩)
          · rcases List.mem_cons.1 hm with e' | e'
            · subst e'; exact absurd hd ht
            · simp [e']
          · rcases List.mem_cons.1 hm with e' | e'
            · subst e'; rw [hf] at he; simp [he]
            · exact absurd ht (hne x e')
    · rename_i hd
      rw [List.mem_cons, ih h2]
      constructor
      · rintro (e' | ⟨hm, ht⟩ | ⟨x, hm, hx⟩)
        · subst e'; exact .inl ⟨by simp, hd⟩
        · exact .inl ⟨by simp [hm], ht⟩
        · exact .inr ⟨x, by simp [hm], hx⟩
      · rintro (⟨hm, ht⟩ | ⟨x, hm, ht, hx⟩)
        · rcases List.mem_cons.1 hm with e' | e'
          · exact .inl e'
          · exact .inr (.inl ⟨e', ht⟩)
        · rcases List.mem_cons.1 hm with e' | e'
          · subst e'; exact absurd ht hd
          · exact .inr (.inr ⟨x, e', ht, hx⟩)

theorem leaveEntry_token {t : Token} {sl : Slot} {es : List TokenEntry} (hs : es.Pairwise fun d e => d.token < e.token)
    {e : TokenEntry} (h : e ∈ leaveEntry t sl es) : ∃ d ∈ es, d.token = e.token := by
  rcases (mem_leaveEntry hs).1 h with ⟨hm, _⟩ | ⟨d, hm, _, _, he⟩
  · exact ⟨e, hm, rfl⟩
  · exact ⟨d, hm, by rw [he]⟩

theorem leaveEntry_pairwise {t : Token} {sl : Slot} {es : List TokenEntry} (hs : es.Pairwise fun d e => d.token < e.token) :
    (leaveEntry t sl es).Pairwise fun d e => d.token < e.token := by
  induction es with
  | nil => exact hs
  | cons d es ih =>
    obtain ⟨h1, h2⟩ := List.pairwise_cons.1 hs
    unfold leaveEntry
    split
    · split
      · exact h2
      · exact List.pairwise_cons.2 ⟨h1, h2⟩
    · refine List.pairwise_cons.2 ⟨fun e he => ?_, ih h2⟩
      obtain ⟨x, hx, hxe⟩ := leaveEntry_token h2 he
      rw [← hxe]; exact h1 x hx

/-- The entries after a slot has joined a token's: what each lists. -/
theorem mem_joinEntry {f : Slot → Nat} {t : Token} {s : Nat} {sl : Slot} {es : List TokenEntry}
    (hs : es.Pairwise fun d e => d.token < e.token) {e : TokenEntry} : e ∈ joinEntry f t s sl es ↔
      (e ∈ es ∧ e.token ≠ t) ∨ (∃ d ∈ es, d.token = t ∧ e = { d with slots := insertByStart f s sl d.slots }) ∨
      ((∀ d ∈ es, d.token ≠ t) ∧ e = { token := t, slots := [sl] }) := by
  induction es with
  | nil => simp [joinEntry]
  | cons d es ih =>
    obtain ⟨h1, h2⟩ := List.pairwise_cons.1 hs
    unfold joinEntry
    split
    · rename_i hd
      have hne : ∀ x ∈ es, x.token ≠ t := fun x hx e => by
        have := h1 x hx; rw [hd, e] at this; exact absurd this (BitVec.lt_irrefl _)
      constructor
      · intro hm
        rcases List.mem_cons.1 hm with e' | e'
        · exact .inr (.inl ⟨d, by simp, hd, e'⟩)
        · exact .inl ⟨by simp [e'], hne e e'⟩
      · rintro (⟨hm, ht⟩ | ⟨x, hm, ht, he⟩ | ⟨hn, _⟩)
        · rcases List.mem_cons.1 hm with e' | e'
          · subst e'; exact absurd hd ht
          · simp [e']
        · rcases List.mem_cons.1 hm with e' | e'
          · subst e'; simp [he]
          · exact absurd ht (hne x e')
        · exact absurd hd (hn d (by simp))
    · rename_i hd
      split
      · rename_i hlt
        rw [List.mem_cons, ih h2]
        constructor
        · rintro (e' | ⟨hm, ht⟩ | ⟨x, hm, hx⟩ | ⟨hn, he⟩)
          · subst e'; exact .inl ⟨by simp, hd⟩
          · exact .inl ⟨by simp [hm], ht⟩
          · exact .inr (.inl ⟨x, by simp [hm], hx⟩)
          · refine .inr (.inr ⟨fun x hx => ?_, he⟩)
            rcases List.mem_cons.1 hx with e' | e'
            · subst e'; exact hd
            · exact hn x e'
        · rintro (⟨hm, ht⟩ | ⟨x, hm, ht, hx⟩ | ⟨hn, he⟩)
          · rcases List.mem_cons.1 hm with e' | e'
            · exact .inl e'
            · exact .inr (.inl ⟨e', ht⟩)
          · rcases List.mem_cons.1 hm with e' | e'
            · subst e'; exact absurd ht hd
            · exact .inr (.inr (.inl ⟨x, e', ht, hx⟩))
          · exact .inr (.inr (.inr ⟨fun x hx => hn x (by simp [hx]), he⟩))
      · rename_i hlt
        have hne : ∀ x ∈ d :: es, x.token ≠ t := fun x hx e => by
          rcases List.mem_cons.1 hx with e' | e'
          · subst e'; exact hd e
          · have := h1 x e'; rw [e] at this; exact hlt this
        constructor
        · intro hm
          rcases List.mem_cons.1 hm with e' | e'
          · exact .inr (.inr ⟨hne, e'⟩)
          · exact .inl ⟨e', hne e e'⟩
        · rintro (⟨hm, ht⟩ | ⟨x, hm, ht, he⟩ | ⟨hn, he⟩)
          · exact List.mem_cons.2 (.inr hm)
          · exact absurd ht (hne x hm)
          · exact List.mem_cons.2 (.inl he)

theorem joinEntry_pairwise {f : Slot → Nat} {t : Token} {s : Nat} {sl : Slot} {es : List TokenEntry}
    (hs : es.Pairwise fun d e => d.token < e.token) : (joinEntry f t s sl es).Pairwise fun d e => d.token < e.token := by
  induction es with
  | nil => simp [joinEntry]
  | cons d es ih =>
    obtain ⟨h1, h2⟩ := List.pairwise_cons.1 hs
    unfold joinEntry
    split
    · exact List.pairwise_cons.2 ⟨h1, h2⟩
    · rename_i hd
      split
      · rename_i hlt
        refine List.pairwise_cons.2 ⟨fun e he => ?_, ih h2⟩
        rcases (mem_joinEntry h2).1 he with ⟨hm, _⟩ | ⟨x, hm, _, hx⟩ | ⟨_, hx⟩
        · exact h1 e hm
        · rw [hx]; exact h1 x hm
        · rw [hx]; exact hlt
      · rename_i hlt
        have h0 : t < d.token := by
          have h : d.token.toNat ≠ t.toNat := fun h => hd (BitVec.eq_of_toNat_eq h)
          rw [BitVec.lt_def] at hlt ⊢
          omega
        refine List.pairwise_cons.2 ⟨fun e he => ?_, hs⟩
        rcases List.mem_cons.1 he with e' | e'
        · subst e'; exact h0
        · exact BitVec.lt_trans h0 (h1 e e')

/-! ## The index -/

/-- The relation of the windows of one token, between slots. -/
theorem filterMap_pairwise (k : Book) (xs : List Slot) :
    ((xs.filterMap k.rec?).Pairwise fun x y => x.endMinute ≤ y.start) ↔ xs.Pairwise (k.Apart 0) := by
  rw [List.pairwise_filterMap]
  rfl

/-- Two entries of one token are one. -/
theorem Book.IndexSound.unique {k : Book} (h : k.IndexSound) {d e : TokenEntry} (hd : d ∈ k.tokens) (he : e ∈ k.tokens)
    (ht : d.token = e.token) : d = e := by
  by_contra hne
  rcases (List.pairwise_iff_getElem.1 h.1) with hp
  obtain ⟨i, hi, rfl⟩ := List.mem_iff_getElem.1 hd
  obtain ⟨j, hj, rfl⟩ := List.mem_iff_getElem.1 he
  rcases Nat.lt_trichotomy i j with h' | h' | h'
  · have := hp i j hi hj h'; rw [ht] at this; exact BitVec.lt_irrefl _ this
  · subst h'; exact hne rfl
  · have := hp j i hj hi h'; rw [ht] at this; exact BitVec.lt_irrefl _ this

/-- The entry of a token, where it has one. -/
theorem Book.IndexSound.tokenSlots {k : Book} (h : k.IndexSound) {e : TokenEntry} (he : e ∈ k.tokens) :
    k.tokenSlots e.token = e.slots := by
  unfold Book.tokenSlots
  cases hf : k.tokens.find? fun d => d.token == e.token with
  | none => exact absurd (List.find?_eq_none.1 hf e he) (by simp)
  | some d =>
    have h1 : d.token = e.token := by simpa using List.find?_some hf
    rw [h.unique (List.mem_of_find?_eq_some hf) he h1]
    rfl

theorem Book.IndexSound.congr {k l : Book} (h : k.IndexSound) (hp : l.pool = k.pool) (ht : l.tokens = k.tokens) :
    l.IndexSound := by
  have hr : l.rec? = k.rec? := by funext sl; simp [Book.rec?, hp]
  simpa only [Book.IndexSound, hr, ht] using h

/-- A live record rewritten with its token and its window leaves the index sound. -/
theorem Book.IndexSound.put {k l : Book} (h : k.IndexSound) {sl : Slot} {r r' : Record} (hr : k.rec? sl = some r)
    (hl : r.state ≠ .settled) (hl' : r'.state ≠ .settled) (ht : r'.token = r.token) (hs : r'.start = r.start)
    (hn : r'.length = r.length) (hlr : ∀ x, l.rec? x = if sl = x then some r' else k.rec? x) (hlt : l.tokens = k.tokens) :
    l.IndexSound := by
  obtain ⟨h1, h2, h3⟩ := h
  have e : r'.endMinute = r.endMinute := by simp [Record.endMinute, hs, hn]
  refine ⟨hlt ▸ h1, fun d hd => ?_, fun x y hy hs' => ?_⟩
  · rw [hlt] at hd
    obtain ⟨a1, a2, a3, a4, a5⟩ := h2 d hd
    refine ⟨a1, a2, a3, fun x => ?_, ?_⟩
    · rw [hlr]
      by_cases e' : sl = x
      · subst e'
        have := a4 sl
        simp [hr, hl] at this
        simp [this, hl', ht]
      · simpa [e'] using a4 x
    · rw [filterMap_pairwise] at a5 ⊢
      refine Apart.mono a5 fun x hx y hy => ?_
      rw [hlr] at hy
      split at hy
      · rename_i e'; subst e'; cases hy; exact ⟨r, hr, hs.symm, by omega⟩
      · exact ⟨y, hy, rfl, Nat.le_refl _⟩
  · rw [hlt]
    rw [hlr] at hy
    split at hy
    · rename_i e'; subst e'; cases hy; rw [ht]; exact h3 sl r hr hl
    · exact h3 x y hy hs'

theorem Book.IndexSound.settle {k : Book} (h : k.IndexSound) (sl : Slot) (o : Result) (c : Option Cause) (m : Nat) :
    (k.settle sl o c m).IndexSound := by
  by_cases hx : ∀ r, k.rec? sl = some r → r.state = .settled
  · rw [Book.settle_none hx]; exact h
  · simp only [not_forall] at hx
    obtain ⟨r, hr, hl⟩ := hx
    obtain ⟨_, _, _, _, et, rd, _⟩ := Book.settle_spec hr hl o c m
    obtain ⟨h1, h2, h3⟩ := h
    have dead : (r.settledWith o c m).state = .settled := rfl
    have tokens : ∀ x y, (k.settle sl o c m).rec? x = some y → y.state ≠ .settled → sl ≠ x ∧ k.rec? x = some y := by
      intro x y hy hs
      rw [rd] at hy
      split at hy
      · cases hy; exact absurd dead hs
      · exact ⟨‹_›, hy⟩
    refine ⟨et ▸ leaveEntry_pairwise h1, fun e he => ?_, fun x y hy hs => ?_⟩
    · rw [et, mem_leaveEntry h1] at he
      rcases he with ⟨hm, ht⟩ | ⟨d, hm, ht, hne, rfl⟩
      · obtain ⟨a1, a2, a3, a4, a5⟩ := h2 e hm
        refine ⟨a1, a2, a3, fun x => ?_, ?_⟩
        · rw [rd]
          by_cases e' : sl = x
          · subst e'
            have := a4 sl
            simp [hr, hl] at this
            have h' : ¬ r.token = e.token := fun q => ht q.symm
            simp [this, dead, h']
          · simpa [e'] using a4 x
        · rw [filterMap_pairwise] at a5 ⊢
          refine Apart.mono a5 fun x hx y hy => ?_
          rw [rd] at hy
          split at hy
          · rename_i e'; subst e'; cases hy; exact ⟨r, hr, rfl, Nat.le_refl _⟩
          · exact ⟨y, hy, rfl, Nat.le_refl _⟩
      · obtain ⟨a1, a2, a3, a4, a5⟩ := h2 d hm
        refine ⟨hne, a2.filter _, Nat.le_trans (List.length_filter_le _ _) a3, fun x => ?_, ?_⟩
        · rw [rd]
          by_cases e' : sl = x
          · subst e'; simp [dead]
          · have e'' : ¬ x = sl := fun q => e' q.symm
            simpa [e', e''] using a4 x
        · rw [filterMap_pairwise] at a5 ⊢
          refine (Apart.mono a5 fun x hx y hy => ?_).filter _
          rw [rd] at hy
          split at hy
          · rename_i e'; subst e'; cases hy; exact ⟨r, hr, rfl, Nat.le_refl _⟩
          · exact ⟨y, hy, rfl, Nat.le_refl _⟩
    · obtain ⟨hne, hy'⟩ := tokens x y hy hs
      obtain ⟨d, hd, hdt⟩ := h3 x y hy' hs
      by_cases ht : d.token = r.token
      · refine ⟨{ d with slots := d.slots.filter (· != sl) }, ?_, hdt⟩
        rw [et, mem_leaveEntry h1]
        refine .inr ⟨d, hd, ht, ?_, rfl⟩
        have hx : x ∈ d.slots := ((h2 d hd).2.2.2.1 x).2 ⟨y, hy', hs, hdt.symm⟩
        intro hnil
        have : x ∈ d.slots.filter (· != sl) := by simp [hx]; exact fun q => hne q.symm
        rw [hnil] at this; cases this
      · exact ⟨d, by rw [et, mem_leaveEntry h1]; exact .inl ⟨hd, ht⟩, hdt⟩

theorem Book.IndexSound.reach {gap : Nat} {k l : Book} (h : BookReach gap k l) (hs : k.IndexSound) : l.IndexSound := by
  induction h with
  | refl => exact hs
  | report k b x => exact hs.congr rfl rfl
  | put k sl r r' h1 h2 h3 h4 h5 h6 h7 h8 h9 _ => exact hs.put h1 h2 h3 h5 h7 h8 (fun x => Book.rec_put k sl x r') rfl
  | settle k sl o c m => exact hs.settle sl o c m
  | move k sl r b hr hl hb _ _ =>
    exact hs.put hr hl (r' := r.movedTo b) hl rfl rfl rfl (fun x => Book.rec_put k sl x _) rfl
  | trans h1 h2 i1 i2 => exact i2 (i1 hs)

/-- A window that overlaps none of a token's joins them in ascending start. -/
theorem Book.join_windows {k l : Book} {xs : List Slot} {sl : Slot} {r : Record}
    (hp : xs.Pairwise (k.Apart 0)) (hm : ∀ x ∈ xs, ∃ y, k.rec? x = some y) (hn : sl ∉ xs) (hlen : 0 < r.length)
    (hpos : ∀ x ∈ xs, ∀ y, k.rec? x = some y → 0 < y.length)
    (hf : ∀ y ∈ xs.filterMap k.rec?, overlaps r.start (r.start + r.length) y.start y.endMinute = false)
    (hl : ∀ x, l.rec? x = if sl = x then some r else k.rec? x) :
    (insertByStart l.startOf r.start sl xs).Pairwise (l.Apart 0) := by
  have same : ∀ x ∈ xs, l.rec? x = k.rec? x := fun x hx => by
    rw [hl, if_neg]; rintro rfl; exact hn hx
  have hsl : l.rec? sl = some r := by rw [hl, if_pos rfl]
  have free : ∀ x ∈ xs, ∀ y, k.rec? x = some y → y.endMinute ≤ r.start ∨ r.start + r.length ≤ y.start := by
    intro x hx y hy
    have := hf y (List.mem_filterMap.2 ⟨x, hx, hy⟩)
    simp [overlaps] at this
    by_cases h : r.start < y.endMinute
    · exact .inr (this h)
    · exact .inl (by omega)
  refine insertByStart_pairwise ?_ ?_ (fun x hx hs => ?_) fun x hx hs => ?_
  · exact Apart.mono hp fun x hx y hy => ⟨y, by rw [← same x hx]; exact hy, rfl, Nat.le_refl _⟩
  · refine hp.imp_of_mem fun {x y} hx hy hR => ?_
    obtain ⟨rx, h1⟩ := hm x hx
    obtain ⟨ry, h2⟩ := hm y hy
    have := hR rx h1 ry h2
    simp only [Book.startOf, same x hx, same y hy, h1, h2, Option.map_some, Option.getD_some]
    unfold Record.endMinute at this
    omega
  · intro y hy z hz
    rw [hsl] at hz; cases hz
    rw [same x hx] at hy
    have hs' : y.start ≤ r.start := by simpa [Book.startOf, same x hx, hy] using hs
    rcases free x hx y hy with h | h <;> omega
  · intro z hz y hy
    rw [hsl] at hz; cases hz
    rw [same x hx] at hy
    have hs' : r.start < y.start := by simpa [Book.startOf, same x hx, hy] using hs
    have hp' := hpos x hx y hy
    rcases free x hx y hy with h | h
    · unfold Record.endMinute at h; omega
    · unfold Record.endMinute; omega

theorem Book.IndexSound.create {k l : Book} (hk : k.Sound) (h : k.IndexSound)
    (hpos : ∀ (sl : Slot) (r : Record), k.rec? sl = some r → 0 < r.length) {r r' : Record} (hs : r.state ≠ .settled)
    (hc : k.create r = some (l, r')) (hroom : k.tokenHasRoom r.token = true)
    (hfree : k.tokenIsFree r.token r.start r.length = true) (hlen : 0 < r.length) : l.IndexSound := by
  obtain ⟨sl, rest, hf, hr', _, _, _, _, rd, _, et⟩ := Book.create_spec hc
  have hno : k.rec? sl = none := (hk.2.2.2.1 sl).1 (by rw [hf]; simp)
  have hidx := h
  obtain ⟨h1, h2, h3⟩ := h
  have e1 : r'.token = r.token := by rw [hr']
  have e2 : r'.state = r.state := by rw [hr']
  have e3 : r'.start = r.start := by rw [hr']
  have e4 : r'.length = r.length := by rw [hr']
  have hst : (k.put sl r').startOf = l.startOf := by
    funext x
    simp only [Book.startOf, rd, Book.rec_put]
  have nosl : ∀ d ∈ k.tokens, sl ∉ d.slots := fun d hd hm => by
    obtain ⟨y, hy, _⟩ := ((h2 d hd).2.2.2.1 sl).1 hm
    rw [hno] at hy; cases hy
  refine ⟨et ▸ joinEntry_pairwise h1, fun e he => ?_, fun x y hy hs' => ?_⟩
  · rw [et, mem_joinEntry h1] at he
    rcases he with ⟨hm, ht⟩ | ⟨d, hm, ht, rfl⟩ | ⟨hn, rfl⟩
    · obtain ⟨a1, a2, a3, a4, a5⟩ := h2 e hm
      refine ⟨a1, a2, a3, fun x => ?_, ?_⟩
      · rw [rd]
        by_cases e' : sl = x
        · subst e'
          have h' : ¬ r.token = e.token := fun q => ht q.symm
          simp [nosl e hm, e1, h']
        · simpa [e'] using a4 x
      · rw [filterMap_pairwise] at a5 ⊢
        refine Apart.mono a5 fun x hx y hy => ?_
        rw [rd, if_neg] at hy
        · exact ⟨y, hy, rfl, Nat.le_refl _⟩
        · rintro rfl; exact nosl e hm hx
    · obtain ⟨a1, a2, a3, a4, a5⟩ := h2 d hm
      have hts : k.tokenSlots r.token = d.slots := by rw [← ht]; exact hidx.tokenSlots hm
      refine ⟨?_, nodup_insertByStart a2 (nosl d hm), ?_, fun x => ?_, ?_⟩
      · intro hnil
        have : sl ∈ insertByStart (k.put sl r').startOf r.start sl d.slots := mem_insertByStart.2 (.inl rfl)
        rw [show insertByStart (k.put sl r').startOf r.start sl d.slots = [] from hnil] at this
        cases this
      · show (insertByStart (k.put sl r').startOf r.start sl d.slots).length ≤ _
        rw [insertByStart_length]
        have : d.slots.length < Config.tokenSize := by simpa [Book.tokenHasRoom, hts] using hroom
        omega
      · show x ∈ insertByStart (k.put sl r').startOf r.start sl d.slots ↔ _
        rw [mem_insertByStart, rd]
        by_cases e' : sl = x
        · subst e'; simp [e1, e2, hs, ht]
        · have e'' : ¬ x = sl := fun q => e' q.symm
          simpa [e', e''] using a4 x
      · rw [filterMap_pairwise] at a5 ⊢
        rw [hst, ← e3]
        refine Book.join_windows a5 (fun x hx => ?_) (nosl d hm) (by omega) (fun x _ y hy => hpos x y hy) (fun y hy => ?_) rd
        · obtain ⟨y, hy, _⟩ := (a4 x).1 hx
          exact ⟨y, hy⟩
        · simp only [Book.tokenIsFree, Book.tokenRecords, hts, List.all_eq_true] at hfree
          rw [e3, e4]
          simpa using hfree y hy
    · refine ⟨by simp, by simp, by simp [Config.tokenSize], fun x => ?_, by
        cases hq : l.rec? sl <;> simp [hq]⟩
      rw [rd]
      by_cases e' : sl = x
      · subst e'; simp [e1, e2, hs]
      · have e'' : ¬ x = sl := fun q => e' q.symm
        simp only [List.mem_singleton, e'', if_neg e', false_iff]
        rintro ⟨y, hy, hy1, hy2⟩
        obtain ⟨d, hd, hdt⟩ := h3 x y hy hy1
        exact hn d hd (hdt.trans hy2)
  · rw [rd] at hy
    by_cases ht : y.token = r.token
    · by_cases hd : ∃ d ∈ k.tokens, d.token = r.token
      · obtain ⟨d, hd, hdt⟩ := hd
        exact ⟨{ d with slots := insertByStart (k.put sl r').startOf r.start sl d.slots },
          by rw [et, mem_joinEntry h1]; exact .inr (.inl ⟨d, hd, hdt, rfl⟩), by rw [ht]; exact hdt⟩
      · exact ⟨{ token := r.token, slots := [sl] },
          by rw [et, mem_joinEntry h1]; exact .inr (.inr ⟨fun d hd' e => hd ⟨d, hd', e⟩, rfl⟩), ht.symm⟩
    · split at hy
      · cases hy; exact absurd e1 ht
      · obtain ⟨d, hd, hdt⟩ := h3 x y hy hs'
        exact ⟨d, by rw [et, mem_joinEntry h1]; exact .inl ⟨hd, by rw [hdt]; exact ht⟩, hdt⟩

theorem Book.IndexSound.extend {p : Blocks} (h : p.book.IndexSound)
    (hpos : ∀ (sl : Slot) (r : Record), p.book.rec? sl = some r → 0 < r.length) {sl : Slot} {r : Record}
    {n : Nat} (hr : p.book.rec? sl = some r) (hl : r.state ≠ .settled) (hc : firstRefusal (extendChecks p sl r n) = none) :
    (p.extend sl r n).book.IndexSound := by
  rw [firstRefusal_none] at hc
  simp only [extendChecks, List.mem_cons, List.not_mem_nil, or_false, forall_eq_or_imp, forall_eq] at hc
  obtain ⟨_, _, _, hothers⟩ := hc
  have hbook : (p.extend sl r n).book = p.book.put sl { r with length := r.length + n } := rfl
  rw [hbook]
  have hidx := h
  obtain ⟨h1, h2, h3⟩ := h
  refine ⟨h1, fun e he => ?_, fun x y hy hs' => ?_⟩
  · obtain ⟨a1, a2, a3, a4, a5⟩ := h2 e he
    refine ⟨a1, a2, a3, fun x => ?_, ?_⟩
    · rw [Book.rec_put]
      by_cases e' : sl = x
      · subst e'
        have := a4 sl
        simp [hr, hl] at this
        simp [this, hl]
      · simpa [e'] using a4 x
    · rw [filterMap_pairwise] at a5 ⊢
      refine (List.pairwise_iff_forall_sublist.2 fun {x y} hsub => ?_)
      have hR := List.pairwise_iff_forall_sublist.1 a5 hsub
      have hx : x ∈ e.slots := hsub.subset (by simp)
      have hy : y ∈ e.slots := hsub.subset (by simp)
      have hxy : x ≠ y := by
        have := a2.sublist hsub
        simpa using this
      intro u hu v hv
      rw [Book.rec_put] at hu hv
      by_cases e1 : sl = x
      · subst e1
        simp at hu; subst hu
        rw [if_neg hxy] at hv
        have hRv := hR r hr v hv
        obtain ⟨r0, h0, _, ht0⟩ := (a4 sl).1 hx
        rw [hr] at h0; cases h0
        have hts : p.book.tokenSlots r.token = e.slots := by rw [ht0]; exact hidx.tokenSlots he
        have hm : v ∈ ((p.book.tokenSlots r.token).filter (· != sl)).filterMap p.book.rec? := by
          refine List.mem_filterMap.2 ⟨y, ?_, hv⟩
          rw [hts]
          simp [hy]
          exact fun q => hxy q.symm
        have ho : overlaps r.start (r.endMinute + n) v.start v.endMinute = false := by
          simpa using List.all_eq_true.1 hothers v hm
        have hv0 := hpos y v hv
        have hr0 := hpos sl r hr
        show r.start + (r.length + n) + 0 ≤ v.start
        simp [overlaps] at ho
        unfold Record.endMinute at ho hRv
        omega
      · rw [if_neg e1] at hu
        by_cases e2 : sl = y
        · subst e2
          simp at hv; subst hv
          exact hR u hu r hr
        · rw [if_neg e2] at hv
          exact hR u hu v hv
  · rw [Book.rec_put] at hy
    split at hy
    · rename_i e'; subst e'; cases hy; exact h3 sl r hr hl
    · exact h3 x y hy hs'

/-- Every record's length stays above 0. -/
theorem Book.reach_positive {gap : Nat} {k l : Book} (h : BookReach gap k l)
    (hp : ∀ (sl : Slot) (r : Record), k.rec? sl = some r → 0 < r.length) :
    ∀ (sl : Slot) (r : Record), l.rec? sl = some r → 0 < r.length := by
  induction h with
  | refl => exact hp
  | report k b x => exact hp
  | put k sl r r' h1 h2 h3 h4 h5 h6 h7 h8 h9 _ =>
    intro x y hy
    rw [Book.rec_put] at hy
    split at hy
    · cases hy; rw [h8]; exact hp sl r h1
    · exact hp x y hy
  | settle k sl o c m =>
    by_cases hx : ∀ r, k.rec? sl = some r → r.state = .settled
    · rw [Book.settle_none hx]; exact hp
    · simp only [not_forall] at hx
      obtain ⟨r, hr, hl⟩ := hx
      obtain ⟨_, _, _, _, _, rd, _⟩ := Book.settle_spec hr hl o c m
      intro x y hy
      rw [rd] at hy
      split at hy
      · cases hy; exact hp sl r hr
      · exact hp x y hy
  | move k sl r b hr =>
    intro x y hy
    rw [show (k.move sl r b).rec? x = _ from Book.rec_put k sl x _] at hy
    split at hy
    · cases hy; exact hp sl r hr
    · exact hp x y hy
  | trans h1 h2 i1 i2 => exact i2 (i1 hp)

/-- Every change keeps the token index sound. -/
theorem change_tokens {p q : Blocks} (h : Change p q) (hp : p.TokensSound) : q.TokensSound := by
  obtain ⟨h1, h2, h3⟩ := hp
  refine ⟨change_bookSound h h1, ?_⟩
  cases change_book h1.unmarked h with
  | reach h => exact ⟨Book.IndexSound.reach h.2.2.1 h2, Book.reach_positive h.2.2.1 h3⟩
  | create r k r' hf hs ho hc _ _ hr _ =>
    obtain ⟨f1, f2, f3, f4, f5, f6, f7⟩ := hf
    refine ⟨Book.IndexSound.reach hr (Book.IndexSound.create h1 h2 h3 hs hc f2 f3 (by omega)), Book.reach_positive hr ?_⟩
    obtain ⟨sl, rest, _, hr', _, _, _, _, rd, _, _⟩ := Book.create_spec hc
    intro x y hy
    rw [rd] at hy
    split at hy
    · cases hy; rw [hr']; show 0 < r.length; omega
    · exact h3 x y hy
  | extend sl r n e1 e2 e3 e4 =>
    subst e4
    refine ⟨Book.IndexSound.extend h2 h3 e1 e2 e3, fun x y hy => ?_⟩
    rw [show (p.extend sl r n).book.rec? x = _ from Book.rec_put p.book sl x _] at hy
    split at hy
    · cases hy; have := h3 sl r e1; show 0 < r.length + n; omega
    · exact h3 x y hy
  | collect sl r e1 e2 e3 =>
    subst e3
    have hb : (p.collect sl).book = p.book.collect sl := by simp [Blocks.collect]
    have rd : ∀ x, (p.book.collect sl).rec? x = if sl = x then none else p.book.rec? x := fun x => by
      simp [Book.collect, Book.rec?, setAt_get]
    rw [hb]
    obtain ⟨a1, a2, a3⟩ := h2
    refine ⟨⟨a1, fun e he => ?_, fun x y hy hs => ?_⟩, fun x y hy => ?_⟩
    · obtain ⟨b1, b2, b3, b4, b5⟩ := a2 e he
      refine ⟨b1, b2, b3, fun x => ?_, ?_⟩
      · rw [rd]
        by_cases e' : sl = x
        · subst e'
          have := b4 sl
          simp [e1, e2] at this
          simp [this]
        · simpa [e'] using b4 x
      · rw [filterMap_pairwise] at b5 ⊢
        refine Apart.mono b5 fun x hx y hy => ?_
        rw [rd] at hy
        split at hy
        · cases hy
        · exact ⟨y, hy, rfl, Nat.le_refl _⟩
    · rw [rd] at hy
      split at hy
      · cases hy
      · exact a3 x y hy hs
    · rw [rd] at hy
      split at hy
      · cases hy
      · exact h3 x y hy
  | restart e1 e2 e3 e4 =>
    rw [e1]
    refine ⟨⟨by simp [Book.restart, Book.powerOn], fun e he => by simp [Book.restart, Book.powerOn] at he, fun x y hy => ?_⟩,
      fun x y hy => ?_⟩
    · rw [Book.rec_restart] at hy; cases hy
    · rw [Book.rec_restart] at hy; cases hy
  | params e1 e2 e3 e4 => rw [e1]; exact ⟨h2, h3⟩
  | opened e1 e2 e3 e4 => rw [e1]; exact ⟨h2, h3⟩

end Sys2Proof.Machine
end

