-- ==== Sys2Proof/Laws/Wire.lean ====
section
/-! SUPPORT. The wire: numbers read back from their bytes, and the frame check (R159, R161, R170, R171). -/

namespace Sys2Proof.Machine

/-! ## Numbers -/

@[simp] theorem be_length (k v : Nat) : (be k v).length = k := by
  induction k with
  | zero => rfl
  | succ k ih => simp [be, ih]

@[simp] theorem le_length (k v : Nat) : (le k v).length = k := by
  induction k generalizing v with
  | zero => rfl
  | succ k ih => simp [le, ih]

theorem beNat_append (xs ys : List Byte) : beNat (xs ++ ys) = beNat xs * 256 ^ ys.length + beNat ys := by
  unfold beNat
  rw [List.foldl_append]
  generalize xs.foldl (fun a b => a * 256 + b.toNat) 0 = n
  induction ys generalizing n with
  | nil => simp
  | cons y ys ih =>
    simp only [List.foldl_cons, List.length_cons]
    rw [ih, ih (0 * 256 + y.toNat), Nat.pow_succ, Nat.add_mul]
    simp only [Nat.zero_mul, Nat.zero_add]
    rw [Nat.mul_assoc, Nat.mul_comm 256]; omega

theorem beNat_cons (y : Byte) (ys : List Byte) : beNat (y :: ys) = y.toNat * 256 ^ ys.length + beNat ys := by
  have h := beNat_append [y] ys
  simpa [beNat] using h

/-- The bytes of a number, read back. -/
theorem beNat_be_mod (k v : Nat) : beNat (be k v) = v % 256 ^ k := by
  induction k with
  | zero => simp [be, beNat, Nat.mod_one]
  | succ k ih =>
    have h : v % (256 ^ k * 256) = v % 256 ^ k + 256 ^ k * (v / 256 ^ k % 256) := Nat.mod_mul
    rw [be, beNat_cons, ih, be_length, BitVec.toNat_ofNat, Nat.pow_succ 256, h, Nat.mul_comm (256 ^ k)]
    exact Nat.add_comm _ _

theorem beNat_be {k v : Nat} (h : v < 256 ^ k) : beNat (be k v) = v := by rw [beNat_be_mod, Nat.mod_eq_of_lt h]

theorem beNat_lt (bs : List Byte) : beNat bs < 256 ^ bs.length := by
  induction bs with
  | nil => simp [beNat]
  | cons b bs ih =>
    rw [beNat_cons, List.length_cons, Nat.pow_succ]
    have := b.isLt
    nlinarith [Nat.pow_pos (n := bs.length) (show 0 < 256 by decide)]

/-- The number of some bytes, written back. -/
theorem be_beNat (bs : List Byte) : be bs.length (beNat bs) = bs := by
  induction bs with
  | nil => rfl
  | cons b bs ih =>
    have hb := b.isLt
    have hl := beNat_lt bs
    have key : ∀ n : Nat, n % 256 ^ bs.length = beNat bs → be bs.length n = bs := by
      intro n hn
      have : ∀ (k a c : Nat), a % 256 ^ k = c % 256 ^ k → be k a = be k c := by
        intro k
        induction k with
        | zero => intros; rfl
        | succ k ih =>
          intro a c h
          have h1 : a % 256 ^ k = c % 256 ^ k := by
            rw [← Nat.mod_mul_right_mod a (256 ^ k) 256, ← Nat.mod_mul_right_mod c (256 ^ k) 256, ← Nat.pow_succ, h]
          have h2 : a / 256 ^ k % 256 = c / 256 ^ k % 256 := by
            rw [← Nat.mod_mul_right_div_self, ← Nat.mod_mul_right_div_self, ← Nat.pow_succ, h]
          rw [be, be, ih _ _ h1]
          congr 1
          apply BitVec.eq_of_toNat_eq
          simpa [BitVec.toNat_ofNat] using h2
      rw [this _ n (beNat bs) (by rw [hn, Nat.mod_eq_of_lt hl]), ih]
    rw [List.length_cons, be, beNat_cons, key _ (by rw [Nat.mul_add_mod_of_lt hl]), Nat.mul_comm b.toNat,
      Nat.mul_add_div (Nat.pow_pos (by decide)), Nat.div_eq_of_lt hl]
    simp

theorem leNat_le {k v : Nat} (h : v < 256 ^ k) : leNat (le k v) = v := by
  induction k generalizing v with
  | zero => simp at h; simp [le, leNat, h]
  | succ k ih =>
    rw [le, leNat, ih (by rw [Nat.pow_succ] at h; omega), BitVec.toNat_ofNat]
    omega

/-- A number read from the bytes a body holds at an offset (R170). -/
theorem field_be (pre post : List Byte) {k v : Nat} (h : v < 256 ^ k) : field (pre ++ be k v ++ post) pre.length k = v := by
  unfold field
  rw [List.append_assoc, List.drop_left, List.take_left' (by simp), beNat_be h]

/-! ## Frames -/

/-- The frame check passes exactly the frames: a head, the length of the body, the body of at most 512 bytes, the CRC of all
of these (R159, R161, R171). -/
theorem frameBody_iff {n : Nat} {bs body : List Byte} :
    frameBody n bs = some body ↔ body.length ≤ 512 ∧ ∃ head : List Byte, head.length = n ∧
      bs = sealed (head ++ be 2 body.length ++ body) := by
  unfold frameBody
  dsimp only
  constructor
  · intro h
    split at h
    · rename_i hc
      obtain ⟨h1, h2, h3, h4⟩ := hc
      cases h
      generalize hk : beNat ((bs.drop n).take 2) = k at *
      have h2' : k ≤ 512 := h2
      have hl2 : ((bs.drop n).take 2).length = 2 := by simp; omega
      have hb : be 2 k = (bs.drop n).take 2 := by
        have := be_beNat ((bs.drop n).take 2)
        rw [hl2, hk] at this; exact this
      have hlen : ((bs.drop (n + 2)).take k).length = k := by simp; omega
      refine ⟨by rw [hlen]; exact h2', bs.take n, by simp; omega, ?_⟩
      have e : bs.take n ++ be 2 ((bs.drop (n + 2)).take k).length ++ (bs.drop (n + 2)).take k = bs.take (n + 2 + k) := by
        rw [hlen, hb, List.take_add (i := n + 2), List.take_add (i := n)]
      rw [e, sealed, h4, List.take_append_drop]
    · cases h
  · rintro ⟨hl, head, hn, rfl⟩
    have e1 : (sealed (head ++ be 2 body.length ++ body)).drop n = be 2 body.length ++ (body ++ crcBytes (head ++ be 2 body.length ++ body)) := by
      subst hn
      simp [sealed, List.append_assoc]
    have e2 : ((sealed (head ++ be 2 body.length ++ body)).drop n).take 2 = be 2 body.length := by
      rw [e1]; exact List.take_left' (by simp)
    have e3 : (sealed (head ++ be 2 body.length ++ body)).drop (n + 2) = body ++ crcBytes (head ++ be 2 body.length ++ body) := by
      rw [← List.drop_drop, e1]; exact List.drop_left' (by simp)
    have e4 : beNat (be 2 body.length) = body.length := beNat_be (by norm_num; omega)
    have e5 : (sealed (head ++ be 2 body.length ++ body)).take (n + 2 + body.length) = head ++ be 2 body.length ++ body :=
      List.take_left' (by simp [hn]; omega)
    have e6 : (sealed (head ++ be 2 body.length ++ body)).drop (n + 2 + body.length) = crcBytes (head ++ be 2 body.length ++ body) :=
      List.drop_left' (by simp [hn]; omega)
    have e7 : (sealed (head ++ be 2 body.length ++ body)).length = n + 2 + body.length + 2 := by
      simp [sealed, crcBytes, hn]; omega
    rw [e2, e4, e5, e6, e7, e3, if_pos ⟨by omega, hl, rfl, rfl⟩]
    simp

end Sys2Proof.Machine
end

