-- ==== Sys2Proof/Laws/Requests.lean ====
section
/-! SUPPORT. Reading a request body, serving a request in its turn and the order of its refusals. -/

namespace Sys2Proof.Machine

/-- A field of a body written as three parts is the middle part. -/
theorem field_of_parts {body pre mid post : List Byte} {off k : Nat} (h : body = pre ++ (mid ++ post)) (ho : pre.length = off) (hk : mid.length = k) :
    field body off k = beNat mid := by
  subst h ho hk
  unfold field
  rw [List.drop_left, List.take_left]

/-- A booking in range fits the widths of its fields. -/
theorem inRange_bounds {f : Booking} (h : f.inRange = true) : f.length < 65536 ∧ f.draw < 65536 ∧ (∀ g ∈ f.grace, g < 65536) ∧ f.token.toNat < 256 ^ 8 := by
  simp only [Booking.inRange, Bool.and_eq_true, decide_eq_true_eq] at h
  obtain ⟨⟨⟨⟨⟨_, _⟩, a⟩, _⟩, b⟩, c⟩ := h
  refine ⟨by omega, by omega, fun g hg => ?_, ?_⟩
  · rw [Option.mem_def] at hg; rw [hg] at b; simp at b; omega
  · have := f.token.isLt; norm_num at this ⊢; exact this

/-- A flag written is read back. -/
theorem yesNo_flag (a : Bool) : yesNo (beNat (flag a)) = some a := by cases a <;> rfl

/-- An optional field written is read back. -/
theorem optional_read (k : Nat) (o : Option Nat) (h : ∀ g ∈ o, g < 256 ^ k) :
    (yesNo (beNat (flag o.isSome))).map (fun there => if there then some (beNat (be k (o.getD 0))) else none) = some o := by
  rw [yesNo_flag]
  cases o with
  | none => rfl
  | some g => simp [beNat_be (h g rfl)]

/-- A slot waits to be served exactly if it holds an unserved request. -/
theorem unserved_isSome (w : Option Waiting) : (unserved w).isSome = true ↔ ∃ r, w = some { request := r, served := false } := by
  match w with
  | none => simp [unserved]
  | some ⟨r, false⟩ => simp [unserved]
  | some ⟨r, true⟩ => simp [unserved]

/-- What finishing a turn does to the ports, for any answer. -/
theorem finishTurn_shape (s : State) (port : Port) (r : Request) (a : Answer) :
    ∃ (q : Blocks) (x : Response), x.tag = r.tag ∧ x.kind = r.kind ∧ s.finishTurn port r a =
      (match port with
      | .site =>
        { s with
          blocks := q, lastServed := .site
          site := { s.site with slot := some { request := r, served := true }, response := some x, ready := true } }
      | .ramp =>
        { s with
          blocks := q, lastServed := .ramp
          ramp := { s.ramp with
            slot := some { request := r, served := true }
            tx := some (0x7E#8 :: ([x.tag, x.kind, x.status] ++ be 2 x.body.length ++ x.body ++
              be 2 (crc16 ([x.tag, x.kind, x.status] ++ be 2 x.body.length ++ x.body)).toNat)) } }) := by
  refine ⟨a.blocks, responseTo r a, rfl, rfl, ?_⟩
  cases port <;> rfl

/-- A row serves the request of its own kind that is in its turn, for a permitted class. -/
theorem serve_of_serves {s : State} {k : Nat} {port : Port} {c : Machine.Class} {r : Request} (h : s.Serves k port c r) (may : Permission) (refused judge) (hm : may port c = true) :
    serve (ofKind k) may refused judge port r s = .next (s.finishTurn port r (judge port c r.body s.blocks)) :=
  serve_allowed h.1 (by simp [ofKind, h.2.1]) h.2.2 hm

/-- A row answers CLASS_DENIED to a class that is not permitted. -/
theorem serve_of_denied {s : State} {k : Nat} {port : Port} {c : Machine.Class} {r : Request} (h : s.Serves k port c r) (may : Permission) (refused judge) (hm : may port c = false) :
    serve (ofKind k) may refused judge port r s = .next (s.finishTurn port r { blocks := s.blocks, status := .classDenied, body := refused s.blocks }) := by
  simp [serve_eq, h.1, ofKind, h.2.1, judged, h.2.2, hm]

/-- A bay reference names DIRECT exactly if its zone byte is 255. -/
theorem bayRef_direct_iff {ref : BayRef} {z sel : Nat} (h : bayRef z sel = some ref) : z = 255 ↔ ∃ b, ref = .direct b := by
  unfold bayRef at h
  split at h
  · cases h; simp; omega
  · split at h
    · rename_i e
      have e : z = 255 := e
      simp only [Option.map_eq_some_iff] at h
      obtain ⟨b, _, rfl⟩ := h
      simp [e]
    · cases h

/-- The length of a BOOK BAY body and when it names DIRECT. -/
theorem bookBayFields_shape {body ref f} (h : bookBayFields body = some (ref, f)) : body.length = 22 ∧ (field body 8 1 = 255 ↔ ∃ b, ref = .direct b) := by
  unfold bookBayFields at h
  split at h
  · cases h
  · rename_i hl
    simp only [Option.bind_eq_some_iff] at h
    obtain ⟨r, hr, _, _, _, _, h⟩ := h
    split at h <;> cases h
    exact ⟨by simpa using hl, bayRef_direct_iff hr⟩

/-- The length of a BOOK NOW body and when it names DIRECT. -/
theorem bookNowFields_shape {m body ref f} (h : bookNowFields m body = some (ref, f)) : body.length = 15 ∧ (field body 8 1 = 255 ↔ ∃ b, ref = .direct b) := by
  unfold bookNowFields at h
  split at h
  · cases h
  · rename_i hl
    simp only [Option.bind_eq_some_iff] at h
    obtain ⟨r, hr, _, _, h⟩ := h
    split at h <;> cases h
    exact ⟨by simpa using hl, bayRef_direct_iff hr⟩

/-- The length of a LIST BAY body and when it names DIRECT. -/
theorem listBayFields_shape {body ref} (h : listBayFields body = some ref) : body.length = 2 ∧ (field body 0 1 = 255 ↔ ∃ b, ref = .direct b) := by
  unfold listBayFields at h
  split at h
  · exact ⟨by assumption, bayRef_direct_iff h⟩
  · cases h

theorem namesDirect_iff (n off : Nat) (body : List Byte) : namesDirect n off body = true ↔ body.length = n ∧ field body off 1 = 255 := by
  simp [namesDirect, directCode]

/-- The first refusal of two lists of checks in a row. -/
theorem firstRefusal_append (xs ys : List (Bool × Status)) : firstRefusal (xs ++ ys) = (firstRefusal xs).or (firstRefusal ys) := by
  induction xs with
  | nil => simp
  | cons x xs ih =>
    obtain ⟨ok, st⟩ := x
    rw [List.cons_append, firstRefusal_cons, firstRefusal_cons, ih]
    cases ok <;> simp

theorem if_decide_eq {α : Type} (c : Prop) [Decidable c] (a b : α) : (if decide c = true then a else b) = if c then a else b := by
  by_cases h : c <;> simp [h]

/-- The token and pool checks refuse as Safety.lean states the order. -/
theorem tokenAndPool_refusal (p : Blocks) (f : Booking) : firstRefusal (tokenAndPool p f) = p.tokenRefusal f := by
  unfold tokenAndPool Blocks.tokenRefusal
  rw [firstRefusal_cons, firstRefusal_cons, firstRefusal_cons, firstRefusal_nil]
  have h2 : p.book.tokenIsFree f.token f.start f.length = true ↔ ¬ ∃ x ∈ p.book.tokenRecords f.token, f.start < x.start + x.length ∧ x.start < f.start + f.length := by
    simp only [Book.tokenIsFree, List.all_eq_true, Bool.not_eq_true', overlaps, Bool.and_eq_false_iff, decide_eq_false_iff_not]
    simp only [Record.endMinute]
    constructor
    · rintro h ⟨x, hx, h3, h4⟩; rcases h x hx with h | h <;> omega
    · intro hc x hx
      by_contra h
      exact hc ⟨x, hx, by omega, by omega⟩
  have h1 : p.book.tokenHasRoom f.token = true ↔ ¬ 3 ≤ (p.book.tokenSlots f.token).length := by
    rw [Book.tokenHasRoom, decide_eq_true_eq]; show _ < 3 ↔ _; omega
  by_cases a : 3 ≤ (p.book.tokenSlots f.token).length
  · rw [if_neg (fun h => h1.1 h a), if_pos a]
  · rw [if_pos (h1.2 a), if_neg a]
    by_cases b : ∃ x ∈ p.book.tokenRecords f.token, f.start < x.start + x.length ∧ x.start < f.start + f.length
    · rw [if_neg (fun h => h2.1 h b), if_pos b]
    · rw [if_pos (h2.2 b), if_neg b]
      cases p.book.free <;> simp

/-- The timeline checks refuse as Safety.lean states the order. -/
theorem timelineChecks_refusal (p : Blocks) (b : BayNo) (f : Booking) : firstRefusal (timelineChecks p b f) = p.timelineRefusal b f := by
  unfold timelineChecks Blocks.timelineRefusal
  rw [firstRefusal_cons, firstRefusal_cons, firstRefusal_nil]
  have h1 : p.book.bayHasRoom b = true ↔ ¬ 10 ≤ (p.book.slotsOn b).length := by
    rw [Book.bayHasRoom, decide_eq_true_eq]; show _ < 10 ↔ _; omega
  by_cases a : 10 ≤ (p.book.slotsOn b).length
  · rw [if_neg (fun h => h1.1 h a), if_pos a]
  · rw [if_pos (h1.2 a), if_neg a]
    cases fitsGap p.params.turnoverGap f.start f.length (p.book.timeline b) <;> simp

/-- The start checks refuse as Safety.lean states the order. -/
theorem startChecks_refusal (p : Blocks) (f : Booking) : firstRefusal (startChecks p f ++ tokenAndPool p f) = p.startRefusal f := by
  rw [firstRefusal_append, tokenAndPool_refusal]
  unfold startChecks Blocks.startRefusal
  rw [firstRefusal_cons, firstRefusal_cons, firstRefusal_nil, if_decide_eq, if_decide_eq]
  by_cases h1 : f.start < p.now
  · rw [if_neg (show ¬ p.now ≤ f.start by omega), if_pos h1]; rfl
  · rw [if_pos (show p.now ≤ f.start by omega), if_neg h1]
    by_cases h2 : p.now + 10080 < f.start
    · rw [if_neg (show ¬ f.start ≤ p.now + Config.horizon by simp only [Config.horizon]; omega), if_pos h2]; rfl
    · rw [if_pos (show f.start ≤ p.now + Config.horizon by simp only [Config.horizon]; omega), if_neg h2]; rfl

/-- The checks of BOOK BAY refuse as Safety.lean states the order. -/
theorem bookBayChecks_refusal (p : Blocks) (c : Machine.Class) (b : BayNo) (f : Booking) : firstRefusal (bookBayChecks p c b f) = p.bayRefusal c b f := by
  unfold bookBayChecks Blocks.bayRefusal
  rw [List.append_assoc, List.append_assoc, firstRefusal_append, ← List.append_assoc, firstRefusal_append (startChecks p f ++ _), startChecks_refusal, timelineChecks_refusal]
  simp only [firstRefusal_cons, firstRefusal_nil]
  cases p.available b <;> cases fits c f.accessible (p.bay b).config.cls <;> simp

/-- The checks of BOOK NOW refuse as Safety.lean states the order. -/
theorem bookNowChecks_refusal (p : Blocks) (c : Machine.Class) (b : BayNo) (f : Booking) : firstRefusal (bookNowChecks p c b f) = p.nowRefusal c b f := by
  unfold bookNowChecks Blocks.nowRefusal
  rw [List.append_assoc, firstRefusal_append, firstRefusal_append (tokenAndPool p f), tokenAndPool_refusal, timelineChecks_refusal]
  simp only [firstRefusal_cons, firstRefusal_nil]
  by_cases h : (p.bay b).state = .serving
  · cases p.available b <;> simp [h]
  · cases p.available b <;> cases fits c f.accessible (p.bay b).config.cls <;> simp [h]

theorem level_cases (p : Blocks) : p.level = .configuring ∨ p.level = .opened := by cases p.level <;> simp

/-- A booking that the token and pool checks pass finds a free slot. -/
theorem free_of_tokenRefusal {p : Blocks} {f : Booking} (h : p.tokenRefusal f = none) : p.book.free ≠ [] := by
  unfold Blocks.tokenRefusal at h
  (repeat' split at h) <;> simp_all

theorem or_none_both {α : Type} {a b : Option α} (h : a.or b = none) : a = none ∧ b = none := by
  cases a <;> simp_all

/-- A BOOK NOW starts at the boundary at or before now. -/
theorem bookNowFields_start {m body ref f} (h : bookNowFields m body = some (ref, f)) : f.start = m - m % 5 := by
  unfold bookNowFields at h
  split at h
  · cases h
  · simp only [Option.bind_eq_some_iff] at h
    obtain ⟨r, hr, _, _, h⟩ := h
    split at h <;> cases h
    rfl

/-- A bay number written is read back. -/
theorem bayFields_be (b : BayNo) : bayFields (be 1 b.val) = some b := by
  have := b.isLt
  have e : field (be 1 b.val) 0 1 = b.val := beNat_be (k := 1) (by simp only [Config.bayCount] at this; omega)
  unfold bayFields
  rw [if_pos (by simp), e, bayOf, dif_pos this]

/-- A feeder number written is read back. -/
theorem feederFields_be (f : FeederNo) : feederFields (be 1 f.val) = some f := by
  have := f.isLt
  have e : field (be 1 f.val) 0 1 = f.val := beNat_be (k := 1) (by simp only [Config.feederCount] at this; omega)
  unfold feederFields
  rw [if_pos (by simp), e, feederOf, dif_pos this]

/-- A feeder and its amperes written are read back. -/
theorem feederAmps_be (f : FeederNo) (n : Nat) (hn : n ≤ 1000) : feederAmps (be 1 f.val ++ be 2 n) = some (f, n) := by
  have := f.isLt
  have e : field (be 1 f.val ++ be 2 n) 0 1 = f.val := beNat_be (k := 1) (by simp only [Config.feederCount] at this; omega)
  have e1 : field (be 1 f.val ++ be 2 n) 1 2 = n := beNat_be (k := 2) (show n < 65536 by omega)
  unfold feederAmps
  rw [e1, if_pos ⟨by simp, hn⟩, e, feederOf, dif_pos this]; rfl

/-- A group and its level written are read back. -/
theorem groupFields_be (g : GroupNo) (l : GroupLevel) : groupFields (be 1 (g.val + 1) ++ be 1 l.code) = some (g, l) := by
  have := g.isLt
  have e : field (be 1 (g.val + 1) ++ be 1 l.code) 0 1 = g.val + 1 := beNat_be (k := 1) (by omega)
  have e1 : field (be 1 (g.val + 1) ++ be 1 l.code) 1 1 = l.code := beNat_be (k := 1) (show l.code < 256 by cases l <;> decide)
  have e2 : GroupLevel.ofCode l.code = some l := by cases l <;> rfl
  unfold groupFields
  rw [if_neg (by simp), e, e1, e2, groupOf, dif_pos (by omega)]
  simp

theorem field_be4 (m : Nat) (h : m < 4294967296) : field (be 4 m) 0 4 = m := beNat_be (k := 4) h

/-- When an optional field within bounds is read. -/
theorem optIn_eq (lo hi : Nat) (o : Option Nat) : optIn lo hi (some o) = if ∃ x ∈ o, x < lo ∨ hi < x then none else some o := by
  cases o with
  | none => simp [optIn]
  | some n =>
    simp only [optIn, Option.bind_some, Option.all_some, decide_eq_true_eq, Option.mem_def, Option.some.injEq, exists_eq_left']
    by_cases h : lo ≤ n ∧ n ≤ hi
    · rw [if_pos h, if_neg (by omega)]
    · rw [if_neg h, if_pos (by omega)]

theorem ofNat16_bit {sel i : Nat} (h : i < 16) : (BitVec.ofNat 16 sel).getLsbD i = sel.testBit i := by
  simp only [BitVec.getLsbD_ofNat, h, decide_true, Bool.true_and]

/-- Which members CLEAR NOTICES leaves in a set. -/
theorem clearMembers_bit {w : Nat} (named : Bool) (o : Option (BitVec w)) (set : BitVec w) (i : Nat) (h : i < w) :
    (clearMembers named o set).getLsbD i = (set.getLsbD i && !(named && o.all (·.getLsbD i))) := by
  unfold clearMembers
  cases named <;> cases o <;> simp [h]

/-- A bit of a packed list of booleans. -/
theorem bits_testBit (xs : List Bool) (i : Nat) : (bits xs).testBit i = true ↔ xs[i]? = some true := by
  induction xs generalizing i with
  | nil => simp [bits]
  | cons b xs ih =>
    cases i with
    | zero =>
      unfold bits
      cases b <;> simp [Nat.testBit_zero, Nat.add_mod]
    | succ i =>
      have : ((if b then 1 else 0) + 2 * bits xs) / 2 = bits xs := by split <;> omega
      unfold bits
      rw [Nat.testBit_succ, this, ih]; simp

end Sys2Proof.Machine
end

