-- ==== Sys2Proof/Laws/Settle.lean ====
section
/-! SUPPORT. Creating a record, settling one, leaving a bay entry due and losing a bay: what each shared operation does, said once. -/

namespace Sys2Proof.Machine

theorem descriptorIndex_inj {c c' : Machine.Class} {z z' : ZoneNo} : descriptorIndex c z = descriptorIndex c' z' ↔ c' = c ∧ z' = z := by
  constructor
  · intro h
    have := congrArg Fin.val h
    have h1 := z.isLt
    have h2 := z'.isLt
    simp only [descriptorIndex] at this
    cases c <;> cases c' <;> simp only [Class.code] at this <;> first | exact ⟨rfl, Fin.ext (by omega)⟩ | omega
  · rintro ⟨rfl, rfl⟩; rfl

/-- A descriptor written is read back, and no other changes. -/
theorem descriptor_setDescriptor (m : ZoneMap) (c c' : Machine.Class) (z z' : ZoneNo) (d : Descriptor) :
    (m.setDescriptor c z d).descriptor c' z' = if c' = c ∧ z' = z then d else m.descriptor c' z' := by
  unfold ZoneMap.descriptor ZoneMap.setDescriptor
  simp only [Fin.getElem_fin, setAt_get, descriptorIndex_inj]

/-- What marking a selection used changes in the zone map. -/
theorem markUsed_markedFor (p : Blocks) (r : Record) : p.zones.MarkedFor (p.markUsed r.originClass r.originZone).zones r := by
  unfold ZoneMap.MarkedFor Blocks.markUsed
  cases e : r.originZone with
  | zone z =>
    refine ⟨rfl, rfl, fun c z' => ?_⟩
    simp only [Blocks.withZones_zones]
    rw [descriptor_setDescriptor]
    by_cases h : c = r.originClass ∧ z' = z
    · obtain ⟨rfl, rfl⟩ := h; simp
    · rw [if_neg h, if_neg]
      rintro ⟨h1, h2⟩; apply h; refine ⟨h1, ?_⟩; cases h2; rfl
  | direct => exact ⟨rfl, rfl, fun c z => by simp⟩

/-- What creating a record does to the book. -/
theorem create_created {k l : Book} {r r' : Record} (h : k.create r = some (l, r')) : ∃ sl, k.free = sl :: l.free ∧ r' = { r with ticket := { slot := sl.val, gen := k.gens[sl] } } ∧ k.Created l sl r' ∧ l.heldReport = k.heldReport := by
  unfold Book.create at h
  split at h
  · cases h
  · rename_i sl rest he
    cases h
    refine ⟨sl, he, rfl, ⟨he, rfl, ?_, fun x hx => ?_, ?_, fun b hb => ?_, rfl, rfl, rfl⟩, rfl⟩
    · simp [Book.rec?, Book.joinTimeline, Book.put]
    · simp only [Book.rec?, Book.joinTimeline, Book.put, Fin.getElem_fin, setAt_get, if_neg (Ne.symm hx)]
    · simp [Book.slotsOn, Book.joinTimeline, Book.put]; rfl
    · simp only [Book.slotsOn, Book.joinTimeline, Book.put, Fin.getElem_fin, setAt_get]; exact if_neg (Ne.symm hb)

/-- A record is created while a slot is free. -/
theorem create_of_free {k : Book} (h : k.free ≠ []) (r : Record) : ∃ l r', k.create r = some (l, r') := by
  unfold Book.create
  cases e : k.free with
  | nil => exact absurd e h
  | cons sl rest => exact ⟨_, _, rfl⟩

/-- What an accepted booking does. -/
theorem admitHeld_spec {p : Blocks} (hf : p.book.free ≠ []) (r : Record) : ∃ (q : Blocks) (sl : Slot) (x : Record),
    admitHeld p r = { blocks := q, status := .ok, body := recordReport q x } ∧ x = { r with ticket := x.ticket } ∧ p.Admitted q sl x := by
  obtain ⟨k, r', hc⟩ := create_of_free hf r
  obtain ⟨sl, h1, h2, h3, h4⟩ := create_created hc
  unfold admitHeld
  rw [hc]
  dsimp only
  have hb : r'.bay = r.bay := by rw [h2]
  have hst : r'.state = r.state := by rw [h2]
  have hz : ∀ p : Blocks, p.markUsed r.originClass r.originZone = p.markUsed r'.originClass r'.originZone := by intro p; rw [h2]
  have hset : k.settled = p.book.settled := h3.2.2.2.2.2.2.2.2
  refine ⟨_, sl, r', rfl, by rw [h2], ?_⟩
  have hcond : (r.state = RecState.held ∧ (!p.book.hasHeld r.bay) = true) ↔ (r'.state = .held ∧ p.book.hasHeld r'.bay = false) := by rw [hb, hst]; simp
  rw [hz]
  by_cases hh : r'.state = .held ∧ p.book.hasHeld r'.bay = false
  · rw [if_pos (hcond.2 hh), ← hb]
    have hbk : (((p.withBook k).markUsed r'.originClass r'.originZone).evalPool.sendHold r'.bay).book = { k with heldReport := setAt k.heldReport r'.bay true } := by
      simp [Blocks.sendHold, Blocks.report, Blocks.sendBay]
    refine ⟨?_, ?_, ?_, ?_, ?_⟩
    · rw [hbk]; exact h3
    · simpa using markUsed_markedFor (p.withBook k) r'
    · rw [hbk]; simp [Blocks.evalPool, Book.poolLow, Book.settledWaiting, hset]
    · rw [if_pos hh]
      simp [Blocks.sendHold, Blocks.report, Blocks.sendBay, h4]
    · unfold Blocks.markUsed; cases r'.originZone <;> rfl
  · rw [if_neg (fun e => hh (hcond.1 e))]
    have hbk : ((p.withBook k).markUsed r'.originClass r'.originZone).evalPool.book = k := by simp
    refine ⟨?_, ?_, ?_, ?_, ?_⟩
    · rw [hbk]; exact h3
    · simpa using markUsed_markedFor (p.withBook k) r'
    · rw [hbk]; simp [Blocks.evalPool, Book.poolLow, Book.settledWaiting, hset]
    · rw [if_neg hh]
      simp [h4]
    · unfold Blocks.markUsed; cases r'.originZone <;> rfl

/-- What an accepted BOOK NOW does. -/
theorem admitServing_spec {p : Blocks} (hf : p.book.free ≠ []) (r : Record) : ∃ (q : Blocks) (sl : Slot) (x : Record),
    admitServing p r = { blocks := q, status := .ok, body := recordReport q x } ∧ x = { r with ticket := x.ticket } ∧ p.AdmittedServing q sl x := by
  obtain ⟨k, r', hc⟩ := create_of_free hf r
  obtain ⟨sl, h1, h2, h3, h4⟩ := create_created hc
  unfold admitServing
  rw [hc]
  dsimp only
  have hb : r'.bay = r.bay := by rw [h2]
  have hd : r'.draw = r.draw := by rw [h2]
  have hz : ∀ p : Blocks, p.markUsed r.originClass r.originZone = p.markUsed r'.originClass r'.originZone := by intro p; rw [h2]
  have hset : k.settled = p.book.settled := h3.2.2.2.2.2.2.2.2
  refine ⟨_, sl, r', rfl, by rw [h2], ?_⟩
  rw [hz, ← hb, ← hd]
  refine ⟨?_, ?_, ?_, ?_, ?_, ?_, ?_⟩
  · simpa using h3
  · simpa using markUsed_markedFor (p.withBook k) r'
  · simpa using h4
  · simp [Blocks.evalPool, Book.poolLow, Book.settledWaiting, hset, Blocks.sendAlloc]
  · simp [Blocks.sendAlloc]
  · unfold Blocks.markUsed; cases r'.originZone <;> rfl
  · unfold Blocks.markUsed; cases r'.originZone <;> rfl

theorem hasHeld_congr {k l : Book} (h1 : k.pool = l.pool) (h2 : k.timelines = l.timelines) (b : BayNo) : k.hasHeld b = l.hasHeld b := by
  simp [Book.hasHeld, Book.slotsWhere, Book.slotsOn, Book.rec?, h1, h2]

/-- The pool conditions reported twice are reported once. -/
@[simp] theorem Notices.setLevels_again (n : Notices) (a b c d : Bool) : (n.setLevels a b).setLevels c d = n.setLevels c d := rfl

/-- A settlement of a live record, as one update; a quiet one, within the deadline pass, sends no UNHOLD. -/
theorem settle_update {p : Blocks} {sl : Slot} {r : Record} (hr : p.book.rec? sl = some r) (hl : r.state ≠ .settled) (quiet : Bool) (o : Result) (c : Option Cause) :
    ∀ k, k = p.book.settle sl o c p.now →
    p.settle quiet sl o c = { p with
      book := { k with heldReport := if r.state = .held ∧ quiet = false ∧ k.hasHeld r.bay = false then setAt k.heldReport r.bay false else k.heldReport }
      notices := p.notices.setLevels (k.poolLow p.params.poolLow) k.settledWaiting
      mail :=
      { toBays := p.mail.toBays ++ (if r.state = .held ∧ quiet = false ∧ k.hasHeld r.bay = false then [.unhold r.bay] else []) ++
        (if o = .revoked ∧ r.state.vehicle = true then [.endServing r.bay] else [])
        toAlloc := p.mail.toAlloc ++ (if r.state = .session then [.release r.bay] else [])
        toReloc := p.mail.toReloc ++ (if r.relocPending then [r.ticket] else [])
        raises := p.mail.raises ++ (if c = some .bayLost then [(.book, .stranded)] else []) } } := by
  intro k hk
  unfold Blocks.settle
  simp only [hr, if_neg hl, ← hk]
  have e1 : ∀ (a : Prop) [Decidable a] (q : Blocks) (s w), (if a then q.raise s w else q) = q.withMail { q.mail with raises := q.mail.raises ++ if a then [(s, w)] else [] } := by
    intro a _ q s w; by_cases h : a <;> simp [h] <;> rfl
  have e2 : ∀ (a : Prop) [Decidable a] (q : Blocks) (m), (if a then q.sendAlloc m else q) = q.withMail { q.mail with toAlloc := q.mail.toAlloc ++ if a then [m] else [] } := by
    intro a _ q m; by_cases h : a <;> simp [h] <;> rfl
  have e3 : ∀ (a : Prop) [Decidable a] (q : Blocks) (m), (if a then q.sendRemoval m else q) = q.withMail { q.mail with toReloc := q.mail.toReloc ++ if a then [m] else [] } := by
    intro a _ q m; by_cases h : a <;> simp [h] <;> rfl
  have e4 : ∀ (a : Prop) [Decidable a] (q : Blocks) (m), (if a then q.sendBay m else q) = q.withMail { q.mail with toBays := q.mail.toBays ++ if a then [m] else [] } := by
    intro a _ q m; by_cases h : a <;> simp [h] <;> rfl
  have e5 : ∀ (a : Prop) [Decidable a] (q : Blocks) (b), (if a then q.sendUnhold b else q) = (q.withBook { q.book with heldReport := if a then setAt q.book.heldReport b false else q.book.heldReport }).withMail { q.mail with toBays := q.mail.toBays ++ if a then [.unhold b] else [] } := by
    intro a _ q m; by_cases h : a <;> simp [h] <;> rfl
  rw [e1, e2, e5, e3, e4]
  simp [Blocks.withMail, Blocks.withBook, Blocks.evalPool, Blocks.withNotices]
  exact ⟨by congr, by congr⟩

theorem settle_eq {p : Blocks} {sl : Slot} {r : Record} (hr : p.book.rec? sl = some r) (hl : r.state ≠ .settled) (o : Result) (c : Option Cause) :
    ∀ k, k = p.book.settle sl o c p.now →
    p.settle false sl o c = { p with
      book := { k with heldReport := if r.state = .held ∧ k.hasHeld r.bay = false then setAt k.heldReport r.bay false else k.heldReport }
      notices := p.notices.setLevels (k.poolLow p.params.poolLow) k.settledWaiting
      mail :=
      { toBays := p.mail.toBays ++ (if r.state = .held ∧ k.hasHeld r.bay = false then [.unhold r.bay] else []) ++
        (if o = .revoked ∧ r.state.vehicle = true then [.endServing r.bay] else [])
        toAlloc := p.mail.toAlloc ++ (if r.state = .session then [.release r.bay] else [])
        toReloc := p.mail.toReloc ++ (if r.relocPending then [r.ticket] else [])
        raises := p.mail.raises ++ (if c = some .bayLost then [(.book, .stranded)] else []) } } := by
  intro k hk
  simpa using settle_update hr hl false o c k hk

/-- What a settlement does to the book's own state and to the pool conditions. -/
theorem settle_book {k : Book} {sl : Slot} {r : Record} (hr : k.rec? sl = some r) (hl : r.state ≠ .settled) (o : Result) (c : Option Cause) (m : Nat)
    (v : Vector Bool 96) :
    k.SettledAs { k.settle sl o c m with heldReport := v } sl r (r.settledWith o c m) ∧ (k.settle sl o c m).settledWaiting = true := by
  obtain ⟨f1, f2, f3, f4, f5, f6, f7⟩ := Book.settle_spec hr hl o c m
  refine ⟨⟨(f6 sl).trans (if_pos rfl), fun x hx => (f6 x).trans (if_neg (Ne.symm hx)), (f7 _).trans (if_pos rfl),
    fun b hb => (f7 _).trans (if_neg (Ne.symm hb)), f5, fun x => ?_, f1, f2⟩, ?_⟩
  · show x ∈ (k.settle sl o c m).settled ↔ _
    rw [f3, mem_insertSlot]
  · unfold Book.settledWaiting; rw [f3]
    cases e : insertSlot sl k.settled with
    | nil => have : sl ∈ insertSlot sl k.settled := mem_insertSlot.2 (.inl rfl); rw [e] at this; cases this
    | cons _ _ => rfl

/-- A settlement of a live record does what Safety.lean states. -/
theorem settle_settledAs {p : Blocks} {sl : Slot} {r : Record} (hr : p.book.rec? sl = some r) (hl : r.state ≠ .settled) (o : Result) (c : Option Cause) :
    ∀ r', r' = r.settledWith o c p.now → p.SettledAs (p.settle false sl o c) sl r r' := by
  intro r' hr'
  obtain ⟨f1, -, -, f4, -⟩ := Book.settle_spec hr hl o c p.now
  have ho : r'.outcome = some o := by rw [hr']; rfl
  have hc : r'.cause = c := by rw [hr']; rfl
  have bk := settle_book hr hl o c p.now
  rw [settle_eq hr hl o c _ rfl]
  generalize p.book.settle sl o c p.now = k at *
  have hh : ∀ v, ({ k with heldReport := v } : Book).hasHeld r.bay = k.hasHeld r.bay := fun v => hasHeld_congr rfl rfl _
  refine ⟨by rw [hr']; exact (bk _).1, ?_, ?_, ?_, rfl⟩
  · show p.notices.setLevels (decide _) _ = p.notices.setLevels (decide _) true
    rw [(bk k.heldReport).2, f1]
  · simp only [hh]; rw [f4]
  · simp only [hh, ho, hc, Option.some.injEq]

/-- A settlement of a HELD record within the deadline pass does what Safety.lean states. -/
theorem settle_inPass {p : Blocks} {sl : Slot} {r : Record} (hr : p.book.rec? sl = some r) (hl : r.state = .held) (o : Result) (c : Option Cause)
    (ho : o ≠ .revoked) : ∀ r', r' = r.settledWith o c p.now → p.SettledInPass (p.settle true sl o c) sl r r' := by
  intro r' hr'
  have hn : r.state ≠ .settled := by rw [hl]; simp
  obtain ⟨f1, -, -, f4, -⟩ := Book.settle_spec hr hn o c p.now
  have hc : r'.cause = c := by rw [hr']; rfl
  have bk := settle_book hr hn o c p.now
  rw [settle_update hr hn true o c _ rfl]
  generalize p.book.settle sl o c p.now = k at *
  refine ⟨by rw [hr']; exact (bk _).1, ?_, ?_, ?_, rfl⟩
  · show p.notices.setLevels (decide _) _ = p.notices.setLevels (decide _) true
    rw [(bk k.heldReport).2, f1]
  · simp [f4]
  · simp [hc, ho, hl]

theorem rec_put_same (k : Book) (sl : Slot) (r : Record) : (k.put sl r).rec? sl = some r := by simp [Book.put, Book.rec?]

/-- Settling a record that is settled, or a free slot, changes nothing. -/
theorem settle_of_settled {p : Blocks} {sl : Slot} (h : ∀ r, p.book.rec? sl = some r → r.state = .settled) (quiet) (o : Result) (c : Option Cause) : p.settle quiet sl o c = p := by
  unfold Blocks.settle
  cases e : p.book.rec? sl with
  | none => rfl
  | some r => simp only [if_pos (h r e)]

/-- A record cancelled because its bay was lost. -/
def lostRecord (x : Record) : Record := { x with state := .settled, outcome := some .cancelled, cause := some .bayLost, relocPending := false }

theorem settledWith_bayLost (x : Record) (m : Nat) : x.settledWith .cancelled (some .bayLost) m = lostRecord x := rfl

/-- Cancelling every record of a list because its bay was lost. -/
theorem settle_all_lost (xs : List Slot) (p : Blocks) : 
    let q := xs.foldl (fun p sl => p.settle false sl .cancelled (some .bayLost)) p
    (∀ sl, q.book.rec? sl = (p.book.rec? sl).map fun x => if sl ∈ xs ∧ x.state ≠ .settled then lostRecord x else x) ∧
    (∀ b, ∀ sl ∈ q.book.slotsOn b, sl ∈ p.book.slotsOn b) ∧
    (∀ m ∈ p.mail.raises, m ∈ q.mail.raises) ∧
    (∀ sl ∈ xs, ∀ x, p.book.rec? sl = some x → x.state ≠ .settled → (.book, .stranded) ∈ q.mail.raises) := by
  induction xs generalizing p with
  | nil => exact ⟨fun sl => by simp, fun _ _ h => h, fun _ h => h, by simp⟩
  | cons s xs ih =>
    obtain ⟨i1, i2, i3, i4⟩ := ih (p.settle false s .cancelled (some .bayLost))
    simp only [List.foldl_cons]
    by_cases hd : ∀ r, p.book.rec? s = some r → r.state = .settled
    · rw [settle_of_settled hd] at i1 i2 i3 i4 ⊢
      refine ⟨fun sl => ?_, i2, i3, fun sl hsl x hx hn => ?_⟩
      · rw [i1]
        cases e : p.book.rec? sl with
        | none => rfl
        | some x =>
          simp only [Option.map_some, Option.some.injEq, List.mem_cons]
          by_cases h : sl = s
          · subst h; have := hd x e; simp [this]
          · simp [h]
      · rcases List.mem_cons.1 hsl with rfl | h
        · exact absurd (hd x hx) hn
        · exact i4 sl h x hx hn
    · push Not at hd
      obtain ⟨r, hr, hl⟩ := hd
      obtain ⟨⟨h1, h2, h3, h4, -⟩, -, -, h5, -⟩ := settle_settledAs hr hl .cancelled (some .bayLost) _ rfl
      rw [settledWith_bayLost] at h1
      have hraise : (.book, .stranded) ∈ (p.settle false s .cancelled (some .bayLost)).mail.raises := by
        rw [h5]; simp [Record.settledWith]
      refine ⟨fun sl => ?_, fun b sl hm => ?_, fun m hm => i3 m ?_, fun sl hsl x hx hn => ?_⟩
      · rw [i1]
        by_cases h : sl = s
        · subst h; rw [h1, hr]; simp [hl, lostRecord]
        · rw [h2 sl h]
          cases p.book.rec? sl <;> simp [h]
      · have := i2 b sl hm
        by_cases h : b = r.bay
        · subst h; rw [h3] at this; exact (List.mem_filter.1 this).1
        · rwa [h4 b h] at this
      · rw [h5]; simp [hm]
      · exact i3 _ hraise

/-- Which slots are pending on a bay. -/
theorem mem_pendingOn {k : Book} {b : BayNo} {sl : Slot} : sl ∈ k.pendingOn b ↔ sl ∈ k.slotsOn b ∧ ∃ r, k.rec? sl = some r ∧ r.state.pending = true := by
  simp only [Book.pendingOn, Book.slotsWhere, List.mem_filter]
  cases k.rec? sl <;> simp

/-- A fold whose every step does what `step` says, given what the steps keep, does it in turn. -/
theorem inTurn_foldl {α β : Type} {step : β → α → α → Prop} {f : α → β → α} (Inv : α → Prop) (xs : List β)
    (h : ∀ a, Inv a → ∀ x ∈ xs, step x a (f a x) ∧ Inv (f a x)) (a : α) (ha : Inv a) : InTurn step xs a (xs.foldl f a) := by
  induction xs generalizing a with
  | nil => rfl
  | cons x xs ih =>
    obtain ⟨h1, h2⟩ := h a ha x (by simp)
    exact ⟨f a x, h1, ih (fun b hb y hy => h b hb y (by simp [hy])) _ h2⟩

/-- What every step keeps is kept by the steps in turn. -/
theorem InTurn.keeps {α β : Type} {step : β → α → α → Prop} {Inv : α → Prop} {xs : List β} {a b : α} (h : InTurn step xs a b)
    (keep : ∀ x ∈ xs, ∀ c d, step x c d → Inv c → Inv d) (ha : Inv a) : Inv b := by
  induction xs generalizing a with
  | nil => rw [show b = a from h]; exact ha
  | cons x xs ih =>
    obtain ⟨m, h1, h2⟩ := h
    exact ih h2 (fun y hy => keep y (by simp [hy])) (keep x (by simp) _ _ h1 ha)

/-- Settling a list of distinct live records one by one. -/
theorem settle_all_stranded (xs : List Slot) (hn : xs.Nodup) (p : Blocks)
    (hl : ∀ sl ∈ xs, ∃ x, p.book.rec? sl = some x ∧ x.state ≠ .settled) :
    InTurn Blocks.Stranded xs p (xs.foldl (fun p sl => p.settle false sl .cancelled (some .bayLost)) p) := by
  induction xs generalizing p with
  | nil => rfl
  | cons s xs ih =>
    obtain ⟨hs, hn⟩ := List.nodup_cons.1 hn
    obtain ⟨x, hx, hx'⟩ := hl s (by simp)
    have h := settle_settledAs hx hx' .cancelled (some .bayLost) _ rfl
    refine ⟨_, ⟨x, hx, h⟩, ih hn _ fun sl hm => ?_⟩
    obtain ⟨y, hy, hy'⟩ := hl sl (by simp [hm])
    exact ⟨y, by rw [h.1.2.1 sl (by rintro rfl; exact hs hm)]; exact hy, hy'⟩

/-- The pending records of a bay are live, and distinct in a sound book. -/
theorem pendingOn_live {k : Book} {b : BayNo} {sl : Slot} (h : sl ∈ k.pendingOn b) :
    ∃ x, k.rec? sl = some x ∧ x.state ≠ .settled := by
  obtain ⟨_, r, h1, h2⟩ := mem_pendingOn.1 h
  exact ⟨r, h1, by intro e; rw [e] at h2; cases h2⟩

theorem bayEntry_withCause {p : Blocks} {b : BayNo} {x : Reason} (d : BayNo) (h : (p.bayEntry d).isSome = true) : ((p.withReloc (p.reloc.map (Entry.withCause b x))).bayEntry d).isSome = true := by
  unfold Blocks.bayEntry at *
  show (List.findSome? _ (p.reloc.map _)).isSome = true
  rw [List.findSome?_isSome_iff] at h ⊢
  obtain ⟨e, he, h2⟩ := h
  refine ⟨_, List.mem_map_of_mem he, ?_⟩
  cases e with
  | record t => exact h2
  | bay b' r =>
    have : b' = d := by by_contra hc; simp [Entry.reasonFor, hc] at h2
    subst this
    unfold Entry.withCause
    by_cases e : b' = b
    · subst e; simp [Entry.reasonFor]
    · simp [Entry.reasonFor, e]

/-- The list of entries with the reason of one bay's entry changed, as R105's table says. -/
theorem withCause_eq (b : BayNo) (x : Reason) : Entry.withCause b x = fun e =>
    if e = .bay b .closed ∨ e = .bay b .fault ∧ x = .disabled then .bay b x else e := by
  funext e
  cases e with
  | record t => simp [Entry.withCause]
  | bay c y =>
    simp only [Entry.withCause]
    by_cases h : c = b
    · subst h; cases y <;> cases x <;> simp [Reason.update]
    · simp [h]

/-- A bay entry that is due does what Safety.lean states. -/
theorem bayEntryDue_entryDue (p : Blocks) (b : BayNo) (x : Reason) : p.EntryDue (p.bayEntryDue b x) b x := by
  unfold Blocks.EntryDue Blocks.bayEntryDue
  split
  · rw [withCause_eq]; rfl
  split
  · rfl
  split
  · rename_i h; rw [if_pos (show p.reloc.length < Config.listSize from h)]; rfl
  · rename_i h1 h2 h3
    rw [if_neg (show ¬ p.reloc.length < Config.listSize from h3)]
    obtain ⟨i1, i2, i3, i4⟩ := settle_all_lost (p.book.pendingOn b) p
    refine ⟨fun hs => ?_, ?_, ?_, fun sl hsl y hy => ?_, ?_⟩
    · exact settle_all_stranded _ ((hs.2.2.1 b).filter _) p fun sl hsl => pendingOn_live hsl
    · refine List.eq_nil_iff_forall_not_mem.2 fun sl hsl => ?_
      obtain ⟨a1, r, a2, a3⟩ := mem_pendingOn.1 hsl
      rw [i1] at a2
      have a4 := i2 b sl a1
      cases e : p.book.rec? sl with
      | none => rw [e] at a2; cases a2
      | some y =>
        rw [e] at a2
        simp only [Option.map_some, Option.some.injEq] at a2
        split at a2
        · rw [← a2] at a3; cases a3
        · rename_i hn
          subst a2
          have hm := mem_pendingOn.2 ⟨a4, y, e, a3⟩
          obtain ⟨z, hz, hz'⟩ := pendingOn_live hm
          rw [e] at hz; cases hz
          exact hn ⟨hm, hz'⟩
    · obtain ⟨sl, rest, e⟩ := List.exists_cons_of_ne_nil h2
      obtain ⟨r, a2, a3⟩ := pendingOn_live (show sl ∈ p.book.pendingOn b by rw [e]; simp)
      exact i4 sl (by rw [e]; simp) r a2 a3
    · obtain ⟨r, a2, a3⟩ := pendingOn_live hsl
      rw [hy] at a2; cases a2
      rw [i1, hy, Option.map_some, if_pos ⟨hsl, a3⟩]; rfl
    · refine foldl_keeps (fun q : Blocks => q = { p with book := q.book, notices := q.notices, mail := q.mail })
        (fun q sl => q.settle false sl .cancelled (some .bayLost)) _ _ rfl fun q hq sl _ => ?_
      by_cases hd : ∀ r, q.book.rec? sl = some r → r.state = .settled
      · rw [settle_of_settled hd]; exact hq
      · push Not at hd
        obtain ⟨r, hr, hl⟩ := hd
        rw [(settle_settledAs hr hl .cancelled (some .bayLost) _ rfl).2.2.2.2, hq]

/-- The blocks a bay entry that is due can change. -/
theorem bayEntryDue_frame (p : Blocks) (b : BayNo) (x : Reason) : p.bayEntryDue b x = { p with
   book := (p.bayEntryDue b x).book, reloc := (p.bayEntryDue b x).reloc, notices := (p.bayEntryDue b x).notices, mail := (p.bayEntryDue b x).mail } := by
  have h1 := Blocks.bayEntryDue_clock p b x
  have h2 := Blocks.bayEntryDue_boundaries p b x
  have h3 := Blocks.bayEntryDue_level p b x
  have h4 := Blocks.bayEntryDue_params p b x
  have h5 := Blocks.bayEntryDue_zones p b x
  have h6 := Blocks.bayEntryDue_bays p b x
  have h7 := Blocks.bayEntryDue_alloc p b x
  have h8 := Blocks.bayEntryDue_supply p b x
  generalize p.bayEntryDue b x = q at *
  cases q; simp_all

/-- A record that is not pending is left by a bay entry that is due. -/
theorem bayEntryDue_other (p : Blocks) (b : BayNo) (x : Reason) (sl : Slot) (r : Record) (h : p.book.rec? sl = some r) (hn : r.state.pending = false) :
    (p.bayEntryDue b x).book.rec? sl = some r := by
  unfold Blocks.bayEntryDue
  split
  · exact h
  split
  · exact h
  split
  · exact h
  · rw [(settle_all_lost (p.book.pendingOn b) p).1, h, Option.map_some, if_neg]
    rintro ⟨h1, _⟩
    obtain ⟨_, r', h2, h3⟩ := mem_pendingOn.1 h1
    rw [h] at h2; cases h2; rw [hn] at h3; cases h3

theorem servingOn_rec {k : Book} {b : BayNo} {sl : Slot} (h : k.servingOn b = some sl) : sl ∈ k.slotsOn b ∧ ∃ r, k.rec? sl = some r ∧ r.state.vehicle = true := by
  have := List.mem_of_head? h
  simp only [Book.slotsWhere, List.mem_filter] at this
  refine ⟨this.1, ?_⟩
  cases e : k.rec? sl <;> simp_all

theorem vehicle_facts {x : RecState} (h : x.vehicle = true) : x ≠ .settled ∧ x.pending = false ∧ x ≠ .held ∧ x ≠ .booked := by
  cases x <;> simp_all [RecState.vehicle, RecState.pending]

theorem filter_without {xs : List Slot} {P Q : Slot → Bool} {s : Slot} (h : ∀ x ∈ xs, x ≠ s → P x = Q x) (hs : Q s = false) :
    (xs.filter (· != s)).filter P = xs.filter Q := by
  rw [List.filter_filter]
  refine List.filter_congr fun x hx => ?_
  by_cases e : x = s
  · subst e; simp [hs]
  · simp [e, h x hx e]

/-- Settling a record that is not pending leaves the pending records of every bay. -/
theorem pendingOn_settle {p : Blocks} {sl : Slot} {r : Record} (hr : p.book.rec? sl = some r) (hl : r.state ≠ .settled) (hp : r.state.pending = false) (o : Result) (c : Option Cause) (b : BayNo) :
    (p.settle false sl o c).book.pendingOn b = p.book.pendingOn b := by
  obtain ⟨⟨h1, h2, h3, h4, -⟩, -⟩ := settle_settledAs hr hl o c _ rfl
  have same : ∀ x, x ≠ sl → (((p.settle false sl o c).book.rec? x).any fun r => r.state.pending) = ((p.book.rec? x).any fun r => r.state.pending) := fun x hx => by rw [h2 x hx]
  have hs : ((p.book.rec? sl).any fun r => r.state.pending) = false := by rw [hr]; simp [hp]
  have hs' : (((p.settle false sl o c).book.rec? sl).any fun r => r.state.pending) = false := by rw [h1]; simp [Record.settledWith, RecState.pending]
  unfold Book.pendingOn Book.slotsWhere
  by_cases e : b = r.bay
  · subst e
    rw [h3]
    exact filter_without (fun x _ hx => same x hx) hs
  · rw [h4 b e]
    refine List.filter_congr fun x _ => ?_
    by_cases hx : x = sl
    · subst hx; rw [hs, hs']
    · exact same x hx

/-- The loss of a bay, step by step (R95, R105). -/
theorem loseBay_steps (p : Blocks) (b : BayNo) (l : Loss) : ∃ n : Blocks,
    (p.setBay b ((p.bay b).lost l)).Preempted n b l.cause ∧ n.EntryDue (p.loseBay b l) b l.reason ∧
    p.loseBay b l = n.bayEntryDue b l.reason ∧ n.bays = (p.setBay b ((p.bay b).lost l)).bays ∧
    (p.book.servingOn b = none → n = p.setBay b ((p.bay b).lost l)) ∧
    (∀ c, n.book.pendingOn c = p.book.pendingOn c) ∧
    n = { p with bays := n.bays, book := n.book, notices := n.notices, mail := n.mail } := by
  have e : p.loseBay b l = (match (p.setBay b ((p.bay b).lost l)).book.servingOn b with
    | some sl => (p.setBay b ((p.bay b).lost l)).settle false sl .preempted (some l.cause)
    | none => p.setBay b ((p.bay b).lost l)).bayEntryDue b l.reason := rfl
  refine ⟨_, ?_, e ▸ bayEntryDue_entryDue _ _ _, e, ?_, fun h => ?_, fun c => ?_, ?_⟩
  · refine ⟨fun h => by simp only [h], fun sl x h hx => ?_⟩
    obtain ⟨_, r, hr, hv⟩ := servingOn_rec h
    rw [hx] at hr; cases hr
    simp only [h]
    exact settle_settledAs hx (vehicle_facts hv).1 .preempted (some l.cause) _ rfl
  · split
    · rw [Blocks.settle_bays]
    · rfl
  · have h' : (p.setBay b ((p.bay b).lost l)).book.servingOn b = none := h
    simp only [h']
  · split
    · rename_i sl h
      obtain ⟨_, r, hr, hv⟩ := servingOn_rec h
      exact pendingOn_settle hr (vehicle_facts hv).1 (vehicle_facts hv).2.1 _ _ c
    · rfl
  · split
    · rename_i sl h
      obtain ⟨_, r, hr, hv⟩ := servingOn_rec h
      rw [(settle_settledAs hr (vehicle_facts hv).1 .preempted (some l.cause) _ rfl).2.2.2.2]; rfl
    · rfl

/-- What losing a bay changes besides (R95, R105). -/
theorem loseBay_spec (p : Blocks) (b : BayNo) (l : Loss) : 
    (p.loseBay b l).bays = { p.bays with bays := setAt p.bays.bays b ((p.bay b).lost l) } ∧
    (p.book.servingOn b = none → p.book.pendingOn b = [] → p.loseBay b l = { p with bays := (p.loseBay b l).bays, reloc := (p.loseBay b l).reloc }) ∧
    p.loseBay b l = { p with bays := (p.loseBay b l).bays, book := (p.loseBay b l).book, reloc := (p.loseBay b l).reloc, notices := (p.loseBay b l).notices, mail := (p.loseBay b l).mail } := by
  obtain ⟨n, -, -, h3, h4, h5, -, h6⟩ := loseBay_steps p b l
  refine ⟨?_, fun hs hp => ?_, ?_⟩
  · rw [h3, Blocks.bayEntryDue_bays, h4]; rfl
  · rw [h3, h5 hs]
    have hp' : (p.setBay b ((p.bay b).lost l)).book.pendingOn b = [] := hp
    unfold Blocks.bayEntryDue
    split
    · rfl
    · rfl
  · rw [h3, bayEntryDue_frame, h6]

theorem rest_eq_atRest (x : Bay) (w : Nat) : x.rest w = x.atRest w := by
  unfold Bay.rest Bay.atRest
  cases h1 : x.presence <;> cases h2 : x.heldMark <;> simp [Bay.unclaim, Bay.enter, Bay.resign, h1, h2]

/-- The same notices but for the two level flags and ATTN. -/
def SameButLevels (n m : Notices) : Prop := m = { n with poolLow := m.poolLow, settledWaiting := m.settledWaiting, attn := m.attn }

theorem SameButLevels.trans {a b c : Notices} (h : SameButLevels a b) (h' : SameButLevels b c) : SameButLevels a c := by
  unfold SameButLevels at *; rw [h', h]

theorem settle_sameButLevels (p : Blocks) (sl : Slot) (o c) : SameButLevels p.notices (p.settle false sl o c).notices := by
  by_cases hd : ∀ r, p.book.rec? sl = some r → r.state = .settled
  · rw [settle_of_settled hd]; rfl
  · push Not at hd
    obtain ⟨r, hr, hl⟩ := hd
    rw [(settle_settledAs hr hl o c _ rfl).2.1]; rfl

theorem bayEntryDue_sameButLevels (p : Blocks) (b : BayNo) (x : Reason) : SameButLevels p.notices (p.bayEntryDue b x).notices := by
  unfold Blocks.bayEntryDue
  (repeat' split)
  · rfl
  · rfl
  · rfl
  · exact foldl_keeps (fun q : Blocks => SameButLevels p.notices q.notices) _ _ _ rfl fun q hq sl _ => SameButLevels.trans hq (settle_sameButLevels q sl _ _)

theorem loseBay_sameButLevels (p : Blocks) (b : BayNo) (l : Loss) : SameButLevels p.notices (p.loseBay b l).notices := by
  unfold Blocks.loseBay
  dsimp only
  split
  · exact SameButLevels.trans (settle_sameButLevels (p.setBay b _) _ _ _) (bayEntryDue_sameButLevels _ _ _)
  · exact bayEntryDue_sameButLevels (p.setBay b _) _ _

/-- A settlement takes no raise away. -/
theorem settle_keepsRaises (p : Blocks) (sl : Slot) (o c) : ∀ m ∈ p.mail.raises, m ∈ (p.settle false sl o c).mail.raises := by
  intro m hm
  by_cases h : ∃ r, p.book.rec? sl = some r ∧ r.state ≠ .settled
  · obtain ⟨r, h1, h2⟩ := h
    rw [(settle_settledAs h1 h2 o c _ rfl).2.2.2.1]; simp [hm]
  · rw [settle_of_settled (fun r hr => by by_contra hc; exact h ⟨r, hr, hc⟩)]; exact hm

/-- A bay entry that is due takes no raise away. -/
theorem bayEntryDue_keepsRaises (p : Blocks) (b : BayNo) (x : Reason) : ∀ m ∈ p.mail.raises, m ∈ (p.bayEntryDue b x).mail.raises := by
  intro m hm
  unfold Blocks.bayEntryDue
  split
  · exact hm
  split
  · exact hm
  split
  · exact hm
  · exact (settle_all_lost _ p).2.2.1 m hm

/-- Losing a bay takes no raise away. -/
theorem loseBay_keepsRaises (p : Blocks) (b : BayNo) (l : Loss) : ∀ m ∈ p.mail.raises, m ∈ (p.loseBay b l).mail.raises := by
  intro m hm
  unfold Blocks.loseBay
  dsimp only
  apply bayEntryDue_keepsRaises
  split
  · apply settle_keepsRaises; exact hm
  · exact hm

end Sys2Proof.Machine
end

