-- ==== Sys2Proof/Laws/Actions.lean ====
section
/-! SUPPORT. Levels, actions and the supply state: what a level change does to the bays' actions and to the allocator. -/

namespace Sys2Proof.Machine

/-- Clearing one bay of a set leaves the others. -/
theorem clearBay_bits (n : BitVec 96) (b b' : BayNo) : (n &&& ~~~(BitVec.twoPow 96 b.val)).getLsbD b'.val = (n.getLsbD b'.val && b' != b) := by
  have h : b'.val < 96 := b'.isLt
  rw [BitVec.getLsbD_and, BitVec.getLsbD_not, BitVec.getLsbD_twoPow]
  by_cases e : b' = b
  · subst e; simp [h]
  · have h2 : ¬ b.val = b'.val := fun h => e (Fin.ext h.symm)
    simp [e, h2, h]

theorem curtail_actions (a : Allocator) (b : BayNo) (x : Action) (m : Nat) : (a.curtail b x m).actions = setAt a.actions b x := by simp

/-- The blocks setting an action can change. -/
theorem setAction_frame (p : Blocks) (b : BayNo) (x : Action) : p.setAction b x = { p with
    bays := { p.bays with bays := (p.setAction b x).bays.bays }, supply := (p.setAction b x).supply, alloc := (p.setAction b x).alloc, book := (p.setAction b x).book
    reloc := (p.setAction b x).reloc, notices := (p.setAction b x).notices, mail := (p.setAction b x).mail } := by
  unfold Blocks.setAction
  dsimp only
  split
  · rfl
  · split
    · rw [bayEntryDue_frame]; rfl
    · split <;> rfl

theorem trimOne_feeder (f : FeederNo) (a : Allocator) (b : BayNo) (g : FeederNo) : (a.trimOne f b).feeder g = a.feeder g := by
  unfold Allocator.trimOne; split <;> rfl

/-- Requeueing changes only the two lists of its feeder. -/
theorem requeueOne_feeder (f : FeederNo) (a : Allocator) (b : BayNo) :
    (∀ g, g ≠ f → (a.requeueOne f b).feeder g = a.feeder g) ∧
    (a.requeueOne f b).feeder f = { a.feeder f with grants := ((a.requeueOne f b).feeder f).grants, queue := ((a.requeueOne f b).feeder f).queue } := by
  unfold Allocator.requeueOne
  split
  · split
    · exact ⟨fun _ _ => rfl, rfl⟩
    · dsimp only
      refine ⟨fun g hg => ?_, ?_⟩
      · rw [Allocator.feeder_setFeeder, if_neg (Ne.symm hg)]
        show (a.leaveLists f b).feeder g = _
        unfold Allocator.leaveLists
        rw [Allocator.feeder_setFeeder, if_neg (Ne.symm hg)]
      · rw [Allocator.feeder_setFeeder, if_pos rfl]
        have : ∀ o, ((a.leaveLists f b).putSession b o).feeder f = (a.leaveLists f b).feeder f := fun _ => rfl
        rw [this]
        unfold Allocator.leaveLists
        rw [Allocator.feeder_setFeeder, if_pos rfl]
  · exact ⟨fun _ _ => rfl, rfl⟩

/-- A cut changes only the two lists of its feeder. -/
theorem cut_feeder (f : FeederNo) (a : Allocator) :
    (∀ g, g ≠ f → (a.cut f).feeder g = a.feeder g) ∧
    (a.cut f).feeder f = { a.feeder f with grants := ((a.cut f).feeder f).grants, queue := ((a.cut f).feeder f).queue } := by
  unfold Allocator.cut
  dsimp only
  have h : ((a.feeder f).grants.reverse.foldl (Allocator.trimOne f) a).feeder = a.feeder := foldl_leaves (fun q : Allocator => q.feeder) _ _ _ fun q b _ => funext (trimOne_feeder f q b)
  generalize (a.feeder f).grants.reverse.foldl (Allocator.trimOne f) a = d at *
  refine foldl_keeps (fun q : Allocator => (∀ g, g ≠ f → q.feeder g = a.feeder g) ∧ q.feeder f = { a.feeder f with grants := (q.feeder f).grants, queue := (q.feeder f).queue }) _ _ _ ⟨fun g _ => by rw [h], by rw [h]⟩ fun q hq b _ => ?_
  obtain ⟨r1, r2⟩ := requeueOne_feeder f q b
  exact ⟨fun g hg => (r1 g hg).trans (hq.1 g hg), by rw [r2, hq.2]⟩

/-- The level of a group from its lines and the site level. -/
theorem level_eq : ∀ (u : SupplyUnit) (g : GroupNo), u.level g =
    if u.alarm = true ∨ u.sites[g] = .clear then .clear
    else if u.sites[g] = .quiet ∨ g = 0 ∧ u.dr = true then .quiet
    else .normal := by
  intro u g
  unfold SupplyUnit.level
  generalize u.sites[g] = l
  by_cases h : g = 0 ∧ u.dr = true
  · rw [if_pos h]; cases l <;> cases u.alarm <;> simp [h, GroupLevel.max, GroupLevel.code]
  · rw [if_neg h]; cases l <;> cases u.alarm <;> simp [h, GroupLevel.max, GroupLevel.code]

theorem Action.max_code (a b : Action) : a.code ≤ (a.max b).code ∧ b.code ≤ (a.max b).code ∧ (a.max b = a ∨ a.max b = b) := by
  unfold Action.max
  split
  · exact ⟨by assumption, Nat.le_refl _, .inr rfl⟩
  · exact ⟨Nat.le_refl _, by omega, .inl rfl⟩

/-- The action of a bay is the strictest that its groups map to. -/
theorem actionFor_strictest : ∀ (u : SupplyUnit) (x : BayConfig),
    (∀ g : GroupNo, x.groups[g] = true → (x.mapLevel (u.level g)).code ≤ (u.actionFor x).code) ∧
    (u.actionFor x = .continue ∨ ∃ g : GroupNo, x.groups[g] = true ∧ u.actionFor x = x.mapLevel (u.level g)) := by
  intro u x
  unfold SupplyUnit.actionFor
  have key : ∀ (gs : List GroupNo) (a : Action),
      let r := gs.foldl (fun a g => if x.groups[g] then a.max (x.mapLevel (u.level g)) else a) a
      a.code ≤ r.code ∧ (∀ g ∈ gs, x.groups[g] = true → (x.mapLevel (u.level g)).code ≤ r.code) ∧
      (r = a ∨ ∃ g : GroupNo, x.groups[g] = true ∧ r = x.mapLevel (u.level g)) := by
    intro gs
    induction gs with
    | nil => intro a; exact ⟨Nat.le_refl _, by simp, .inl rfl⟩
    | cons g gs ih =>
      intro a
      simp only [List.foldl_cons]
      split
      · rename_i hg
        obtain ⟨m1, m2, m3⟩ := Action.max_code a (x.mapLevel (u.level g))
        obtain ⟨i1, i2, i3⟩ := ih (a.max (x.mapLevel (u.level g)))
        refine ⟨Nat.le_trans m1 i1, fun g' hg' hx => ?_, ?_⟩
        · rcases List.mem_cons.1 hg' with rfl | h
          · exact Nat.le_trans m2 i1
          · exact i2 g' h hx
        · rcases i3 with i3 | i3
          · rw [i3]
            rcases m3 with m3 | m3
            · exact .inl m3
            · exact .inr ⟨g, hg, m3⟩
          · exact .inr i3
      · rename_i hg
        obtain ⟨i1, i2, i3⟩ := ih a
        refine ⟨i1, fun g' hg' hx => ?_, i3⟩
        rcases List.mem_cons.1 hg' with rfl | h
        · exact absurd hx hg
        · exact i2 g' h hx
  obtain ⟨_, k2, k3⟩ := key (List.finRange 3) .continue
  exact ⟨fun g hg => k2 g (List.mem_finRange g) hg, k3⟩

theorem findSome_congr {xs ys : List Entry} {b : BayNo} (h : ys.filterMap (Entry.reasonFor b) = xs.filterMap (Entry.reasonFor b)) : ys.findSome? (Entry.reasonFor b) = xs.findSome? (Entry.reasonFor b) := by
  rw [← List.head?_filterMap, ← List.head?_filterMap, h]

theorem withCause_otherBay {b c : BayNo} (h : b ≠ c) (x : Reason) (xs : List Entry) : (xs.map (Entry.withCause c x)).filterMap (Entry.reasonFor b) = xs.filterMap (Entry.reasonFor b) := by
  rw [List.filterMap_map]
  congr 1
  funext e
  cases e with
  | bay b' r =>
    simp only [Function.comp, Entry.withCause]
    split
    · rename_i e; subst e; simp [Entry.reasonFor, Ne.symm h]
    · rfl
  | record t => rfl

theorem liftClosed_otherBay {b c : BayNo} (h : b ≠ c) (xs : List Entry) : (xs.filter (· != .bay c .closed)).filterMap (Entry.reasonFor b) = xs.filterMap (Entry.reasonFor b) := by
  induction xs with
  | nil => rfl
  | cons e xs ih =>
    rw [List.filter_cons]
    split
    · rw [List.filterMap_cons, List.filterMap_cons, ih]
    · rename_i hn
      simp at hn
      subst hn
      rw [ih, List.filterMap_cons]
      simp [Entry.reasonFor, Ne.symm h]

/-- A bay entry that is due leaves the entries of the other bays. -/
theorem bayEntryDue_otherEntry (p : Blocks) {b c : BayNo} (h : b ≠ c) (x : Reason) : (p.bayEntryDue c x).bayEntry b = p.bayEntry b := by
  unfold Blocks.bayEntryDue Blocks.bayEntry
  split
  · exact findSome_congr (withCause_otherBay h x _)
  split
  · rfl
  split
  · refine findSome_congr ?_
    show (p.reloc ++ [_]).filterMap _ = _
    rw [List.filterMap_append]; simp [Entry.reasonFor, Ne.symm h]
  · have : ((p.book.pendingOn c).foldl (fun p sl => p.settle false sl .cancelled (some .bayLost)) p).reloc = p.reloc := foldl_leaves Blocks.reloc _ _ p fun q _ _ => by simp
    rw [this]

theorem bayEntryDue_pendingEmpty (p : Blocks) (b c : BayNo) (x : Reason) (h : p.book.pendingOn b = []) : (p.bayEntryDue c x).book.pendingOn b = [] := by
  unfold Blocks.bayEntryDue
  split
  · exact h
  split
  · exact h
  split
  · exact h
  · obtain ⟨i1, i2, -, -⟩ := settle_all_lost (p.book.pendingOn c) p
    refine List.eq_nil_iff_forall_not_mem.2 fun sl hsl => ?_
    obtain ⟨a1, r, a2, a3⟩ := mem_pendingOn.1 hsl
    rw [i1] at a2
    have a4 := i2 b sl a1
    cases e : p.book.rec? sl with
    | none => rw [e] at a2; cases a2
    | some y =>
      rw [e] at a2
      simp only [Option.map_some, Option.some.injEq] at a2
      split at a2
      · rw [← a2] at a3; cases a3
      · subst a2
        have : sl ∈ p.book.pendingOn b := mem_pendingOn.2 ⟨a4, y, e, a3⟩
        rw [h] at this; cases this

/-- Setting an action leaves the entries of the other bays. -/
theorem setAction_otherEntry (p : Blocks) {b c : BayNo} (h : b ≠ c) (x : Action) : (p.setAction c x).bayEntry b = p.bayEntry b := by
  unfold Blocks.setAction
  dsimp only
  split
  · rfl
  split
  · exact bayEntryDue_otherEntry _ h _
  split
  · exact findSome_congr (liftClosed_otherBay h _)
  · rfl

theorem setAction_pendingEmpty (p : Blocks) (b c : BayNo) (x : Action) (h : p.book.pendingOn b = []) : (p.setAction c x).book.pendingOn b = [] := by
  unfold Blocks.setAction
  dsimp only
  split
  · exact h
  split
  · exact bayEntryDue_pendingEmpty _ b c _ h
  split
  · exact h
  · exact h

/-- After a bay entry is due the bay has one, or no pending record. -/
theorem bayEntryDue_ownEntry (p : Blocks) (b : BayNo) (x : Reason) : (p.bayEntryDue b x).bayEntry b ≠ none ∨ (p.bayEntryDue b x).book.pendingOn b = [] := by
  have := bayEntryDue_entryDue p b x
  unfold Blocks.EntryDue at this
  split at this
  · rename_i h
    left
    rw [this, ← Option.isSome_iff_ne_none]
    have e := bayEntry_withCause (b := b) (x := x) b h
    rw [withCause_eq] at e
    exact e
  split at this
  · rename_i h
    exact .inr (by rw [this]; exact h)
  split at this
  · left
    rw [this]
    unfold Blocks.bayEntry
    dsimp only
    rw [List.findSome?_append]
    simp [Entry.reasonFor]
  · exact .inr this.2.1

/-- What setting an action does to the entry of its bay. -/
theorem setAction_ownEntry (p : Blocks) (b : BayNo) (x : Action) :
    (x = .close → p.supply.actions[b] ≠ .close → ((p.setAction b x).bayEntry b).isSome ∨ (p.setAction b x).book.pendingOn b = []) ∧
    (x ≠ .close → p.supply.actions[b] = .close → (p.setAction b x).bayEntry b ≠ some .closed) ∧
    ((x = .close ↔ p.supply.actions[b] = .close) → (p.setAction b x).bayEntry b = p.bayEntry b) := by
  unfold Blocks.setAction
  dsimp only
  refine ⟨fun h1 h2 => ?_, fun h1 h2 => ?_, fun h => ?_⟩
  · subst h1
    rw [if_neg h2, if_pos rfl, Option.isSome_iff_ne_none]
    exact bayEntryDue_ownEntry _ b _
  · rw [if_neg (by rw [h2]; exact Ne.symm h1), if_neg h1, if_pos h2]
    unfold Blocks.bayEntry Blocks.liftClose
    intro e
    obtain ⟨y, hy, hr⟩ := List.exists_of_findSome?_eq_some e
    simp only [Blocks.withReloc_reloc, List.mem_filter] at hy
    cases y with
    | bay b' r =>
      simp only [Entry.reasonFor] at hr
      split at hr
      · rename_i e; subst e; cases hr; simp at hy
      · cases hr
    | record t => simp [Entry.reasonFor] at hr
  · split
    · rfl
    · rename_i hne
      by_cases hx : x = .close
      · exact absurd (by rw [h.1 hx, hx]) hne
      · rw [if_neg hx, if_neg (fun e => hx (h.2 e))]; rfl

/-- Setting an action does what Safety.lean states. -/
theorem setAction_taken (p : Blocks) (b : BayNo) (x : Action) : p.ActionTaken (p.setAction b x) b x := by
  refine ⟨fun h => by unfold Blocks.setAction; exact if_pos h, fun h => ?_⟩
  refine ⟨((p.withSupply { p.supply with actions := setAt p.supply.actions b x }).withAlloc
    (p.alloc.curtail b x (p.bay b).config.maxDraw)).setBay b ((p.bay b).setAction x), fun hl => Allocator.curtail_curtailed hl b x _, rfl, ?_⟩
  unfold Blocks.setAction
  dsimp only
  rw [if_neg h]
  split
  · exact bayEntryDue_entryDue _ _ _
  split <;> rfl

/-- The bay entries after a change of action. -/
theorem setAction_bay_changed (p : Blocks) (b : BayNo) {x : Action} (h : p.supply.actions[b] ≠ x) (c : BayNo) :
    (p.setAction b x).bay c = if b = c then (p.bay b).setAction x else p.bay c := by
  have key : ∀ q : Blocks, q.bays = (p.setBay b ((p.bay b).setAction x)).bays → q.bay c = if b = c then (p.bay b).setAction x else p.bay c :=
    fun q hq => by rw [Blocks.bay_congr hq, Blocks.bay_setBay]
  unfold Blocks.setAction
  dsimp only
  rw [if_neg h]
  refine key _ ?_
  (repeat' split) <;> simp [Blocks.setBay, Blocks.bay]

/-- An action other than CLOSE leaves the book, the notices and the messages. -/
theorem setAction_noClose (p : Blocks) (b : BayNo) {x : Action} (h : x = .close → p.supply.actions[b] = .close) :
    (p.setAction b x).book = p.book ∧ (p.setAction b x).notices = p.notices ∧ (p.setAction b x).mail = p.mail := by
  unfold Blocks.setAction
  dsimp only
  split
  · exact ⟨rfl, rfl, rfl⟩
  · rename_i hne
    rw [if_neg fun e => hne ((h e).trans e.symm)]
    split <;> exact ⟨rfl, rfl, rfl⟩

/-- Setting an action keeps the allocator's lists sound. -/
theorem setAction_lists {p : Blocks} (h : p.alloc.ListsSound) (b : BayNo) (x : Action) : (p.setAction b x).alloc.ListsSound := by
  unfold Blocks.setAction
  dsimp only
  (repeat' split)
  · exact h
  all_goals simpa using (Allocator.curtail_tame h b x _).2.1

/-- One bay of a recomputation: recomputed if it is a member of a group asked about. -/
def visitMember (among : GroupNo → Bool) (p : Blocks) (b : BayNo) : Blocks :=
  if (List.finRange 3).any fun g => among g && (p.bay b).config.groups[g] then p.recompute b else p

theorem visitMember_copies {among} {p : Blocks} (h : p.ActionCopies) (b : BayNo) : (visitMember among p b).ActionCopies := by
  unfold visitMember; split
  · exact h.setAction _ _
  · exact h

theorem setAction_get (p : Blocks) (b c : BayNo) (x : Action) : (p.setAction b x).supply.actions[c] = if b = c then x else p.supply.actions[c] := by
  rw [Blocks.setAction_supply]; exact setAt_get _ _ _ _

theorem visitMember_actions (among) (p : Blocks) (b c : BayNo) (h : c ≠ b) : (visitMember among p b).supply.actions[c] = p.supply.actions[c] := by
  unfold visitMember; split
  · exact (setAction_get _ _ _ _).trans (if_neg (Ne.symm h))
  · rfl

theorem visitMember_otherEntry (among) (p : Blocks) (b c : BayNo) (h : c ≠ b) : (visitMember among p b).bayEntry c = p.bayEntry c := by
  unfold visitMember; split
  · exact setAction_otherEntry _ h _
  · rfl

theorem visitMember_pendingEmpty (among) (p : Blocks) (b c : BayNo) (h : p.book.pendingOn c = []) : (visitMember among p b).book.pendingOn c = [] := by
  unfold visitMember; split
  · exact setAction_pendingEmpty _ _ _ _ h
  · exact h

theorem visitMember_ownEntry (among) (p : Blocks) (b : BayNo) :
    ((visitMember among p b).supply.actions[b] = .close → p.supply.actions[b] ≠ .close → ((visitMember among p b).bayEntry b).isSome ∨ (visitMember among p b).book.pendingOn b = []) ∧
    ((visitMember among p b).supply.actions[b] ≠ .close → p.supply.actions[b] = .close → (visitMember among p b).bayEntry b ≠ some .closed) ∧
    (((visitMember among p b).supply.actions[b] = .close ↔ p.supply.actions[b] = .close) → (visitMember among p b).bayEntry b = p.bayEntry b) := by
  unfold visitMember; split
  · have := setAction_ownEntry p b (p.supply.actionFor (p.bay b).config)
    have e : (p.recompute b).supply.actions[b] = p.supply.actionFor (p.bay b).config := by
      unfold Blocks.recompute; rw [Blocks.setAction_supply]; exact setAt_same _ _ _
    rw [e]; exact this
  · exact ⟨fun h h' => absurd h h', fun h h' => absurd h' h, fun _ => rfl⟩

theorem visitMember_fold_skipped (among) (xs : List BayNo) (p : Blocks) (c : BayNo) (h : c ∉ xs) :
    (xs.foldl (visitMember among) p).supply.actions[c] = p.supply.actions[c] ∧ (xs.foldl (visitMember among) p).bayEntry c = p.bayEntry c ∧
    (p.book.pendingOn c = [] → (xs.foldl (visitMember among) p).book.pendingOn c = []) := by
  induction xs generalizing p with
  | nil => exact ⟨rfl, rfl, fun h => h⟩
  | cons b xs ih =>
    simp only [List.mem_cons, not_or] at h
    obtain ⟨i1, i2, i3⟩ := ih (visitMember among p b) h.2
    exact ⟨i1.trans (visitMember_actions _ _ _ _ h.1), i2.trans (visitMember_otherEntry _ _ _ _ h.1), fun e => i3 (visitMember_pendingEmpty _ _ _ _ e)⟩

theorem visitMember_fold_pendingEmpty (among) (xs : List BayNo) (p : Blocks) (c : BayNo) (h : p.book.pendingOn c = []) : (xs.foldl (visitMember among) p).book.pendingOn c = [] :=
  foldl_keeps (fun q : Blocks => q.book.pendingOn c = []) _ _ _ h fun _ hq _ _ => visitMember_pendingEmpty _ _ _ _ hq

/-- What a recomputation over a list of bays does to the entry of one. -/
theorem visitMember_fold_entry (among) (xs : List BayNo) (hn : xs.Nodup) (p : Blocks) (c : BayNo) :
    let q := xs.foldl (visitMember among) p
    (q.supply.actions[c] = .close → p.supply.actions[c] ≠ .close → p.book.pendingOn c ≠ [] → (q.bayEntry c).isSome ∨ q.book.pendingOn c = []) ∧
    (q.supply.actions[c] ≠ .close → p.supply.actions[c] = .close → q.bayEntry c ≠ some .closed) ∧
    ((q.supply.actions[c] = .close ↔ p.supply.actions[c] = .close) → q.bayEntry c = p.bayEntry c) := by
  induction xs generalizing p with
  | nil => exact ⟨fun h h' => absurd h h', fun h h' => absurd h' h, fun _ => rfl⟩
  | cons b xs ih =>
    obtain ⟨hb, hn⟩ := List.nodup_cons.1 hn
    simp only [List.foldl_cons]
    by_cases e : c = b
    · subst e
      obtain ⟨s1, s2, s3⟩ := visitMember_fold_skipped among xs (visitMember among p c) c hb
      obtain ⟨v1, v2, v3⟩ := visitMember_ownEntry among p c
      rw [s1, s2]
      refine ⟨fun h h' _ => ?_, v2, v3⟩
      rcases v1 h h' with v | v
      · exact .inl v
      · exact .inr (s3 v)
    · obtain ⟨i1, i2, i3⟩ := ih hn (visitMember among p b)
      rw [visitMember_actions among p b c e, visitMember_otherEntry among p b c e] at i3
      rw [visitMember_actions among p b c e] at i1 i2
      refine ⟨fun h h' h'' => ?_, i2, i3⟩
      by_cases hp : (visitMember among p b).book.pendingOn c = []
      · exact .inr (visitMember_fold_pendingEmpty _ _ _ _ hp)
      · exact i1 h h' hp

/-- The blocks a recomputation can change. -/
theorem recomputeMembers_frame (p : Blocks) (among) : p.recomputeMembers among = { p with
    supply := (p.recomputeMembers among).supply, alloc := (p.recomputeMembers among).alloc, bays := { p.bays with bays := (p.recomputeMembers among).bays.bays }, book := (p.recomputeMembers among).book
    reloc := (p.recomputeMembers among).reloc, notices := (p.recomputeMembers among).notices, mail := (p.recomputeMembers among).mail } := by
  unfold Blocks.recomputeMembers
  refine foldl_keeps (fun q : Blocks => q = { p with
    supply := q.supply, alloc := q.alloc, bays := { p.bays with bays := q.bays.bays }, book := q.book
    reloc := q.reloc, notices := q.notices, mail := q.mail }) _ _ _ rfl fun q hq b _ => ?_
  split
  · unfold Blocks.recompute
    rw [setAction_frame, hq]
  · exact hq

/-- What setting an action does to the bay entries. -/
theorem setAction_entry {p : Blocks} (h : p.ActionCopies) (b c : BayNo) (x : Action) :
    (p.setAction b x).bay c = { p.bay c with action := (p.setAction b x).supply.actions[c], sign := ((p.setAction b x).bay c).sign } := by
  have hs : (p.setAction b x).supply.actions[c] = if b = c then x else p.supply.actions[c] := by
    rw [Blocks.setAction_supply]; exact setAt_get _ _ _ _
  rw [hs]
  unfold Blocks.setAction
  dsimp only
  have self : ∀ c, p.bay c = { p.bay c with action := p.supply.actions[c], sign := (p.bay c).sign } := fun c => by rw [← h.2 c]
  split
  · rename_i e
    rw [← e]
    split
    · rename_i e; subst e; exact self _
    · exact self _
  · have key : ∀ q : Blocks, (∀ c, q.bay c = if b = c then (p.bay b).setAction x else p.bay c) → q.bay c = { p.bay c with action := if b = c then x else p.supply.actions[c], sign := (q.bay c).sign } := by
      intro q hq
      rw [hq]
      by_cases e : b = c
      · subst e; simp [Bay.setAction, Bay.resign]
      · simp only [if_neg e]; exact self c
    refine key _ fun c => ?_
    split
    · rw [Blocks.bay_congr (Blocks.bayEntryDue_bays _ _ _)]
      rw [Blocks.bay_setBay]; simp
      rfl
    · split
      · show Blocks.bay (Blocks.setBay _ _ _) c = _
        rw [Blocks.bay_setBay]; rfl
      · rw [Blocks.bay_setBay]; rfl

/-- What holds at every turn of the recomputation that follows a change of the levels of `p` to `u`. -/
structure Recomputing (p : Blocks) (u : SupplyUnit) (x : Blocks) : Prop where
  copies : x.ActionCopies
  levels : x.supply = { u with actions := x.supply.actions }
  entries : ∀ c : BayNo, x.bay c = { p.bay c with action := x.supply.actions[c], sign := (x.bay c).sign }
  actions : ∀ c : BayNo, x.supply.actions[c] = p.supply.actions[c] ∨
    x.supply.actions[c] = u.actionFor (p.bay c).config ∧ (x.bay c).sign = signOf (p.bay c).state x.supply.actions[c]
  lists : p.alloc.ListsSound → x.alloc.ListsSound
  noClose : (∀ c : BayNo, u.actionFor (p.bay c).config = .close → p.supply.actions[c] = .close) →
    x.book = p.book ∧ x.notices = p.notices ∧ x.mail = p.mail

theorem Recomputing.config {p u x} (h : Recomputing p u x) (c : BayNo) : (x.bay c).config = (p.bay c).config := by rw [h.entries c]

/-- The action that a turn sets is the one for the new levels. -/
theorem Recomputing.target {p u x} (h : Recomputing p u x) (b : BayNo) : x.supply.actionFor (x.bay b).config = u.actionFor (p.bay b).config := by
  rw [h.config, h.levels, SupplyUnit.actionFor_actions]

theorem Recomputing.visit {p u x} (h : Recomputing p u x) (among : GroupNo → Bool) (b : BayNo) : Recomputing p u (visitMember among x b) := by
  unfold visitMember
  split
  swap
  · exact h
  unfold Blocks.recompute
  rw [h.target b]
  refine ⟨h.copies.setAction _ _, ?_, fun c => ?_, fun c => ?_, fun hl => setAction_lists (h.lists hl) _ _, fun hc => ?_⟩
  · rw [Blocks.setAction_supply, h.levels]
  · have := setAction_entry h.copies b c (u.actionFor (p.bay b).config)
    rw [h.entries c] at this
    exact this
  · by_cases same : x.supply.actions[b] = u.actionFor (p.bay b).config
    · rw [(setAction_taken x b _).1 same]
      exact h.actions c
    rw [setAction_get, setAction_bay_changed x b same]
    by_cases e : b = c
    · subst e
      rw [if_pos rfl, if_pos rfl, h.entries b]
      exact .inr ⟨rfl, rfl⟩
    · rw [if_neg e, if_neg e]
      exact h.actions c
  · obtain ⟨b1, b2, b3⟩ := h.noClose hc
    obtain ⟨s1, s2, s3⟩ := setAction_noClose x b (x := u.actionFor (p.bay b).config) fun e => by
      rcases h.actions b with a | a
      · exact a.trans (hc b e)
      · exact a.1.trans e
    exact ⟨s1.trans b1, s2.trans b2, s3.trans b3⟩

/-- A recomputation does what Safety.lean states. -/
theorem recomputeMembers_recomputed {p : Blocks} (hc : p.ActionCopies) (hf : p.ActionsFollowGroups) (u : SupplyUnit) (among : GroupNo → Bool) (hu : u.actions = p.supply.actions)
    (hl : ∀ g : GroupNo, among g = false → u.level g = p.supply.level g) : p.Recomputed ((p.withSupply u).recomputeMembers among) u := by
  have ups : ∀ b : BayNo, (p.withSupply u).supply.actions[b] = p.supply.actions[b] := fun b => by show u.actions[b] = _; rw [hu]
  have start : Recomputing p u (p.withSupply u) :=
    ⟨hc.congr (by simp) (by simpa using hu) rfl, rfl, fun c => by rw [ups, ← hc.2 c]; rfl, fun c => .inl (ups c), id, fun _ => ⟨rfl, rfl, rfl⟩⟩
  have fin := foldl_keeps (Recomputing p u) (visitMember among) (List.finRange Config.bayCount) _ start fun x hx b _ => hx.visit among b
  have chain : InTurn (fun (b : BayNo) (x y : Blocks) => x.ActionTaken y b (u.actionFor (p.bay b).config)) (List.finRange Config.bayCount)
      (p.withSupply u) ((List.finRange Config.bayCount).foldl (visitMember among) (p.withSupply u)) := by
    refine inTurn_foldl (Recomputing p u) _ (fun x hx b _ => ⟨?_, hx.visit among b⟩) _ start
    unfold visitMember
    split
    · unfold Blocks.recompute
      rw [hx.target b]
      exact setAction_taken _ _ _
    · rename_i hm
      have e : x.supply.actions[b] = u.actionFor (p.bay b).config := by
        rcases hx.actions b with a | a
        · rw [a, hf b]
          refine SupplyUnit.actionFor_congr _ _ _ fun g hg => (hl g ?_).symm
          simp only [List.any_eq_true, not_exists, Bool.and_eq_true, hx.config] at hm
          have := hm g
          simp only [List.mem_finRange, true_and, hg, and_true] at this
          simpa using this
        · exact a.1
      exact ⟨fun _ => rfl, fun h => absurd e h⟩
  have follow := Blocks.recomputeMembers_follow u among hc hf hu hl
  have vs := fun b => visitMember_fold_entry among (List.finRange Config.bayCount) (List.nodup_finRange _) (p.withSupply u) b
  have fr := recomputeMembers_frame (p.withSupply u) among
  have hq : (List.finRange Config.bayCount).foldl (visitMember among) (p.withSupply u) = (p.withSupply u).recomputeMembers among := rfl
  simp only [hq] at vs fin chain
  generalize (p.withSupply u).recomputeMembers among = q at *
  have act : ∀ b : BayNo, q.supply.actions[b] = u.actionFor (p.bay b).config := fun b => (follow b).trans (fin.target b)
  refine ⟨chain, fin.levels, fun b => ⟨act b, by rw [fin.copies.1], fin.entries b, fun h => ?_, ?_, ?_, ?_⟩, fun h => ?_, fin.lists, ?_⟩
  · rcases fin.actions b with a | a
    · exact absurd a h
    · exact a.2
  · have := (vs b).1
    rw [ups] at this
    exact this
  · have := (vs b).2.1
    rw [ups] at this
    exact this
  · have := (vs b).2.2
    rw [ups] at this
    exact this
  · exact fin.noClose fun c e => h c ((act c).trans e)
  · rw [fr]; rfl

/-- The same budget, reserve, staged budget and pending switch at every feeder. -/
def SameFeederSettings (a d : Allocator) : Prop := ∀ f : FeederNo, (d.feeder f).budget = (a.feeder f).budget ∧ (d.feeder f).reserve = (a.feeder f).reserve ∧
  (d.feeder f).staged = (a.feeder f).staged ∧ (d.feeder f).switchPending = (a.feeder f).switchPending

theorem SameFeederSettings.trans {a b c : Allocator} (h : SameFeederSettings a b) (h' : SameFeederSettings b c) : SameFeederSettings a c := fun f =>
  ⟨(h' f).1.trans (h f).1, (h' f).2.1.trans (h f).2.1, (h' f).2.2.1.trans (h f).2.2.1, (h' f).2.2.2.trans (h f).2.2.2⟩

theorem SameFeederSettings.refl (a : Allocator) : SameFeederSettings a a := fun _ => ⟨rfl, rfl, rfl, rfl⟩

theorem SameFeederSettings.put (a : Allocator) (b o) : SameFeederSettings a (a.putSession b o) := fun _ => ⟨rfl, rfl, rfl, rfl⟩

theorem SameFeederSettings.set (a : Allocator) (f : FeederNo) (x : Feeder) (h1 : x.budget = (a.feeder f).budget) (h2 : x.reserve = (a.feeder f).reserve) (h3 : x.staged = (a.feeder f).staged) (h4 : x.switchPending = (a.feeder f).switchPending) : SameFeederSettings a (a.setFeeder f x) := by
  intro g
  rw [Allocator.feeder_setFeeder]
  split
  · rename_i e; subst e; exact ⟨h1, h2, h3, h4⟩
  · exact ⟨rfl, rfl, rfl, rfl⟩

theorem SameFeederSettings.leave (a : Allocator) (f b) : SameFeederSettings a (a.leaveLists f b) := SameFeederSettings.set _ _ _ rfl rfl rfl rfl

theorem SameFeederSettings.joinG (a : Allocator) (f b) : SameFeederSettings a (a.joinGrants f b) := SameFeederSettings.set _ _ _ rfl rfl rfl rfl

theorem SameFeederSettings.joinQ (a : Allocator) (f b) : SameFeederSettings a (a.joinQueue f b) := SameFeederSettings.set _ _ _ rfl rfl rfl rfl

theorem SameFeederSettings.serve (a : Allocator) (f) : SameFeederSettings a (a.serveQueue f) := by
  refine foldl_keeps (fun q => SameFeederSettings a q) _ _ _ (.refl a) fun q hq b _ => hq.trans ?_
  unfold Allocator.serveOne
  split
  · split
    · exact .refl _
    · exact (SameFeederSettings.leave _ _ _).trans ((SameFeederSettings.put _ _ _).trans (SameFeederSettings.joinG _ _ _))
  · exact .refl _

theorem SameFeederSettings.cut (a : Allocator) (f) : SameFeederSettings a (a.cut f) := by
  obtain ⟨k1, k2⟩ := cut_feeder f a
  intro g
  by_cases e : g = f
  · subst e; rw [k2]; exact ⟨rfl, rfl, rfl, rfl⟩
  · rw [k1 g e]; exact ⟨rfl, rfl, rfl, rfl⟩

theorem SameFeederSettings.place (a : Allocator) (b m x) : SameFeederSettings a (a.place b m x) := by
  unfold Allocator.place
  dsimp only
  split
  · exact .put _ _ _
  split
  · exact (SameFeederSettings.put _ _ _).trans (SameFeederSettings.joinG _ _ _)
  · exact (SameFeederSettings.put _ _ _).trans (SameFeederSettings.joinQ _ _ _)

theorem SameFeederSettings.resume (a : Allocator) (c) : SameFeederSettings a (a.resumeAll c) := by
  refine foldl_keeps (fun q => SameFeederSettings a q) _ _ _ (.refl a) fun q hq b _ => hq.trans ?_
  unfold Allocator.resumeOne
  split
  · exact .refl _
  split
  · exact .place _ _ _ _
  · exact .refl _

/-- A change of one feeder's ceiling does what Safety.lean states, and cuts where the granted total exceeds it. -/
theorem ceilingChanged_changed {p : Blocks} (h : p.alloc.ListsSound) (f : FeederNo) {old : Nat} (ho : p.alloc.granted f ≤ old) :
    p.alloc.CeilingChanged (p.ceilingChanged f old).alloc f old ∧
    (p.ceilingChanged f old).mail = { p.mail with
      raises := p.mail.raises ++ if p.alloc.ceiling f < p.alloc.granted f then [(.allocator, .budgetCut)] else [] } := by
  unfold Blocks.ceilingChanged Blocks.cutFeeder
  split
  · rename_i h1
    exact ⟨⟨fun _ => Allocator.serveQueue_served h f, fun e => by omega, fun e => by omega, fun e => by omega⟩,
      by rw [if_neg (by omega)]; simp⟩
  · rename_i h1
    split
    · rename_i h2
      split
      · rename_i h3
        exact ⟨⟨fun e => by omega, fun _ _ => rfl, fun _ e => by omega, fun e => by omega⟩, rfl⟩
      · rename_i h3
        exact ⟨⟨fun e => by omega, fun _ e => by omega, fun _ _ => rfl, fun e => by omega⟩, by simp⟩
    · rename_i h2
      exact ⟨⟨fun e => by omega, fun e => by omega, fun e => by omega, fun _ => rfl⟩, by rw [if_neg (by omega)]; simp⟩

/-- The granted totals of the other feeders stay. -/
theorem ceilingChanged_others {p : Blocks} (h : p.alloc.ListsSound) (f : FeederNo) (old : Nat) {g : FeederNo} (hg : g ≠ f) :
    (p.ceilingChanged f old).alloc.granted g = p.alloc.granted g := by
  unfold Blocks.ceilingChanged
  split
  · exact ((Allocator.serveQueue_served h f).within h).granted h hg
  split
  · exact (Blocks.cutFeeder_spec h f).2.2.2 g (Ne.symm hg)
  · rfl

/-- Each feeder of a list takes the change of its ceiling. -/
theorem ceilingChanged_fold (old : FeederNo → Nat) (a : Allocator) (hw : ∀ f, a.granted f ≤ old f) (xs : List FeederNo) (hn : xs.Nodup) (p : Blocks)
    (h : p.alloc.ListsSound) (hc : ∀ f, p.alloc.ceiling f = a.ceiling f) (hg : ∀ f ∈ xs, p.alloc.granted f = a.granted f) :
    InTurn (fun (f : FeederNo) (x y : Allocator) => x.CeilingChanged y f (old f)) xs p.alloc (xs.foldl (fun p f => p.ceilingChanged f (old f)) p).alloc ∧
    (xs.foldl (fun p f => p.ceilingChanged f (old f)) p).mail = { p.mail with
      raises := p.mail.raises ++ xs.filterMap fun f => if a.ceiling f < a.granted f then some (.allocator, .budgetCut) else none } := by
  induction xs generalizing p with
  | nil => exact ⟨rfl, by simp⟩
  | cons f xs ih =>
    obtain ⟨hf, hn⟩ := List.nodup_cons.1 hn
    have hof : p.alloc.granted f ≤ old f := by rw [hg f (by simp)]; exact hw f
    obtain ⟨k1, k2⟩ := ceilingChanged_changed h f hof
    obtain ⟨s1, s2, -, -⟩ := Blocks.ceilingChanged_spec h f (old f) hof
    obtain ⟨i1, i2⟩ := ih hn _ s1 (fun g => (s2 g).trans (hc g)) fun g hm => by
      rw [ceilingChanged_others h f _ (by rintro rfl; exact hf hm)]; exact hg g (by simp [hm])
    refine ⟨⟨_, k1, i1⟩, ?_⟩
    rw [List.foldl_cons, i2, k2, hc f, hg f (by simp)]
    by_cases e : a.ceiling f < a.granted f <;> simp [e]

/-- Where the ceilings stay there is no work. -/
theorem ceilingChanged_same (p : Blocks) (f : FeederNo) {old : Nat} (h : p.alloc.ceiling f = old) : p.ceilingChanged f old = p := by
  unfold Blocks.ceilingChanged
  rw [if_neg (by omega), if_neg (by omega)]

/-- What a new supply state does to the allocator. -/
theorem allocSupply_spec (p : Blocks) (new : SupplyState) :
    (p.allocSupply new).alloc.supply = new ∧ (p.allocSupply new).alloc.actions = p.alloc.actions ∧ SameFeederSettings p.alloc (p.allocSupply new).alloc ∧
    (∀ a : Allocator, a = { p.alloc with supply := new } →
      (new = .halt → (p.allocSupply new).alloc = a.givenBack ∧ (p.allocSupply new).mail = p.mail) ∧
      (new ≠ .halt → p.alloc.supply = .halt → (p.allocSupply new).mail = p.mail ∧
        (p.allocSupply new).alloc = (List.finRange 96).foldl (Allocator.resumedBy fun b => (p.bay b).config.maxDraw) a) ∧
      (new ≠ .halt → p.alloc.supply ≠ .halt → p.alloc.Sound →
        InTurn (fun (f : FeederNo) (x y : Allocator) => x.CeilingChanged y f (p.alloc.ceiling f)) (List.finRange Config.feederCount) a (p.allocSupply new).alloc ∧
        (p.allocSupply new).mail = { p.mail with raises := p.mail.raises ++ p.alloc.cutRaises a.ceiling }) ∧
      (p.alloc.supply = .returning ∧ new = .reserve ∨ p.alloc.supply = .reserve ∧ new = .returning →
        (p.allocSupply new).alloc = a ∧ (p.allocSupply new).mail = p.mail)) ∧
    p.allocSupply new = { p with alloc := (p.allocSupply new).alloc, mail := (p.allocSupply new).mail } := by
  have frame : ∀ d : Allocator, (p.withAlloc { p.alloc with supply := new }).withAlloc d = { p with alloc := ((p.withAlloc { p.alloc with supply := new }).withAlloc d).alloc, mail := ((p.withAlloc { p.alloc with supply := new }).withAlloc d).mail } := fun d => rfl
  unfold Blocks.allocSupply
  dsimp only
  split
  · rename_i h
    obtain ⟨d1, d2⟩ := Allocator.suspendAll_done { p.alloc with supply := new }
    refine ⟨by simp, by simp, fun f => ?_, ?_, frame _⟩
    · simp only [Blocks.withAlloc_alloc]; rw [d2]; exact ⟨rfl, rfl, rfl, rfl⟩
    · rintro a rfl
      exact ⟨fun _ => ⟨Allocator.suspendAll_givenBack _, rfl⟩, fun e => absurd h e, fun e => absurd h e, fun e => by rcases e with e | e <;> rw [h] at e <;> cases e.2⟩
  · rename_i h
    split
    · rename_i ho
      refine ⟨by simp, by simp, ?_, ?_, frame _⟩
      · simp only [Blocks.withAlloc_alloc]
        exact SameFeederSettings.resume { p.alloc with supply := new } _
      · rintro a rfl
        refine ⟨fun e => absurd e h, fun _ _ => ⟨?_, ?_⟩, fun _ e => absurd ho e, fun e => by rcases e with e | e <;> rw [ho] at e <;> cases e.1⟩
        · simp only [Blocks.withAlloc_mail]
        · rw [Blocks.withAlloc_alloc, Allocator.resumeAll_resumedBy]; rfl
    · rename_i ho
      have one : ∀ q : Blocks, ∀ f, (q.alloc.supply = new ∧ q.alloc.actions = p.alloc.actions ∧ SameFeederSettings p.alloc q.alloc ∧ q = { p with alloc := q.alloc, mail := q.mail }) →
          ((q.ceilingChanged f (p.alloc.ceiling f)).alloc.supply = new ∧ (q.ceilingChanged f (p.alloc.ceiling f)).alloc.actions = p.alloc.actions ∧ SameFeederSettings p.alloc (q.ceilingChanged f (p.alloc.ceiling f)).alloc ∧ q.ceilingChanged f (p.alloc.ceiling f) = { p with alloc := (q.ceilingChanged f (p.alloc.ceiling f)).alloc, mail := (q.ceilingChanged f (p.alloc.ceiling f)).mail }) := by
        intro q f ⟨q1, q2, q3, q4⟩
        unfold Blocks.ceilingChanged Blocks.cutFeeder
        split
        · exact ⟨by simpa using q1, by simpa using q2, q3.trans (by simpa using SameFeederSettings.serve _ _), by rw [q4]; rfl⟩
        split
        · split
          · exact ⟨by simpa using q1, by simpa using q2, q3.trans (by simpa using SameFeederSettings.cut _ _), by rw [q4]; rfl⟩
          · exact ⟨q1, q2, q3, q4⟩
        · exact ⟨q1, q2, q3, q4⟩
      obtain ⟨k1, k2, k3, k4⟩ := foldl_keeps (fun q : Blocks => q.alloc.supply = new ∧ q.alloc.actions = p.alloc.actions ∧ SameFeederSettings p.alloc q.alloc ∧ q = { p with alloc := q.alloc, mail := q.mail })
        (fun p' f => p'.ceilingChanged f (p.alloc.ceiling f)) (List.finRange Config.feederCount) (p.withAlloc { p.alloc with supply := new }) ⟨rfl, rfl, SameFeederSettings.refl p.alloc, rfl⟩ fun q hq f _ => one q f hq
      refine ⟨k1, k2, k3, ?_, k4⟩
      rintro a rfl
      refine ⟨fun e => absurd e h, fun _ e => absurd e ho, fun _ _ hs => ?_, fun e => ?_⟩
      · exact ceilingChanged_fold p.alloc.ceiling { p.alloc with supply := new } (fun f => hs.2 f) _ (List.nodup_finRange _) (p.withAlloc { p.alloc with supply := new }) hs.1 (fun _ => rfl) fun _ _ => rfl
      · have same : ∀ f, ({ p.alloc with supply := new } : Allocator).ceiling f = p.alloc.ceiling f := fun f => by
          unfold Allocator.ceiling
          rcases e with e | e <;> rw [e.1, e.2] <;> rfl
        rw [foldl_keeps (fun q : Blocks => q = p.withAlloc { p.alloc with supply := new }) (fun q f => q.ceilingChanged f (p.alloc.ceiling f)) _ _ rfl
          fun q hq f _ => by rw [hq]; exact ceilingChanged_same _ f (same f)]
        exact ⟨rfl, rfl⟩

/-- A change of the supply state does what Safety.lean states. -/
theorem setSupply_changedTo (p : Blocks) (new : SupplyState) (h : p.supply.state ≠ new) : p.SupplyChangedTo (p.setSupply new) new := by
  unfold Blocks.setSupply
  rw [if_neg h]
  dsimp only
  obtain ⟨k1, k2, k3, k4, k5⟩ := allocSupply_spec (p.withSupply { p.supply with state := new, counter := if new = .returning then p.params.settle else 0 }) new
  generalize (p.withSupply { p.supply with state := new, counter := if new = .returning then p.params.settle else 0 }).allocSupply new = q at *
  have hs : q.supply = { p.supply with state := new, counter := if new = .returning then p.params.settle else 0 } := by rw [k5]; rfl
  have hn : q.notices = p.notices := by rw [k5]; rfl
  have told : supplyChangeTold p.supply.state new = false ↔ (p.supply.state = .returning ∧ new = .reserve ∨ p.supply.state = .reserve ∧ new = .returning) := by
    generalize p.supply.state = o at *
    cases o <;> cases new <;> simp [supplyChangeTold] at h ⊢
  split
  · rename_i ht
    refine ⟨hs, k1, k2, k3, k4, ?_, ?_⟩
    · rw [if_neg (fun e => by rw [told.2 e] at ht; cases ht)]
      simp only [Blocks.withNotices_notices, hn]; rfl
    · rw [k5]; rfl
  · rename_i ht
    refine ⟨hs, k1, k2, k3, k4, ?_, ?_⟩
    · rw [if_pos (told.1 (by simpa using ht)), hn]
    · rw [k5]; rfl

theorem causes_after_restart (m : BitVec 16) : ({ Notices.powerOn with mask := m }.setLevels false false).causes = List.replicate 14 false ∧ ({ Notices.powerOn with mask := m }.setLevels false false).attn = false := by
  refine ⟨rfl, ?_⟩
  simp [Notices.setLevels, Notices.refresh, Notices.wantsAttn, Notices.summary, Notices.causes, Notices.powerOn, bits]

/-- What placing a session does to the session entries. -/
theorem place_session (a : Allocator) (b c : BayNo) (m : Nat) (x : Session) : ∃ g ph, (a.place b m x).session c = (if b = c then some { x with cap := capFor (a.action b) x.draw m, grant := g, phase := ph } else a.session c) ∧
    (ph = .suspended ↔ (a.action b).runs = false ∨ a.supply = .halt) ∧ (a.place b m x).actions = a.actions ∧ (a.place b m x).supply = a.supply := by
  unfold Allocator.place
  dsimp only
  split
  · rename_i hs
    exact ⟨_, _, Allocator.session_putSession _ _ _ _, ⟨fun _ => hs, fun _ => rfl⟩, rfl, rfl⟩
  · rename_i hn
    split
    · refine ⟨min (capFor (a.action b) x.draw m) (a.headroom x.feeder), .charging, ?_, ⟨fun e => (by cases e), fun e => absurd e hn⟩, rfl, rfl⟩
      show (Allocator.putSession _ _ _).session c = _
      exact Allocator.session_putSession _ _ _ _
    · refine ⟨0, .queued, ?_, ⟨fun e => (by cases e), fun e => absurd e hn⟩, rfl, rfl⟩
      show (Allocator.putSession _ _ _).session c = _
      exact Allocator.session_putSession _ _ _ _

/-- What a rebuild of the lists does to the session entries. -/
theorem resumeOne_fold (cfg : BayNo → BayConfig) (xs : List BayNo) (hn : xs.Nodup) (a : Allocator) :
    let d := xs.foldl (Allocator.resumeOne cfg fun _ => true) a
    d.actions = a.actions ∧ d.supply = a.supply ∧ SameFeederSettings a d ∧
    ∀ c, (c ∉ xs → d.session c = a.session c) ∧ (c ∈ xs → (a.session c = none → d.session c = none) ∧
      ∀ x, a.session c = some x → x.phase = .suspended → ∃ g ph, d.session c = some { x with cap := capFor (a.action c) x.draw (cfg c).maxDraw, grant := g, phase := ph } ∧
        (ph = .suspended ↔ (a.action c).runs = false ∨ a.supply = .halt)) := by
  induction xs generalizing a with
  | nil => exact ⟨rfl, rfl, .refl _, fun c => ⟨fun _ => rfl, by simp⟩⟩
  | cons b xs ih =>
    obtain ⟨hb, hn⟩ := List.nodup_cons.1 hn
    simp only [List.foldl_cons]
    obtain ⟨i1, i2, i3, i4⟩ := ih hn (Allocator.resumeOne cfg (fun _ => true) a b)
    have step : ∀ c, ∃ g ph, ((Allocator.resumeOne cfg (fun _ => true) a b).session c = match a.session b with
       | some x => if x.phase = .suspended ∧ b = c then some { x with cap := capFor (a.action b) x.draw (cfg b).maxDraw, grant := g, phase := ph } else a.session c
       | none => a.session c) ∧ (ph = .suspended ↔ (a.action b).runs = false ∨ a.supply = .halt) ∧ (Allocator.resumeOne cfg (fun _ => true) a b).actions = a.actions ∧ (Allocator.resumeOne cfg (fun _ => true) a b).supply = a.supply ∧ SameFeederSettings a (Allocator.resumeOne cfg (fun _ => true) a b) := by
      intro c
      have pick : ∃ ph : Phase, ph = .suspended ↔ (a.action b).runs = false ∨ a.supply = .halt := by
        by_cases h : (a.action b).runs = false ∨ a.supply = .halt
        · exact ⟨.suspended, fun _ => h, fun _ => rfl⟩
        · exact ⟨.charging, fun e => (by cases e), fun e => absurd e h⟩
      obtain ⟨ph, hph⟩ := pick
      unfold Allocator.resumeOne
      cases e : a.session b with
      | none => exact ⟨0, ph, rfl, hph, rfl, rfl, .refl _⟩
      | some x =>
        dsimp only
        by_cases hs : x.phase = .suspended
        · obtain ⟨g, ph, p1, p2, p3, p4⟩ := place_session a b c (cfg b).maxDraw x
          refine ⟨g, ph, ?_, p2, ?_, ?_, ?_⟩
          · simp only [hs, true_and, if_true]; exact p1
          · simp only [hs, true_and, if_true]; exact p3
          · simp only [hs, true_and, if_true]; exact p4
          · simp only [hs, true_and, if_true]; exact .place _ _ _ _
        · refine ⟨0, ph, ?_, hph, ?_, ?_, ?_⟩ <;> simp [hs]
          exact .refl _
    have hact : (Allocator.resumeOne cfg (fun _ => true) a b).actions = a.actions := (step b).choose_spec.choose_spec.2.2.1
    have hsup : (Allocator.resumeOne cfg (fun _ => true) a b).supply = a.supply := (step b).choose_spec.choose_spec.2.2.2.1
    have hsame : SameFeederSettings a (Allocator.resumeOne cfg (fun _ => true) a b) := (step b).choose_spec.choose_spec.2.2.2.2
    have haction : ∀ c, (Allocator.resumeOne cfg (fun _ => true) a b).action c = a.action c := fun c => by simp [Allocator.action]
    have other : ∀ c, c ≠ b → (Allocator.resumeOne cfg (fun _ => true) a b).session c = a.session c := by
      intro c hc
      obtain ⟨g, ph, e, -⟩ := step c
      rw [e]; split
      · rw [if_neg (fun h => hc h.2.symm)]
      · rfl
    refine ⟨i1.trans hact, i2.trans hsup, hsame.trans i3, fun c => ⟨fun hc => ?_, fun hc => ?_⟩⟩
    · simp only [List.mem_cons, not_or] at hc
      rw [(i4 c).1 hc.2, other c hc.1]
    · by_cases e : c = b
      · subst e
        obtain ⟨g, ph, e, e2, -⟩ := step c
        rw [(i4 c).1 hb, e]
        refine ⟨fun h => by rw [h], fun x hx hp => ⟨g, ph, by rw [hx]; simp [hp], e2⟩⟩
      · have hc' : c ∈ xs := by simpa [e] using hc
        obtain ⟨j1, j2⟩ := (i4 c).2 hc'
        rw [other c e] at j1 j2
        rw [haction, hsup] at j2
        exact ⟨j1, j2⟩

end Sys2Proof.Machine
end

