-- ==== Sys2Proof/Laws/Counts.lean ====
section
/-! SUPPORT. What each operation does to the module states, the clock and the parameters, and that every change keeps the counts in range. -/

namespace Sys2Proof.Machine

/-! ## module states kept -/
@[simp] theorem setAction_modules (p : Blocks) (b : BayNo) (a : Action) : (p.setAction b a).bays.modules = p.bays.modules := by
  unfold Blocks.setAction
  dsimp only
  (repeat' split) <;> simp
@[simp] theorem recomputeMembers_modules (p : Blocks) (x) : (p.recomputeMembers x).bays.modules = p.bays.modules :=
  foldl_leaves (fun q : Blocks => q.bays.modules) _ _ _ fun q b _ => by split <;> simp [Blocks.recompute]
@[simp] theorem departure_modules (p : Blocks) (b : BayNo) : (p.departure b).bays.modules = p.bays.modules := by
  unfold Blocks.departure
  dsimp only
  split <;> simp
@[simp] theorem presenceEvent_modules (p : Blocks) (b : BayNo) (x : Bool) : (p.presenceEvent b x).bays.modules = p.bays.modules := by
  unfold Blocks.presenceEvent
  dsimp only
  split <;> simp
@[simp] theorem faultEvent_modules (p : Blocks) (b : BayNo) (x : Bool) : (p.faultEvent b x).bays.modules = p.bays.modules := by
  unfold Blocks.faultEvent
  dsimp only
  (repeat' split) <;> simp
@[simp] theorem reportBay_modules (p : Blocks) (b : BayNo) (x y z : Bool) : (p.reportBay b x y z).bays.modules = p.bays.modules := by
  unfold Blocks.reportBay
  dsimp only
  (repeat' split) <;> simp
@[simp] theorem onlineReport_modules (p : Blocks) (k : ModuleNo) (x : ModuleReport) : (p.onlineReport k x).bays.modules = setAt p.bays.modules k (.online 0) :=
  (foldl_leaves (fun q : Blocks => q.bays.modules) _ _ _ fun q b _ => by simp).trans rfl
@[simp] theorem foundReport_modules (p : Blocks) (k : ModuleNo) (x : ModuleReport) : (p.foundReport k x).bays.modules = setAt p.bays.modules k (.online 0) :=
  (foldl_leaves (fun q : Blocks => q.bays.modules) _ _ _ fun q b _ => by simp).trans rfl
@[simp] theorem takeReport_modules (p : Blocks) (k : ModuleNo) (x : ModuleReport) : (p.takeReport k x).bays.modules = setAt p.bays.modules k (.online 0) := by
  unfold Blocks.takeReport; split <;> simp
@[simp] theorem countBay_modules (p : Blocks) (b : BayNo) : (Blocks.countBay p b).bays.modules = p.bays.modules := by
  unfold Blocks.countBay; dsimp only; split <;> simp
@[simp] theorem bayBoundary_modules (p : Blocks) : p.bayBoundary.bays.modules = p.bays.modules := by
  unfold Blocks.bayBoundary
  split
  · rfl
  · exact (foldl_leaves (fun q : Blocks => q.bays.modules) _ _ _ fun q b _ => by simp).trans rfl
theorem loseModule_modules (p : Blocks) (k : ModuleNo) : (p.loseModule k).bays.modules = setAt p.bays.modules k .offline ∨ (p.loseModule k).bays.modules = p.bays.modules := by
  unfold Blocks.loseModule
  split
  · exact .inr rfl
  · left; simp only [Blocks.raise_bays]
    exact (foldl_leaves (fun q : Blocks => q.bays.modules) _ _ _ fun q b _ => by simp).trans rfl
@[simp] theorem claim_modules (p : Blocks) (sl : Slot) (r : Record) : (p.claim sl r).bays.modules = p.bays.modules := by
  unfold Blocks.claim; dsimp only; split <;> simp
@[simp] theorem disable_modules (p : Blocks) (b : BayNo) : (p.disable b).bays.modules = p.bays.modules := by
  unfold Blocks.disable; dsimp only; split <;> simp
@[simp] theorem admitServing_modules (p : Blocks) (r : Record) : (admitServing p r).blocks.bays.modules = p.bays.modules := by
  unfold admitServing; split <;> simp [refuse, accept]
@[simp] theorem takeHold_modules (p : Blocks) (b : BayNo) : (p.takeHold b).bays.modules = p.bays.modules := by
  unfold Blocks.takeHold Blocks.takeBay; (repeat' split) <;> simp
@[simp] theorem takeUnhold_modules (p : Blocks) (b : BayNo) : (p.takeUnhold b).bays.modules = p.bays.modules := by
  unfold Blocks.takeUnhold Blocks.takeBay; (repeat' split) <;> simp
@[simp] theorem takeEnd_modules (p : Blocks) (b : BayNo) : (p.takeEnd b).bays.modules = p.bays.modules := by
  unfold Blocks.takeEnd Blocks.takeBay; (repeat' split) <;> simp
@[simp] theorem restartLevel_modules (p : Blocks) : p.restartLevel.bays.modules = p.bays.modules := by
  simp [Blocks.restartLevel, Blocks.evalPool]

def ModsOk (m : Vector ModuleState Config.moduleCount) : Prop := ∀ k : ModuleNo, ∀ n, m[k] = .online n → n < Config.silencePeriods

def ParamsOk (q : Params) : Prop := q.holdLead ≤ 60 ∧ q.turnoverGap ≤ 30 ∧ q.defaultGrace ≤ 60 ∧
  1 ≤ q.claimWindow ∧ q.claimWindow ≤ 15 ∧ 1 ≤ q.settle ∧ q.settle ≤ 15 ∧ q.poolLow ≤ 255

theorem ModsOk.set {m} (h : ModsOk m) (k) (x : ModuleState) (hx : ∀ n, x = .online n → n < Config.silencePeriods) : ModsOk (setAt m k x) := by
  intro l n hl
  simp only [Fin.getElem_fin, setAt_get] at hl
  split at hl
  · exact hx n hl
  · exact h l n hl

theorem counts_iff (p : Blocks) : p.CountsInRange ↔ p.clock.minute ≤ Config.minuteMax ∧ p.clock.phase < Config.minutePeriods ∧ ModsOk p.bays.modules ∧ ParamsOk p.params := Iff.rfl

theorem optIn_range {lo hi : Nat} {v : Option (Option Nat)} {o : Option Nat} {d : Nat} (h : optIn lo hi v = some o) (hd : lo ≤ d ∧ d ≤ hi) :
    lo ≤ o.getD d ∧ o.getD d ≤ hi := by
  simp only [optIn, Option.bind_eq_some_iff] at h
  obtain ⟨o', _, hc⟩ := h
  split at hc
  · cases hc
    rename_i hall
    cases o with
    | none => exact hd
    | some n => simpa using hall
  · cases hc

theorem params_ok {old q : Params} {body} (h : parameterFields old body = some q) (ho : ParamsOk old) : ParamsOk q := by
  unfold parameterFields at h
  split at h
  · cases h
  · simp only [Option.bind_eq_some_iff, Option.map_eq_some_iff] at h
    obtain ⟨a, ha, b, hb, c, hc, d, hd, e, he, f, hf, rfl⟩ := h
    obtain ⟨h1, h2, h3, h4, h5, h6, h7, h8⟩ := ho
    exact ⟨(optIn_range ha ⟨Nat.zero_le _, h1⟩).2, (optIn_range hb ⟨Nat.zero_le _, h2⟩).2, (optIn_range hc ⟨Nat.zero_le _, h3⟩).2,
      (optIn_range hd ⟨h4, h5⟩).1, (optIn_range hd ⟨h4, h5⟩).2, (optIn_range he ⟨h6, h7⟩).1, (optIn_range he ⟨h6, h7⟩).2, (optIn_range hf ⟨Nat.zero_le _, h8⟩).2⟩

theorem loseModule_mods {p : Blocks} (k) (h : ModsOk p.bays.modules) : ModsOk (p.loseModule k).bays.modules := by
  rcases loseModule_modules p k with e | e <;> rw [e]
  · exact h.set k _ (by simp)
  · exact h

theorem change_counts {p q} (h : Change p q) (hp : p.CountsInRange) : q.CountsInRange := by
  rw [counts_iff] at hp ⊢
  have hm := hp.2.2.1
  cases h with
  | clock m hm => simp_all [Blocks.setClock, Config.setClockMax, Config.minuteMax, Config.minutePeriods]; omega
  | params body x hl hx =>
    refine ⟨by simpa using hp.1, by simpa using hp.2.1, by simpa using hm, ?_⟩
    simpa [Blocks.setParams] using params_ok hx hp.2.2.2
  | lost k => exact ⟨by simpa using hp.1, by simpa using hp.2.1, loseModule_mods k hm, by simpa using hp.2.2.2⟩
  | reported k x => exact ⟨by simpa using hp.1, by simpa using hp.2.1, by rw [takeReport_modules]; exact hm.set k _ (by simp [Config.silencePeriods]), by simpa using hp.2.2.2⟩
  | minute =>
    refine ⟨?_, ?_, by simpa using hm, by simpa using hp.2.2.2⟩
    · simp [Blocks.minuteBoundary]
    · simp [Blocks.minuteBoundary, Config.minutePeriods]
  | tick =>
    have h1 : ModsOk ((List.finRange Config.moduleCount).foldl Blocks.tickModule p).bays.modules :=
      foldl_keeps (fun q : Blocks => ModsOk q.bays.modules) _ _ p hm fun q hq k _ => by
        unfold Blocks.tickModule
        split
        · exact hq
        · split
          · exact loseModule_mods k hq
          · rename_i hn; exact hq.set k _ (by simp at hn ⊢; exact hn)
    have h2 : ((List.finRange Config.moduleCount).foldl Blocks.tickModule p).clock = p.clock :=
      foldl_leaves Blocks.clock _ _ _ fun q k _ => by simp
    have h3 : ((List.finRange Config.moduleCount).foldl Blocks.tickModule p).params = p.params :=
      foldl_leaves Blocks.params _ _ _ fun q k _ => by simp
    unfold Blocks.tick
    dsimp only
    split
    · refine ⟨?_, ?_, by simpa using h1, by simpa [h3] using hp.2.2.2⟩
      · simp [Blocks.minuteBoundary]
      · simp [Blocks.minuteBoundary, Config.minutePeriods]
    · rename_i hn
      refine ⟨by simpa [h2] using hp.1, by simp [h2] at hn ⊢; exact hn, by simpa using h1, by simpa [h3] using hp.2.2.2⟩
  | configured b c hb _ =>
    exact ⟨by simpa using hp.1, by simpa using hp.2.1, by simpa [Blocks.configure, Blocks.recompute] using hm, by simpa using hp.2.2.2⟩
  | groupLevel g l => exact ⟨by simpa using hp.1, by simpa using hp.2.1, by simpa [Blocks.setGroupLevel] using hm, by simpa using hp.2.2.2⟩
  | dr x => exact ⟨by simpa using hp.1, by simpa using hp.2.1, by simpa [Blocks.drChange] using hm, by simpa using hp.2.2.2⟩
  | alarm x => exact ⟨by simpa using hp.1, by simpa using hp.2.1, by simpa [Blocks.alarmChange] using hm, by simpa using hp.2.2.2⟩
  | polled => exact hp
  | enabled => exact hp
  | faultCleared => exact hp
  | restarted => exact ⟨by rw [Blocks.restartLevel_clock]; exact hp.1, by rw [Blocks.restartLevel_clock]; exact hp.2.1, by rw [restartLevel_modules]; exact hm, by rw [Blocks.restartLevel_params]; exact hp.2.2.2⟩
  | windows => exact ⟨by simpa using hp.1, by simpa using hp.2.1, by simpa using hm, by simpa using hp.2.2.2⟩
  | _ => simpa using hp

end Sys2Proof.Machine
end

