-- ==== Sys2Proof/Laws/Events.lean ====
section
/-! SUPPORT. Events at one bay and at one module: what they leave, and the folds over the bays of a module. -/

namespace Sys2Proof.Machine

theorem takeBay_eq {p : Blocks} {m rest} (h : p.mail.toBays = m :: rest) (f) : p.takeBay m f = f (p.withMail { p.mail with toBays := rest }) := by
  unfold Blocks.takeBay; rw [h]; simp

/-- The first raise of a sender is the one taken, and the others keep their order. -/
theorem raise_found_and_erased (before after : List (Sender × Raise)) (y what) (h : ∀ z ∈ before, z.1 ≠ y) :
    (before ++ (y, what) :: after).find? (fun x => x.1 == y) = some (y, what) ∧ (before ++ (y, what) :: after).erase (y, what) = before ++ after := by
  induction before with
  | nil => simp
  | cons z zs ih =>
    obtain ⟨i1, i2⟩ := ih (fun w hw => h w (List.mem_cons_of_mem _ hw))
    have hz := h z (List.mem_cons_self ..)
    constructor
    · rw [List.cons_append, List.find?_cons_of_neg (by simpa using hz), i1]
    · rw [List.cons_append, List.erase_cons_tail (by rw [beq_eq_false_iff_ne.2 (fun e => hz (by rw [e]))]; simp), i2]; rfl

theorem setBay_twice (p : Blocks) (b : BayNo) (x y : Bay) : (p.setBay b x).setBay b y = p.setBay b y := by
  simp [Blocks.setBay, Blocks.withBays, setAt]

theorem setBay_spec (p : Blocks) (b : BayNo) (x : Bay) : (∀ b', b' ≠ b → (p.setBay b x).bay b' = p.bay b') ∧ (p.setBay b x).bay b = x ∧ p.setBay b x = { p with bays := (p.setBay b x).bays } :=
  ⟨fun b' h => by rw [Blocks.bay_setBay, if_neg (Ne.symm h)], Blocks.bay_setBay_same _ _ _, rfl⟩

/-- What a change of presence does, by the state of the bay. -/
theorem presenceEvent_eq (p : Blocks) (b : BayNo) (tl : Bool) (x : Bay) (hx : x = { p.bay b with presence := tl }) : p.presenceEvent b tl = (match (generalizing := false) x.state, tl with
    | .vacant, true => p.setBay b (x.unclaim .vacant p.params.claimWindow)
    | .awaiting, true => p.setBay b (x.unclaim .awaiting p.params.claimWindow)
    | .unclaimed, false => p.setBay b (x.rest p.params.claimWindow)
    | .squatted, false => p.setBay b (x.rest p.params.claimWindow)
    | .serving, false => (p.setBay b x).departure b
    | _, _ => p.setBay b x) := by
  unfold Blocks.presenceEvent
  dsimp only
  rw [Blocks.bay_setBay_same]
  have hw : (p.setBay b { p.bay b with presence := tl }).params = p.params := rfl
  rw [hw]
  simp only [setBay_twice]
  subst hx
  rfl

/-- Counting the claim windows of a list of bays at a boundary. -/
theorem countBay_fold (xs : List BayNo) (hn : xs.Nodup) (p : Blocks) :
    let q := xs.foldl Blocks.countBay p
    (∀ b, q.bay b = if b ∈ xs then (p.bay b).countWindow else p.bay b) ∧
    q.mail = { p.mail with raises := p.mail.raises ++ xs.filterMap fun b => if (p.bay b).windowExpires then some (.bayUnit, expiryRaise b (p.bay b).origin) else none } ∧
    q = { p with bays := { p.bays with bays := q.bays.bays }, mail := q.mail } := by
  induction xs generalizing p with
  | nil => exact ⟨fun b => by simp, by simp, rfl⟩
  | cons b xs ih =>
    obtain ⟨hb, hn⟩ := List.nodup_cons.1 hn
    simp only [List.foldl_cons]
    obtain ⟨i1, i2, i3⟩ := ih hn (p.countBay b)
    have c1 : ∀ c, (p.countBay b).bay c = if b = c then (p.bay b).countWindow else p.bay c := by
      intro c
      unfold Blocks.countBay
      dsimp only
      split
      · show (Blocks.setBay _ _ _).bay c = _; exact Blocks.bay_setBay _ _ _ _
      · exact Blocks.bay_setBay _ _ _ _
    have c2 : (p.countBay b).mail = { p.mail with raises := p.mail.raises ++ if (p.bay b).windowExpires then [(.bayUnit, expiryRaise b (p.bay b).origin)] else [] } := by
      unfold Blocks.countBay
      dsimp only
      split
      · rfl
      · simp [Blocks.setBay, Blocks.withBays]
    have c3 : p.countBay b = { p with bays := { p.bays with bays := (p.countBay b).bays.bays }, mail := (p.countBay b).mail } := by
      unfold Blocks.countBay
      dsimp only
      split <;> rfl
    generalize p.countBay b = q at *
    generalize xs.foldl Blocks.countBay q = t at *
    refine ⟨fun c => ?_, ?_, ?_⟩
    · rw [i1, c1]
      by_cases e : b = c
      · subst e; simp [hb]
      · simp only [if_neg e, List.mem_cons, Ne.symm e, false_or]
    · rw [i2, c2]
      have : (xs.filterMap fun b => if (q.bay b).windowExpires then some (Sender.bayUnit, expiryRaise b (q.bay b).origin) else none) = (xs.filterMap fun b => if (p.bay b).windowExpires then some (Sender.bayUnit, expiryRaise b (p.bay b).origin) else none) := by
        refine List.filterMap_congr fun c hc => ?_
        have hne : b ≠ c := fun e => hb (by rw [e]; exact hc)
        rw [c1, if_neg hne]
      rw [this]
      simp only [List.filterMap_cons]
      cases (p.bay b).windowExpires <;> simp
    · rw [c3] at i3; exact i3

/-- Counting the silence of a list of modules. -/
theorem tickModule_fold (xs : List ModuleNo) (hn : xs.Nodup) (p : Blocks) (h : ∀ k ∈ xs, ∀ n, p.moduleState k = .online n → n + 1 < Config.silencePeriods) :
    let q := xs.foldl Blocks.tickModule p
    (∀ k, q.moduleState k = if k ∈ xs then (match p.moduleState k with | .offline => .offline | .online n => .online (n + 1)) else p.moduleState k) ∧
    q = { p with bays := { p.bays with modules := q.bays.modules } } := by
  induction xs generalizing p with
  | nil => exact ⟨fun k => by simp, rfl⟩
  | cons b xs ih =>
    obtain ⟨hb, hn⟩ := List.nodup_cons.1 hn
    simp only [List.foldl_cons]
    have c1 : ∀ c, (p.tickModule b).moduleState c = if b = c then (match p.moduleState c with | .offline => .offline | .online n => .online (n + 1)) else p.moduleState c := by
      intro c
      unfold Blocks.tickModule
      cases e : p.moduleState b with
      | offline =>
        dsimp only
        split
        · rename_i h; subst h; rw [e]
        · rfl
      | online n =>
        dsimp only
        rw [if_neg (by have := h b (List.mem_cons_self ..) n e; omega), Blocks.moduleState_setModule]
        split
        · rename_i h; subst h; rw [e]
        · rfl
    have c3 : p.tickModule b = { p with bays := { p.bays with modules := (p.tickModule b).bays.modules } } := by
      unfold Blocks.tickModule
      cases e : p.moduleState b with
      | offline => rfl
      | online n =>
        dsimp only
        rw [if_neg (by have := h b (List.mem_cons_self ..) n e; omega)]; rfl
    obtain ⟨i1, i2⟩ := ih hn (p.tickModule b) (fun k hk n hn => by
      rw [c1, if_neg (fun e => by subst e; exact hb hk)] at hn
      exact h k (List.mem_cons_of_mem _ hk) n hn)
    generalize p.tickModule b = q at *
    generalize xs.foldl Blocks.tickModule q = t at *
    refine ⟨fun c => ?_, ?_⟩
    · rw [i1, c1]
      by_cases e : b = c
      · subst e; simp [hb]
      · simp only [if_neg e, List.mem_cons, Ne.symm e, false_or]
    · rw [c3] at i2; exact i2

/-- An event at bay b: no other bay changes, and of the other blocks only the book, the relocation list, the notices and the mail. -/
def OnlyAtBay (b : BayNo) (p q : Blocks) : Prop :=
  (∀ b', b' ≠ b → q.bay b' = p.bay b') ∧ q.bays = { p.bays with bays := q.bays.bays } ∧
  q = { p with bays := q.bays, book := q.book, reloc := q.reloc, notices := q.notices, mail := q.mail }

theorem OnlyAtBay.refl (b : BayNo) (p : Blocks) : OnlyAtBay b p p := ⟨fun _ _ => rfl, rfl, rfl⟩

theorem OnlyAtBay.trans {b : BayNo} {p q t : Blocks} (h : OnlyAtBay b p q) (h' : OnlyAtBay b q t) : OnlyAtBay b p t := by
  obtain ⟨a1, a2, a3⟩ := h
  obtain ⟨b1, b2, b3⟩ := h'
  refine ⟨fun c hc => (b1 c hc).trans (a1 c hc), ?_, ?_⟩
  · rw [a2] at b2; exact b2
  · rw [a3] at b3; exact b3

theorem OnlyAtBay.setBay (p : Blocks) (b : BayNo) (x : Bay) : OnlyAtBay b p (p.setBay b x) := ⟨(setBay_spec p b x).1, rfl, rfl⟩

theorem OnlyAtBay.settle (p : Blocks) (b : BayNo) (sl : Slot) (o c) : OnlyAtBay b p (p.settle false sl o c) := by
  refine ⟨fun c _ => Blocks.bay_congr (Blocks.settle_bays _ _ _ _ _) c, by rw [Blocks.settle_bays], ?_⟩
  have h1 := Blocks.settle_clock p false sl o c
  have h2 := Blocks.settle_boundaries p false sl o c
  have h3 := Blocks.settle_level p false sl o c
  have h4 := Blocks.settle_params p false sl o c
  have h5 := Blocks.settle_zones p false sl o c
  have h7 := Blocks.settle_alloc p false sl o c
  have h8 := Blocks.settle_supply p false sl o c
  generalize p.settle false sl o c = q at *
  cases q; simp_all

theorem OnlyAtBay.due (p : Blocks) (b : BayNo) (x : Reason) : OnlyAtBay b p (p.bayEntryDue b x) := by
  refine ⟨fun c _ => Blocks.bay_congr (Blocks.bayEntryDue_bays _ _ _) c, by rw [Blocks.bayEntryDue_bays], ?_⟩
  have := bayEntryDue_frame p b x
  have h2 := Blocks.bayEntryDue_bays p b x
  generalize p.bayEntryDue b x = q at *
  rw [h2]; exact this

theorem OnlyAtBay.lose (p : Blocks) (b : BayNo) (l : Loss) : OnlyAtBay b p (p.loseBay b l) := by
  unfold Blocks.loseBay
  dsimp only
  refine OnlyAtBay.trans (q := match (p.setBay b ((p.bay b).lost l)).book.servingOn b with | some sl => (p.setBay b ((p.bay b).lost l)).settle false sl .preempted (some l.cause) | none => (p.setBay b ((p.bay b).lost l))) ?_ (.due _ _ _)
  split
  · exact (OnlyAtBay.setBay _ _ _).trans (.settle _ _ _ _ _)
  · exact .setBay _ _ _

theorem OnlyAtBay.raise (p : Blocks) (b : BayNo) (y x) : OnlyAtBay b p (p.raise y x) := ⟨fun _ _ => rfl, rfl, rfl⟩

theorem bay_of_bays {p q : Blocks} (h : q.bays = p.bays) (b) : q.bay b = p.bay b := Blocks.bay_congr h b

/-- A departure leaves the levels of the bay lines. -/
theorem departure_levels (p : Blocks) (b : BayNo) : OnlyAtBay b p (p.departure b) ∧ ((p.departure b).bay b).presence = (p.bay b).presence ∧ ((p.departure b).bay b).faultLine = (p.bay b).faultLine := by
  have e : ((p.departure b).bay b) = (p.bay b).rest p.params.claimWindow := by
    unfold Blocks.departure
    dsimp only
    split
    · rw [bay_of_bays (Blocks.settle_bays _ _ _ _ _), Blocks.bay_setBay_same]
    · rw [Blocks.bay_setBay_same]
  refine ⟨?_, ?_, ?_⟩
  · unfold Blocks.departure
    dsimp only
    split
    · exact (OnlyAtBay.setBay _ _ _).trans (.settle _ _ _ _ _)
    · exact .setBay _ _ _
  · rw [e, rest_eq_atRest]; rfl
  · rw [e, rest_eq_atRest]; rfl

theorem presenceEvent_levels (p : Blocks) (b : BayNo) (tl : Bool) : OnlyAtBay b p (p.presenceEvent b tl) ∧ ((p.presenceEvent b tl).bay b).presence = tl ∧ ((p.presenceEvent b tl).bay b).faultLine = (p.bay b).faultLine := by
  rw [presenceEvent_eq p b tl _ rfl]
  split <;> try (refine ⟨.setBay _ _ _, ?_, ?_⟩ <;> rw [Blocks.bay_setBay_same] <;> rfl)
  · obtain ⟨a1, a2, a3⟩ := departure_levels (p.setBay b { p.bay b with presence := false }) b
    refine ⟨(OnlyAtBay.setBay _ _ _).trans a1, a2.trans ?_, a3.trans ?_⟩ <;> rw [Blocks.bay_setBay_same]

theorem faultEvent_levels (p : Blocks) (b : BayNo) (tl : Bool) : OnlyAtBay b p (p.faultEvent b tl) ∧ ((p.faultEvent b tl).bay b).faultLine = tl ∧ ((p.faultEvent b tl).bay b).presence = (p.bay b).presence := by
  unfold Blocks.faultEvent
  dsimp only
  split
  · refine ⟨.setBay _ _ _, ?_, ?_⟩ <;> rw [Blocks.bay_setBay_same]
  · rw [setBay_twice, Blocks.bay_setBay_same]
    have h : OnlyAtBay b p ((p.setBay b { p.bay b with faultLine := tl, sticky := true }).raise .bayUnit (.postFault b)) := (OnlyAtBay.setBay _ _ _).trans (.raise _ _ _ _)
    have h2 : ((p.setBay b { p.bay b with faultLine := tl, sticky := true }).raise .bayUnit (.postFault b)).bay b = { p.bay b with faultLine := tl, sticky := true } := Blocks.bay_setBay_same _ _ _
    split
    · refine ⟨h.trans (.lose _ _ _), ?_, ?_⟩ <;> rw [Blocks.loseBay_bay, if_pos rfl, h2] <;> rfl
    · refine ⟨h, ?_, ?_⟩ <;> rw [h2]

theorem doneReport_onlyAtBay (p : Blocks) (b : BayNo) : OnlyAtBay b p (p.doneReport b) := by
  refine ⟨fun c _ => bay_of_bays (Blocks.doneReport_bays _ _) c, by rw [Blocks.doneReport_bays], ?_⟩
  unfold Blocks.doneReport
  split
  · split
    · rfl
    · split
      · rfl
      · split <;> rfl
  · rfl

/-- A report of one bay sets its two levels; one that repeats them changes nothing. -/
theorem reportBay_levels (p : Blocks) (b : BayNo) (x y z : Bool) : OnlyAtBay b p (p.reportBay b x y z) ∧ ((p.reportBay b x y z).bay b).presence = x ∧ ((p.reportBay b x y z).bay b).faultLine = y ∧
   (z = false → x = (p.bay b).presence → y = (p.bay b).faultLine → p.reportBay b x y z = p) := by
  have h1 : ∃ q, q = (if y != (p.bay b).faultLine then p.faultEvent b y else p) ∧ OnlyAtBay b p q ∧ (q.bay b).faultLine = y ∧ (q.bay b).presence = (p.bay b).presence := by
    refine ⟨_, rfl, ?_⟩
    split
    · exact faultEvent_levels p b y
    · rename_i h
      refine ⟨.refl _ _, ?_, rfl⟩
      simpa using Eq.symm (by simpa using h)
  obtain ⟨q, hq, q1, q2, q3⟩ := h1
  have h2 : ∃ t, t = (if x != (q.bay b).presence then q.presenceEvent b x else q) ∧ OnlyAtBay b p t ∧ (t.bay b).faultLine = y ∧ (t.bay b).presence = x := by
    refine ⟨_, rfl, ?_⟩
    split
    · obtain ⟨a1, a2, a3⟩ := presenceEvent_levels q b x
      exact ⟨q1.trans a1, a3.trans q2, a2⟩
    · rename_i h
      exact ⟨q1, q2, Eq.symm (by simpa using h)⟩
  obtain ⟨t, ht, t1, t2, t3⟩ := h2
  have e : p.reportBay b x y z = if z then t.doneReport b else t := by
    unfold Blocks.reportBay
    dsimp only
    rw [← hq, ← ht]
  refine ⟨?_, ?_, ?_, fun hz hx hy => ?_⟩
  · rw [e]; split
    · exact t1.trans (doneReport_onlyAtBay _ _)
    · exact t1
  · rw [e]; split
    · rw [bay_of_bays (Blocks.doneReport_bays _ _), t3]
    · exact t3
  · rw [e]; split
    · rw [bay_of_bays (Blocks.doneReport_bays _ _), t2]
    · exact t2
  · rw [e, if_neg (by simp [hz]), ht]
    rw [if_neg (by simp [hy])] at hq
    rw [hq, if_neg (by simp [hx])]

theorem bayAt_inj (k : ModuleNo) {i j : Fin 8} (h : bayAt k i = bayAt k j) : i = j := by
  have := congrArg Fin.val h
  simp only [bayAt] at this
  exact Fin.ext (by omega)

/-- An event at the bays of module k. -/
def OnlyAtModule (k : ModuleNo) (p q : Blocks) : Prop :=
  (∀ b', (∀ i, b' ≠ bayAt k i) → q.bay b' = p.bay b') ∧ q.bays = { p.bays with bays := q.bays.bays } ∧
  q = { p with bays := q.bays, book := q.book, reloc := q.reloc, notices := q.notices, mail := q.mail }

/-- A report over a list of the bays of a module. -/
theorem reportBay_fold (k : ModuleNo) (rep : ModuleReport) (xs : List (Fin 8)) (hn : xs.Nodup) (p : Blocks) :
    let q := xs.foldl (fun p i => p.reportBay (bayAt k i) (rep.presence.getLsbD i) (rep.fault.getLsbD i) (rep.done.getLsbD i)) p
    OnlyAtModule k p q ∧ (∀ i, (i ∈ xs → (q.bay (bayAt k i)).presence = rep.presence.getLsbD i ∧ (q.bay (bayAt k i)).faultLine = rep.fault.getLsbD i) ∧ (i ∉ xs → q.bay (bayAt k i) = p.bay (bayAt k i))) ∧
    (rep.done = 0 → (∀ i ∈ xs, (p.bay (bayAt k i)).presence = rep.presence.getLsbD i ∧ (p.bay (bayAt k i)).faultLine = rep.fault.getLsbD i) → q = p) := by
  induction xs generalizing p with
  | nil => exact ⟨⟨fun _ _ => rfl, rfl, rfl⟩, fun i => ⟨by simp, fun _ => rfl⟩, fun _ _ => rfl⟩
  | cons j xs ih =>
    obtain ⟨hj, hn⟩ := List.nodup_cons.1 hn
    simp only [List.foldl_cons]
    obtain ⟨r1, r2, r3, r4⟩ := reportBay_levels p (bayAt k j) (rep.presence.getLsbD j) (rep.fault.getLsbD j) (rep.done.getLsbD j)
    obtain ⟨i1, i2, i3⟩ := ih hn (p.reportBay (bayAt k j) (rep.presence.getLsbD j) (rep.fault.getLsbD j) (rep.done.getLsbD j))
    generalize p.reportBay (bayAt k j) (rep.presence.getLsbD j) (rep.fault.getLsbD j) (rep.done.getLsbD j) = t at *
    generalize List.foldl _ t xs = q at *
    refine ⟨⟨fun b hb => ?_, ?_, ?_⟩, fun i => ⟨fun hi => ?_, fun hi => ?_⟩, fun hd h => ?_⟩
    · rw [i1.1 b hb, r1.1 b (hb j)]
    · have := i1.2.1; rw [r1.2.1] at this; exact this
    · have := i1.2.2; rw [r1.2.2] at this; exact this
    · by_cases e : i = j
      · subst e
        rw [(i2 i).2 hj]; exact ⟨r2, r3⟩
      · exact (i2 i).1 (by simpa [e] using hi)
    · simp only [List.mem_cons, not_or] at hi
      rw [(i2 i).2 hi.2, r1.1 _ (fun e => hi.1 (bayAt_inj k e))]
    · obtain ⟨h1, h2⟩ := h j (by simp)
      have ht : t = p := r4 (by rw [hd]; simp) h1.symm h2.symm
      rw [ht] at i3
      rw [i3 hd fun i hi => h i (List.mem_cons_of_mem _ hi)]

/-- The levels of a module that is found again. -/
theorem foundBay_fold (k : ModuleNo) (rep : ModuleReport) (xs : List (Fin 8)) (hn : xs.Nodup) (p : Blocks) :
    let q := xs.foldl (fun p i => p.setBay (bayAt k i) { p.bay (bayAt k i) with presence := rep.presence.getLsbD i, faultLine := rep.fault.getLsbD i }) p
    (∀ b', (∀ i, b' ≠ bayAt k i) → q.bay b' = p.bay b') ∧ q.bays = { p.bays with bays := q.bays.bays } ∧
    q = { p with bays := q.bays } ∧ (∀ i, q.bay (bayAt k i) = if i ∈ xs then { p.bay (bayAt k i) with presence := rep.presence.getLsbD i, faultLine := rep.fault.getLsbD i } else p.bay (bayAt k i)) := by
  induction xs generalizing p with
  | nil => exact ⟨fun _ _ => rfl, rfl, rfl, fun i => by simp⟩
  | cons j xs ih =>
    obtain ⟨hj, hn⟩ := List.nodup_cons.1 hn
    simp only [List.foldl_cons]
    obtain ⟨i1, i2, i3, i4⟩ := ih hn (p.setBay (bayAt k j) { p.bay (bayAt k j) with presence := rep.presence.getLsbD j, faultLine := rep.fault.getLsbD j })
    obtain ⟨s1, s2, s3⟩ := setBay_spec p (bayAt k j) { p.bay (bayAt k j) with presence := rep.presence.getLsbD j, faultLine := rep.fault.getLsbD j }
    have s4 : (p.setBay (bayAt k j) { p.bay (bayAt k j) with presence := rep.presence.getLsbD j, faultLine := rep.fault.getLsbD j }).bays = { p.bays with bays := (p.setBay (bayAt k j) { p.bay (bayAt k j) with presence := rep.presence.getLsbD j, faultLine := rep.fault.getLsbD j }).bays.bays } := rfl
    generalize p.setBay (bayAt k j) { p.bay (bayAt k j) with presence := rep.presence.getLsbD j, faultLine := rep.fault.getLsbD j } = t at *
    generalize List.foldl _ t xs = q at *
    refine ⟨fun b hb => by rw [i1 b hb, s1 b (hb j)], by rw [s4] at i2; exact i2, by rw [s3] at i3; exact i3, fun i => ?_⟩
    rw [i4]
    by_cases e : i = j
    · subst e; simp [hj, s2]
    · rw [s1 _ (fun h => e (bayAt_inj k h))]; simp [e]

/-- An event at bay c leaves the records and the timelines of the other bays. -/
structure OnlyRecordsOf (c : BayNo) (p q : Blocks) : Prop where
  recs : ∀ sl, sl ∉ p.book.slotsOn c → q.book.rec? sl = p.book.rec? sl
  tls : ∀ d, d ≠ c → q.book.slotsOn d = p.book.slotsOn d
  sub : ∀ sl ∈ q.book.slotsOn c, sl ∈ p.book.slotsOn c
  bays : ∀ sl r, q.book.rec? sl = some r → ∃ r', p.book.rec? sl = some r' ∧ r.bay = r'.bay
  snd : q.book.Sound
  ent : ∀ d, (p.bayEntry d).isSome = true → (q.bayEntry d).isSome = true
  rs : ∀ m ∈ p.mail.raises, m ∈ q.mail.raises

theorem OnlyRecordsOf.refl {c p} (h : p.book.Sound) : OnlyRecordsOf c p p := ⟨fun _ _ => rfl, fun _ _ => rfl, fun _ h => h, fun _ r h => ⟨r, h, rfl⟩, h, fun _ h => h, fun _ h => h⟩

theorem OnlyRecordsOf.trans {c p q t} (h : OnlyRecordsOf c p q) (h' : OnlyRecordsOf c q t) : OnlyRecordsOf c p t :=
  ⟨fun sl hs => (h'.recs sl (fun hm => hs (h.sub sl hm))).trans (h.recs sl hs), fun d hd => (h'.tls d hd).trans (h.tls d hd), fun sl hs => h.sub sl (h'.sub sl hs),
   fun sl r hr => by obtain ⟨r1, h1, h2⟩ := h'.bays sl r hr; obtain ⟨r2, h3, h4⟩ := h.bays sl r1 h1; exact ⟨r2, h3, h2.trans h4⟩, h'.snd, fun d hd => h'.ent d (h.ent d hd), fun m hm => h'.rs m (h.rs m hm)⟩

theorem OnlyRecordsOf.same {c p q} (h : p.book.Sound) (hb : q.book = p.book) (he : ∀ d, (p.bayEntry d).isSome = true → (q.bayEntry d).isSome = true) (hr : ∀ m ∈ p.mail.raises, m ∈ q.mail.raises) : OnlyRecordsOf c p q := by
  refine ⟨fun _ _ => by rw [hb], fun _ _ => by rw [hb], fun _ h => by rw [hb] at h; exact h, fun _ r h => ⟨r, by rw [hb] at h; exact h, rfl⟩, by rw [hb]; exact h, he, hr⟩

theorem bayEntry_congr {p q : Blocks} (h : q.reloc = p.reloc) (d : BayNo) : q.bayEntry d = p.bayEntry d := by unfold Blocks.bayEntry; rw [h]

theorem OnlyRecordsOf.settle {c p} (h : p.book.Sound) (sl : Slot) (hb : ∀ r, p.book.rec? sl = some r → r.bay = c) (o k) : OnlyRecordsOf c p (p.settle false sl o k) := by
  by_cases hl : ∃ r, p.book.rec? sl = some r ∧ r.state ≠ .settled
  · obtain ⟨r, h1, h2⟩ := hl
    have hm : sl ∈ p.book.slotsOn c := (h.2.2.2.2.2.1 c sl).2 ⟨r, h1, h2, hb r h1⟩
    obtain ⟨⟨a1, a2, a3, a4, -⟩, -⟩ := settle_settledAs h1 h2 o k _ rfl
    rw [hb r h1] at a3 a4
    refine ⟨fun x hx => a2 x (fun e => hx (e ▸ hm)), a4, fun x hx => ?_, fun x y hy => ?_, ?_, fun d hd => ?_, settle_keepsRaises _ _ _ _⟩
    · rw [a3] at hx; exact (List.mem_filter.1 hx).1
    · by_cases e : x = sl
      · subst e; rw [a1] at hy; cases hy; exact ⟨r, h1, rfl⟩
      · rw [a2 x e] at hy; exact ⟨y, hy, rfl⟩
    · exact Book.Sound.reach (Blocks.settle_reaches p false sl o k).2.2.1 h
    · rw [bayEntry_congr (Blocks.settle_reloc _ _ _ _ _)]; exact hd
  · rw [settle_of_settled (fun r hr => by by_contra hc; exact hl ⟨r, hr, hc⟩)]
    exact .refl h

theorem OnlyRecordsOf.settles {c} (xs : List Slot) (p : Blocks) (h : p.book.Sound) (hb : ∀ sl ∈ xs, ∀ r, p.book.rec? sl = some r → r.bay = c) (o k) : OnlyRecordsOf c p (xs.foldl (fun p sl => p.settle false sl o k) p) := by
  induction xs generalizing p with
  | nil => exact .refl h
  | cons x xs ih =>
    have h1 := OnlyRecordsOf.settle h x (hb x (by simp)) o k
    refine h1.trans (ih _ h1.snd fun sl hs r hr => ?_)
    obtain ⟨r', h2, h3⟩ := h1.bays sl r hr
    rw [h3]; exact hb sl (List.mem_cons_of_mem _ hs) r' h2

theorem slotsOn_recBay {p : Blocks} (h : p.book.Sound) {c : BayNo} {sl : Slot} (hs : sl ∈ p.book.slotsOn c) : ∀ r, p.book.rec? sl = some r → r.bay = c := by
  intro r hr
  obtain ⟨r', h1, _, h2⟩ := (h.2.2.2.2.2.1 c sl).1 hs
  rw [hr] at h1; cases h1; exact h2

theorem OnlyRecordsOf.due {c p} (h : p.book.Sound) (x : Reason) : OnlyRecordsOf c p (p.bayEntryDue c x) := by
  unfold Blocks.bayEntryDue
  split
  · exact .same h rfl (fun d hd => bayEntry_withCause d hd) (fun _ h => h)
  split
  · exact .refl h
  split
  · refine .same h rfl (fun d hd => ?_) (fun _ h => h)
    unfold Blocks.bayEntry at *
    show (List.findSome? _ (p.reloc ++ _)).isSome = true
    rw [List.findSome?_append]
    cases e : p.reloc.findSome? _ with
    | none => rw [e] at hd; cases hd
    | some y => rfl
  · exact .settles _ _ h (fun sl hs => slotsOn_recBay h (mem_pendingOn.1 hs).1) _ _

theorem OnlyRecordsOf.lose {c p} (h : p.book.Sound) (l : Loss) : OnlyRecordsOf c p (p.loseBay c l) := by
  unfold Blocks.loseBay
  dsimp only
  have h0 : OnlyRecordsOf c p (p.setBay c ((p.bay c).lost l)) := .same h rfl (fun _ h => h) (fun _ h => h)
  refine OnlyRecordsOf.trans (q := match (p.setBay c ((p.bay c).lost l)).book.servingOn c with | some sl => (p.setBay c ((p.bay c).lost l)).settle false sl .preempted (some l.cause) | none => (p.setBay c ((p.bay c).lost l))) ?_ ?_
  · split
    · rename_i sl hs
      exact h0.trans (.settle h0.snd sl (slotsOn_recBay h0.snd (servingOn_rec hs).1) _ _)
    · exact h0
  · refine .due ?_ _
    split
    · rename_i sl hs
      exact (OnlyRecordsOf.settle h0.snd sl (slotsOn_recBay h0.snd (servingOn_rec hs).1) .preempted (some l.cause)).snd
    · exact h0.snd

/-- What the book knows about another bay is left. -/
theorem OnlyRecordsOf.where_ {c p q} (h : OnlyRecordsOf c p q) (hp : p.book.Sound) {b : BayNo} (hb : b ≠ c) (cond) : q.book.slotsWhere b cond = p.book.slotsWhere b cond := by
  unfold Book.slotsWhere
  rw [h.tls b hb]
  refine List.filter_congr fun sl hs => ?_
  rw [h.recs sl fun hc => ?_]
  obtain ⟨r, h1, _, h2⟩ := (hp.2.2.2.2.2.1 b sl).1 hs
  exact hb (h2.symm.trans (slotsOn_recBay hp hc r h1))

/-- The loss of a bay does what Safety.lean states, told from any blocks that differ at most in the bay's entry. -/
theorem loseBay_bayLost {p q : Blocks} {b : BayNo} {l : Loss} {x : Bay} (he : p.setBay b ((p.bay b).lost l) = q.setBay b x) :
    q.BayLost (p.loseBay b l) b x l.cause l.reason := by
  obtain ⟨n, h1, h2, -⟩ := loseBay_steps p b l
  rw [he] at h1
  refine ⟨⟨_, n, rfl, h1, h2⟩, fun hs => ?_⟩
  have hb : (p.setBay b ((p.bay b).lost l)).book = (q.setBay b x).book := congrArg Blocks.book he
  simp only [Blocks.setBay_book] at hb
  have o := OnlyRecordsOf.lose (c := b) (p := p) (hb ▸ hs) l
  refine ⟨fun sl r hr hne => ?_, fun b' hne => ?_⟩
  · rw [o.recs sl fun hm => hne (slotsOn_recBay (hb ▸ hs) hm r (hb ▸ hr)), hb]; exact hr
  · rw [o.tls b' hne, hb]

/-- Settlement neither reads nor writes the bay entries. -/
theorem settle_withBays (p : Blocks) (v : BayUnit) (sl : Slot) (o : Result) (c : Option Cause) :
    (p.withBays v).settle false sl o c = (p.settle false sl o c).withBays v := by
  by_cases hx : ∃ r, p.book.rec? sl = some r ∧ r.state ≠ .settled
  · obtain ⟨r, hr, hl⟩ := hx
    rw [settle_eq (p := p) hr hl o c _ rfl, settle_eq (p := p.withBays v) hr hl o c _ rfl]; rfl
  · have hx : ∀ r, p.book.rec? sl = some r → r.state = .settled := fun r hr => by by_contra hc; exact hx ⟨r, hr, hc⟩
    rw [settle_of_settled hx, settle_of_settled (p := p.withBays v) hx]

/-- Nor does a bay entry of the relocation list that is due. -/
theorem bayEntryDue_withBays (p : Blocks) (v : BayUnit) (b : BayNo) (x : Reason) :
    (p.withBays v).bayEntryDue b x = (p.bayEntryDue b x).withBays v := by
  have fold : ∀ (xs : List Slot) (p : Blocks), xs.foldl (fun p sl => p.settle false sl .cancelled (some .bayLost)) (p.withBays v) =
      (xs.foldl (fun p sl => p.settle false sl .cancelled (some .bayLost)) p).withBays v := by
    intro xs
    induction xs with
    | nil => intro p; rfl
    | cons y ys ih => intro p; rw [List.foldl_cons, List.foldl_cons, settle_withBays, ih]
  have e1 : (p.withBays v).bayEntry b = p.bayEntry b := rfl
  have e2 : (p.withBays v).book = p.book := rfl
  have e3 : (p.withBays v).reloc = p.reloc := rfl
  unfold Blocks.bayEntryDue
  rw [e1, e2, e3]
  (repeat' split)
  · rfl
  · rfl
  · rfl
  · exact fold _ _

/-- The loss of a bay whose entry was another, with the entry it ends as. -/
theorem loseBay_setBay (p : Blocks) (b : BayNo) (l : Loss) (y : Bay) :
    (p.setBay b y).loseBay b l = (p.loseBay b l).setBay b (y.lost l) := by
  have entry : ∀ q : Blocks, q.bays = (p.setBay b ((p.bay b).lost l)).bays → q.withBays (p.setBay b (y.lost l)).bays = q.setBay b (y.lost l) := fun q hq => by
    unfold Blocks.setBay Blocks.withBays
    rw [hq]
    simp [Blocks.setBay, Blocks.withBays, setAt]
  have start : p.setBay b (y.lost l) = (p.setBay b ((p.bay b).lost l)).withBays (p.setBay b (y.lost l)).bays := rfl
  unfold Blocks.loseBay
  dsimp only
  rw [Blocks.bay_setBay_same, setBay_twice, start]
  have e2 : ((p.setBay b ((p.bay b).lost l)).withBays (p.setBay b (y.lost l)).bays).book = (p.setBay b ((p.bay b).lost l)).book := rfl
  rw [e2]
  split
  · rw [settle_withBays, bayEntryDue_withBays, entry]
    rw [Blocks.bayEntryDue_bays, Blocks.settle_bays]
  · rw [bayEntryDue_withBays, entry]
    rw [Blocks.bayEntryDue_bays]

/-- A bay entry that is due leaves the bay under one where it had pending records, or none of them left. -/
theorem Blocks.EntryDue.covers {p q : Blocks} {b : BayNo} {x : Reason} (h : p.EntryDue q b x) :
    p.book.pendingOn b = [] ∨ (q.bayEntry b).isSome ∨ q.book.pendingOn b = [] := by
  unfold Blocks.EntryDue at h
  split at h
  · rename_i he
    refine .inr (.inl ?_)
    have e := bayEntry_withCause (b := b) (x := x) b he
    rw [withCause_eq] at e
    rw [h]; exact e
  split at h
  · exact .inl (by assumption)
  split at h
  · refine .inr (.inl ?_)
    rw [h]
    unfold Blocks.bayEntry
    dsimp only
    rw [List.findSome?_append, Option.isSome_or]
    simp [Entry.reasonFor]
  · exact .inr (.inr h.2.1)

/-- What a bay of a lost module ends as. -/
structure ModuleBayLost (p q : Blocks) (b : BayNo) : Prop where
  dis : (p.bay b).state = .disabled → q.bay b = p.bay b
  flt : (p.bay b).state = .faulted → q.bay b = { p.bay b with sticky := true }
  srv : (p.bay b).state ≠ .disabled → (p.bay b).state ≠ .faulted → q.bay b = { p.bay b with sticky := true, state := .faulted, faultCause := some .linkLost, origin := none, window := 0, sign := .out } ∧
     (∀ sl x, p.book.servingOn b = some sl → p.book.rec? sl = some x → q.book.rec? sl = some { x with state := .settled, outcome := some .preempted, cause := some .linkLost, relocPending := false }) ∧
     (p.book.pendingOn b ≠ [] → (q.bayEntry b).isSome ∨ q.book.pendingOn b = [])

/-- Losing one bay of a module does what Safety.lean states. -/
theorem loseModuleBay_linkLost (p : Blocks) (b : BayNo) : p.LinkLost b (p.loseModuleBay b) := by
  unfold Blocks.loseModuleBay
  split
  · rename_i hd
    refine ⟨fun _ => rfl, fun h => ?_, fun h => absurd hd h⟩
    rw [hd] at h; cases h
  · rename_i hd
    dsimp only
    split
    · rename_i hs
      have hf : (p.bay b).state ≠ .faulted := by intro e; rw [e] at hs; simp [BayState.outOfService] at hs
      refine ⟨fun h => absurd h hd, fun h => absurd h hf, fun _ _ => loseBay_bayLost (l := .linkLost) ?_⟩
      rw [setBay_twice, Blocks.bay_setBay_same]
      rfl
    · rename_i hs
      have hf : (p.bay b).state = .faulted := by
        cases e : (p.bay b).state <;> rw [e] at hs hd <;> simp_all [BayState.outOfService]
      exact ⟨fun h => absurd h hd, fun _ => rfl, fun _ h => absurd hf h⟩

/-- Losing one bay of a module. -/
theorem loseModuleBay_spec (p : Blocks) (h : p.book.Sound) (b : BayNo) : ModuleBayLost p (p.loseModuleBay b) b ∧ OnlyRecordsOf b p (p.loseModuleBay b) ∧ OnlyAtBay b p (p.loseModuleBay b) := by
  unfold Blocks.loseModuleBay
  split
  · rename_i hd
    exact ⟨⟨fun _ => rfl, fun h => by (rw [hd] at h; cases h), fun h => absurd hd h⟩, .refl h, .refl _ _⟩
  · rename_i hd
    have h0 : OnlyRecordsOf b p (p.setBay b { p.bay b with sticky := true }) := .same h rfl (fun _ h => h) (fun _ h => h)
    dsimp only
    split
    · rename_i hs
      have hf : (p.bay b).state ≠ .faulted := by intro e; rw [e] at hs; simp [BayState.outOfService] at hs
      refine ⟨⟨fun h => absurd h hd, fun h => absurd h hf, fun _ _ => ⟨?_, fun sl x hs hx => ?_, fun hne => ?_⟩⟩, h0.trans (.lose h0.snd _), (OnlyAtBay.setBay _ _ _).trans (.lose _ _ _)⟩
      · rw [Blocks.loseBay_bay, if_pos rfl, Blocks.bay_setBay_same]; rfl
      · obtain ⟨n, h1, -, h3, -⟩ := loseBay_steps (p.setBay b { p.bay b with sticky := true }) b .linkLost
        rw [h3]
        exact bayEntryDue_other _ _ _ _ _ (h1.2 sl x hs hx).1.1 rfl
      · obtain ⟨n, -, h2, -, -, -, h6, -⟩ := loseBay_steps (p.setBay b { p.bay b with sticky := true }) b .linkLost
        rcases h2.covers with e | e
        · exact absurd ((h6 b).symm.trans e) hne
        · exact e
    · rename_i hs
      have hf : (p.bay b).state = .faulted := by
        cases e : (p.bay b).state <;> rw [e] at hs hd <;> simp_all [BayState.outOfService]
      exact ⟨⟨fun h => absurd h hd, fun _ => Blocks.bay_setBay_same _ _ _, fun _ h => absurd hf h⟩, h0, .setBay _ _ _⟩

/-- A report over the bays of an ONLINE module does what Safety.lean states. -/
theorem reportBay_reported (p : Blocks) (k : ModuleNo) (rep : ModuleReport) (i : Fin 8) :
    p.Reported k rep i (p.reportBay (bayAt k i) (rep.presence.getLsbD i) (rep.fault.getLsbD i) (rep.done.getLsbD i)) := by
  have flip : ∀ (x y : Bool) (a b : Blocks), (if x != y then a else b) = if x = y then b else a := by
    intro x y a b; cases x <;> cases y <;> rfl
  refine ⟨_, _, rfl, rfl, ?_⟩
  unfold Blocks.reportBay
  simp only [flip]

/-- Losing a list of the bays of a module. -/
theorem loseModuleBay_fold (k : ModuleNo) (xs : List (Fin 8)) (hn : xs.Nodup) (p : Blocks) (h : p.book.Sound) :
    let q := xs.foldl (fun p i => p.loseModuleBay (bayAt k i)) p
    q.book.Sound ∧ OnlyAtModule k p q ∧ (∀ m ∈ p.mail.raises, m ∈ q.mail.raises) ∧ (∀ d, (p.bayEntry d).isSome = true → (q.bayEntry d).isSome = true) ∧
    (∀ i, i ∉ xs → q.bay (bayAt k i) = p.bay (bayAt k i)) ∧ (∀ b, (∀ i ∈ xs, b ≠ bayAt k i) → (∀ cond, q.book.slotsWhere b cond = p.book.slotsWhere b cond) ∧ q.book.slotsOn b = p.book.slotsOn b) ∧
    (∀ sl, (∀ i ∈ xs, sl ∉ p.book.slotsOn (bayAt k i)) → q.book.rec? sl = p.book.rec? sl) ∧
    (∀ i ∈ xs, ModuleBayLost p q (bayAt k i)) := by
  induction xs generalizing p with
  | nil => exact ⟨h, ⟨fun _ _ => rfl, rfl, rfl⟩, fun _ h => h, fun _ h => h, fun _ _ => rfl, fun _ _ => ⟨fun _ => rfl, rfl⟩, fun _ _ => rfl, by simp⟩
  | cons j xs ih =>
    obtain ⟨hj, hn⟩ := List.nodup_cons.1 hn
    simp only [List.foldl_cons]
    obtain ⟨l1, l2, l3⟩ := loseModuleBay_spec p h (bayAt k j)
    obtain ⟨i0, i1, i2, i3, i4, i5, i6, i7⟩ := ih hn (p.loseModuleBay (bayAt k j)) l2.snd
    generalize p.loseModuleBay (bayAt k j) = t at *
    generalize List.foldl _ t xs = q at *
    have ne : ∀ i ∈ xs, bayAt k i ≠ bayAt k j := fun i hi e => hj (bayAt_inj k e ▸ hi)
    refine ⟨i0, ⟨fun b hb => by rw [i1.1 b hb, l3.1 b (hb j)], ?_, ?_⟩, fun m hm => i2 m (l2.rs m hm), fun d hd => i3 d (l2.ent d hd), fun i hi => ?_, fun b hb => ⟨fun cond => ?_, ?_⟩, fun sl hs => ?_, fun i hi => ?_⟩
    · have := i1.2.1; rw [l3.2.1] at this; exact this
    · have := i1.2.2; rw [l3.2.2] at this; exact this
    · simp only [List.mem_cons, not_or] at hi
      rw [i4 i hi.2, l3.1 _ (fun e => hi.1 (bayAt_inj k e))]
    · rw [(i5 b fun i hi => hb i (List.mem_cons_of_mem _ hi)).1, l2.where_ h (hb j (by simp))]
    · rw [(i5 b fun i hi => hb i (List.mem_cons_of_mem _ hi)).2, l2.tls _ (hb j (by simp))]
    · rw [i6 sl fun i hi => ?_, l2.recs sl (hs j (by simp))]
      rw [l2.tls _ (ne i hi)]; exact hs i (List.mem_cons_of_mem _ hi)
    · rcases List.mem_cons.1 hi with rfl | hi
      · -- the bay just lost: later losses leave it
        have hb : q.bay (bayAt k i) = t.bay (bayAt k i) := i4 i hj
        refine ⟨fun h => hb.trans (l1.dis h), fun h => hb.trans (l1.flt h), fun h1 h2 => ?_⟩
        obtain ⟨s1, s2, s3⟩ := l1.srv h1 h2
        refine ⟨hb.trans s1, fun sl x hs hx => ?_, fun hp => ?_⟩
        · have ht := s2 sl x hs hx
          rw [i6 sl fun i' _ hm => ?_, ht]
          obtain ⟨r, a1, a2, _⟩ := (l2.snd.2.2.2.2.2.1 _ sl).1 hm
          rw [ht] at a1; cases a1; exact a2 rfl
        · rcases s3 hp with e | e
          · exact .inl (i3 _ e)
          · right
            exact ((i5 (bayAt k i) fun i' hi' e => ne i' hi' e.symm).1 RecState.pending).trans e
      · have hbt : t.bay (bayAt k i) = p.bay (bayAt k i) := l3.1 _ (ne i hi)
        have hw : ∀ cond, t.book.slotsWhere (bayAt k i) cond = p.book.slotsWhere (bayAt k i) cond := l2.where_ h (ne i hi)
        have l := i7 i hi
        refine ⟨fun e => ?_, fun e => ?_, fun e1 e2 => ?_⟩
        · rw [← hbt] at e ⊢; exact l.dis e
        · rw [← hbt] at e ⊢; exact l.flt e
        · rw [← hbt] at e1 e2 ⊢
          obtain ⟨s1, s2, s3⟩ := l.srv e1 e2
          refine ⟨s1, fun sl x hs hx => s2 sl x ?_ ?_, fun hp => s3 ?_⟩
          · unfold Book.servingOn at hs ⊢; rw [hw]; exact hs
          · rw [l2.recs sl fun hm => ?_]; exact hx
            have := slotsOn_recBay h hm x hx
            exact ne i hi ((slotsOn_recBay h (servingOn_rec hs).1 x hx).symm.trans this)
          · unfold Book.pendingOn at hp ⊢; rw [hw]; exact hp

theorem moduleBays_eq (k : ModuleNo) : moduleBays k = (List.finRange 8).map fun i => bayAt k i := by revert k; decide

end Sys2Proof.Machine
end

