-- ==== Sys2Proof/Laws/Deadlines.lean ====
section
/-! SUPPORT. The deadline pass: its four checks, a record, a bay, the level. -/

namespace Sys2Proof.Machine

/-- What a part of the pass does beside the records it changes: RECORD entries join the list at its tail, the pool conditions
follow the settlements, and what stays. -/
structure PassKeeps (p q : Blocks) : Prop where
  rl : ∃ ts : List Ticket, q.reloc = p.reloc ++ ts.map Entry.record
  nt : q.notices = p.notices ∨ q.notices = p.notices.setLevels (decide (p.book.free.length ≤ p.params.poolLow)) true
  fg : q.book.free = p.book.free ∧ q.book.gens = p.book.gens
  rs : ∀ m ∈ p.mail.raises, m ∈ q.mail.raises
  ta : ∀ m ∈ p.mail.toAlloc, m ∈ q.mail.toAlloc
  fr : q = { p with book := q.book, reloc := q.reloc, notices := q.notices, mail := q.mail }

/-- What a part of the pass that leaves no bay does not touch: the held reports and the messages to the bay unit. -/
structure PassQuiet (p q : Blocks) : Prop where
  hr : q.book.heldReport = p.book.heldReport
  tb : q.mail.toBays = p.mail.toBays

/-- Only slot sl of bay c is changed. -/
structure OnlyOwnSlot (sl : Slot) (c : BayNo) (p q : Blocks) : Prop where
  recs : ∀ x, x ≠ sl → q.book.rec? x = p.book.rec? x
  tls : ∀ d, d ≠ c → q.book.slotsOn d = p.book.slotsOn d
  sub : ∀ x ∈ q.book.slotsOn c, x ∈ p.book.slotsOn c
  oth : ∀ x, x ≠ sl → x ∈ p.book.slotsOn c → x ∈ q.book.slotsOn c

theorem PassKeeps.refl (p : Blocks) : PassKeeps p p := ⟨⟨[], by simp⟩, .inl rfl, ⟨rfl, rfl⟩, fun _ h => h, fun _ h => h, rfl⟩

theorem PassKeeps.bays {p q : Blocks} (h : PassKeeps p q) : q.bays = p.bays := by rw [h.fr]

theorem PassKeeps.params {p q : Blocks} (h : PassKeeps p q) : q.params = p.params := by rw [h.fr]

/-- The list's new entries are RECORD entries, so every bay stays as it was. -/
theorem PassKeeps.ent {p q : Blocks} (h : PassKeeps p q) (d : BayNo) : q.bayEntry d = p.bayEntry d := by
  obtain ⟨ts, e⟩ := h.rl
  unfold Blocks.bayEntry
  rw [e, List.findSome?_append]
  have : (ts.map Entry.record).findSome? (Entry.reasonFor d) = none := by
    rw [List.findSome?_eq_none_iff]
    intro x hx
    obtain ⟨t, -, rfl⟩ := List.mem_map.1 hx
    rfl
  rw [this, Option.or_none]

theorem PassKeeps.trans {p q t : Blocks} (h : PassKeeps p q) (h' : PassKeeps q t) : PassKeeps p t := by
  obtain ⟨xs, e⟩ := h.rl
  obtain ⟨ys, e'⟩ := h'.rl
  refine ⟨⟨xs ++ ys, by rw [e', e, List.map_append, List.append_assoc]⟩, ?_, ⟨h'.fg.1.trans h.fg.1, h'.fg.2.trans h.fg.2⟩,
    fun m hm => h'.rs m (h.rs m hm), fun m hm => h'.ta m (h.ta m hm), ?_⟩
  · have n' := h'.nt
    rw [h.fg.1, h.params] at n'
    rcases h.nt with n | n <;> rw [n] at n'
    · exact n'
    · rw [Notices.setLevels_again, or_self] at n'
      exact .inr n'
  · have := h'.fr
    rw [h.fr] at this; exact this

theorem PassQuiet.refl (p : Blocks) : PassQuiet p p := ⟨rfl, rfl⟩

theorem PassQuiet.trans {p q t : Blocks} (h : PassQuiet p q) (h' : PassQuiet q t) : PassQuiet p t := ⟨h'.hr.trans h.hr, h'.tb.trans h.tb⟩

/-- What a settlement within the pass leaves. -/
theorem SettledInPass.keeps {p q : Blocks} {sl : Slot} {x y : Record} (h : p.SettledInPass q sl x y) : PassKeeps p q ∧ PassQuiet p q := by
  obtain ⟨b, n, r, m, f⟩ := h
  refine ⟨⟨⟨[], ?_⟩, .inr n, ⟨b.2.2.2.2.2.2.1, b.2.2.2.2.2.2.2⟩, fun k hk => by rw [m]; simp [hk], fun k hk => by rw [m]; exact hk, ?_⟩, ⟨r, by rw [m]⟩⟩
  · rw [f]; simp
  · rw [f]

theorem OnlyOwnSlot.refl (sl c p) : OnlyOwnSlot sl c p p := ⟨fun _ _ => rfl, fun _ _ => rfl, fun _ h => h, fun _ _ h => h⟩

theorem OnlyOwnSlot.trans {sl c} {p q t : Blocks} (h : OnlyOwnSlot sl c p q) (h' : OnlyOwnSlot sl c q t) : OnlyOwnSlot sl c p t :=
  ⟨fun x hx => (h'.recs x hx).trans (h.recs x hx), fun d hd => (h'.tls d hd).trans (h.tls d hd), fun x hx => h.sub x (h'.sub x hx), fun x hx hm => h'.oth x hx (h.oth x hx hm)⟩

theorem putRecord_pass (p : Blocks) (sl : Slot) (c : BayNo) (r : Record) : (PassKeeps p (p.putRecord sl r) ∧ PassQuiet p (p.putRecord sl r)) ∧ OnlyOwnSlot sl c p (p.putRecord sl r) ∧ (p.putRecord sl r).book.rec? sl = some r :=
  ⟨⟨⟨⟨[], (List.append_nil _).symm⟩, .inl rfl, ⟨rfl, rfl⟩, fun _ h => h, fun _ h => h, rfl⟩, ⟨rfl, rfl⟩⟩, ⟨fun _ hx => (Book.rec_put _ _ _ _).trans (if_neg (Ne.symm hx)), fun _ _ => rfl, fun _ h => h, fun _ _ h => h⟩, (Book.rec_put _ _ _ _).trans (if_pos rfl)⟩

/-- A settlement within the pass. -/
theorem SettledInPass.pass {p q : Blocks} {sl : Slot} {x y : Record} (h : p.SettledInPass q sl x y) :
    (PassKeeps p q ∧ PassQuiet p q) ∧ OnlyOwnSlot sl x.bay p q ∧ q.book.rec? sl = some y := by
  refine ⟨SettledInPass.keeps h, ?_, h.1.1⟩
  obtain ⟨⟨-, b2, b3, b4, -⟩, -⟩ := h
  refine ⟨b2, b4, fun s hs => ?_, fun s hs hm => ?_⟩
  · rw [b3] at hs; exact (List.mem_filter.1 hs).1
  · rw [b3]; exact List.mem_filter.2 ⟨hm, by simpa using hs⟩

/-- A record after the hold lead check. -/
def afterHoldLead (p : Blocks) (m : Nat) (x : Record) : Record := if x.state = .booked ∧ x.start - p.params.holdLead ≤ m then { x with state := .held } else x

/-- A record after the grace check. -/
def afterGrace (p : Blocks) (m : Nat) (x : Record) : Record := if x.state = .held ∧ x.start + x.grace ≤ m then x.settledWith .noShow none p.now else x

/-- A record after the end check. -/
def afterEnd (m : Nat) (x : Record) : Record := if (x.state = .session ∨ x.state = .parked) ∧ x.endMinute ≤ m then { x with state := .overstay } else x

theorem checkHoldLead_spec (p : Blocks) (m : Nat) (sl : Slot) (x : Record) (c : BayNo) (hx : p.book.rec? sl = some x) :
   (PassKeeps p (p.checkHoldLead m sl) ∧ PassQuiet p (p.checkHoldLead m sl)) ∧ OnlyOwnSlot sl c p (p.checkHoldLead m sl) ∧ (p.checkHoldLead m sl).book.rec? sl = some (afterHoldLead p m x) := by
  unfold Blocks.checkHoldLead afterHoldLead
  rw [hx]; dsimp only
  split
  · exact putRecord_pass _ _ _ _
  · exact ⟨⟨.refl _, .refl _⟩, .refl _ _ _, hx⟩

theorem checkGrace_spec (p : Blocks) (m : Nat) (sl : Slot) (x : Record) (c : BayNo) (hx : p.book.rec? sl = some x) (hc : x.bay = c) :
   (PassKeeps p (p.checkGrace m sl) ∧ PassQuiet p (p.checkGrace m sl)) ∧ OnlyOwnSlot sl c p (p.checkGrace m sl) ∧ (p.checkGrace m sl).book.rec? sl = some (afterGrace p m x) := by
  unfold Blocks.checkGrace afterGrace
  rw [hx]; dsimp only
  split
  · rename_i h
    subst hc
    exact SettledInPass.pass (settle_inPass hx h.1 _ _ (by simp) _ rfl)
  · exact ⟨⟨.refl _, .refl _⟩, .refl _ _ _, hx⟩

/-- A HELD record whose start has come on an occupied bay under no BAY entry, not yet marked, is what check 3 hands over (R72). -/
def HandedOver (p : Blocks) (m : Nat) (x : Record) : Prop :=
  x.state = .held ∧ x.start ≤ m ∧ (p.bay x.bay).state.occupied = true ∧ x.relocPending = false ∧ p.bayEntry x.bay = none

/-- What becomes of a record handed over: a RECORD entry and its mark, or on a full list its settlement (R72, R108). -/
def Handed (q : Blocks) (x y : Record) : Prop :=
  y = { x with relocPending := true } ∧ .record x.ticket ∈ q.reloc ∨
  y = { x with state := .settled, outcome := some .cancelled, cause := some .bayLost, relocPending := false } ∧
    128 ≤ q.reloc.length ∧ (.book, .stranded) ∈ q.mail.raises

theorem Handed.mono {p q : Blocks} {x y : Record} (h : Handed p x y) (k : PassKeeps p q) : Handed q x y := by
  obtain ⟨ts, e⟩ := k.rl
  rcases h with ⟨a, b⟩ | ⟨a, b, c⟩
  · exact .inl ⟨a, by rw [e]; exact List.mem_append_left _ b⟩
  · exact .inr ⟨a, by rw [e, List.length_append]; omega, k.rs _ c⟩

theorem checkOccupied_spec (p : Blocks) (m : Nat) (sl : Slot) (x : Record) (c : BayNo) (hx : p.book.rec? sl = some x) (hc : x.bay = c) :
   (PassKeeps p (p.checkOccupied m sl) ∧ PassQuiet p (p.checkOccupied m sl)) ∧ OnlyOwnSlot sl c p (p.checkOccupied m sl) ∧ ∃ y, (p.checkOccupied m sl).book.rec? sl = some y ∧ y.bay = x.bay ∧
     (HandedOver p m x → Handed (p.checkOccupied m sl) x y) ∧ (¬HandedOver p m x → y = x) := by
  have hq : (x.state = .held ∧ x.start ≤ m ∧ (p.bay x.bay).state.occupied ∧ x.relocPending = false ∧ (p.bayEntry x.bay).isNone) ↔ HandedOver p m x := by
    unfold HandedOver; rw [Option.isNone_iff_eq_none]
  unfold Blocks.checkOccupied
  rw [hx]; dsimp only
  split
  · rename_i h
    split
    · obtain ⟨⟨a1, a4⟩, a2, a3⟩ := putRecord_pass p sl c { x with relocPending := true }
      refine ⟨⟨⟨⟨[x.ticket], rfl⟩, .inl rfl, ⟨rfl, rfl⟩, fun _ h => h, fun _ h => h, rfl⟩, a4.hr, a4.tb⟩, ⟨a2.recs, a2.tls, a2.sub, a2.oth⟩, _, a3, rfl, fun _ => .inl ⟨rfl, ?_⟩, fun hn => absurd (hq.1 h) hn⟩
      show _ ∈ p.reloc ++ [.record x.ticket]
      simp
    · rename_i full
      subst hc
      have s := settle_inPass hx h.1 .cancelled (some .bayLost) (by simp) _ rfl
      obtain ⟨a1, a2, a3⟩ := SettledInPass.pass s
      refine ⟨a1, a2, _, a3, rfl, fun _ => .inr ⟨rfl, ?_, ?_⟩, fun hn => absurd (hq.1 h) hn⟩
      · rw [Blocks.settle_reloc]; exact Nat.le_of_not_lt full
      · rw [s.2.2.2.1]; simp [Record.settledWith]
  · rename_i h
    exact ⟨⟨.refl _, .refl _⟩, .refl _ _ _, x, hx, rfl, fun hn => absurd (hq.2 hn) h, fun _ => rfl⟩

theorem checkEnd_spec (p : Blocks) (m : Nat) (sl : Slot) (x : Record) (c : BayNo) (hx : p.book.rec? sl = some x) :
   (PassKeeps p (p.checkEnd m sl) ∧ PassQuiet p (p.checkEnd m sl)) ∧ OnlyOwnSlot sl c p (p.checkEnd m sl) ∧ (p.checkEnd m sl).book.rec? sl = some (afterEnd m x) ∧
   ((x.state = .session ∨ x.state = .parked) → x.endMinute ≤ m → (.book, .overstay x.bay) ∈ (p.checkEnd m sl).mail.raises ∧ (x.state = .session → .release x.bay ∈ (p.checkEnd m sl).mail.toAlloc)) := by
  unfold Blocks.checkEnd afterEnd
  rw [hx]; dsimp only
  split
  · obtain ⟨⟨a1, a4⟩, a2, a3⟩ := putRecord_pass p sl c { x with state := .overstay }
    by_cases hs : x.state = .session
    · rw [if_pos hs]
      refine ⟨⟨⟨a1.rl, a1.nt, a1.fg, fun k hk => ?_, fun k hk => ?_, rfl⟩, a4.hr, a4.tb⟩, ⟨a2.recs, a2.tls, a2.sub, a2.oth⟩, a3, fun _ _ => ⟨?_, fun _ => ?_⟩⟩
      · simp [Blocks.raise, Blocks.sendAlloc, Blocks.putRecord, hk]
      · simp [Blocks.raise, Blocks.sendAlloc, Blocks.putRecord, hk]
      · simp [Blocks.raise]
      · simp [Blocks.raise, Blocks.sendAlloc]
    · rw [if_neg hs]
      refine ⟨⟨⟨a1.rl, a1.nt, a1.fg, fun k hk => ?_, fun k hk => ?_, rfl⟩, a4.hr, a4.tb⟩, ⟨a2.recs, a2.tls, a2.sub, a2.oth⟩, a3, fun _ _ => ⟨?_, fun h => absurd h hs⟩⟩
      · simp [Blocks.raise, Blocks.putRecord, hk]
      · simp [Blocks.raise, Blocks.putRecord, hk]
      · simp [Blocks.raise]
  · rename_i h
    exact ⟨⟨.refl _, .refl _⟩, .refl _ _ _, hx, fun h1 h2 => absurd ⟨h1, h2⟩ h⟩

/-- The record that stands in a slot, written there again, changes nothing. -/
theorem put_same {k : Book} {sl : Slot} {x : Record} (h : k.rec? sl = some x) : k.put sl x = k := by
  have e : setAt k.pool sl (some x) = k.pool := by
    have := setAt_self k.pool sl
    rw [show k.pool[sl] = some x from h] at this
    exact this
  unfold Book.put
  rw [e]

/-- The pass over one record does what Safety.lean states. -/
theorem passRecord_passed (m : Nat) (p : Blocks) (sl : Slot) : Blocks.RecordPassed m sl p (p.passRecord m sl) := by
  refine ⟨fun hx => by simp [Blocks.passRecord, Blocks.checkHoldLead, Blocks.checkGrace, Blocks.checkOccupied, Blocks.checkEnd, hx], fun x hx => ?_⟩
  obtain ⟨y, ey⟩ : ∃ y, y = afterHoldLead p m x := ⟨_, rfl⟩
  refine ⟨y, _, ey, rfl, ?_⟩
  have e1 : p.checkHoldLead m sl = { p with book := p.book.put sl (afterHoldLead p m x) } := by
    unfold Blocks.checkHoldLead afterHoldLead
    rw [hx]; dsimp only
    split
    · rfl
    · rw [put_same hx]
  rw [← ey] at e1
  unfold Blocks.passRecord
  rw [e1]
  obtain ⟨n, hn⟩ : ∃ n : Blocks, n = { p with book := p.book.put sl y } := ⟨_, rfl⟩
  have hy : n.book.rec? sl = some y := by rw [hn]; exact (Book.rec_put _ _ _ _).trans (if_pos rfl)
  rw [← hn]
  have settled : ∀ (q : Blocks) (z : Record), q.book.rec? sl = some z → z.state = .settled →
      (q.checkOccupied m sl).checkEnd m sl = q ∧ q.checkEnd m sl = q := by
    intro q z hz hs
    have h1 : q.checkOccupied m sl = q := by unfold Blocks.checkOccupied; simp [hz, hs]
    have h2 : q.checkEnd m sl = q := by unfold Blocks.checkEnd; simp [hz, hs]
    rw [h1]; exact ⟨h2, h2⟩
  split
  · rename_i h
    have g : n.checkGrace m sl = n.settle true sl .noShow none := by unfold Blocks.checkGrace; rw [hy]; dsimp only; rw [if_pos h]
    have s := settle_inPass hy h.1 .noShow none (by simp) _ rfl
    rw [g, (settled _ _ s.1.1 rfl).1]
    exact s
  · rename_i h
    have g : n.checkGrace m sl = n := by unfold Blocks.checkGrace; rw [hy]; dsimp only; rw [if_neg h]
    rw [g]
    have en : ∀ d, n.bayEntry d = p.bayEntry d := fun d => by rw [hn]; rfl
    have eb : ∀ d, n.bay d = p.bay d := fun d => by rw [hn]; rfl
    have er : n.reloc = p.reloc := by rw [hn]
    have em : n.mail = p.mail := by rw [hn]
    split
    · rename_i c
      have c' : y.state = .held ∧ y.start ≤ m ∧ (n.bay y.bay).state.occupied ∧ y.relocPending = false ∧ (n.bayEntry y.bay).isNone := by
        rw [eb, en, c.2.2.2.2]; exact ⟨c.1, c.2.1, c.2.2.1, c.2.2.2.1, rfl⟩
      split
      · rename_i room
        have o : n.checkOccupied m sl = (n.putRecord sl { y with relocPending := true }).withReloc (n.reloc ++ [.record y.ticket]) := by
          unfold Blocks.checkOccupied; rw [hy]; dsimp only; rw [if_pos c', if_pos (by rw [er]; exact room)]
        have hz : (n.checkOccupied m sl).book.rec? sl = some { y with relocPending := true } := by
          rw [o]; exact (Book.rec_put _ _ _ _).trans (if_pos rfl)
        have f : (n.checkOccupied m sl).checkEnd m sl = n.checkOccupied m sl := by
          conv_lhs => unfold Blocks.checkEnd
          simp [hz, c.1]
        rw [f, o, er]; rfl
      · rename_i room
        have o : n.checkOccupied m sl = n.settle true sl .cancelled (some .bayLost) := by
          unfold Blocks.checkOccupied; rw [hy]; dsimp only; rw [if_pos c', if_neg (by rw [er]; exact room)]
        have s := settle_inPass hy c.1 .cancelled (some .bayLost) (by simp) _ rfl
        rw [o, (settled _ _ s.1.1 rfl).2]
        exact s
    · rename_i c
      have o : n.checkOccupied m sl = n := by
        unfold Blocks.checkOccupied; rw [hy]; dsimp only
        rw [if_neg]
        rw [eb, en, Option.isNone_iff_eq_none]; exact c
      rw [o]
      unfold Blocks.checkEnd
      rw [hy]; dsimp only
      split
      · rename_i d
        rw [if_pos (show _ ∧ y.endMinute ≤ m from d), hn]
        by_cases hs : y.state = .session
        · simp only [if_pos hs]; rfl
        · simp only [if_neg hs, List.append_nil]; rfl
      · rename_i d
        rw [if_neg (show ¬(_ ∧ y.endMinute ≤ m) from d)]

/-- The comparison of the held report at one bay, as one update. -/
theorem compareHeld_update (p : Blocks) (b : BayNo) :
    (p.book.heldReport[b] = p.book.hasHeld b → p.compareHeld b = p) ∧
    (p.book.heldReport[b] ≠ p.book.hasHeld b → p.compareHeld b = { p with
      book := { p.book with heldReport := setAt p.book.heldReport b (p.book.hasHeld b) }
      mail := { p.mail with toBays := p.mail.toBays ++ [if p.book.hasHeld b then .hold b else .unhold b] } }) := by
  unfold Blocks.compareHeld
  cases p.book.heldReport[b] <;> cases p.book.hasHeld b <;> simp <;> rfl

/-- The pass over one bay does what Safety.lean states. -/
theorem passBay_passed (m : Nat) (p : Blocks) (b : BayNo) : Blocks.BayPassed m b p (p.passBay m b) :=
  ⟨(p.book.slotsOn b).foldl (Blocks.passRecord m) p,
    inTurn_foldl (fun _ => True) _ (fun x _ sl _ => ⟨passRecord_passed m x sl, trivial⟩) _ trivial, compareHeld_update _ b⟩

/-- The pass does what Safety.lean states, bay by bay. -/
theorem deadlinePass_passed (m : Nat) (p : Blocks) : InTurn (Blocks.BayPassed m) (List.finRange 96) p (p.deadlinePass m) :=
  inTurn_foldl (fun _ => True) _ (fun x _ b _ => ⟨passBay_passed m x b, trivial⟩) _ trivial

/-- No deadline of the record is left behind minute m. -/
def PastDeadlines (m : Nat) (p : Blocks) (y : Record) : Prop :=
  (y.state = .booked → m < y.start - p.params.holdLead) ∧
  (y.state = .held → m < y.start + y.grace) ∧
  (y.state = .session ∨ y.state = .parked → m < y.start + y.length) ∧
  (y.state = .held → y.start ≤ m → (p.bay y.bay).state.occupied = true → p.bayEntry y.bay = none → y.relocPending = true)

/-- What the pass made of a record, for the cases the spec names. -/
def PassedFrom (m : Nat) (p q : Blocks) (x y : Record) : Prop :=
        ((x.state = .booked → m < x.start - p.params.holdLead) →
          (x.state = .held → m < x.start ∧ m < x.start + x.grace) →
          (x.state = .session ∨ x.state = .parked → m < x.start + x.length) → y = x) ∧
        (x.state = .held → x.start + x.grace ≤ m →
          y = { x with state := .settled, outcome := some .noShow, cause := none, relocPending := false }) ∧
        (x.state = .session ∨ x.state = .parked → x.start + x.length ≤ m → y = { x with state := .overstay } ∧
          (.book, .overstay x.bay) ∈ q.mail.raises ∧ (x.state = .session → .release x.bay ∈ q.mail.toAlloc)) ∧
        (x.state = .booked → x.start - p.params.holdLead ≤ m → m < x.start → y = { x with state := .held }) ∧
        (HandedOver p m x → m < x.start + x.grace → Handed q x y)

/-- The pass over one record. -/
theorem passRecord_spec (m : Nat) (p : Blocks) (sl : Slot) (x : Record) (c : BayNo) (hx : p.book.rec? sl = some x) (hc : x.bay = c) :
    (PassKeeps p (p.passRecord m sl) ∧ PassQuiet p (p.passRecord m sl)) ∧ OnlyOwnSlot sl c p (p.passRecord m sl) ∧ ∃ y, (p.passRecord m sl).book.rec? sl = some y ∧ y.bay = c ∧ PastDeadlines m p y ∧ PassedFrom m p (p.passRecord m sl) x y := by
  unfold Blocks.passRecord
  obtain ⟨⟨k1, w1⟩, o1, e1⟩ := checkHoldLead_spec p m sl x c hx
  generalize p.checkHoldLead m sl = q1 at *
  have b1 : (afterHoldLead p m x).bay = c := by unfold afterHoldLead; split <;> exact hc
  obtain ⟨⟨k2, w2⟩, o2, e2⟩ := checkGrace_spec q1 m sl _ c e1 b1
  generalize q1.checkGrace m sl = q2 at *
  have b2 : (afterGrace q1 m (afterHoldLead p m x)).bay = c := by unfold afterGrace; split <;> exact b1
  obtain ⟨⟨k3, w3⟩, o3, y, e3, b3, h3, n3⟩ := checkOccupied_spec q2 m sl _ c e2 b2
  generalize q2.checkOccupied m sl = q3 at *
  obtain ⟨⟨k4, w4⟩, o4, e4, g4⟩ := checkEnd_spec q3 m sl y c e3
  generalize q3.checkEnd m sl = q4 at *
  have same : ∀ z, HandedOver q2 m z ↔ HandedOver p m z := fun z => by
    unfold HandedOver
    rw [(k1.trans k2).ent, Blocks.bay_congr (k1.trans k2).bays]
  rw [same] at h3 n3
  refine ⟨⟨((k1.trans k2).trans k3).trans k4, ((w1.trans w2).trans w3).trans w4⟩, ((o1.trans o2).trans o3).trans o4, afterEnd m y, e4, ?_, ?_, ?_⟩
  · unfold afterEnd; split <;> exact b3.trans b2
  · have d1 : (afterHoldLead p m x).state = .booked → m < (afterHoldLead p m x).start - p.params.holdLead := by
      unfold afterHoldLead; split
      · intro h; cases h
      · rename_i h; intro hb; exact Nat.lt_of_not_le fun hl => h ⟨hb, hl⟩
    generalize afterHoldLead p m x = u at *
    have d2 : ((afterGrace q1 m u).state = .booked → m < (afterGrace q1 m u).start - p.params.holdLead) ∧ ((afterGrace q1 m u).state = .held → m < (afterGrace q1 m u).start + (afterGrace q1 m u).grace) := by
      unfold afterGrace; split
      · exact ⟨fun h => by (cases h), fun h => by (cases h)⟩
      · rename_i h; exact ⟨d1, fun hb => Nat.lt_of_not_le fun hl => h ⟨hb, hl⟩⟩
    generalize afterGrace q1 m u = v at *
    have d3 : (y.state = .booked → m < y.start - p.params.holdLead) ∧ (y.state = .held → m < y.start + y.grace) ∧
        (y.state = .held → y.start ≤ m → (p.bay y.bay).state.occupied = true → p.bayEntry y.bay = none → y.relocPending = true) := by
      by_cases hv : HandedOver p m v
      · rcases h3 hv with ⟨h', -⟩ | ⟨h', -, -⟩
        · rw [h']; exact ⟨d2.1, d2.2, fun _ _ _ _ => rfl⟩
        · rw [h']; exact ⟨fun h => by (cases h), fun h => by (cases h), fun h => by (cases h)⟩
      · rw [n3 hv]
        refine ⟨d2.1, d2.2, fun a1 a2 a3 a4 => ?_⟩
        by_contra hr
        exact hv ⟨a1, a2, a3, by simpa using hr, a4⟩
    unfold afterEnd; split
    · exact ⟨fun h => by (cases h), fun h => by (cases h), fun h => by (rcases h with h | h <;> cases h), fun h => by (cases h)⟩
    · rename_i h
      exact ⟨d3.1, d3.2.1, fun hs => Nat.lt_of_not_le fun hl => h ⟨hs, hl⟩, d3.2.2⟩
  · -- what the first two checks leave, case by case
    have led : (x.state = .booked → m < x.start - p.params.holdLead) → afterHoldLead p m x = x := by
      intro h; unfold afterHoldLead; rw [if_neg]; rintro ⟨h', h''⟩; have := h h'; omega
    have ended : ∀ z : Record, ((z.state = .session ∨ z.state = .parked) → m < z.start + z.length) → afterEnd m z = z := by
      intro z h; unfold afterEnd; rw [if_neg]; rintro ⟨h', h''⟩; have := h h'; unfold Record.endMinute at h''; omega
    have graced : ∀ z : Record, (z.state = .held → m < z.start + z.grace) → afterGrace q1 m z = z := by
      intro z h; unfold afterGrace; rw [if_neg]; rintro ⟨h', h''⟩; have := h h'; omega
    refine ⟨fun a1 a2 a3 => ?_, fun a1 a2 => ?_, fun a1 a2 => ?_, fun a1 a2 a3 => ?_, fun a1 a2 => ?_⟩
    · rw [led a1, graced x fun h => (a2 h).2] at n3
      rw [n3 fun h => ?_, ended x a3]
      have := (a2 h.1).1
      have := h.2.1
      omega
    · have e : afterGrace q1 m x = x.settledWith .noShow none q1.now := by unfold afterGrace; rw [if_pos ⟨a1, a2⟩]
      rw [(led fun h => by rw [a1] at h; cases h), e] at n3
      rw [n3 fun h => by (cases h.1), ended _ fun h => by (rcases h with h | h <;> cases h)]
      rfl
    · have nb : x.state ≠ .booked ∧ x.state ≠ .held := by rcases a1 with h | h <;> rw [h] <;> simp
      rw [(led fun h => absurd h nb.1), graced x fun h => absurd h nb.2] at n3
      have hyx := n3 fun h => nb.2 h.1
      rw [hyx] at g4 ⊢
      refine ⟨?_, g4 a1 a2⟩
      unfold afterEnd; rw [if_pos ⟨a1, a2⟩]
    · have e : afterHoldLead p m x = { x with state := .held } := by unfold afterHoldLead; rw [if_pos ⟨a1, a2⟩]
      rw [e, graced { x with state := .held } fun _ => Nat.lt_of_lt_of_le a3 (Nat.le_add_right _ _)] at n3
      rw [n3 fun h => Nat.not_lt.2 h.2.1 a3, ended _ fun h => by (rcases h with h | h <;> cases h)]
    · rw [(led fun h => by rw [a1.1] at h; cases h), graced x fun _ => a2] at h3
      have hh := h3 a1
      have e : afterEnd m y = y := ended y fun h => by
        rcases hh with ⟨h', -⟩ | ⟨h', -, -⟩ <;> rw [h'] at h
        · rw [show ({ x with relocPending := true } : Record).state = .held from a1.1] at h; rcases h with h | h <;> cases h
        · rcases h with h | h <;> cases h
      rw [e]
      exact hh.mono k4

theorem PastDeadlines.congr {m p p' y} (h : PastDeadlines m p y) (hp : p'.params = p.params) (hb : p'.bays = p.bays) (he : ∀ d, p'.bayEntry d = p.bayEntry d) : PastDeadlines m p' y := by
  unfold PastDeadlines at *
  rw [hp, Blocks.bay_congr hb, he]; exact h

/-- What the pass makes of a record, told from an earlier point of the pass. -/
theorem PassedFrom.back {m p p' q x y} (h : PassedFrom m p q x y) (k : PassKeeps p' p) : PassedFrom m p' q x y := by
  unfold PassedFrom HandedOver at *
  rw [← Blocks.bay_congr k.bays, ← k.ent, ← k.params]; exact h

/-- What the pass made of a record stands at a later point of the pass. -/
theorem PassedFrom.on {m p q q' x y} (h : PassedFrom m p q x y) (k : PassKeeps q q') : PassedFrom m p q' x y :=
  ⟨h.1, h.2.1, fun a b => ⟨(h.2.2.1 a b).1, k.rs _ (h.2.2.1 a b).2.1, fun c => k.ta _ ((h.2.2.1 a b).2.2 c)⟩, h.2.2.2.1,
    fun a b => (h.2.2.2.2 a b).mono k⟩

/-- The pass over a list of records of one bay. -/
theorem passRecord_fold (m : Nat) (c : BayNo) (xs : List Slot) (hn : xs.Nodup) (p : Blocks) (h : p.book.Sound) (hx : ∀ sl ∈ xs, ∃ x, p.book.rec? sl = some x ∧ x.bay = c) :
    let q := xs.foldl (Blocks.passRecord m) p
    (PassKeeps p q ∧ PassQuiet p q) ∧ q.book.Sound ∧ (∀ d, d ≠ c → q.book.slotsOn d = p.book.slotsOn d) ∧ (∀ sl, sl ∉ xs → q.book.rec? sl = p.book.rec? sl) ∧
    (∀ sl ∈ xs, ∀ x, p.book.rec? sl = some x → ∃ y, q.book.rec? sl = some y ∧ y.bay = c ∧ PastDeadlines m p y ∧ PassedFrom m p q x y) := by
  induction xs generalizing p with
  | nil => exact ⟨⟨.refl _, .refl _⟩, h, fun _ _ => rfl, fun _ _ => rfl, by simp⟩
  | cons s xs ih =>
    obtain ⟨hs, hn⟩ := List.nodup_cons.1 hn
    simp only [List.foldl_cons]
    obtain ⟨x, x1, x2⟩ := hx s (by simp)
    obtain ⟨⟨k, w⟩, o, y, y1, y2, y3, y4⟩ := passRecord_spec m p s x c x1 x2
    have hsnd : (p.passRecord m s).book.Sound := Book.Sound.reach (Blocks.passRecord_reaches m p s).2.2.1 h
    have ne : ∀ sl ∈ xs, sl ≠ s := fun sl hm e => hs (e ▸ hm)
    obtain ⟨⟨i1, iw⟩, i2, i3, i4, i5⟩ := ih hn (p.passRecord m s) hsnd (fun sl hm => by
      obtain ⟨z, z1, z2⟩ := hx sl (List.mem_cons_of_mem _ hm)
      exact ⟨z, by rw [o.recs sl (ne sl hm)]; exact z1, z2⟩)
    generalize p.passRecord m s = t at *
    generalize List.foldl _ t xs = q at *
    refine ⟨⟨k.trans i1, w.trans iw⟩, i2, fun d hd => (i3 d hd).trans (o.tls d hd), fun sl hm => ?_, fun sl hm z hz => ?_⟩
    · simp only [List.mem_cons, not_or] at hm
      rw [i4 sl hm.2, o.recs sl hm.1]
    · rcases List.mem_cons.1 hm with rfl | hm
      · rw [x1] at hz; cases hz
        exact ⟨y, by rw [i4 sl hs]; exact y1, y2, y3, y4.on i1⟩
      · obtain ⟨w, w1, w2, w3, w4⟩ := i5 sl hm z (by rw [o.recs sl (ne sl hm)]; exact hz)
        exact ⟨w, w1, w2, w3.congr k.params.symm k.bays.symm (fun d => (k.ent d).symm), w4.back k⟩

/-- What the comparison of the held report does at one bay. -/
theorem compareHeld_spec (p : Blocks) (b : BayNo) : PassKeeps p (p.compareHeld b) ∧
    (p.compareHeld b).book = { p.book with heldReport := setAt p.book.heldReport b (p.book.hasHeld b) } ∧
    (p.compareHeld b).mail.toBays = p.mail.toBays ++
      (if p.book.hasHeld b = p.book.heldReport[b] then [] else [if p.book.hasHeld b then .hold b else .unhold b]) := by
  obtain ⟨h1, h2⟩ := compareHeld_update p b
  by_cases e : p.book.heldReport[b] = p.book.hasHeld b
  · rw [h1 e, if_pos e.symm, ← e]
    exact ⟨.refl _, by rw [show setAt p.book.heldReport b p.book.heldReport[b] = p.book.heldReport from setAt_self _ _], by simp⟩
  · rw [h2 e, if_neg (Ne.symm e)]
    exact ⟨⟨⟨[], by simp⟩, .inl rfl, ⟨rfl, rfl⟩, fun _ h => h, fun _ h => h, rfl⟩, rfl, rfl⟩

/-- The message the pass sends as it leaves bay `b`: HOLD where the held report rises, UNHOLD where it falls (R75, R173). -/
def heldChange (p q : Blocks) (b : BayNo) : Option BayMsg :=
  if q.book.heldReport[b] = p.book.heldReport[b] then none else some (if q.book.heldReport[b] then .hold b else .unhold b)

/-- The pass over one bay. -/
theorem passBay_spec (m : Nat) (p : Blocks) (b : BayNo) (h : p.book.Sound) (q : Blocks) (hq : q = p.passBay m b) :
    PassKeeps p q ∧ q.book.Sound ∧ (∀ d, d ≠ b → q.book.slotsOn d = p.book.slotsOn d) ∧ (∀ sl, sl ∉ p.book.slotsOn b → q.book.rec? sl = p.book.rec? sl) ∧
    (∀ sl ∈ p.book.slotsOn b, ∀ x, p.book.rec? sl = some x → ∃ y, q.book.rec? sl = some y ∧ y.bay = b ∧ PastDeadlines m p y ∧ PassedFrom m p q x y) ∧
    (∀ d : BayNo, q.book.heldReport[d] = if d = b then q.book.hasHeld b else p.book.heldReport[d]) ∧
    q.mail.toBays = p.mail.toBays ++ (heldChange p q b).toList := by
  obtain ⟨⟨k, kw⟩, f2, f3, f4, f5⟩ := passRecord_fold m b (p.book.slotsOn b) (h.2.2.1 b) p h (fun sl hm => by
    obtain ⟨r, a, _, c⟩ := (h.2.2.2.2.2.1 b sl).1 hm; exact ⟨r, a, c⟩)
  unfold Blocks.passBay at hq
  subst hq
  generalize (p.book.slotsOn b).foldl (Blocks.passRecord m) p = t at *
  obtain ⟨g1, g2, g3⟩ := compareHeld_spec t b
  have hrec : ∀ sl, (t.compareHeld b).book.rec? sl = t.book.rec? sl := fun sl => by rw [g2]; rfl
  have htl : ∀ d, (t.compareHeld b).book.slotsOn d = t.book.slotsOn d := fun d => by rw [g2]; rfl
  have hh : ∀ d, (t.compareHeld b).book.hasHeld d = t.book.hasHeld d := fun d => hasHeld_congr (by rw [g2]) (by rw [g2]) d
  have rep : ∀ d : BayNo, (t.compareHeld b).book.heldReport[d] = if d = b then (t.compareHeld b).book.hasHeld b else p.book.heldReport[d] := fun d => by
    rw [hh]
    simp only [g2]
    simp only [Fin.getElem_fin, setAt_get]
    by_cases e : b = d
    · rw [if_pos e, if_pos e.symm]
    · rw [if_neg e, if_neg (Ne.symm e)]
      simp only [kw.hr]
  refine ⟨k.trans g1, f2.congr (by rw [g2]) (by rw [g2]) (by rw [g2]) (by rw [g2]) (by rw [g2]), fun d hd => (htl d).trans (f3 d hd), fun sl hm => (hrec sl).trans (f4 sl hm), fun sl hm x hx => ?_, rep, ?_⟩
  · obtain ⟨y, y1, y2, y3, y4⟩ := f5 sl hm x hx
    exact ⟨y, (hrec sl).trans y1, y2, y3, y4.on g1⟩
  · unfold heldChange
    rw [g3, kw.tb, rep b, if_pos rfl, hh, kw.hr]
    split <;> rfl

/-- The pass over a list of bays. -/
theorem passBay_fold (m : Nat) (bs : List BayNo) (hn : bs.Nodup) (p : Blocks) (h : p.book.Sound) (q : Blocks) (hq : q = bs.foldl (Blocks.passBay m) p) :
    PassKeeps p q ∧ q.book.Sound ∧ (∀ d, d ∉ bs → q.book.slotsOn d = p.book.slotsOn d ∧ q.book.heldReport[d] = p.book.heldReport[d]) ∧
    (∀ sl, (∀ b ∈ bs, sl ∉ p.book.slotsOn b) → q.book.rec? sl = p.book.rec? sl) ∧
    (∀ b ∈ bs, ∀ sl ∈ p.book.slotsOn b, ∀ x, p.book.rec? sl = some x → ∃ y, q.book.rec? sl = some y ∧ y.bay = b ∧ PastDeadlines m p y ∧ PassedFrom m p q x y) ∧
    (∀ b ∈ bs, q.book.heldReport[b] = q.book.hasHeld b) ∧ q.mail.toBays = p.mail.toBays ++ bs.filterMap (heldChange p q) := by
  induction bs generalizing p with
  | nil => subst hq; exact ⟨.refl _, h, fun _ _ => ⟨rfl, rfl⟩, fun _ _ => rfl, by simp, by simp, by simp⟩
  | cons b bs ih =>
    obtain ⟨hb, hn⟩ := List.nodup_cons.1 hn
    simp only [List.foldl_cons] at hq
    obtain ⟨t, ht⟩ : ∃ t, t = p.passBay m b := ⟨_, rfl⟩
    obtain ⟨p1, p2, p3, p4, p5, p6, p7⟩ := passBay_spec m p b h t ht
    rw [← ht] at hq
    obtain ⟨i1, i2, i3, i4, i5, i6, i7⟩ := ih hn t p2 hq
    have ne : ∀ d ∈ bs, d ≠ b := fun d hd e => hb (e ▸ hd)
    -- a slot of bay b is on no other bay's timeline of t
    have apart : ∀ sl x, t.book.rec? sl = some x → x.bay = b → ∀ d ∈ bs, sl ∉ t.book.slotsOn d := by
      intro sl x hx hxb d hd hm
      exact ne d hd ((slotsOn_recBay p2 hm x hx).symm.trans hxb)
    refine ⟨p1.trans i1, i2, fun d hd => ?_, fun sl hs => ?_, fun d hd sl hm x hx => ?_, fun d hd => ?_, ?_⟩
    · simp only [List.mem_cons, not_or] at hd
      exact ⟨(i3 d hd.2).1.trans (p3 d hd.1), (i3 d hd.2).2.trans ((p6 d).trans (if_neg hd.1))⟩
    · rw [i4 sl fun d hd => ?_, p4 sl (hs b (by simp))]
      rw [p3 d (ne d hd)]; exact hs d (List.mem_cons_of_mem _ hd)
    · rcases List.mem_cons.1 hd with rfl | hd
      · obtain ⟨y, y1, y2, y3, y4⟩ := p5 sl hm x hx
        exact ⟨y, by rw [i4 sl (apart sl y y1 y2)]; exact y1, y2, y3, y4.on i1⟩
      · have hnb : sl ∉ p.book.slotsOn b := fun hc => ne d hd ((slotsOn_recBay h hm x hx).symm.trans (slotsOn_recBay h hc x hx))
        obtain ⟨y, y1, y2, y3, y4⟩ := i5 d hd sl (by rw [p3 d (ne d hd)]; exact hm) x (by rw [p4 sl hnb]; exact hx)
        exact ⟨y, y1, y2, y3.congr p1.params.symm p1.bays.symm (fun d => (p1.ent d).symm), y4.back p1⟩
    · rcases List.mem_cons.1 hd with rfl | hd
      · rw [(i3 d hb).2, p6 d, if_pos rfl]
        unfold Book.hasHeld Book.slotsWhere
        rw [(i3 d hb).1]
        congr 2
        refine List.filter_congr fun sl hs => ?_
        rw [i4 sl]
        obtain ⟨r, a1, _, a2⟩ := (p2.2.2.2.2.2.1 d sl).1 hs
        exact apart sl r a1 a2
      · exact i6 d hd
    · have e1 : heldChange p q b = heldChange p t b := by unfold heldChange; rw [(i3 b hb).2]
      have e2 : bs.filterMap (heldChange t q) = bs.filterMap (heldChange p q) := List.filterMap_congr fun d hd => by
        unfold heldChange; rw [p6 d, if_neg (ne d hd)]
      rw [i7, p7, e2, ← e1, List.append_assoc, List.filterMap_cons]
      cases heldChange p q b <;> rfl

end Sys2Proof.Machine
end

