-- ==== Sys2Proof/Laws/Entries.lean ====
section
/-! SUPPORT. The RECORD entries of the relocation list and the removals on their way: what every change keeps of them (R104,
R107, R110). -/

namespace Sys2Proof.Machine

/-! ## The removals on their way -/

@[simp] theorem Blocks.raise_toReloc (p : Blocks) (y : Sender) (x : Raise) : (p.raise y x).mail.toReloc = p.mail.toReloc := rfl
@[simp] theorem Blocks.sendAlloc_toReloc (p : Blocks) (x : AllocMsg) : (p.sendAlloc x).mail.toReloc = p.mail.toReloc := rfl
@[simp] theorem Blocks.sendRemoval_toReloc (p : Blocks) (x : Ticket) : (p.sendRemoval x).mail.toReloc = p.mail.toReloc ++ [x] := rfl
@[simp] theorem Blocks.sendBay_toReloc (p : Blocks) (x : BayMsg) : (p.sendBay x).mail.toReloc = p.mail.toReloc := rfl
@[simp] theorem Blocks.sendHold_toReloc (p : Blocks) (b : BayNo) : (p.sendHold b).mail.toReloc = p.mail.toReloc := rfl
@[simp] theorem Blocks.sendUnhold_toReloc (p : Blocks) (b : BayNo) : (p.sendUnhold b).mail.toReloc = p.mail.toReloc := rfl

@[simp] theorem Blocks.cutFeeder_toReloc (p : Blocks) (f : FeederNo) : (p.cutFeeder f).mail.toReloc = p.mail.toReloc := by
  unfold Blocks.cutFeeder
  split <;> simp

@[simp] theorem Blocks.ceilingChanged_toReloc (p : Blocks) (f : FeederNo) (old : Nat) :
    (p.ceilingChanged f old).mail.toReloc = p.mail.toReloc := by
  unfold Blocks.ceilingChanged
  (repeat' split) <;> simp

@[simp] theorem Blocks.setReserve_toReloc (p : Blocks) (f : FeederNo) (n : Nat) :
    (p.setReserve f n).mail.toReloc = p.mail.toReloc := by
  simp [Blocks.setReserve]

@[simp] theorem Blocks.allocBoundary_toReloc (p : Blocks) : p.allocBoundary.mail.toReloc = p.mail.toReloc := by
  unfold Blocks.allocBoundary
  split
  · rfl
  · exact foldl_leaves (fun q : Blocks => q.mail.toReloc) _ _ _ fun q f _ => by simp [Blocks.rebalanceFeeder]

@[simp] theorem Blocks.allocSupply_toReloc (p : Blocks) (x : SupplyState) :
    (p.allocSupply x).mail.toReloc = p.mail.toReloc := by
  unfold Blocks.allocSupply
  dsimp only
  (repeat' split)
  · rfl
  · rfl
  · exact foldl_leaves (fun q : Blocks => q.mail.toReloc) _ _ _ fun q f _ => by simp

@[simp] theorem Blocks.setSupply_toReloc (p : Blocks) (x : SupplyState) : (p.setSupply x).mail.toReloc = p.mail.toReloc := by
  unfold Blocks.setSupply
  dsimp only
  (repeat' split) <;> simp

@[simp] theorem Blocks.supplyBoundary_toReloc (p : Blocks) : p.supplyBoundary.mail.toReloc = p.mail.toReloc := by
  unfold Blocks.supplyBoundary
  dsimp only
  (repeat' split) <;> simp

@[simp] theorem Blocks.mainsOkFall_toReloc (p : Blocks) : p.mainsOkFall.mail.toReloc = p.mail.toReloc := by
  unfold Blocks.mainsOkFall
  dsimp only
  (repeat' split) <;> simp

@[simp] theorem Blocks.switchSupply_toReloc (p : Blocks) : p.switchSupply.mail.toReloc = p.mail.toReloc := by
  simp [Blocks.switchSupply]

@[simp] theorem Blocks.bayBoundary_toReloc (p : Blocks) : p.bayBoundary.mail.toReloc = p.mail.toReloc := by
  unfold Blocks.bayBoundary
  split
  · rfl
  · refine foldl_leaves (fun q : Blocks => q.mail.toReloc) _ _ _ fun q b _ => ?_
    unfold Blocks.countBay
    dsimp only
    split <;> simp

@[simp] theorem Blocks.offerFault_toReloc (p : Blocks) (x : Capture) : (p.offerFault x).mail.toReloc = p.mail.toReloc := by
  unfold Blocks.offerFault
  split <;> simp

theorem Blocks.takeBay_toReloc (p : Blocks) (m : BayMsg) {f : Blocks → Blocks}
    (h : ∀ q, (f q).mail.toReloc = q.mail.toReloc) : (p.takeBay m f).mail.toReloc = p.mail.toReloc := by
  unfold Blocks.takeBay
  (repeat' split) <;> simp [h]

theorem Blocks.takeAlloc_toReloc (p : Blocks) (m : AllocMsg) {f : Blocks → Blocks}
    (h : ∀ q, (f q).mail.toReloc = q.mail.toReloc) : (p.takeAlloc m f).mail.toReloc = p.mail.toReloc := by
  unfold Blocks.takeAlloc
  (repeat' split) <;> simp [h]

@[simp] theorem Blocks.takeHold_toReloc (p : Blocks) (b : BayNo) : (p.takeHold b).mail.toReloc = p.mail.toReloc :=
  p.takeBay_toReloc _ fun _ => rfl
@[simp] theorem Blocks.takeUnhold_toReloc (p : Blocks) (b : BayNo) : (p.takeUnhold b).mail.toReloc = p.mail.toReloc :=
  p.takeBay_toReloc _ fun _ => rfl
@[simp] theorem Blocks.takeEnd_toReloc (p : Blocks) (b : BayNo) : (p.takeEnd b).mail.toReloc = p.mail.toReloc :=
  p.takeBay_toReloc _ fun _ => rfl
@[simp] theorem Blocks.takeRequest_toReloc (p : Blocks) (b : BayNo) (n : Nat) :
    (p.takeRequest b n).mail.toReloc = p.mail.toReloc := p.takeAlloc_toReloc _ fun _ => rfl
@[simp] theorem Blocks.takeRelease_toReloc (p : Blocks) (b : BayNo) : (p.takeRelease b).mail.toReloc = p.mail.toReloc :=
  p.takeAlloc_toReloc _ fun _ => rfl

@[simp] theorem Blocks.takeRaise_toReloc (p : Blocks) (y : Sender) (x : Raise) :
    (p.takeRaise y x).mail.toReloc = p.mail.toReloc := by
  unfold Blocks.takeRaise
  split <;> simp

/-- A settlement sends the removal of the record's entry where the record was marked (R107). -/
theorem Blocks.settle_toReloc {p : Blocks} {sl : Slot} {r : Record} (hr : p.book.rec? sl = some r) (hl : r.state ≠ .settled)
    (quiet : Bool) (o : Result) (c : Option Cause) :
    (p.settle quiet sl o c).mail.toReloc = p.mail.toReloc ++ if r.relocPending then [r.ticket] else [] := by
  unfold Blocks.settle
  simp only [hr, if_neg hl]
  cases r.relocPending <;> simp [apply_ite Blocks.mail, apply_ite Mail.toReloc]

/-! ## What a change keeps -/

/-- The book and the RECORD entries are sound. -/
def Blocks.Tracked (p : Blocks) : Prop := p.book.Sound ∧ p.RecordEntriesSound

/-- The change keeps them so. -/
def Blocks.Tracks (p q : Blocks) : Prop := p.Tracked → q.Tracked

theorem Blocks.Tracks.refl (p : Blocks) : p.Tracks p := id

theorem Blocks.Tracks.trans {p q t : Blocks} (h : p.Tracks q) (h' : q.Tracks t) : p.Tracks t := fun hp => h' (h hp)

theorem Blocks.Tracks.foldl {β : Type} (f : Blocks → β → Blocks) (xs : List β) (p : Blocks)
    (h : ∀ q : Blocks, ∀ x ∈ xs, q.Tracks (f q x)) : p.Tracks (xs.foldl f p) :=
  foldl_keeps (fun q => p.Tracks q) f xs p (.refl p) fun q hq x hx => hq.trans (h q x hx)

/-- In a sound book a ticket names one slot. -/
theorem Book.Sound.slot_of_ticket {k : Book} (h : k.Sound) {x y : Slot} {a b : Record} (ha : k.rec? x = some a)
    (hb : k.rec? y = some b) (ht : a.ticket = b.ticket) : x = y := by
  rw [h.2.2.2.2.2.2.1 x a ha, h.2.2.2.2.2.2.1 y b hb] at ht
  exact Fin.ext (congrArg Ticket.slot ht)

/-- A change that leaves the records, the number of RECORD entries of each ticket and the removals. -/
theorem Blocks.Tracks.same {p q : Blocks} (hs : p.book.Sound → q.book.Sound) (hb : ∀ sl, q.book.rec? sl = p.book.rec? sl)
    (hr : ∀ t, q.reloc.count (.record t) = p.reloc.count (.record t)) (hm : q.mail.toReloc = p.mail.toReloc) :
    p.Tracks q := by
  rintro ⟨h, h1, h2, h3⟩
  have mem : ∀ t, Entry.record t ∈ q.reloc ↔ Entry.record t ∈ p.reloc := fun t => by
    rw [← List.count_pos_iff, hr, List.count_pos_iff]
  refine ⟨hs h, fun t => by rw [hr]; exact h1 t, fun sl r hsl hl => ?_, fun t ht => ?_⟩
  · rw [mem, hm]; exact h2 sl r (by rw [← hb]; exact hsl) hl
  · rw [hm]
    simp only [hb]
    exact h3 t ((mem t).1 ht)

/-- A change that leaves the book, the relocation list and the removals. -/
theorem Blocks.Tracks.of_eq {p q : Blocks} (hb : q.book = p.book) (hr : q.reloc = p.reloc)
    (hm : q.mail.toReloc = p.mail.toReloc) : p.Tracks q :=
  .same (by rw [hb]; exact id) (fun _ => by rw [hb]) (fun _ => by rw [hr]) hm

/-- One live record rewritten with its ticket: its mark stays with the list, or falls with its entry, or rises with it. -/
theorem Blocks.Tracks.rewrite {p q : Blocks} {sl : Slot} {r r' : Record} (hr : p.book.rec? sl = some r)
    (hl : r.state ≠ .settled) (hl' : r'.state ≠ .settled) (ht : r'.ticket = r.ticket) (hs : p.book.Sound → q.book.Sound)
    (hb : ∀ x, q.book.rec? x = if sl = x then some r' else p.book.rec? x)
    (hmark : r'.relocPending = r.relocPending ∧ q.reloc = p.reloc ∨
      r'.relocPending = false ∧ q.reloc = p.reloc.filter (· != .record r.ticket) ∨
      r.relocPending = false ∧ r'.relocPending = true ∧ q.reloc = p.reloc ++ [.record r.ticket])
    (hm : q.mail.toReloc = p.mail.toReloc) : p.Tracks q := by
  rintro ⟨h, h1, h2, h3⟩
  have live : ∀ x a, q.book.rec? x = some a → x ≠ sl → p.book.rec? x = some a := fun x a ha hx => by
    rw [hb, if_neg (Ne.symm hx)] at ha; exact ha
  have other : ∀ x a, q.book.rec? x = some a → x ≠ sl → a.ticket ≠ r.ticket := fun x a ha hx e =>
    hx (h.slot_of_ticket (live x a ha hx) hr e)
  have mine : ∀ a, q.book.rec? sl = some a → a = r' := fun a ha => by
    rw [hb, if_pos rfl] at ha; cases ha; rfl
  obtain ⟨m1, m2⟩ := h2 sl r hr hl
  have back : ∀ t, (∃ x a, p.book.rec? x = some a ∧ a.state ≠ .settled ∧ a.ticket = t) →
      ∃ x a, q.book.rec? x = some a ∧ a.state ≠ .settled ∧ a.ticket = t := by
    rintro t ⟨x, a, a1, a2, a3⟩
    by_cases e : sl = x
    · subst e
      rw [hr] at a1; cases a1
      exact ⟨sl, r', by rw [hb, if_pos rfl], hl', ht.trans a3⟩
    · exact ⟨x, a, by rw [hb, if_neg e]; exact a1, a2, a3⟩
  have split : ∀ (P : Slot → Record → Prop), P sl r' → (∀ x a, q.book.rec? x = some a → a.state ≠ .settled → x ≠ sl →
      p.book.rec? x = some a → a.ticket ≠ r.ticket → P x a) → ∀ x a, q.book.rec? x = some a → a.state ≠ .settled → P x a := by
    intro P hp ho x a ha hla
    by_cases e : x = sl
    · subst e; rw [mine a ha]; exact hp
    · exact ho x a ha hla e (live x a ha e) (other x a ha e)
  rcases hmark with ⟨e1, e2⟩ | ⟨e1, e2⟩ | ⟨e1, e2, e3⟩
  · refine ⟨hs h, fun t => by rw [e2]; exact h1 t, split _ ?_ fun x a _ hla _ ha _ => ?_, fun t hx => ?_⟩
    · rw [e1, ht, e2, hm]; exact ⟨m1, m2⟩
    · rw [e2, hm]; exact h2 x a ha hla
    · rw [hm]
      rw [e2] at hx
      exact (h3 t hx).imp id (back t)
  · refine ⟨hs h, fun t => ?_, split _ ?_ fun x a _ hla _ ha hne => ?_, fun t hx => ?_⟩
    · rw [e2]; exact Nat.le_trans (List.Sublist.count_le _ List.filter_sublist) (h1 t)
    · rw [e1, ht, e2, hm]; exact ⟨by simp, m2⟩
    · rw [e2, hm]
      obtain ⟨k1, k2⟩ := h2 x a ha hla
      exact ⟨by rw [k1]; simp [hne], k2⟩
    · rw [e2] at hx
      rw [hm]
      exact (h3 t (List.mem_filter.1 hx).1).imp id (back t)
  · have absent : Entry.record r.ticket ∉ p.reloc := fun e => by rw [m1.2 e] at e1; cases e1
    refine ⟨hs h, fun t => ?_, split _ ?_ fun x a _ hla _ ha hne => ?_, fun t hx => ?_⟩
    · rw [e3, List.count_append]
      by_cases e : r.ticket = t
      · subst e
        rw [List.count_eq_zero.2 absent]
        simp
      · have := h1 t
        simpa [List.count_cons, e] using this
    · rw [e2, ht, e3, hm]; exact ⟨by simp, m2⟩
    · rw [e3, hm]
      obtain ⟨k1, k2⟩ := h2 x a ha hla
      exact ⟨by rw [k1]; simp [hne], k2⟩
    · rw [e3, List.mem_append, List.mem_singleton] at hx
      rw [hm]
      rcases hx with hx | hx
      · exact (h3 t hx).imp id (back t)
      · cases hx
        exact .inr ⟨sl, r', by rw [hb, if_pos rfl], hl', ht⟩

/-- The entries of a ticket leave, and of the removals at most the ticket's: no live record that is marked has it. -/
theorem Blocks.Tracks.unlist {p q : Blocks} (t : Ticket) (hb : q.book = p.book)
    (hr : q.reloc = p.reloc.filter (· != .record t))
    (hn : p.Tracked → ∀ sl r, p.book.rec? sl = some r → r.state ≠ .settled → r.ticket = t → r.relocPending = false)
    (hm : ∀ x, (x ∈ q.mail.toReloc → x ∈ p.mail.toReloc) ∧ (x ∈ p.mail.toReloc → x ∈ q.mail.toReloc ∨ x = t)) :
    p.Tracks q := by
  intro hp
  have hn := hn hp
  obtain ⟨h, h1, h2, h3⟩ := hp
  refine ⟨by rw [hb]; exact h, fun x => ?_, fun sl r hsl hl => ?_, fun x hx => ?_⟩
  · rw [hr]; exact Nat.le_trans (List.Sublist.count_le _ List.filter_sublist) (h1 x)
  · rw [hb] at hsl
    obtain ⟨k1, k2⟩ := h2 sl r hsl hl
    refine ⟨?_, fun e => k2 ((hm _).1 e)⟩
    rw [hr]
    by_cases e : r.ticket = t
    · rw [hn sl r hsl hl e, e]; simp
    · rw [k1]; simp [e]
  · rw [hr, List.mem_filter] at hx
    rcases h3 x hx.1 with e | e
    · rcases (hm x).2 e with e | e
      · exact .inl e
      · subst e; simp at hx
    · rw [hb]; exact .inr e

/-- The records after a settlement. -/
theorem Blocks.settle_rec {p : Blocks} {sl : Slot} {r : Record} (hr : p.book.rec? sl = some r) (hl : r.state ≠ .settled)
    (quiet : Bool) (o : Result) (c : Option Cause) (x : Slot) :
    (p.settle quiet sl o c).book.rec? x = if sl = x then some (r.settledWith o c p.now) else p.book.rec? x := by
  have report : ∀ (q : Blocks) (h : Prop) [Decidable h] (b : BayNo), (if h then q.sendUnhold b else q).book.rec? = q.book.rec? := by
    intro q h _ b; split <;> rfl
  have skip : ∀ (h : Prop) [Decidable h] (a b : Blocks), a.book = b.book → (if h then a else b).book = b.book := by
    intro h _ a b e; split
    · exact e
    · rfl
  refine Eq.trans ?_ ((Book.settle_spec hr hl o c p.now).2.2.2.2.2.1 x)
  unfold Blocks.settle
  simp only [hr, if_neg hl]
  rw [skip _ _ _ (by rfl), skip _ _ _ (by rfl), report, skip _ _ _ (by rfl), skip _ _ _ (by rfl)]
  rfl

theorem Blocks.settle_tracks (p : Blocks) (quiet : Bool) (sl : Slot) (o : Result) (c : Option Cause) :
    p.Tracks (p.settle quiet sl o c) := by
  by_cases hx : ∃ r, p.book.rec? sl = some r ∧ r.state ≠ .settled
  · obtain ⟨r, hr, hl⟩ := hx
    have hs := fun h => Book.Sound.reach (Blocks.settle_reaches p quiet sl o c).2.2.1 h
    have hm := Blocks.settle_toReloc hr hl quiet o c
    have hre : (p.settle quiet sl o c).reloc = p.reloc := by simp
    have hb := Blocks.settle_rec hr hl quiet o c
    rintro ⟨h, h1, h2, h3⟩
    obtain ⟨m1, m2⟩ := h2 sl r hr hl
    have others : ∀ x a, (p.settle quiet sl o c).book.rec? x = some a → a.state ≠ .settled → p.book.rec? x = some a ∧ a.ticket ≠ r.ticket := by
      intro x a ha hla
      rw [hb] at ha
      split at ha
      · cases ha; exact absurd rfl hla
      · rename_i e
        exact ⟨ha, fun ht => e (h.slot_of_ticket hr ha ht.symm)⟩
    refine ⟨hs h, fun t => by rw [hre]; exact h1 t, fun x a ha hla => ?_, fun t ht => ?_⟩
    · obtain ⟨k1, k2⟩ := others x a ha hla
      obtain ⟨n1, n2⟩ := h2 x a k1 hla
      rw [hre, hm]
      refine ⟨n1, fun e => ?_⟩
      rcases List.mem_append.1 e with e | e
      · exact n2 e
      · split at e
        · rw [List.mem_singleton] at e; exact k2 e
        · cases e
    · rw [hre] at ht
      rw [hm]
      rcases h3 t ht with e | ⟨x, a, a1, a2, a3⟩
      · exact .inl (List.mem_append_left _ e)
      · by_cases e : sl = x
        · subst e
          rw [hr] at a1; cases a1
          subst a3
          rw [if_pos (m1.2 ht)]
          exact .inl (by simp)
        · exact .inr ⟨x, a, by rw [hb, if_neg e]; exact a1, a2, a3⟩
  · have : p.settle quiet sl o c = p := by
      unfold Blocks.settle
      split
      · rfl
      · rename_i r hr
        rw [if_pos (by by_contra hc; exact hx ⟨r, hr, hc⟩)]
    rw [this]; exact .refl p

theorem Blocks.bayEntryDue_tracks (p : Blocks) (b : BayNo) (x : Reason) : p.Tracks (p.bayEntryDue b x) := by
  unfold Blocks.bayEntryDue
  (repeat' split)
  · refine .same id (fun _ => rfl) (fun t => ?_) rfl
    simp only [Blocks.withReloc_reloc]
    have : ∀ xs : List Entry, (xs.map (Entry.withCause b x)).count (.record t) = xs.count (.record t) := by
      intro xs
      induction xs with
      | nil => rfl
      | cons e xs ih =>
        rw [List.map_cons, List.count_cons, List.count_cons, ih]
        cases e with
        | record u => rfl
        | bay c y => simp only [Entry.withCause]; split <;> rfl
    exact this _
  · exact .refl p
  · refine .same id (fun _ => rfl) (fun t => ?_) rfl
    simp [List.count_append]
  · exact .foldl _ _ _ fun q sl _ => Blocks.settle_tracks q _ _ _ _

theorem Blocks.loseBay_tracks (p : Blocks) (b : BayNo) (l : Loss) : p.Tracks (p.loseBay b l) := by
  have h1 : p.Tracks (p.setBay b ((p.bay b).lost l)) := .of_eq (by simp) (by simp) (by simp)
  unfold Blocks.loseBay
  dsimp only
  split
  · exact (h1.trans (Blocks.settle_tracks _ _ _ _ _)).trans (Blocks.bayEntryDue_tracks _ _ _)
  · exact h1.trans (Blocks.bayEntryDue_tracks _ _ _)

/-- BAY entries that leave are no RECORD entries. -/
theorem count_record_filter (xs : List Entry) (b : BayNo) (y : Reason) (t : Ticket) :
    (xs.filter (· != .bay b y)).count (.record t) = xs.count (.record t) := List.count_filter (by simp)

theorem Blocks.setAction_tracks (p : Blocks) (b : BayNo) (x : Action) : p.Tracks (p.setAction b x) := by
  unfold Blocks.setAction
  dsimp only
  split
  · exact .refl p
  · split
    · exact (Blocks.Tracks.of_eq (by simp) (by simp) (by simp)).trans (Blocks.bayEntryDue_tracks _ _ _)
    · split
      · refine .same (by simp [Blocks.liftClose]) (fun _ => by simp [Blocks.liftClose]) (fun t => ?_) (by simp [Blocks.liftClose])
        simp only [Blocks.liftClose, Blocks.withReloc_reloc, Blocks.setBay_reloc, Blocks.withAlloc_reloc, Blocks.withSupply_reloc]
        exact count_record_filter _ _ _ _
      · exact .of_eq (by simp) (by simp) (by simp)

theorem Blocks.recomputeMembers_tracks (p : Blocks) (among : GroupNo → Bool) : p.Tracks (p.recomputeMembers among) :=
  .foldl _ _ _ fun q b _ => by
    split
    · exact Blocks.setAction_tracks _ _ _
    · exact .refl _

theorem Blocks.sendHold_tracks (p : Blocks) (b : BayNo) : p.Tracks (p.sendHold b) :=
  .same (fun h => Book.Sound.reach (Blocks.sendHold_reaches p b).2.2.1 h) (fun _ => rfl) (fun _ => rfl) rfl

theorem Blocks.sendUnhold_tracks (p : Blocks) (b : BayNo) : p.Tracks (p.sendUnhold b) :=
  .same (fun h => Book.Sound.reach (Blocks.sendUnhold_reaches p b).2.2.1 h) (fun _ => rfl) (fun _ => rfl) rfl

theorem Blocks.moveRecord_tracks {p : Blocks} {sl : Slot} {r : Record} {b : BayNo} (hr : p.book.rec? sl = some r)
    (hl : r.state ≠ .settled) (hb : b ≠ r.bay) : p.Tracks (p.moveRecord sl r b) := by
  have hbook : ((p.withBook (p.book.move sl r b)).markUsed r.originClass r.originZone).book = p.book.move sl r b := by
    cases r.originZone <;> rfl
  have hreloc : ((p.withBook (p.book.move sl r b)).markUsed r.originClass r.originZone).reloc = p.reloc := by
    cases r.originZone <;> rfl
  have hmail : ((p.withBook (p.book.move sl r b)).markUsed r.originClass r.originZone).mail = p.mail := by
    cases r.originZone <;> rfl
  unfold Blocks.moveRecord
  dsimp only
  revert hbook hreloc hmail
  generalize ((p.withBook (p.book.move sl r b)).markUsed r.originClass r.originZone) = q
  intro hbook hreloc hmail
  have h1 : p.Tracks (if r.relocPending then q.withReloc (q.reloc.filter (· != .record r.ticket)) else q) := by
    refine .rewrite (r' := r.movedTo b) hr hl hl rfl (fun h => ?_) (fun x => ?_) ?_ ?_
    · have : (if r.relocPending then q.withReloc (q.reloc.filter (· != .record r.ticket)) else q).book = q.book := by split <;> rfl
      rw [this, hbook]
      exact h.move hr hl hb
    · have : (if r.relocPending then q.withReloc (q.reloc.filter (· != .record r.ticket)) else q).book = q.book := by split <;> rfl
      rw [this, hbook]
      exact Book.rec_put p.book sl x _
    · cases e : r.relocPending
      · exact .inl ⟨rfl, hreloc⟩
      · exact .inr (.inl ⟨rfl, by simp [hreloc]⟩)
    · cases r.relocPending <;> exact congrArg Mail.toReloc hmail
  revert h1
  generalize (if r.relocPending then q.withReloc (q.reloc.filter (· != .record r.ticket)) else q) = q2
  intro h1
  have h2 : p.Tracks (if r.state = .held ∧ (!p.book.hasHeld b) = true then q2.sendHold b else q2) := by
    split
    · exact h1.trans (Blocks.sendHold_tracks _ _)
    · exact h1
  revert h2
  generalize (if r.state = .held ∧ (!p.book.hasHeld b) = true then q2.sendHold b else q2) = q3
  intro h2
  refine Blocks.Tracks.trans (q := if r.state = .held ∧ q3.book.hasHeld r.bay = false then q3.sendUnhold r.bay else q3) ?_
    (.of_eq (by simp) (by simp) (by simp))
  split
  · exact h2.trans (Blocks.sendUnhold_tracks _ _)
  · exact h2

theorem Blocks.relocate_tracks {p : Blocks} {sl : Slot} {r : Record} (hr : p.book.rec? sl = some r)
    (hl : r.state ≠ .settled) : p.Tracks (p.relocate sl r) := by
  unfold Blocks.relocate
  split
  · rename_i ht
    exact Blocks.moveRecord_tracks hr hl (target_spec ht).1
  · exact Blocks.settle_tracks _ _ _ _ _

theorem Blocks.stepBay_tracks {p : Blocks} {b : BayNo} {x : Reason} {rest : List Entry} (h : p.reloc = .bay b x :: rest) :
    p.Tracks (p.stepBay b) := by
  unfold Blocks.stepBay
  split
  · exact .same id (fun _ => rfl) (fun t => by simp [h]) rfl
  · rename_i sl _ hp
    split
    · exact .refl p
    · rename_i r hr
      obtain ⟨_, r', hr', hs⟩ := Book.mem_slotsWhere (k := p.book) (b := b) (cond := RecState.pending) (sl := sl)
        (by rw [show p.book.slotsWhere b RecState.pending = sl :: _ from hp]; simp)
      rw [hr] at hr'
      cases hr'
      exact Blocks.relocate_tracks hr (RecState.pending_live hs)

/-- The records after a move. -/
theorem Blocks.moveRecord_rec (p : Blocks) (sl : Slot) (r : Record) (b : BayNo) (x : Slot) :
    (p.moveRecord sl r b).book.rec? x = if sl = x then some (r.movedTo b) else p.book.rec? x := by
  have hold : ∀ (q : Blocks) (h : Prop) [Decidable h] (b : BayNo), (if h then q.sendHold b else q).book.rec? = q.book.rec? := by
    intro q h _ b; split <;> rfl
  have unhold : ∀ (q : Blocks) (h : Prop) [Decidable h] (b : BayNo), (if h then q.sendUnhold b else q).book.rec? = q.book.rec? := by
    intro q h _ b; split <;> rfl
  refine Eq.trans ?_ (Book.rec_put p.book sl x (r.movedTo b))
  unfold Blocks.moveRecord
  dsimp only [Blocks.raise_book]
  rw [unhold, hold]
  cases r.originZone <;> cases r.relocPending <;> rfl

/-- A relocation leaves its record settled, or moved with the mark off; no other live record has its ticket. -/
theorem Blocks.relocate_unmarks {p : Blocks} (h : p.book.Sound) {sl : Slot} {r : Record} (hr : p.book.rec? sl = some r)
    (hl : r.state ≠ .settled) (x : Slot) (a : Record) (ha : (p.relocate sl r).book.rec? x = some a) (hla : a.state ≠ .settled)
    (ht : a.ticket = r.ticket) : a.relocPending = false := by
  have hs := Book.Sound.reach (Blocks.relocate_reaches hr hl).2.2.1 h
  have hx : sl = x := by
    have h1 := hs.2.2.2.2.2.2.1 x a ha
    have h2 := h.2.2.2.2.2.2.1 sl r hr
    rw [h1, h2] at ht
    exact (Fin.ext (congrArg Ticket.slot ht)).symm
  subst hx
  unfold Blocks.relocate at ha
  split at ha
  · rw [Blocks.moveRecord_rec, if_pos rfl] at ha
    cases ha; rfl
  · rw [Blocks.settle_rec hr hl, if_pos rfl] at ha
    cases ha; exact absurd rfl hla

/-- In a sound list the tail of a list that a RECORD entry heads is the list without the ticket's entries. -/
theorem tail_unlists {t : Ticket} {rest : List Entry} (h : (Entry.record t :: rest).count (.record t) ≤ 1) :
    rest = (Entry.record t :: rest).filter (· != .record t) := by
  rw [List.filter_cons_of_neg (by simp)]
  refine (List.filter_eq_self.2 fun e he => ?_).symm
  rw [List.count_cons_self] at h
  have : rest.count (.record t) = 0 := by omega
  rw [List.count_eq_zero] at this
  simp only [bne_iff_ne, ne_eq]
  rintro rfl
  exact this he

theorem Blocks.stepRecord_tracks {p : Blocks} {t : Ticket} {rest : List Entry} (h : p.reloc = .record t :: rest) :
    p.Tracks (p.stepRecord t) := by
  intro hp
  have htail : p.reloc.tail = p.reloc.filter (· != .record t) := by
    have := hp.2.1 t
    rw [h] at this ⊢
    exact tail_unlists this
  unfold Blocks.stepRecord
  split
  · rename_i hn
    refine Blocks.Tracks.unlist (p := p) (q := p.withReloc p.reloc.tail) t rfl htail (fun hp sl r hr hl ht => ?_) (fun x => ⟨id, .inl⟩) hp
    exfalso
    have hsl : slotOf t.slot = some sl := by
      rw [← ht, hp.1.2.2.2.2.2.2.1 sl r hr]
      unfold slotOf
      rw [dif_pos sl.isLt]
    have : p.book.byTicket t = some (sl, r) := by
      unfold Book.byTicket
      rw [hsl, Option.bind_some, hr, Option.bind_some, if_pos ht]
    rw [hn] at this; cases this
  · rename_i sl r hr
    obtain ⟨hr', ht⟩ := Book.byTicket_rec hr
    split
    · rename_i hc
      have hl : r.state ≠ .settled := by rw [hc.1]; decide
      refine (Blocks.relocate_tracks hr' hl).trans (Blocks.Tracks.unlist t rfl rfl (fun _ x a ha hla hat => ?_) fun x => ⟨id, .inl⟩) hp
      exact Blocks.relocate_unmarks hp.1 hr' hl x a ha hla (hat.trans ht.symm)
    · by_cases hl : r.state = .settled
      · have e : { r with relocPending := false } = r := by
          have := hp.1.unmarked sl r hr' hl
          cases r; simp_all
        rw [e]
        have e2 : p.putRecord sl r = p := by
          unfold Blocks.putRecord
          rw [Book.put_same _ _ _ hr']; rfl
        rw [e2]
        refine Blocks.Tracks.unlist (p := p) (q := p.withReloc p.reloc.tail) t rfl htail (fun hp x a ha hla hat => ?_) (fun x => ⟨id, .inl⟩) hp
        have := hp.1.slot_of_ticket ha hr' (hat.trans ht.symm)
        subst this
        rw [hr'] at ha; cases ha; exact absurd hl hla
      · exact Blocks.Tracks.rewrite (r' := { r with relocPending := false }) hr' hl hl rfl
          (fun hs => hs.put hr' hl hl rfl rfl rfl) (fun x => Book.rec_put _ _ _ _) (.inr (.inl ⟨rfl, by rw [ht]; exact htail⟩)) rfl hp

theorem Blocks.departure_tracks (p : Blocks) (b : BayNo) : p.Tracks (p.departure b) := by
  have h1 : p.Tracks (p.setBay b ((p.bay b).rest p.params.claimWindow)) := .of_eq (by simp) (by simp) (by simp)
  unfold Blocks.departure
  dsimp only
  split
  · exact h1.trans (Blocks.settle_tracks _ _ _ _ _)
  · exact h1

theorem Blocks.presenceEvent_tracks (p : Blocks) (b : BayNo) (on : Bool) : p.Tracks (p.presenceEvent b on) := by
  have h1 : ∀ x, p.Tracks (p.setBay b x) := fun x => .of_eq (by simp) (by simp) (by simp)
  unfold Blocks.presenceEvent
  dsimp only
  split
  · exact .of_eq (by simp) (by simp) (by simp)
  · exact .of_eq (by simp) (by simp) (by simp)
  · exact .of_eq (by simp) (by simp) (by simp)
  · exact .of_eq (by simp) (by simp) (by simp)
  · exact (h1 _).trans (Blocks.departure_tracks _ _)
  · exact h1 _

theorem Blocks.faultEvent_tracks (p : Blocks) (b : BayNo) (on : Bool) : p.Tracks (p.faultEvent b on) := by
  have h1 : ∀ x, p.Tracks (p.setBay b x) := fun x => .of_eq (by simp) (by simp) (by simp)
  unfold Blocks.faultEvent
  dsimp only
  split
  · exact h1 _
  · split
    · exact (Blocks.Tracks.of_eq (by simp) (by simp) (by simp)).trans (Blocks.loseBay_tracks _ _ _)
    · exact .of_eq (by simp) (by simp) (by simp)

/-- A live record rewritten with its ticket, its bay, its outcome and its mark. -/
theorem Blocks.putRecord_tracks {p : Blocks} {sl : Slot} {r r' : Record} (hr : p.book.rec? sl = some r) (hl : r.state ≠ .settled)
    (hl' : r'.state ≠ .settled) (ht : r'.ticket = r.ticket) (hb : r'.bay = r.bay) (ho : r'.outcome = r.outcome)
    (hm : r'.relocPending = r.relocPending) : p.Tracks (p.putRecord sl r') :=
  .rewrite hr hl hl' ht (fun h => h.put hr hl hl' ht hb ho) (fun _ => Book.rec_put _ _ _ _) (.inl ⟨hm, rfl⟩) rfl

theorem Blocks.doneReport_tracks (p : Blocks) (b : BayNo) : p.Tracks (p.doneReport b) := by
  unfold Blocks.doneReport
  (repeat' split)
  · exact .refl p
  · exact .refl p
  · rename_i sl _ _ r hr hs
    exact (Blocks.putRecord_tracks (r' := { r with state := .parked }) hr (by rw [hs]; decide) (by simp) rfl rfl rfl rfl).trans
      (.of_eq rfl rfl rfl)
  · exact .refl p
  · exact .refl p

theorem Blocks.reportBay_tracks (p : Blocks) (b : BayNo) (x y z : Bool) : p.Tracks (p.reportBay b x y z) := by
  unfold Blocks.reportBay
  dsimp only
  have h1 : p.Tracks (if y != (p.bay b).faultLine then p.faultEvent b y else p) := by
    split
    · exact Blocks.faultEvent_tracks _ _ _
    · exact .refl p
  revert h1
  generalize (if y != (p.bay b).faultLine then p.faultEvent b y else p) = q
  intro h1
  have h2 : p.Tracks (if x != (q.bay b).presence then q.presenceEvent b x else q) := by
    split
    · exact h1.trans (Blocks.presenceEvent_tracks _ _ _)
    · exact h1
  split
  · exact h2.trans (Blocks.doneReport_tracks _ _)
  · exact h2

theorem Blocks.takeReport_tracks (p : Blocks) (k : ModuleNo) (x : ModuleReport) : p.Tracks (p.takeReport k x) := by
  unfold Blocks.takeReport
  split
  · exact (Blocks.Tracks.of_eq (by simp) (by simp) (by simp)).trans (.foldl _ _ _ fun q i _ => Blocks.reportBay_tracks _ _ _ _ _)
  · exact .of_eq (by simp) (by simp) (by simp)

theorem Blocks.loseModule_tracks (p : Blocks) (k : ModuleNo) : p.Tracks (p.loseModule k) := by
  unfold Blocks.loseModule
  split
  · exact .refl p
  · refine Blocks.Tracks.trans (q := (moduleBays k).foldl Blocks.loseModuleBay (p.setModule k .offline)) ?_
      (.of_eq (by simp) (by simp) (by simp))
    refine (Blocks.Tracks.of_eq (q := p.setModule k .offline) (by simp) (by simp) (by simp)).trans (.foldl _ _ _ fun q b _ => ?_)
    have h1 : ∀ x, q.Tracks (q.setBay b x) := fun x => .of_eq (by simp) (by simp) (by simp)
    unfold Blocks.loseModuleBay
    dsimp only
    (repeat' split)
    · exact .refl q
    · exact (h1 _).trans (Blocks.loseBay_tracks _ _ _)
    · exact h1 _

theorem Blocks.tick_tracks (p : Blocks) : p.Tracks p.tick := by
  have h : p.Tracks ((List.finRange Config.moduleCount).foldl Blocks.tickModule p) :=
    .foldl _ _ _ fun q k _ => by
      unfold Blocks.tickModule
      (repeat' split)
      · exact .refl q
      · exact Blocks.loseModule_tracks _ _
      · exact .of_eq (by simp) (by simp) (by simp)
  unfold Blocks.tick
  dsimp only
  split <;> exact h.trans (.of_eq (by simp) (by simp) (by simp))

theorem Blocks.passRecord_tracks (m : Nat) (p : Blocks) (sl : Slot) : p.Tracks (p.passRecord m sl) := by
  have h1 : ∀ p : Blocks, p.Tracks (p.checkHoldLead m sl) := fun p => by
    unfold Blocks.checkHoldLead
    (repeat' split)
    · exact .refl p
    · rename_i r hr hc
      exact Blocks.putRecord_tracks hr (by rw [hc.1]; decide) (by simp) rfl rfl rfl rfl
    · exact .refl p
  have h2 : ∀ p : Blocks, p.Tracks (p.checkGrace m sl) := fun p => by
    unfold Blocks.checkGrace
    (repeat' split)
    · exact .refl p
    · exact Blocks.settle_tracks _ _ _ _ _
    · exact .refl p
  have h3 : ∀ p : Blocks, p.Tracks (p.checkOccupied m sl) := fun p => by
    unfold Blocks.checkOccupied
    (repeat' split)
    · exact .refl p
    · rename_i r hr hc _
      have hl : r.state ≠ .settled := by rw [hc.1]; decide
      exact .rewrite (r' := { r with relocPending := true }) hr hl hl rfl (fun h => h.put hr hl hl rfl rfl rfl)
        (fun x => Book.rec_put _ _ _ _) (.inr (.inr ⟨hc.2.2.2.1, rfl, rfl⟩)) rfl
    · exact Blocks.settle_tracks _ _ _ _ _
    · exact .refl p
  have h4 : ∀ p : Blocks, p.Tracks (p.checkEnd m sl) := fun p => by
    unfold Blocks.checkEnd
    dsimp only
    split
    · exact .refl p
    · rename_i r hr
      split
      · rename_i hc
        have : p.Tracks (p.putRecord sl { r with state := .overstay }) :=
          Blocks.putRecord_tracks hr (by rcases hc.1 with e | e <;> rw [e] <;> decide) (by simp) rfl rfl rfl rfl
        split
        · exact this.trans (.of_eq rfl rfl rfl)
        · exact this.trans (.of_eq rfl rfl rfl)
      · exact .refl p
  exact (((h1 _).trans (h2 _)).trans (h3 _)).trans (h4 _)

theorem Blocks.bookBoundary_tracks (p : Blocks) : p.Tracks p.bookBoundary := by
  unfold Blocks.bookBoundary
  dsimp only
  (repeat' split)
  · exact .refl p
  · rename_i m rest _ _
    refine (Blocks.Tracks.of_eq (q := p.withBoundaries { p.boundaries with book := rest }) (by simp) (by simp) (by simp)).trans
      (.foldl _ _ _ fun q b _ => ?_)
    have : q.Tracks ((q.book.slotsOn b).foldl (Blocks.passRecord m) q) :=
      .foldl _ _ _ fun q sl _ => Blocks.passRecord_tracks m q sl
    refine this.trans ?_
    unfold Blocks.passBay Blocks.compareHeld
    split
    · exact Blocks.sendHold_tracks _ _
    · exact Blocks.sendUnhold_tracks _ _
    · exact .refl _
  · exact .of_eq (by simp) (by simp) (by simp)

theorem Blocks.claim_tracks {p : Blocks} {sl : Slot} {r : Record} (hr : p.book.rec? sl = some r) (hs : r.state = .held) :
    p.Tracks (p.claim sl r) := by
  have hl : r.state ≠ .settled := by rw [hs]; decide
  refine .rewrite (r' := { r with state := .session, arrival := some p.now, relocPending := false }) hr hl (by simp) rfl
    (fun h => ?_) (fun x => ?_) ?_ ?_
  · exact Book.Sound.reach (Blocks.claim_reaches hr hs).2.2.1 h
  · unfold Blocks.claim
    cases r.relocPending <;> exact Book.rec_put p.book sl x _
  · unfold Blocks.claim
    cases r.relocPending
    · exact .inl ⟨rfl, rfl⟩
    · exact .inr (.inl ⟨rfl, rfl⟩)
  · unfold Blocks.claim
    cases r.relocPending <;> rfl

theorem Blocks.disable_tracks (p : Blocks) (b : BayNo) : p.Tracks (p.disable b) := by
  unfold Blocks.disable
  dsimp only
  split
  · exact .of_eq (by simp) (by simp) (by simp)
  · exact (Blocks.loseBay_tracks p b .disabled).trans (.of_eq (by simp) (by simp) (by simp))

theorem Blocks.takeRemoval_tracks (p : Blocks) (t : Ticket) : p.Tracks (p.takeRemoval t) := by
  unfold Blocks.takeRemoval
  split
  · exact .refl p
  · rename_i t' rest he
    split
    · rename_i ht
      subst ht
      refine .unlist t' rfl rfl (fun hp sl r hr hl e => ?_) fun x => ?_
      · have := (hp.2.2.1 sl r hr hl).2
        rw [he, e] at this
        exact absurd (List.mem_cons_self ..) this
      · rw [he]
        exact ⟨List.mem_cons_of_mem _, fun h => (List.mem_cons.1 h).symm⟩
    · exact .refl p

/-- A record created: its ticket is new to the list and to the removals. -/
theorem Blocks.create_tracked {p q : Blocks} {r r' : Record} {k : Book} (hp : p.Tracked) (hn : p.NextTicketClear)
    (hc : p.book.create r = some (k, r')) (hq : q.book.Sound) (hrec : ∀ x, q.book.rec? x = k.rec? x) (hm : r.relocPending = false)
    (hr : q.reloc = p.reloc) (ht : q.mail.toReloc = p.mail.toReloc) : q.Tracked := by
  obtain ⟨h, h1, h2, h3⟩ := hp
  obtain ⟨sl, rest, hf, hr', -, -, -, -, rd, -⟩ := Book.create_spec hc
  have hfree : p.book.rec? sl = none := (h.2.2.2.1 sl).1 (by rw [hf]; simp)
  have hclear : r'.ticket ∉ p.mail.toReloc := by
    rw [hr']; exact hn sl rest hf
  refine ⟨hq, fun t => by rw [hr]; exact h1 t, fun x a ha hla => ?_, fun t hx => ?_⟩
  · rw [hrec, rd] at ha
    split at ha
    · cases ha
      rw [hr, ht]
      refine ⟨⟨fun e => ?_, fun e => ?_⟩, hclear⟩
      · rw [hr'] at e
        have : r.relocPending = true := e
        rw [hm] at this; cases this
      · exfalso
        rcases h3 _ e with e | ⟨y, b, b1, b2, b3⟩
        · exact hclear e
        · have := h.2.2.2.2.2.2.1 y b b1
          rw [b3, hr'] at this
          have hy : sl = y := Fin.ext (congrArg Ticket.slot this)
          subst hy
          rw [hfree] at b1; cases b1
    · rw [hr, ht]; exact h2 x a ha hla
  · rw [hr] at hx
    rw [ht]
    refine (h3 t hx).imp id fun ⟨y, b, b1, b2, b3⟩ => ⟨y, b, ?_, b2, b3⟩
    rw [hrec, rd, if_neg]
    · exact b1
    · rintro rfl
      rw [hfree] at b1; cases b1

/-- Every change keeps the RECORD entries sound, while no removal on its way names the ticket that comes next. -/
theorem change_tracks {p q : Blocks} (h : Change p q) (hn : p.NextTicketClear) : p.Tracks q := by
  intro hp
  have hq := change_bookSound h hp.1
  cases h with
  | booked r hs hm ho hf =>
    revert hq
    unfold admitHeld
    cases hc : p.book.create r with
    | none => exact fun _ => hp
    | some x =>
      obtain ⟨k, r'⟩ := x
      intro hq
      refine Blocks.create_tracked hp hn hc hq (fun x => ?_) hm ?_ ?_
      · dsimp only [accept]; split <;> simp [Blocks.sendHold, Blocks.report, Book.rec?]
      · dsimp only [accept]; split <;> simp
      · dsimp only [accept]; split <;> simp
  | bookedServing r hs hm ho hf hb =>
    revert hq
    unfold admitServing
    cases hc : p.book.create r with
    | none => exact fun _ => hp
    | some x =>
      obtain ⟨k, r'⟩ := x
      intro hq
      exact Blocks.create_tracked hp hn hc hq (fun x => by simp [accept]) hm (by simp [accept]) (by simp [accept])
  | extended sl r n h1 h2 h3 => exact Blocks.putRecord_tracks (r' := { r with length := r.length + n }) h1 h2 h2 rfl rfl rfl rfl hp
  | settled sl o ho => exact Blocks.settle_tracks _ _ _ _ _ hp
  | claimed sl r h1 h2 => exact Blocks.claim_tracks h1 h2 hp
  | collected sl r h1 h2 =>
    obtain ⟨h, k1, k2, k3⟩ := hp
    have rd : ∀ x, (p.collect sl).book.rec? x = if sl = x then none else p.book.rec? x := fun x => by
      simp [Blocks.collect, Book.collect, Book.rec?, setAt_get]
    have hr : (p.collect sl).reloc = p.reloc := by simp
    have hm : (p.collect sl).mail = p.mail := by simp
    refine ⟨hq, fun t => by rw [hr]; exact k1 t, fun x a ha hla => ?_, fun t hx => ?_⟩
    · rw [rd] at ha
      split at ha
      · cases ha
      · rw [hr, hm]; exact k2 x a ha hla
    · rw [hr] at hx
      rw [hm]
      refine (k3 t hx).imp id fun ⟨y, b, b1, b2, b3⟩ => ⟨y, b, ?_, b2, b3⟩
      rw [rd, if_neg]
      · exact b1
      · rintro rfl
        rw [h1] at b1; cases b1; exact b2 h2
  | configured b c h _ =>
    exact (Blocks.Tracks.of_eq (q := p.setBay b { p.bay b with config := c }) (by simp) (by simp) (by simp)).trans (Blocks.setAction_tracks _ _ _) hp
  | disabled b => exact Blocks.disable_tracks p b hp
  | groupLevel g l => exact (Blocks.Tracks.of_eq (by simp) (by simp) (by simp)).trans (Blocks.recomputeMembers_tracks _ _) hp
  | dr x => exact (Blocks.Tracks.of_eq (by simp) (by simp) (by simp)).trans (Blocks.recomputeMembers_tracks _ _) hp
  | alarm x => exact (Blocks.Tracks.of_eq (by simp) (by simp) (by simp)).trans (Blocks.recomputeMembers_tracks _ _) hp
  | restarted =>
    have hr : p.restartLevel.reloc = [] := rfl
    have hb : ∀ x, p.restartLevel.book.rec? x = none := fun x => by
      show p.book.restart.rec? x = none
      simp [Book.restart, Book.powerOn, Book.rec?]
    refine ⟨hq, fun t => by rw [hr]; simp, fun x a ha _ => ?_, fun t hx => ?_⟩
    · rw [hb] at ha; cases ha
    · rw [hr] at hx; cases hx
  | stepBay b x rest h => exact Blocks.stepBay_tracks h hp
  | stepRecord t rest h => exact Blocks.stepRecord_tracks h hp
  | reported k x => exact Blocks.takeReport_tracks p k x hp
  | lost k => exact Blocks.loseModule_tracks p k hp
  | pass => exact Blocks.bookBoundary_tracks p hp
  | removal t => exact Blocks.takeRemoval_tracks p t hp
  | tick => exact Blocks.tick_tracks p hp
  | _ => exact Blocks.Tracks.of_eq (by simp) (by simp) (by simp) hp

end Sys2Proof.Machine
end

