-- ==== Sys2Proof/Laws/Fields.lean ====
section
/-! SUPPORT. The bodies that the field range check refuses: each reader answers none where a field is out of its range as
Safety.lean states it. -/

namespace Sys2Proof.Machine

/-! ## One field -/

theorem yesNo_some {n : Nat} {b : Bool} (h : yesNo n = some b) : ¬1 < n := by
  unfold yesNo at h
  split at h
  · omega
  · omega
  · cases h

theorem bayOf_some {n : Nat} {b : BayNo} (h : bayOf n = some b) : ¬95 < n := by
  unfold bayOf at h
  split at h
  · rename_i hn; have hn : n < 96 := hn; omega
  · cases h

theorem bayRef_some {zone bay : Nat} {r : BayRef} (h : bayRef zone bay = some r) : ¬badBayRef zone bay := by
  unfold bayRef at h
  unfold badBayRef
  split at h
  · omega
  · split at h
    · rename_i e
      have e : zone = 255 := e
      simp only [Option.map_eq_some_iff] at h
      obtain ⟨b, hb, -⟩ := h
      have := bayOf_some hb
      omega
    · cases h

theorem optField_some {body : List Byte} {off k lo hi : Nat} {o : Option Nat} (h : optField body off k = some o)
    (hr : ∀ n ∈ o, lo ≤ n ∧ n ≤ hi) : ¬badOption (field body off 1) (field body (off + 1) k) lo hi := by
  unfold optField at h
  simp only [Option.map_eq_some_iff] at h
  obtain ⟨there, ht, ho⟩ := h
  have h1 := yesNo_some ht
  unfold badOption
  rintro (h2 | ⟨h2, h3⟩)
  · exact h1 h2
  · rw [h2] at ht
    cases ht
    have := hr _ (by rw [← ho]; rfl)
    omega

theorem optIn_some {body : List Byte} {off k lo hi : Nat} {o : Option Nat} (h : optIn lo hi (optField body off k) = some o) :
    ¬badOption (field body off 1) (field body (off + 1) k) lo hi := by
  unfold optIn at h
  simp only [Option.bind_eq_some_iff] at h
  obtain ⟨v, hv, h⟩ := h
  split at h
  · rename_i ha
    cases h
    refine optField_some hv fun n hn => ?_
    rw [Option.mem_def] at hn
    subst hn
    simpa using ha
  · cases h

theorem Class.ofCode_some {n : Nat} {x : Class} (h : Class.ofCode n = some x) : ¬noCode n 3 := by
  unfold Class.ofCode at h; unfold noCode; split at h <;> first | omega | cases h
theorem BayClass.ofCode_some {n : Nat} {x : BayClass} (h : BayClass.ofCode n = some x) : ¬noCode n 3 := by
  unfold BayClass.ofCode at h; unfold noCode; split at h <;> first | omega | cases h
theorem Action.ofCode_some {n : Nat} {x : Action} (h : Action.ofCode n = some x) : ¬noCode n 4 := by
  unfold Action.ofCode at h; unfold noCode; split at h <;> first | omega | cases h
theorem Direction.ofCode_some {n : Nat} {x : Direction} (h : Direction.ofCode n = some x) : ¬noCode n 2 := by
  unfold Direction.ofCode at h; unfold noCode; split at h <;> first | omega | cases h
theorem Access.ofCode_some {n : Nat} {x : Access} (h : Access.ofCode n = some x) : ¬noCode n 3 := by
  unfold Access.ofCode at h; unfold noCode; split at h <;> first | omega | cases h
theorem Target.ofCode_some {n : Nat} {x : Target} (h : Target.ofCode n = some x) : ¬noCode n 3 := by
  unfold Target.ofCode at h; unfold noCode; split at h <;> first | omega | cases h
theorem GroupLevel.ofCode_some {n : Nat} {x : GroupLevel} (h : GroupLevel.ofCode n = some x) : ¬noCode n 3 := by
  unfold GroupLevel.ofCode at h; unfold noCode; split at h <;> first | omega | cases h

theorem feederOf_some {n : Nat} {f : FeederNo} (h : feederOf n = some f) : ¬3 < n := by
  unfold feederOf at h
  split at h
  · rename_i hn; have hn : n < 4 := hn; omega
  · cases h

theorem groupsOf_some {n : Nat} {v : Vector Bool 3} (h : groupsOf n = some v) : ¬7 < n := by
  unfold groupsOf at h; split at h <;> first | omega | cases h

theorem groupOf_some {n : Nat} {g : GroupNo} (h : groupOf n = some g) : ¬noCode n 3 := by
  unfold groupOf at h; unfold noCode; split at h <;> first | omega | cases h

theorem causesOf_some {n : Nat} {v : BitVec 16} (h : causesOf n = some v) : ¬16383 < n := by
  unfold causesOf at h; split at h <;> first | omega | cases h

theorem tokenField_zero {body : List Byte} {off : Nat} (h : field body off 8 = 0) : tokenField body off = 0 := by
  unfold tokenField; rw [h]; rfl

theorem tokenOk_some {body : List Byte} {off : Nat} {c : Class} (h : tokenOk c (tokenField body off) = true) :
    ¬(c ≠ .operator ∧ field body off 8 = 0) := by
  rintro ⟨h1, h2⟩
  rw [tokenField_zero h2] at h
  simp [tokenOk, h1] at h

/-- A booking in range, field by field (R29). -/
theorem inRange_fields {f : Booking} (h : f.inRange = true) : f.token ≠ 0 ∧ f.start % 5 = 0 ∧ ¬badLength f.length ∧ ¬badDraw f.draw ∧
    ∀ n ∈ f.grace, 0 ≤ n ∧ n ≤ 60 := by
  simp only [Booking.inRange, Bool.and_eq_true, decide_eq_true_eq, beq_iff_eq, bne_iff_ne, ne_eq] at h
  obtain ⟨⟨⟨⟨⟨a, b⟩, c⟩, d⟩, e⟩, g⟩ := h
  unfold badLength badDraw
  refine ⟨a, b, by omega, by omega, fun n hn => ?_⟩
  rw [Option.mem_def] at hn
  rw [hn] at e
  simpa using e

/-! ## One body -/

theorem bookBayFields_some {c : Class} {body : List Byte} {x} (h : bookBayFields body = some x) : ¬fieldOutOfRange 1 c (field body) := by
  unfold bookBayFields at h
  split at h
  · cases h
  · simp only [Option.bind_eq_some_iff] at h
    obtain ⟨ref, h1, g, h2, a, h3, h⟩ := h
    split at h
    · rename_i hr
      obtain ⟨r1, r2, r3, r4, r5⟩ := inRange_fields hr
      have t : field body 0 8 ≠ 0 := fun e => r1 (tokenField_zero e)
      have := bayRef_some h1; have := optField_some h2 r5; have := yesNo_some h3
      simp only [fieldOutOfRange]
      tauto
    · cases h

theorem bookZoneFields_some {c : Class} {body : List Byte} {x} (h : bookZoneFields body = some x) : ¬fieldOutOfRange 2 c (field body) := by
  unfold bookZoneFields at h
  split at h
  · cases h
  · split at h
    · rename_i hz
      simp only [Option.bind_eq_some_iff] at h
      obtain ⟨g, h2, a, h3, h⟩ := h
      split at h
      · rename_i hr
        obtain ⟨r1, r2, r3, r4, r5⟩ := inRange_fields hr
        have t : field body 0 8 ≠ 0 := fun e => r1 (tokenField_zero e)
        have z : ¬7 < field body 8 1 := by omega
        have := optField_some h2 r5; have := yesNo_some h3
        simp only [fieldOutOfRange]
        tauto
      · cases h
    · cases h

theorem bookNowFields_some {c : Class} {m : Nat} {body : List Byte} {x} (h : bookNowFields m body = some x) :
    ¬fieldOutOfRange 3 c (field body) := by
  unfold bookNowFields at h
  split at h
  · cases h
  · simp only [Option.bind_eq_some_iff] at h
    obtain ⟨ref, h1, a, h3, h⟩ := h
    split at h
    · rename_i hr
      obtain ⟨r1, r2, r3, r4, r5⟩ := inRange_fields hr
      have t : field body 0 8 ≠ 0 := fun e => r1 (tokenField_zero e)
      have := bayRef_some h1; have := yesNo_some h3
      simp only [fieldOutOfRange]
      tauto
    · cases h

theorem extendFields_some {c : Class} {body : List Byte} {x} (h : extendFields c body = some x) : ¬fieldOutOfRange 4 c (field body) := by
  unfold extendFields at h
  dsimp only at h
  split at h
  · rename_i hr
    have := tokenOk_some hr.2.1
    simp only [fieldOutOfRange]
    rintro (e | e)
    · exact this e
    · omega
  · cases h

theorem ticketFields_some {c : Class} {body : List Byte} {x} (h : ticketFields c body = some x) (k : Nat) (hk : k = 5 ∨ k = 6 ∨ k = 7 ∨ k = 11) :
    ¬fieldOutOfRange k c (field body) := by
  unfold ticketFields at h
  split at h
  · rename_i hr
    have := tokenOk_some hr.2
    rcases hk with rfl | rfl | rfl | rfl <;> exact this
  · cases h

theorem findTokenFields_some {c : Class} {body : List Byte} {x} (h : findTokenFields body = some x) : ¬fieldOutOfRange 8 c (field body) := by
  unfold findTokenFields at h
  split at h
  · rename_i hr; exact fun e => hr.2 (tokenField_zero e)
  · cases h

theorem listBayFields_some {c : Class} {body : List Byte} {x} (h : listBayFields body = some x) : ¬fieldOutOfRange 9 c (field body) := by
  unfold listBayFields at h
  split at h
  · exact bayRef_some h
  · cases h

theorem poolStatusFields_some {c : Class} {body : List Byte} {x} (h : poolStatusFields body = some x) : ¬fieldOutOfRange 12 c (field body) := by
  unfold poolStatusFields at h
  split at h
  · rename_i hr
    have hr : field body 0 2 < 640 := hr.2
    simp only [fieldOutOfRange]; omega
  · cases h

theorem writeZoneFields_some {c : Class} {body : List Byte} {x} (h : writeZoneFields body = some x) : ¬fieldOutOfRange 13 c (field body) := by
  unfold writeZoneFields at h
  split at h
  · cases h
  · split at h
    · rename_i hz
      simp only [Option.bind_eq_some_iff] at h
      obtain ⟨a, h1, b, h2, d, h3, e, h4, h⟩ := h
      split at h
      · rename_i hl
        have := Class.ofCode_some h1; have := bayOf_some h2; have := Direction.ofCode_some h3; have := Access.ofCode_some h4
        simp only [fieldOutOfRange]
        unfold noCode at *
        omega
      · cases h
    · cases h

theorem readZoneFields_some {c : Class} {body : List Byte} {x} (h : readZoneFields body = some x) : ¬fieldOutOfRange 14 c (field body) := by
  unfold readZoneFields at h
  split at h
  · cases h
  · split at h
    · rename_i hz
      simp only [Option.map_eq_some_iff] at h
      obtain ⟨a, h1, h⟩ := h
      have := Class.ofCode_some h1
      simp only [fieldOutOfRange]
      unfold noCode at *
      omega
    · cases h

theorem configureFields_some {c : Class} {body : List Byte} {x} (h : configureFields body = some x) : ¬fieldOutOfRange 17 c (field body) := by
  unfold configureFields at h
  split at h
  · cases h
  · simp only [Option.bind_eq_some_iff] at h
    obtain ⟨a, h1, b, h2, d, h3, e, h4, g, h5, i, h6, j, h7, k, h8, h⟩ := h
    split at h
    · rename_i hl
      have := bayOf_some h1; have := feederOf_some h2; have := BayClass.ofCode_some h3; have := groupsOf_some h4
      have := Action.ofCode_some h5; have := Action.ofCode_some h6; have := yesNo_some h7; have := yesNo_some h8
      simp only [fieldOutOfRange, badDraw]
      unfold noCode at *
      omega
    · cases h

theorem bayFields_some {c : Class} {body : List Byte} {x} (h : bayFields body = some x) (k : Nat) (hk : k = 18 ∨ k = 19 ∨ k = 20 ∨ k = 21) :
    ¬fieldOutOfRange k c (field body) := by
  unfold bayFields at h
  split at h
  · rcases hk with rfl | rfl | rfl | rfl <;> exact bayOf_some h
  · cases h

theorem feederAmps_some {c : Class} {body : List Byte} {x} (h : feederAmps body = some x) (k : Nat) (hk : k = 22 ∨ k = 23) :
    ¬fieldOutOfRange k c (field body) := by
  unfold feederAmps at h
  split at h
  · rename_i hr
    simp only [Option.map_eq_some_iff] at h
    obtain ⟨f, h1, -⟩ := h
    have := feederOf_some h1
    rcases hk with rfl | rfl <;> simp only [fieldOutOfRange] <;> omega
  · cases h

theorem feederFields_some {c : Class} {body : List Byte} {x} (h : feederFields body = some x) : ¬fieldOutOfRange 24 c (field body) := by
  unfold feederFields at h
  split at h
  · exact feederOf_some h
  · cases h

theorem groupFields_some {c : Class} {body : List Byte} {x} (h : groupFields body = some x) : ¬fieldOutOfRange 25 c (field body) := by
  unfold groupFields at h
  split at h
  · cases h
  · simp only [Option.bind_eq_some_iff, Option.map_eq_some_iff] at h
    obtain ⟨g, h1, l, h2, -⟩ := h
    have := groupOf_some h1; have := GroupLevel.ofCode_some h2
    simp only [fieldOutOfRange]
    tauto

theorem targetFields_some {c : Class} {body : List Byte} {x} (h : targetFields body = some x) : ¬fieldOutOfRange 26 c (field body) := by
  unfold targetFields at h
  split at h
  · exact Target.ofCode_some h
  · cases h

theorem clockFields_some {c : Class} {body : List Byte} {x} (h : clockFields body = some x) : ¬fieldOutOfRange 29 c (field body) := by
  unfold clockFields at h
  split at h
  · rename_i hr
    have hr : field body 0 4 ≤ 4000000000 := hr.2
    simp only [fieldOutOfRange]; omega
  · cases h

theorem parameterFields_some {c : Class} {old : Params} {body : List Byte} {x} (h : parameterFields old body = some x) :
    ¬fieldOutOfRange 30 c (field body) := by
  unfold parameterFields at h
  split at h
  · cases h
  · simp only [Option.bind_eq_some_iff, Option.map_eq_some_iff] at h
    obtain ⟨_, h1, _, h2, _, h3, _, h4, _, h5, _, h6, -⟩ := h
    have := optIn_some h1; have := optIn_some h2; have := optIn_some h3
    have := optIn_some h4; have := optIn_some h5; have := optIn_some h6
    simp only [fieldOutOfRange]
    tauto

theorem scopeFields_some {c : Class} {body : List Byte} {x} (h : scopeFields body = some x) : ¬fieldOutOfRange 32 c (field body) := by
  unfold scopeFields at h
  split at h
  · cases h
  · simp only [fieldOutOfRange, noCode]
    split at h
    · omega
    · omega
    · cases h

theorem clearFields_some {c : Class} {body : List Byte} {x} (h : clearFields body = some x) : ¬fieldOutOfRange 34 c (field body) := by
  unfold clearFields at h
  split at h
  · cases h
  · simp only [Option.bind_eq_some_iff, Option.map_eq_some_iff] at h
    obtain ⟨_, h1, _, h2, _, h3, -⟩ := h
    have c1 := causesOf_some h1
    unfold baysField at h2
    simp only [Option.map_eq_some_iff] at h2
    obtain ⟨there, h2, -⟩ := h2
    have c2 := yesNo_some h2
    unfold modulesField at h3
    simp only [Option.bind_eq_some_iff] at h3
    obtain ⟨o, h3, h4⟩ := h3
    split at h4
    · rename_i ha
      have c3 := optField_some (lo := 0) (hi := 4095) h3 fun n hn => by
        rw [Option.mem_def] at hn
        subst hn
        simp at ha
        omega
      simp only [fieldOutOfRange]
      tauto
    · cases h4

theorem maskFields_some {c : Class} {body : List Byte} {x} (h : maskFields body = some x) : ¬fieldOutOfRange 35 c (field body) := by
  unfold maskFields at h
  split at h
  · exact causesOf_some h
  · cases h

/-- A reader that answers only bodies in range refuses one that is not. -/
theorem refused_of {α : Type} {o : Option α} {P : Prop} (h : ∀ x, o = some x → ¬P) (hp : P) : o = none := by
  cases e : o with
  | none => rfl
  | some x => exact absurd hp (h x e)

end Sys2Proof.Machine
end

