-- ==== Sys2Proof/Laws/Moves.lean ====
section
/-! SUPPORT. Moving a record to another bay, and the search for the bay (the relocation rules). -/

namespace Sys2Proof.Machine

/-- A move as one update. -/
theorem moveRecord_eq (p : Blocks) (sl : Slot) (r : Record) (b : BayNo) (k : Book) (hk : k = p.book.move sl r b) : p.moveRecord sl r b =
  { p with
    zones := (p.markUsed r.originClass r.originZone).zones
    book := { k with heldReport := (if r.state = .held ∧ k.hasHeld r.bay = false then (setAt (if r.state = .held ∧ p.book.hasHeld b = false then setAt k.heldReport b true else k.heldReport) r.bay false) else (if r.state = .held ∧ p.book.hasHeld b = false then setAt k.heldReport b true else k.heldReport)) }
    reloc := (if r.relocPending then p.reloc.filter (· != .record r.ticket) else p.reloc)
    mail := { p.mail with
    toBays := p.mail.toBays ++ (if r.state = .held ∧ p.book.hasHeld b = false then [.hold b] else []) ++
      (if r.state = .held ∧ k.hasHeld r.bay = false then [.unhold r.bay] else [])
    raises := p.mail.raises ++ [(.book, .relocated)] } } := by
  have hh : ∀ v, ({ k with heldReport := v } : Book).hasHeld r.bay = k.hasHeld r.bay := fun v => hasHeld_congr rfl rfl _
  have h1 : p.moveRecord sl r b = (let q1 : Blocks := { p with zones := (p.markUsed r.originClass r.originZone).zones, book := k, reloc := (if r.relocPending then p.reloc.filter (· != .record r.ticket) else p.reloc) }
     let q2 := if r.state = .held ∧ p.book.hasHeld b = false then q1.sendHold b else q1
     let q3 := if r.state = .held ∧ q2.book.hasHeld r.bay = false then q2.sendUnhold r.bay else q2
     q3.raise .book .relocated) := by
    unfold Blocks.moveRecord
    dsimp only
    rw [← hk]
    have e1 : (p.withBook k).markUsed r.originClass r.originZone = { p with book := k, zones := (p.markUsed r.originClass r.originZone).zones } := by
      unfold Blocks.markUsed; cases r.originZone <;> rfl
    rw [e1]
    cases r.relocPending <;> simp [Blocks.withReloc]
  rw [h1]
  by_cases c1 : r.state = .held ∧ p.book.hasHeld b = false
  · dsimp only
    rw [if_pos c1, if_pos c1, if_pos c1]
    have e : ∀ q : Blocks, q.book = k → (q.sendHold b).book.hasHeld r.bay = k.hasHeld r.bay := by
      intro q hq; subst hq; exact hh _
    rw [e _ rfl]
    by_cases c2 : r.state = .held ∧ k.hasHeld r.bay = false
    · rw [if_pos c2, if_pos c2, if_pos c2]
      simp [Blocks.raise, Blocks.sendUnhold, Blocks.sendHold, Blocks.report, Blocks.sendBay, Blocks.withMail, Blocks.withBook]
    · rw [if_neg c2, if_neg c2, if_neg c2]
      simp [Blocks.raise, Blocks.sendHold, Blocks.report, Blocks.sendBay, Blocks.withMail, Blocks.withBook]
  · dsimp only
    rw [if_neg c1, if_neg c1, if_neg c1]
    dsimp only
    by_cases c2 : r.state = .held ∧ k.hasHeld r.bay = false
    · rw [if_pos c2, if_pos c2, if_pos c2]
      simp [Blocks.raise, Blocks.sendUnhold, Blocks.report, Blocks.sendBay, Blocks.withMail, Blocks.withBook]
    · rw [if_neg c2, if_neg c2, if_neg c2]
      simp [Blocks.raise, Blocks.withMail]

theorem heldReport_afterMove {v : Vector Bool Config.bayCount} {b rb : BayNo} (h : b ≠ rb) (c : BayNo) (P Q : Prop) [Decidable P] [Decidable Q] :
   (if Q then (setAt (if P then setAt v b true else v) rb false) else (if P then setAt v b true else v))[c] = if c = b ∧ P then true else if c = rb ∧ Q then false else v[c] := by
  by_cases hp : P <;> by_cases hq : Q <;> simp only [hp, hq, if_true, if_false, and_true, and_false, Fin.getElem_fin, setAt_get]
  · by_cases e1 : c = b
    · subst e1; rw [if_neg (Ne.symm h), if_pos rfl, if_pos rfl]
    · rw [if_neg e1, if_neg (Ne.symm e1)]
      by_cases e2 : c = rb
      · rw [if_pos e2.symm, if_pos e2]
      · rw [if_neg (Ne.symm e2), if_neg e2]
  · by_cases e1 : c = b
    · rw [if_pos e1, if_pos e1.symm]
    · rw [if_neg e1, if_neg (Ne.symm e1)]
  · by_cases e2 : c = rb
    · rw [if_pos e2.symm, if_pos e2]
    · rw [if_neg (Ne.symm e2), if_neg e2]

/-- A move to another bay does what Safety.lean states. -/
theorem moveRecord_movedTo (p : Blocks) (sl : Slot) (r : Record) (b : BayNo) (hb : b ≠ r.bay) : p.MovedTo (p.moveRecord sl r b) sl r b := by
  rw [moveRecord_eq p sl r b _ rfl]
  have rd : ∀ x, (p.book.move sl r b).rec? x = if sl = x then some (r.movedTo b) else p.book.rec? x := fun x => Book.rec_put p.book sl x _
  have tl : ∀ c, (p.book.move sl r b).slotsOn c =
      if b = c then insertByStart (p.book.move sl r b).startOf r.start sl (p.book.slotsOn b)
      else if r.bay = c then (p.book.slotsOn r.bay).filter (· != sl) else p.book.slotsOn c := fun c => by
    have : (p.book.move sl r b).startOf = ((p.book.leaveTimeline r.bay sl).put sl (r.movedTo b)).startOf := rfl
    rw [this]
    simp only [Book.move, Book.slotsOn_joinTimeline, Book.slotsOn_put, Book.slotsOn_leaveTimeline]
    split
    · rename_i e; rw [if_neg (fun x => hb x.symm)]
    · rfl
  have g1 : (p.book.move sl r b).tokens = p.book.tokens := rfl
  have g2 : (p.book.move sl r b).gens = p.book.gens := rfl
  have g3 : (p.book.move sl r b).free = p.book.free := rfl
  have g4 : (p.book.move sl r b).settled = p.book.settled := rfl
  have g5 : (p.book.move sl r b).heldReport = p.book.heldReport := rfl
  generalize p.book.move sl r b = k at *
  have hh : ∀ v c, ({ k with heldReport := v } : Book).hasHeld c = k.hasHeld c := fun v c => hasHeld_congr rfl rfl _
  refine ⟨?_, fun x hx => ?_, ?_, ?_, fun c h1 h2 => ?_, g1, g2, g3, g4, markUsed_markedFor p r, rfl, ?_, fun c => ?_, rfl⟩
  · exact (rd sl).trans (if_pos rfl)
  · exact (rd x).trans (if_neg (Ne.symm hx))
  · exact (tl _).trans (by rw [if_neg hb, if_pos rfl])
  · exact (tl _).trans (if_pos rfl)
  · exact (tl _).trans (by rw [if_neg (Ne.symm h2), if_neg (Ne.symm h1)])
  · show Mail.mk _ _ _ _ = _
    simp only [hh]
  · have := heldReport_afterMove (v := k.heldReport) hb c (r.state = .held ∧ p.book.hasHeld b = false) (r.state = .held ∧ k.hasHeld r.bay = false)
    simp only [hh]
    refine this.trans ?_
    simp only [g5]

theorem candidates_eq_targets (p : Blocks) (r : Record) : candidates p r = p.targets r := by
  unfold candidates originRun Blocks.targets
  cases r.originZone with
  | direct => rfl
  | zone z => dsimp only; split <;> rfl

theorem eligible_iff_takes (p : Blocks) (r : Record) (b : BayNo) : eligible p r b = true ↔ p.Takes r b := by
  unfold eligible Blocks.Takes
  simp only [Bool.and_eq_true, and_assoc, Book.bayHasRoom, decide_eq_true_eq]
  have e2 : (p.book.slotsOn b).length < Config.timelineSize ↔ (p.book.slotsOn b).length < 10 := Iff.rfl
  rw [e2]
  have e1 : ((!(r.state == .held && decide (r.start ≤ p.now)) || (p.bay b).state == .vacant) = true) ↔ (r.state = .held → r.start ≤ p.clock.minute → (p.bay b).state = .vacant) := by
    have : p.now = p.clock.minute := rfl
    rw [this]
    simp only [Bool.or_eq_true, Bool.not_eq_true', Bool.and_eq_false_iff, beq_eq_false_iff_ne, beq_iff_eq, decide_eq_false_iff_not]
    tauto
  rw [e1]

/-- The first target that takes the record is chosen. -/
theorem target_of_first {p : Blocks} {r : Record} {b : BayNo} {before after : List BayNo} (h : p.targets r = before ++ b :: after) (hn : ∀ d ∈ before, ¬p.Takes r d) (hb : p.Takes r b) :
    target p r = some b ∧ b ≠ r.bay := by
  have : target p r = some b := by
    unfold target
    rw [candidates_eq_targets, h, List.find?_append, List.find?_eq_none.2 (fun d hd => by rw [eligible_iff_takes]; exact hn d hd), Option.none_or, List.find?_cons_of_pos ((eligible_iff_takes _ _ _).2 hb)]
  exact ⟨this, (target_spec this).1⟩

/-- No target is chosen where none takes the record. -/
theorem target_of_none {p : Blocks} {r : Record} (hn : ∀ d ∈ p.targets r, ¬p.Takes r d) : target p r = none := by
  unfold target
  rw [candidates_eq_targets]
  exact List.find?_eq_none.2 (fun d hd => by rw [eligible_iff_takes]; exact hn d hd)

/-- A record is found by its own ticket. -/
theorem byTicket_of_rec {k : Book} (hk : k.Sound) {sl : Slot} {x : Record} (hx : k.rec? sl = some x) : k.byTicket x.ticket = some (sl, x) := by
  have := hk.2.2.2.2.2.2.1 sl x hx
  unfold Book.byTicket slotOf
  have hs : x.ticket.slot = sl.val := by rw [this]
  simp only [hs, sl.isLt, dite_true, Option.bind_some, hx, if_true]

theorem movedTo_dropEntry {p p' q : Blocks} {sl r b} {t : Ticket} (h : p.MovedTo q sl r b) (hp : p' = { p with reloc := p.reloc.filter (· != .record t) }) (ht : r.ticket = t) :
    p'.MovedTo (q.withReloc (q.reloc.filter (· != .record t))) sl r b := by
  subst hp
  obtain ⟨h1, h2, h3, h4, h5, h6, h7, h8, h9, h10, h11, h12, h13, h14⟩ := h
  refine ⟨h1, h2, h3, h4, h5, h6, h7, h8, h9, h10, ?_, h12, h13, ?_⟩
  · show q.reloc.filter _ = _
    rw [h11, ht]; dsimp only
    split <;> simp [List.filter_filter]
  · show { q with reloc := _ } = _
    exact congrArg (fun z : Blocks => { z with reloc := q.reloc.filter (· != Entry.record t) }) h14

theorem settledAs_dropEntry {p p' q : Blocks} {sl r r'} {t : Ticket} (h : p.SettledAs q sl r r') (hp : p' = { p with reloc := p.reloc.filter (· != .record t) }) :
    p'.SettledAs (q.withReloc (q.reloc.filter (· != .record t))) sl r r' := by
  subst hp
  obtain ⟨h1, h2, h3, h4, h5⟩ := h
  refine ⟨h1, h2, h3, h4, ?_⟩
  have : q.reloc = p.reloc := by rw [h5]
  show { q with reloc := _ } = _
  rw [this]
  exact congrArg (fun z : Blocks => { z with reloc := p.reloc.filter (· != Entry.record t) }) h5

end Sys2Proof.Machine
end

