-- ==== Sys2Proof/Laws/Reloc.lean ====
section
/-! SUPPORT. What a command can do to the relocation list, said once (`RelocReach`), and that every change keeps at most 128
entries and at most one BAY entry for a bay (R104, R105). -/

namespace Sys2Proof.Machine

/-- Changes of the relocation list: entries leave, a BAY entry changes its reason, an entry is appended where there is
room, and a BAY entry only where its bay has none. -/
inductive RelocReach : List Entry → List Entry → Prop
  | refl (xs) : RelocReach xs xs
  | leave {xs ys : List Entry} : ys.Sublist xs → RelocReach xs ys
  | cause (xs : List Entry) (b : BayNo) (x : Reason) : RelocReach xs (xs.map (Entry.withCause b x))
  | bay (xs : List Entry) (b : BayNo) (x : Reason) : xs.findSome? (Entry.reasonFor b) = none → xs.length < Config.listSize →
      RelocReach xs (xs ++ [.bay b x])
  | record (xs : List Entry) (t : Ticket) : xs.length < Config.listSize → RelocReach xs (xs ++ [.record t])
  | trans {xs ys zs : List Entry} : RelocReach xs ys → RelocReach ys zs → RelocReach xs zs

theorem RelocReach.of_eq {xs ys : List Entry} (h : ys = xs) : RelocReach xs ys := h ▸ .refl _

theorem RelocReach.foldl {β : Type} (f : Blocks → β → Blocks) (xs : List β) (p : Blocks)
    (h : ∀ q : Blocks, ∀ x ∈ xs, RelocReach q.reloc (f q x).reloc) : RelocReach p.reloc (xs.foldl f p).reloc :=
  foldl_keeps (fun q => RelocReach p.reloc q.reloc) f xs p (.refl _) fun q hq x hx => hq.trans (h q x hx)

theorem Entry.reasonFor_withCause (b c : BayNo) (x : Reason) (e : Entry) :
    ((e.withCause b x).reasonFor c).isSome = (e.reasonFor c).isSome := by
  cases e with
  | record t => rfl
  | bay d y =>
    simp only [Entry.withCause]
    split <;> simp only [Entry.reasonFor] <;> split <;> rfl

/-- What the list keeps. -/
theorem RelocReach.keeps {xs ys : List Entry} (h : RelocReach xs ys)
    (hp : xs.length ≤ Config.listSize ∧ ∀ b : BayNo, (xs.filter fun e => (e.reasonFor b).isSome).length ≤ 1) :
    ys.length ≤ Config.listSize ∧ ∀ b : BayNo, (ys.filter fun e => (e.reasonFor b).isSome).length ≤ 1 := by
  induction h with
  | refl => exact hp
  | leave hs => exact ⟨Nat.le_trans hs.length_le hp.1, fun b => Nat.le_trans (hs.filter _).length_le (hp.2 b)⟩
  | cause xs b x =>
    refine ⟨by simpa using hp.1, fun c => ?_⟩
    rw [List.filter_map, List.length_map]
    have : ((fun e : Entry => (e.reasonFor c).isSome) ∘ Entry.withCause b x) = fun e : Entry => (e.reasonFor c).isSome := by
      funext e; exact Entry.reasonFor_withCause b c x e
    rw [this]; exact hp.2 c
  | bay xs b x hn hl =>
    refine ⟨by simp; omega, fun c => ?_⟩
    rw [List.filter_append, List.length_append]
    have h2 := hp.2 c
    by_cases e : b = c
    · subst e
      have : xs.filter (fun e => (e.reasonFor b).isSome) = [] := by
        rw [List.filter_eq_nil_iff]
        intro e he
        rw [List.findSome?_eq_none_iff] at hn
        simp [hn e he]
      rw [this]
      simp [Entry.reasonFor]
    · simpa [Entry.reasonFor, e] using h2
  | record xs t hl =>
    refine ⟨by simp; omega, fun c => ?_⟩
    simpa [List.filter_append, Entry.reasonFor] using hp.2 c
  | trans _ _ i1 i2 => exact i2 (i1 hp)

theorem Blocks.bayEntryDue_list (p : Blocks) (b : BayNo) (x : Reason) : RelocReach p.reloc (p.bayEntryDue b x).reloc := by
  unfold Blocks.bayEntryDue
  split
  · exact .cause _ b x
  · rename_i hn
    split
    · exact .refl _
    · split
      · exact .bay _ b x (by simpa [Blocks.bayEntry] using hn) ‹_›
      · exact .foldl _ _ _ fun q sl _ => .of_eq (by simp)

theorem Blocks.loseBay_list (p : Blocks) (b : BayNo) (l : Loss) : RelocReach p.reloc (p.loseBay b l).reloc := by
  unfold Blocks.loseBay
  dsimp only
  split
  · exact (RelocReach.of_eq (by simp)).trans (Blocks.bayEntryDue_list _ _ _)
  · exact (RelocReach.of_eq (by simp)).trans (Blocks.bayEntryDue_list _ _ _)

theorem Blocks.setAction_list (p : Blocks) (b : BayNo) (x : Action) : RelocReach p.reloc (p.setAction b x).reloc := by
  unfold Blocks.setAction
  dsimp only
  split
  · exact .refl _
  · split
    · exact (RelocReach.of_eq (by simp)).trans (Blocks.bayEntryDue_list _ _ _)
    · split
      · refine .leave ?_
        simp only [Blocks.liftClose, Blocks.withReloc_reloc, Blocks.setBay_reloc, Blocks.withAlloc_reloc, Blocks.withSupply_reloc]
        exact List.filter_sublist
      · exact .of_eq (by simp)

theorem Blocks.recomputeMembers_list (p : Blocks) (among : GroupNo → Bool) :
    RelocReach p.reloc (p.recomputeMembers among).reloc :=
  .foldl _ _ _ fun q b _ => by
    split
    · exact Blocks.setAction_list _ _ _
    · exact .refl _

theorem Blocks.moveRecord_list (p : Blocks) (sl : Slot) (r : Record) (b : BayNo) :
    RelocReach p.reloc (p.moveRecord sl r b).reloc := by
  have h0 : ((p.withBook (p.book.move sl r b)).markUsed r.originClass r.originZone).reloc = p.reloc := by simp
  unfold Blocks.moveRecord
  dsimp only
  revert h0
  generalize ((p.withBook (p.book.move sl r b)).markUsed r.originClass r.originZone) = q
  intro h0
  have h1 : RelocReach p.reloc (if r.relocPending then q.withReloc (q.reloc.filter (· != .record r.ticket)) else q).reloc := by
    split
    · exact .leave (by rw [Blocks.withReloc_reloc, h0]; exact List.filter_sublist)
    · exact .of_eq h0
  refine h1.trans (.of_eq ?_)
  (repeat' split) <;> simp

theorem Blocks.relocate_list (p : Blocks) (sl : Slot) (r : Record) : RelocReach p.reloc (p.relocate sl r).reloc := by
  unfold Blocks.relocate
  split
  · exact Blocks.moveRecord_list _ _ _ _
  · exact .of_eq (by simp)

theorem Blocks.stepBay_list (p : Blocks) (b : BayNo) : RelocReach p.reloc (p.stepBay b).reloc := by
  unfold Blocks.stepBay
  (repeat' split)
  · exact .leave (by simpa using List.tail_sublist _)
  · exact .refl _
  · exact Blocks.relocate_list _ _ _

theorem Blocks.stepRecord_list (p : Blocks) (t : Ticket) : RelocReach p.reloc (p.stepRecord t).reloc := by
  unfold Blocks.stepRecord
  dsimp only
  (repeat' split)
  · exact .leave (by simpa using List.tail_sublist _)
  · rename_i sl r _ _
    exact (Blocks.relocate_list p sl r).trans (.leave (by rw [Blocks.withReloc_reloc]; exact List.filter_sublist))
  · exact .leave (by simpa using List.tail_sublist _)

theorem Blocks.faultEvent_list (p : Blocks) (b : BayNo) (on : Bool) : RelocReach p.reloc (p.faultEvent b on).reloc := by
  unfold Blocks.faultEvent
  dsimp only
  split
  · exact .of_eq (by simp)
  · split
    · exact (RelocReach.of_eq (by simp)).trans (Blocks.loseBay_list _ _ _)
    · exact .of_eq (by simp)

theorem Blocks.reportBay_list (p : Blocks) (b : BayNo) (x y z : Bool) : RelocReach p.reloc (p.reportBay b x y z).reloc := by
  unfold Blocks.reportBay
  dsimp only
  have h1 : RelocReach p.reloc (if y != (p.bay b).faultLine then p.faultEvent b y else p).reloc := by
    split
    · exact Blocks.faultEvent_list _ _ _
    · exact .refl _
  refine h1.trans (.of_eq ?_)
  generalize (if y != (p.bay b).faultLine then p.faultEvent b y else p) = q
  (repeat' split) <;> simp

theorem Blocks.takeReport_list (p : Blocks) (k : ModuleNo) (x : ModuleReport) :
    RelocReach p.reloc (p.takeReport k x).reloc := by
  unfold Blocks.takeReport
  split
  · exact (RelocReach.of_eq (by simp)).trans (.foldl _ _ (p.setModule k (.online 0)) fun q i _ => Blocks.reportBay_list _ _ _ _ _)
  · exact .of_eq (by simp)

theorem Blocks.loseModule_list (p : Blocks) (k : ModuleNo) : RelocReach p.reloc (p.loseModule k).reloc := by
  unfold Blocks.loseModule
  split
  · exact .refl _
  · rw [Blocks.raise_reloc]
    refine (RelocReach.of_eq (ys := (p.setModule k .offline).reloc) (by simp)).trans (.foldl _ _ _ fun q b _ => ?_)
    unfold Blocks.loseModuleBay
    dsimp only
    (repeat' split)
    · exact .refl _
    · exact (RelocReach.of_eq (by simp)).trans (Blocks.loseBay_list _ _ _)
    · exact .of_eq (by simp)

theorem Blocks.tick_list (p : Blocks) : RelocReach p.reloc p.tick.reloc := by
  have h : RelocReach p.reloc ((List.finRange Config.moduleCount).foldl Blocks.tickModule p).reloc :=
    .foldl _ _ _ fun q k _ => by
      unfold Blocks.tickModule
      (repeat' split)
      · exact .refl _
      · exact Blocks.loseModule_list _ _
      · exact .of_eq (by simp)
  refine h.trans (.of_eq ?_)
  unfold Blocks.tick
  dsimp only
  split <;> simp

theorem Blocks.checkOccupied_list (m : Nat) (sl : Slot) (p : Blocks) : RelocReach p.reloc (p.checkOccupied m sl).reloc := by
  unfold Blocks.checkOccupied
  (repeat' split)
  · exact .refl _
  · exact .record _ _ ‹_›
  · exact .of_eq (by simp)
  · exact .refl _

theorem Blocks.bookBoundary_list (p : Blocks) : RelocReach p.reloc p.bookBoundary.reloc := by
  have rec1 : ∀ m (q : Blocks) (sl : Slot), RelocReach q.reloc (q.passRecord m sl).reloc := fun m q sl => by
    unfold Blocks.passRecord
    refine (RelocReach.of_eq ?_).trans ((Blocks.checkOccupied_list m sl ((q.checkHoldLead m sl).checkGrace m sl)).trans (.of_eq ?_))
    · simp
    · simp
  have day : ∀ m (q : Blocks), RelocReach q.reloc (q.deadlinePass m).reloc := fun m q =>
    .foldl _ _ _ fun q b _ => by
      unfold Blocks.passBay
      exact (RelocReach.foldl _ (q.book.slotsOn b) q fun q sl _ => rec1 m q sl).trans (.of_eq (by simp))
  unfold Blocks.bookBoundary
  dsimp only
  (repeat' split)
  · exact .refl _
  · exact (RelocReach.of_eq (by simp)).trans (day _ _)
  · exact .of_eq (by simp)

theorem Blocks.claim_list (p : Blocks) (sl : Slot) (r : Record) : RelocReach p.reloc (p.claim sl r).reloc := by
  unfold Blocks.claim
  dsimp only
  split
  · refine .leave ?_
    simp [Blocks.sendAlloc, List.filter_sublist]
  · exact .of_eq (by simp)

theorem Blocks.disable_list (p : Blocks) (b : BayNo) : RelocReach p.reloc (p.disable b).reloc := by
  unfold Blocks.disable
  dsimp only
  split
  · exact .of_eq (by simp)
  · exact (Blocks.loseBay_list p b .disabled).trans (.of_eq (by simp))

theorem Blocks.takeRemoval_list (p : Blocks) (t : Ticket) : RelocReach p.reloc (p.takeRemoval t).reloc := by
  unfold Blocks.takeRemoval
  (repeat' split)
  · exact .refl _
  · exact .leave (by simp [List.filter_sublist])
  · exact .refl _

/-- What every change does to the relocation list. -/
theorem change_list {p q : Blocks} (h : Change p q) : RelocReach p.reloc q.reloc := by
  cases h with
  | configured b c h _ => exact (RelocReach.of_eq (by simp)).trans (Blocks.setAction_list _ _ _)
  | disabled b => exact Blocks.disable_list p b
  | claimed sl r => exact Blocks.claim_list p sl r
  | groupLevel g l => exact (RelocReach.of_eq (by simp)).trans (Blocks.recomputeMembers_list _ _)
  | dr x => exact (RelocReach.of_eq (by simp)).trans (Blocks.recomputeMembers_list _ _)
  | alarm x => exact (RelocReach.of_eq (by simp)).trans (Blocks.recomputeMembers_list _ _)
  | restarted => exact .leave (by rw [show p.restartLevel.reloc = [] from rfl]; exact List.nil_sublist _)
  | stepBay b x rest h => exact Blocks.stepBay_list p b
  | stepRecord t rest h => exact Blocks.stepRecord_list p t
  | reported k x => exact Blocks.takeReport_list p k x
  | lost k => exact Blocks.loseModule_list p k
  | pass => exact Blocks.bookBoundary_list p
  | removal t => exact Blocks.takeRemoval_list p t
  | tick => exact Blocks.tick_list p
  | _ => exact .of_eq (by simp)

/-- Every change keeps the relocation list sound. -/
theorem change_relocSound {p q : Blocks} (h : Change p q) (hp : p.RelocSound) : q.RelocSound := (change_list h).keeps hp

end Sys2Proof.Machine
end

