-- ==== Sys2Proof/Laws/Supply.lean ====
section
/-! SUPPORT. What the changes do to the supply state and its counter (R134, R135). -/

namespace Sys2Proof.Machine

theorem setSupply_sound {p : Blocks} (x : SupplyState) (h : p.SupplySound) (hx : x = .mains → p.supply.mainsOk = true) :
    (p.setSupply x).SupplySound := by
  unfold Blocks.setSupply
  split
  · exact h
  · have : ∀ q : Blocks, q.supply = { p.supply with state := x, counter := if x = .returning then p.params.settle else 0 } →
      q.SupplySound := by
      intro q hq
      simp only [Blocks.SupplySound, hq]
      exact ⟨fun hn => if_neg hn, hx⟩
    dsimp only
    split <;> exact this _ (by simp)

theorem setAction_supplySound {p : Blocks} (b : BayNo) (x : Action) (h : p.SupplySound) : (p.setAction b x).SupplySound := by
  unfold Blocks.setAction
  dsimp only
  split
  · exact h
  · have : ∀ q : Blocks, q.supply.state = p.supply.state → q.supply.counter = p.supply.counter → q.supply.mainsOk = p.supply.mainsOk → q.SupplySound := by
      intro q h1 h2 h3; simp only [Blocks.SupplySound, h1, h2, h3]; exact h
    (repeat' split) <;> exact this _ (by simp) (by simp) (by simp)

theorem recomputeMembers_supplySound {p : Blocks} (x) (h : p.SupplySound) : (p.recomputeMembers x).SupplySound := by
  refine foldl_keeps _ _ _ p h fun q hq b _ => ?_
  split
  · exact setAction_supplySound _ _ hq
  · exact hq

theorem change_supplySound {p q} (h : Change p q) (hp : p.SupplySound) : q.SupplySound := by
  have keep : ∀ q : Blocks, q.supply = p.supply → q.SupplySound := by
    intro q hq; simp only [Blocks.SupplySound, hq]; exact hp
  cases h with
  | configured b c h _ => exact setAction_supplySound _ _ (by simpa [Blocks.SupplySound] using hp)
  | groupLevel g l => exact recomputeMembers_supplySound _ (by simpa [Blocks.SupplySound] using hp)
  | target t => simpa [Blocks.SupplySound, Blocks.selectSupply] using hp
  | switched =>
    refine setSupply_sound _ hp ?_
    intro h; refine hp.2 ?_
    revert h; cases p.supply.target <;> cases p.supply.state <;> simp [switched]
  | restarted => simpa [Blocks.SupplySound, Blocks.restartLevel, SupplyUnit.restart, Blocks.evalPool] using hp
  | settleCount =>
    unfold Blocks.supplyBoundary
    dsimp only
    split
    · exact hp
    · split
      · split
        · exact setSupply_sound _ (by simpa [Blocks.SupplySound] using hp) (by simp_all)
        · simp_all [Blocks.SupplySound]
      · simpa [Blocks.SupplySound] using hp
  | fall =>
    unfold Blocks.mainsOkFall
    dsimp only
    split
    · split
      · have h0 : p.supply.state = .mains := by assumption
        unfold Blocks.setSupply
        simp [h0, Blocks.SupplySound, supplyChangeTold]
      all_goals simp_all [Blocks.SupplySound]
    · exact hp
  | rise => simp_all [Blocks.SupplySound, Blocks.mainsOkRise]
  | dr h => exact recomputeMembers_supplySound _ (by simpa [Blocks.SupplySound] using hp)
  | alarm h => exact recomputeMembers_supplySound _ (by simpa [Blocks.SupplySound] using hp)
  | _ => exact keep _ (by simp)

end Sys2Proof.Machine
end

