-- ==== Sys2Proof/Laws/PowerOn.lean ====
section
/-! SUPPORT. What the blocks hold right after power-on (the table of 09_level_state_parameters_and_restart.md), one lemma per invariant of Safety.lean. -/

namespace Sys2Proof.Machine

/-- Every bay entry is the one that the power-on table gives. -/
theorem powerOn_bay (m d a : Bool) (b : BayNo) : (Blocks.powerOn m d a).bay b = Bay.powerOn := by
  simp [Blocks.powerOn, Blocks.bay, BayUnit.powerOn]

/-- Every module is OFFLINE. -/
theorem powerOn_moduleState (m d a : Bool) (b : ModuleNo) : (Blocks.powerOn m d a).moduleState b = .offline := by
  simp [Blocks.powerOn, Blocks.moduleState, BayUnit.powerOn]

/-- No bay has a session entry. -/
theorem powerOn_session (b : BayNo) : Allocator.powerOn.session b = none := by
  simp [Allocator.powerOn, Allocator.session]

/-- Every feeder is as the power-on table gives it. -/
theorem powerOn_feeder (f : FeederNo) : Allocator.powerOn.feeder f = Feeder.powerOn := by
  simp [Allocator.powerOn, Allocator.feeder]

/-- Every ceiling is 0: the budgets are 0. -/
theorem powerOn_ceiling (f : FeederNo) : Allocator.powerOn.ceiling f = 0 := by
  simp [Allocator.ceiling, powerOn_feeder]; rfl

theorem powerOn_supplySound (m d a : Bool) : (Blocks.powerOn m d a).SupplySound := by
  simp [Blocks.SupplySound, Blocks.powerOn, SupplyUnit.powerOn]

theorem powerOn_countsInRange (m d a : Bool) : (Blocks.powerOn m d a).CountsInRange := by
  unfold Blocks.CountsInRange
  simp only [powerOn_moduleState]
  refine ⟨?_, ?_, by simp, ?_⟩
  · exact (by decide : (0:Nat) ≤ Config.minuteMax)
  · exact (by decide : (0:Nat) < Config.minutePeriods)
  · exact (by decide : Params.powerOn.holdLead ≤ 60 ∧ Params.powerOn.turnoverGap ≤ 30 ∧ Params.powerOn.defaultGrace ≤ 60 ∧ 1 ≤ Params.powerOn.claimWindow ∧ Params.powerOn.claimWindow ≤ 15 ∧ 1 ≤ Params.powerOn.settle ∧ Params.powerOn.settle ≤ 15 ∧ Params.powerOn.poolLow ≤ 255)

theorem powerOn_baysSound (m d a : Bool) : (Blocks.powerOn m d a).BaysSound := by
  unfold Blocks.BaysSound
  simp only [powerOn_bay, powerOn_moduleState]
  exact ⟨fun _ => by simp [Bay.Sound, Bay.powerOn, BayState.occupied, signOf, BayState.outOfService], fun _ _ => rfl, (by decide : 1 ≤ Params.powerOn.claimWindow), (by decide : Params.powerOn.claimWindow ≤ 15)⟩

theorem powerOn_actionCopies (m d a : Bool) : (Blocks.powerOn m d a).ActionCopies := by
  refine ⟨rfl, fun b => ?_⟩
  rw [powerOn_bay]; simp [Blocks.powerOn, SupplyUnit.powerOn, Bay.powerOn]

theorem powerOn_noticesAgree (m d a : Bool) : (Blocks.powerOn m d a).NoticesAgree := by
  refine ⟨(by decide : Notices.powerOn.attn = Notices.powerOn.wantsAttn), ?_, rfl⟩
  simp [Blocks.powerOn, Notices.powerOn, Book.poolLow, Book.powerOn, Params.powerOn, Config.poolSize]

theorem powerOn_postsAgree : Allocator.powerOn.PostsAgree := by
  intro b; rw [powerOn_session]; simp [Allocator.powerOn, postFor]

theorem powerOn_actionsFollowGroups (m d a : Bool) : (Blocks.powerOn m d a).ActionsFollowGroups := by
  intro b; rw [powerOn_bay]; simp [Blocks.powerOn, SupplyUnit.powerOn, Bay.powerOn, SupplyUnit.actionFor, BayConfig.powerOn]

theorem powerOn_bookSound : Book.powerOn.Sound := by
  have key : ∀ (k : Book) (g : Vector Nat Config.poolSize), k.gens = g → Book.Sound { k with gens := g } → k.Sound := by
    intro k g h hs; subst h; exact hs
  refine key Book.powerOn (Vector.replicate Config.poolSize 0) ?_ (Book.Sound.empty _ (fun sl => by simp [Config.generations]))
  simp only [Book.powerOn]

theorem powerOn_book (m d a : Bool) : (Blocks.powerOn m d a).book = Book.powerOn := rfl

/-- Every timeline is empty. -/
theorem powerOn_timeline (b : BayNo) : Book.powerOn.timeline b = [] := by simp [Book.timeline, Book.slotsOn_empty]

theorem powerOn_timelinesSound (m d a : Bool) : (Blocks.powerOn m d a).TimelinesSound := by
  unfold Blocks.TimelinesSound
  rw [powerOn_book]
  refine ⟨powerOn_bookSound, ⟨fun b => ?_, fun b => ?_, fun sl r h => ?_⟩, fun _ b => Book.slotsOn_empty b⟩
  · rw [powerOn_timeline]; exact .nil
  · simp [Book.slotsOn_empty]
  · simp [Book.rec_empty] at h

theorem powerOn_tokensSound (m d a : Bool) : (Blocks.powerOn m d a).TokensSound := by
  unfold Blocks.TokensSound
  rw [powerOn_book]
  refine ⟨powerOn_bookSound, ⟨.nil, by simp [Book.powerOn], fun sl r h => ?_⟩, fun sl r h => ?_⟩ <;> simp [Book.rec_empty] at h

theorem powerOn_listsSound : Allocator.powerOn.ListsSound := by
  refine ⟨fun f => ?_, fun f b => ?_, fun f b => ?_, fun b x h => ?_⟩ <;> simp_all [powerOn_feeder, powerOn_session, Feeder.powerOn]

theorem powerOn_allocSound (m d a : Bool) : (Blocks.powerOn m d a).alloc.Sound := by
  refine ⟨powerOn_listsSound, fun f => ?_⟩
  simp [Blocks.powerOn, Allocator.granted, powerOn_feeder, Feeder.powerOn]

theorem powerOn_relocSound (m d a : Bool) : (Blocks.powerOn m d a).RelocSound := by
  refine ⟨Nat.zero_le _, fun b => by simp [Blocks.powerOn]⟩

theorem powerOn_recordEntriesSound (m d a : Bool) : (Blocks.powerOn m d a).RecordEntriesSound := by
  refine ⟨fun t => by simp [Blocks.powerOn], fun sl r h => ?_, fun t h => ?_⟩
  · rw [powerOn_book, Book.rec_empty] at h; cases h
  · simp [Blocks.powerOn] at h

theorem powerOn_tracked (m d a : Bool) : (Blocks.powerOn m d a).Tracked := ⟨powerOn_bookSound, powerOn_recordEntriesSound m d a⟩

theorem powerOn_grantsSound (m d a : Bool) : (Blocks.powerOn m d a).GrantsSound := by
  refine ⟨powerOn_bookSound, rfl, powerOn_listsSound, ⟨fun b x h => ?_, fun f => ?_⟩, fun b => ?_, fun sl r h => ?_, fun b n h => ?_⟩
  · rw [show (Blocks.powerOn m d a).alloc = Allocator.powerOn from rfl, powerOn_session] at h; cases h
  · left; rw [show (Blocks.powerOn m d a).alloc = Allocator.powerOn from rfl, powerOn_feeder]; rfl
  · rw [powerOn_bay]; decide
  · rw [powerOn_book, Book.rec_empty] at h; cases h
  · cases h

/-- The blocks of State.reset are the blocks right after power-on, the sampled levels low. -/
theorem reset_blocks : State.reset.blocks = Blocks.powerOn false false false := rfl

end Sys2Proof.Machine
end

