-- ==== Sys2Proof/Laws/Rebalance.lean ====
section
/-! SUPPORT. The rebalance of the feeders (the budget switch, the queue, the raising of grants) and the cut. -/

namespace Sys2Proof.Machine

/-- A session with its feeder, draw and cap, whose phase stays or becomes QUEUED. -/
def KeptOrRequeued (x y : Session) : Prop :=
  y.feeder = x.feeder ∧ y.draw = x.draw ∧ y.cap = x.cap ∧ (y.phase = x.phase ∨ y.phase = .queued)

theorem KeptOrRequeued.refl (x : Session) : KeptOrRequeued x x := ⟨rfl, rfl, rfl, .inl rfl⟩

theorem KeptOrRequeued.trans {x y z : Session} (h : KeptOrRequeued x y) (h' : KeptOrRequeued y z) : KeptOrRequeued x z :=
  ⟨h'.1.trans h.1, h'.2.1.trans h.2.1, h'.2.2.1.trans h.2.2.1, by
    rcases h'.2.2.2 with e | e
    · rw [e]; exact h.2.2.2
    · exact .inr e⟩

/-- A step at bay `b` of the trim or of the requeue. -/
def CutStep (step : Allocator → BayNo → Allocator) : Prop :=
  ∀ a b c, (c ≠ b → (step a b).session c = a.session c) ∧
    ∀ x, a.session c = some x → ∃ y, (step a b).session c = some y ∧ KeptOrRequeued x y

theorem trimOne_session (f : FeederNo) : CutStep (Allocator.trimOne f) := by
  intro a b c
  unfold Allocator.trimOne
  split
  · exact ⟨fun _ => rfl, fun x h => ⟨x, h, .refl x⟩⟩
  · rename_i s hs
    rw [Allocator.session_putSession]
    refine ⟨fun h => if_neg (Ne.symm h), fun x hx => ?_⟩
    split
    · rename_i e; subst e; rw [hs] at hx; cases hx; exact ⟨_, rfl, rfl, rfl, rfl, .inl rfl⟩
    · exact ⟨x, hx, .refl x⟩

theorem requeueOne_session (f : FeederNo) : CutStep (Allocator.requeueOne f) := by
  intro a b c
  unfold Allocator.requeueOne
  split
  · split
    · exact ⟨fun _ => rfl, fun x h => ⟨x, h, .refl x⟩⟩
    · rename_i s hs
      have e : ∀ o y, (((a.leaveLists f b).putSession b o).setFeeder f y).session c = ((a.putSession b o).session c) := fun _ _ => rfl
      dsimp only
      rw [e, Allocator.session_putSession]
      refine ⟨fun h => if_neg (Ne.symm h), fun x hx => ?_⟩
      split
      · rename_i e; subst e; rw [hs] at hx; cases hx; exact ⟨_, rfl, rfl, rfl, rfl, .inr rfl⟩
      · exact ⟨x, hx, .refl x⟩
  · exact ⟨fun _ => rfl, fun x h => ⟨x, h, .refl x⟩⟩

theorem CutStep.fold {step : Allocator → BayNo → Allocator} (hs : CutStep step) (xs : List BayNo) (a : Allocator) (c : BayNo) :
    (c ∉ xs → (xs.foldl step a).session c = a.session c) ∧
    ∀ x, a.session c = some x → ∃ y, (xs.foldl step a).session c = some y ∧ KeptOrRequeued x y := by
  induction xs generalizing a with
  | nil => exact ⟨fun _ => rfl, fun x h => ⟨x, h, .refl x⟩⟩
  | cons b xs ih =>
    obtain ⟨i1, i2⟩ := ih (step a b)
    obtain ⟨j1, j2⟩ := hs a b c
    refine ⟨fun h => ?_, fun x hx => ?_⟩
    · simp only [List.mem_cons, not_or] at h
      exact (i1 h.2).trans (j1 h.1)
    · obtain ⟨y, y1, y2⟩ := j2 x hx
      obtain ⟨z, z1, z2⟩ := i2 y y1
      exact ⟨z, z1, y2.trans z2⟩

/-- What a cut does to the sessions: off the grant list they stay, on it they are kept or requeued. -/
theorem cut_sessions (f : FeederNo) (a : Allocator) (b : BayNo) :
    (b ∉ (a.feeder f).grants → (a.cut f).session b = a.session b) ∧
    ∀ x, a.session b = some x → ∃ y, (a.cut f).session b = some y ∧ KeptOrRequeued x y := by
  have hfe : ((a.feeder f).grants.reverse.foldl (Allocator.trimOne f) a).feeder = a.feeder := foldl_leaves (fun q : Allocator => q.feeder) _ _ _ fun q b _ => funext (trimOne_feeder f q b)
  have e : a.cut f = (a.feeder f).grants.reverse.foldl (Allocator.requeueOne f) ((a.feeder f).grants.reverse.foldl (Allocator.trimOne f) a) := by
    unfold Allocator.cut; dsimp only; rw [hfe]
  obtain ⟨t1, t2⟩ := (trimOne_session f).fold (a.feeder f).grants.reverse a b
  obtain ⟨u1, u2⟩ := (requeueOne_session f).fold (a.feeder f).grants.reverse ((a.feeder f).grants.reverse.foldl (Allocator.trimOne f) a) b
  rw [← e] at u1 u2
  refine ⟨fun h => ?_, fun x hx => ?_⟩
  · have h' : b ∉ (a.feeder f).grants.reverse := by simpa using h
    exact (u1 h').trans (t1 h')
  · obtain ⟨y, y1, y2⟩ := t2 x hx
    obtain ⟨z, z1, z2⟩ := u2 y y1
    exact ⟨z, z1, y2.trans z2⟩

/-- A cut keeps to its feeder. -/
theorem cut_within {a : Allocator} (h : a.ListsSound) (f : FeederNo) : Allocator.Within f a (a.cut f) := by
  obtain ⟨c1, c2⟩ := cut_feeder f a
  refine ⟨c1, fun b hb => (cut_sessions f a b).1 fun hm => ?_, fun b x hx => ?_, Allocator.cut_supply a f, Allocator.cut_actions a f, c2⟩
  · obtain ⟨x, hx, hf, _⟩ := (h.2.1 f b).1 hm
    exact hb x hx hf
  · obtain ⟨y, y1, y2⟩ := (cut_sessions f a b).2 x hx
    exact ⟨y, y1, y2.1, y2.2.1, y2.2.2.1⟩

/-! ## Grants that only rise (R126) -/

theorem Allocator.OnlyRaised.same {a d : Allocator} (h : d.session = a.session) (cut : FeederNo → Prop) : a.OnlyRaised d cut := fun b => by
  rw [h]
  exact ⟨id, fun x hx => ⟨x, hx, rfl, rfl, rfl, Iff.rfl, fun _ => ⟨Nat.le_refl _, id⟩⟩⟩

theorem Allocator.OnlyRaised.trans {a d e : Allocator} {cut : FeederNo → Prop} (h : a.OnlyRaised d cut) (h' : d.OnlyRaised e cut) : a.OnlyRaised e cut := fun b => by
  obtain ⟨h1, h2⟩ := h b
  obtain ⟨k1, k2⟩ := h' b
  refine ⟨fun hn => k1 (h1 hn), fun x hx => ?_⟩
  obtain ⟨y, y1, y2, y3, y4, y5, y6⟩ := h2 x hx
  obtain ⟨z, z1, z2, z3, z4, z5, z6⟩ := k2 y y1
  refine ⟨z, z1, z2.trans y2, z3.trans y3, z4.trans y4, z5.trans y5, fun hc => ?_⟩
  obtain ⟨a1, a2⟩ := y6 hc
  obtain ⟨b1, b2⟩ := z6 (by rw [y2]; exact hc)
  exact ⟨Nat.le_trans a1 b1, fun hp => b2 (a2 hp)⟩

/-- A cut suspends no session. -/
theorem cut_onlyRaised {a : Allocator} (h : a.ListsSound) (f : FeederNo) {cut : FeederNo → Prop} (hc : cut f) : a.OnlyRaised (a.cut f) cut := fun b => by
  obtain ⟨s1, s2⟩ := cut_sessions f a b
  refine ⟨fun hn => ?_, fun x hx => ?_⟩
  · rw [s1 fun hm => ?_, hn]
    obtain ⟨x, hx, -⟩ := (h.2.1 f b).1 hm
    rw [hn] at hx; cases hx
  · by_cases hm : b ∈ (a.feeder f).grants
    · obtain ⟨x', hx', hf, hp⟩ := (h.2.1 f b).1 hm
      rw [hx] at hx'; cases hx'
      obtain ⟨y, y1, y2, y3, y4, y5⟩ := s2 x hx
      refine ⟨y, y1, y2, y3, y4, ?_, fun hn => absurd (hf ▸ hc) hn⟩
      rw [hp] at y5 ⊢
      rcases y5 with e | e <;> rw [e]; all_goals simp
    · exact ⟨x, by rw [s1 hm, hx], rfl, rfl, rfl, Iff.rfl, fun _ => ⟨Nat.le_refl _, id⟩⟩

/-- Serving a queue only raises grants. -/
theorem served_onlyRaised {a d : Allocator} (h : a.ListsSound) {f : FeederNo} (hs : a.QueueServed d f) (cut : FeederNo → Prop) : a.OnlyRaised d cut := fun b => by
  obtain ⟨served, rest, h1, h2, h3, h4, h5, -⟩ := hs
  by_cases hm : b ∈ served
  · obtain ⟨before, after, he⟩ := List.append_of_mem hm
    obtain ⟨x, _, n, -, -, -, hx, hd, -⟩ := h4 before after b he
    obtain ⟨x', hx', -, hp⟩ := (h.2.2.1 f b).1 (show b ∈ (a.feeder f).queue by rw [h1]; simp [hm])
    rw [hx] at hx'; cases hx'
    refine ⟨fun e => ?_, fun y hy => ?_⟩
    · rw [e] at hx; cases hx
    rw [hx] at hy; cases hy
    refine ⟨_, hd, rfl, rfl, rfl, by simp [hp], fun _ => ⟨?_, fun _ => rfl⟩⟩
    rw [h.2.2.2 b x hx (by rw [hp]; decide)]
    exact Nat.zero_le _
  · rw [(h5 b hm).1]
    exact ⟨id, fun x hx => ⟨x, hx, rfl, rfl, rfl, Iff.rfl, fun _ => ⟨Nat.le_refl _, id⟩⟩⟩

/-- A top-up only raises grants. -/
theorem toppedUp_onlyRaised {a d : Allocator} {f : FeederNo} (hs : a.ToppedUp d f) (cut : FeederNo → Prop) : a.OnlyRaised d cut := fun b => by
  by_cases hm : b ∈ (a.feeder f).grants
  · obtain ⟨before, after, he⟩ := List.append_of_mem hm
    obtain ⟨x, h, n, -, hn, hx, hd, -⟩ := hs.1 before after b he
    refine ⟨fun e => ?_, fun y hy => ?_⟩
    · rw [e] at hx; cases hx
    rw [hx] at hy; cases hy
    exact ⟨_, hd, rfl, rfl, rfl, Iff.rfl, fun _ => ⟨by rw [hn]; exact Nat.le_add_right _ _, id⟩⟩
  · rw [(hs.2.1 b hm).1]
    exact ⟨id, fun x hx => ⟨x, hx, rfl, rfl, rfl, Iff.rfl, fun _ => ⟨Nat.le_refl _, id⟩⟩⟩

/-- What switching a staged budget in does. -/
theorem switchBudget_spec (a : Allocator) (f : FeederNo) : (a.switchBudget f).session = a.session ∧ (a.switchBudget f).supply = a.supply ∧ (a.switchBudget f).actions = a.actions ∧
   (∀ g, g ≠ f → (a.switchBudget f).feeder g = a.feeder g) ∧ (a.switchBudget f).feeder f = { a.feeder f with budget := if (a.feeder f).switchPending then (a.feeder f).staged else (a.feeder f).budget, switchPending := false } := by
  unfold Allocator.switchBudget
  split
  · rename_i h
    refine ⟨rfl, rfl, rfl, fun g hg => by rw [Allocator.feeder_setFeeder, if_neg (Ne.symm hg)], by rw [Allocator.feeder_setFeeder, if_pos rfl]⟩
  · rename_i h
    refine ⟨rfl, rfl, rfl, fun _ _ => rfl, ?_⟩
    have : (a.feeder f).switchPending = false := by simpa using h
    cases h2 : a.feeder f; simp_all

/-- The switch as one update. -/
theorem switchBudget_eq (a : Allocator) (f : FeederNo) : a.switchBudget f = { a with feeders := setAt a.feeders f { a.feeder f with
    budget := if (a.feeder f).switchPending then (a.feeder f).staged else (a.feeder f).budget
    switchPending := false } } := by
  unfold Allocator.switchBudget
  split
  · rfl
  · rename_i h
    have h' : (a.feeder f).switchPending = false := by simpa using h
    have e : { a.feeder f with switchPending := false } = a.feeders[f] := by
      show { a.feeder f with switchPending := false } = a.feeder f
      cases h2 : a.feeder f
      rw [h2] at h'
      simp_all
    have := setAt_self a.feeders f
    rw [← e] at this
    exact congrArg (fun v => { a with feeders := v }) this.symm

/-- One feeder's rebalance takes R126's four steps, raises BUDGET_CUT where it cuts, and suspends no session. -/
theorem rebalanceFeeder_rebalanced {p : Blocks} (h : p.alloc.ListsSound) (f : FeederNo) (ceil : Nat)
    (hc : ceil = { p.alloc.feeder f with budget := if (p.alloc.feeder f).switchPending then (p.alloc.feeder f).staged else (p.alloc.feeder f).budget }.ceiling p.alloc.supply)
    (cut : FeederNo → Prop) (hcut : ceil < p.alloc.granted f → cut f) :
    p.alloc.Rebalanced f (p.rebalanceFeeder f).alloc ∧ p.alloc.OnlyRaised (p.rebalanceFeeder f).alloc cut ∧
    (p.rebalanceFeeder f).mail = { p.mail with raises := p.mail.raises ++ if ceil < p.alloc.granted f then [(.allocator, .budgetCut)] else [] } := by
  have hb := switchBudget_eq p.alloc f
  have e : (p.rebalanceFeeder f).alloc = (((p.withAlloc (p.alloc.switchBudget f)).cutFeeder f).alloc.serveQueue f).topUp f ∧
      (p.rebalanceFeeder f).mail = ((p.withAlloc (p.alloc.switchBudget f)).cutFeeder f).mail := by
    unfold Blocks.rebalanceFeeder
    dsimp only
    simp only [Blocks.withAlloc_alloc, Blocks.withAlloc_mail, and_self]
  rw [e.1, e.2]
  have hl : (p.alloc.switchBudget f).ListsSound ∧ (p.alloc.switchBudget f).granted f = p.alloc.granted f := by
    unfold Allocator.switchBudget
    split
    · obtain ⟨l1, l2⟩ := Allocator.setFeeder_lists h f { p.alloc.feeder f with budget := (p.alloc.feeder f).staged, switchPending := false } rfl rfl
      exact ⟨l1, l2 f⟩
    · exact ⟨h, rfl⟩
  obtain ⟨s1, s2, s3, s4, s5⟩ := switchBudget_spec p.alloc f
  have hceil : (p.alloc.switchBudget f).ceiling f = ceil := by
    unfold Allocator.ceiling
    rw [s2, s5, hc]
    cases p.alloc.supply <;> rfl
  have same : p.alloc.OnlyRaised (p.alloc.switchBudget f) cut := Allocator.OnlyRaised.same s1 cut
  generalize p.alloc.switchBudget f = b at *
  have hcutFeeder : ((p.withAlloc b).cutFeeder f).alloc = (if b.ceiling f < b.granted f then b.cut f else b) ∧
      ((p.withAlloc b).cutFeeder f).mail = { p.mail with raises := p.mail.raises ++ if ceil < p.alloc.granted f then [(.allocator, .budgetCut)] else [] } := by
    unfold Blocks.cutFeeder
    rw [Blocks.withAlloc_alloc, hceil, hl.2]
    split
    · exact ⟨rfl, rfl⟩
    · exact ⟨rfl, by simp⟩
  have hsound := (Blocks.cutFeeder_spec (p := p.withAlloc b) hl.1 f).1
  have raised : b.OnlyRaised ((p.withAlloc b).cutFeeder f).alloc cut := by
    rw [hcutFeeder.1]
    split
    · rename_i hx
      rw [hceil, hl.2] at hx
      exact cut_onlyRaised hl.1 f (hcut hx)
    · exact Allocator.OnlyRaised.same rfl cut
  refine ⟨⟨b, _, _, hb, hcutFeeder.1, Allocator.serveQueue_served hsound f, ?_⟩, ?_, hcutFeeder.2⟩
  · exact Allocator.topUp_toppedUp (Allocator.serveQueue_tame hsound f).2.1 f
  · exact ((same.trans raised).trans (served_onlyRaised hsound (Allocator.serveQueue_served hsound f) cut)).trans
      (toppedUp_onlyRaised (Allocator.topUp_toppedUp (Allocator.serveQueue_tame hsound f).2.1 f) cut)

/-- What one feeder's rebalance does. -/
theorem rebalanceFeeder_spec {p : Blocks} (h : p.alloc.Sound) (f : FeederNo) : ∃ a : Allocator, a = p.alloc.switchBudget f ∧ a.ListsSound ∧
    Allocator.Within f a (p.rebalanceFeeder f).alloc ∧ 
    (((p.rebalanceFeeder f).alloc.feeder f).queue = [] ∨ (p.rebalanceFeeder f).alloc.headroom f < 6) ∧
    (∀ b ∈ ((p.rebalanceFeeder f).alloc.feeder f).grants, ∀ x, (p.rebalanceFeeder f).alloc.session b = some x → x.cap ≤ x.grant ∨ (p.rebalanceFeeder f).alloc.headroom f = 0) ∧
    p.rebalanceFeeder f = { p with alloc := (p.rebalanceFeeder f).alloc, mail := (p.rebalanceFeeder f).mail } := by
  refine ⟨_, rfl, ?_, ?_⟩
  · unfold Allocator.switchBudget
    split
    · exact (Allocator.setFeeder_lists h.1 f { p.alloc.feeder f with budget := (p.alloc.feeder f).staged, switchPending := false } rfl rfl).1
    · exact h.1
  have hl : (p.alloc.switchBudget f).ListsSound := by
    unfold Allocator.switchBudget
    split
    · exact (Allocator.setFeeder_lists h.1 f { p.alloc.feeder f with budget := (p.alloc.feeder f).staged, switchPending := false } rfl rfl).1
    · exact h.1
  have c1 : ((p.withAlloc (p.alloc.switchBudget f)).cutFeeder f).alloc.ListsSound := (Blocks.cutFeeder_spec (p := p.withAlloc (p.alloc.switchBudget f)) hl f).1
  have c2 : Allocator.Within f (p.alloc.switchBudget f) ((p.withAlloc (p.alloc.switchBudget f)).cutFeeder f).alloc := by
    unfold Blocks.cutFeeder
    split
    · exact cut_within hl f
    · exact .refl _ _
  have c3 : (p.withAlloc (p.alloc.switchBudget f)).cutFeeder f = { p with alloc := ((p.withAlloc (p.alloc.switchBudget f)).cutFeeder f).alloc, mail := ((p.withAlloc (p.alloc.switchBudget f)).cutFeeder f).mail } := by
    unfold Blocks.cutFeeder
    split <;> rfl
  have e : p.rebalanceFeeder f = { p with alloc := ((((p.withAlloc (p.alloc.switchBudget f)).cutFeeder f).alloc.serveQueue f).topUp f), mail := ((p.withAlloc (p.alloc.switchBudget f)).cutFeeder f).mail } := by
    unfold Blocks.rebalanceFeeder
    dsimp only
    generalize (p.withAlloc (p.alloc.switchBudget f)).cutFeeder f = z at *
    rw [c3]; rfl
  rw [e]
  generalize (p.withAlloc (p.alloc.switchBudget f)).cutFeeder f = z at *
  have s1 := Allocator.serveQueue_served c1 f
  have s2 := (Allocator.serveQueue_tame c1 f).2.1
  have s3 := s1.within c1
  obtain ⟨t1, t2, t3, t4, t5, t6⟩ := Allocator.topUp_done s2 f
  refine ⟨(c2.trans s3).trans t1, ?_, fun b hb x hx => ?_, rfl⟩
  · obtain ⟨served, rest, h1, h2, h3, -⟩ := s1
    rcases h3 with h3 | h3
    · left
      show ((Allocator.topUp _ f).feeder f).queue = []
      rw [t4, h2, h3]
    · right
      show (Allocator.topUp _ f).headroom f < 6
      omega
  · have hb' : b ∈ ((z.alloc.serveQueue f).feeder f).grants := by rw [← t4]; exact hb
    obtain ⟨y, n, y1, y2, y3, y4, y5⟩ := t5 b hb'
    have : some x = some { y with grant := n } := hx.symm.trans y2
    cases this
    exact y5

/-- The rebalance of a list of feeders, whose entries and totals are still those of allocator `a`. -/
theorem rebalance_chain (a : Allocator) (ceil : FeederNo → Nat)
    (hc : ∀ f, ceil f = { a.feeder f with budget := if (a.feeder f).switchPending then (a.feeder f).staged else (a.feeder f).budget }.ceiling a.supply)
    (xs : List FeederNo) (hn : xs.Nodup) (p : Blocks) (h : p.alloc.Sound) (hs : p.alloc.supply = a.supply)
    (hf : ∀ f ∈ xs, p.alloc.feeder f = a.feeder f ∧ p.alloc.granted f = a.granted f) :
    InTurn Allocator.Rebalanced xs p.alloc (xs.foldl Blocks.rebalanceFeeder p).alloc ∧
    p.alloc.OnlyRaised (xs.foldl Blocks.rebalanceFeeder p).alloc (fun f => ceil f < a.granted f) ∧
    (xs.foldl Blocks.rebalanceFeeder p).mail = { p.mail with
      raises := p.mail.raises ++ xs.filterMap fun f => if ceil f < a.granted f then some (.allocator, .budgetCut) else none } ∧
    (xs.foldl Blocks.rebalanceFeeder p).alloc.supply = p.alloc.supply ∧ (xs.foldl Blocks.rebalanceFeeder p).alloc.actions = p.alloc.actions := by
  induction xs generalizing p with
  | nil => exact ⟨rfl, .same rfl _, by simp, rfl, rfl⟩
  | cons f xs ih =>
    obtain ⟨hnf, hn⟩ := List.nodup_cons.1 hn
    obtain ⟨f1, f2⟩ := hf f (by simp)
    obtain ⟨r1, r2, r3⟩ := rebalanceFeeder_rebalanced h.1 f (ceil f) (by rw [hc f, f1, hs]) (fun f => ceil f < a.granted f) fun e => by rw [f2] at e; exact e
    obtain ⟨b, hb, w0, w, -⟩ := rebalanceFeeder_spec h f
    obtain ⟨s1, s2, s3, s4, s5⟩ := switchBudget_spec p.alloc f
    rw [← hb] at s1 s2 s3 s4 s5
    have others : ∀ g, g ≠ f → (p.rebalanceFeeder f).alloc.feeder g = p.alloc.feeder g ∧ (p.rebalanceFeeder f).alloc.granted g = p.alloc.granted g := fun g hg => by
      refine ⟨(w.1 g hg).trans (s4 g hg), (w.granted w0 hg).trans ?_⟩
      unfold Allocator.granted Allocator.grantOf
      rw [s4 g hg, s1]
    have hs' : (p.rebalanceFeeder f).alloc.supply = p.alloc.supply := w.2.2.2.1.trans s2
    obtain ⟨i1, i2, i3, i4, i5⟩ := ih hn (p.rebalanceFeeder f) (Blocks.rebalanceFeeder_sound h f) (hs'.trans hs) fun g hg => by
      have hne : g ≠ f := by rintro rfl; exact hnf hg
      obtain ⟨o1, o2⟩ := others g hne
      rw [o1, o2]
      exact hf g (by simp [hg])
    rw [List.foldl_cons]
    refine ⟨⟨_, r1, i1⟩, r2.trans i2, ?_, i4.trans hs', i5.trans (w.2.2.2.2.1.trans s3)⟩
    rw [i3, r3, f2]
    by_cases e : ceil f < a.granted f <;> simp [e]

/-- What a feeder holds after its rebalance. -/
def FeederRebalanced (p q : Blocks) (f : FeederNo) : Prop :=
  (q.alloc.feeder f).budget = (if (p.alloc.feeder f).switchPending then (p.alloc.feeder f).staged else (p.alloc.feeder f).budget) ∧
        (q.alloc.feeder f).switchPending = false ∧ (q.alloc.feeder f).staged = (p.alloc.feeder f).staged ∧
        (q.alloc.feeder f).reserve = (p.alloc.feeder f).reserve ∧
        ((q.alloc.feeder f).queue = [] ∨ q.alloc.headroom f < 6) ∧
        (∀ b ∈ (q.alloc.feeder f).grants, ∀ x : Session, q.alloc.session b = some x →
          x.cap ≤ x.grant ∨ q.alloc.headroom f = 0)

/-- What a rebalance over a list of feeders does. -/
theorem rebalanceFeeder_fold (xs : List FeederNo) (hn : xs.Nodup) (p : Blocks) (h : p.alloc.Sound) :
    let q := xs.foldl Blocks.rebalanceFeeder p
    q.alloc.Sound ∧ (∀ f ∈ xs, FeederRebalanced p q f) ∧
    (∀ f, f ∉ xs → q.alloc.feeder f = p.alloc.feeder f ∧ q.alloc.headroom f = p.alloc.headroom f ∧ ∀ b ∈ (p.alloc.feeder f).grants, q.alloc.session b = p.alloc.session b) ∧
    (∀ b, (q.alloc.session b).isSome = (p.alloc.session b).isSome) ∧
    q = { p with alloc := q.alloc, mail := q.mail } := by
  induction xs generalizing p with
  | nil => exact ⟨h, by simp, fun f _ => ⟨rfl, rfl, fun _ _ => rfl⟩, fun _ => rfl, rfl⟩
  | cons f xs ih =>
    obtain ⟨hf, hn⟩ := List.nodup_cons.1 hn
    simp only [List.foldl_cons]
    have hs := Blocks.rebalanceFeeder_sound h f
    obtain ⟨i1, i2, i3, i4, i5⟩ := ih hn (p.rebalanceFeeder f) hs
    obtain ⟨a, ha, w0, w, w1, w2, w3⟩ := rebalanceFeeder_spec h f
    obtain ⟨s1, s2, s3, s4, s5⟩ := switchBudget_spec p.alloc f
    rw [← ha] at s1 s2 s3 s4 s5
    generalize p.rebalanceFeeder f = z at *
    generalize xs.foldl Blocks.rebalanceFeeder z = q at *
    have zf : ∀ g, g ≠ f → z.alloc.feeder g = p.alloc.feeder g := fun g hg => (w.1 g hg).trans (s4 g hg)
    have zh : ∀ g, g ≠ f → z.alloc.headroom g = p.alloc.headroom g := fun g hg => by
      rw [w.headroom w0 hg]
      unfold Allocator.headroom Allocator.ceiling Allocator.granted Allocator.grantOf
      rw [s2, s4 g hg, s1]
    have zs : ∀ g, g ≠ f → ∀ b ∈ (p.alloc.feeder g).grants, z.alloc.session b = p.alloc.session b := fun g hg b hb => by
      rw [← s1]
      refine w.2.1 b fun x hx => ?_
      rw [s1] at hx
      obtain ⟨y, hy, hyf, _⟩ := (h.1.2.1 g b).1 hb
      rw [hx] at hy; cases hy; rw [hyf]; exact hg
    obtain ⟨k1, k2, k3⟩ := i3 f hf
    refine ⟨i1, fun g hg => ?_, fun g hg => ?_, fun b => ?_, ?_⟩
    · by_cases e : g = f
      · subst e
        have hzf := w.2.2.2.2.2
        rw [s5] at hzf
        refine ⟨?_, ?_, ?_, ?_, ?_, fun b hb x hx => ?_⟩
        · rw [k1, hzf]
        · rw [k1, hzf]
        · rw [k1, hzf]
        · rw [k1, hzf]
        · rw [k1, k2]; exact w1
        · rw [k1] at hb
          rw [k3 b hb] at hx
          rw [k2]; exact w2 b hb x hx
      · have hm : g ∈ xs := by simpa [e] using hg
        have := i2 g hm
        unfold FeederRebalanced at this ⊢
        rw [zf g e] at this
        exact this
    · simp only [List.mem_cons, not_or] at hg
      obtain ⟨j1, j2, j3⟩ := i3 g hg.2
      refine ⟨j1.trans (zf g hg.1), j2.trans (zh g hg.1), fun b hb => ?_⟩
      rw [← zs g hg.1 b hb]
      exact j3 b (by rw [zf g hg.1]; exact hb)
    · rw [i4]
      rw [← s1]
      cases e : a.session b with
      | none => rw [w.2.1 b (fun x hx => by rw [e] at hx; cases hx), e]
      | some x => obtain ⟨y, hy, _⟩ := w.2.2.1 b x e; rw [hy]; rfl
    · rw [w3] at i5; exact i5

end Sys2Proof.Machine
end

