-- ==== Sys2Proof/Tests/Slice0.lean ====
section
/-! SUPPORT. The author's own tests: the well-formedness smoke; small fixtures; for every statement with hypotheses a
state and operands that meet them together, clause by clause, at boundary values; and one step of each kind. -/

namespace Sys2Proof.Machine.Tests

-- One thread: a kernel evaluation that waits for the rest of a long file holds a thread of its own.
set_option Elab.async false


/-! ## Well-formedness: one ill-formed term for each check -/

theorem test_wf_kind_mismatch :
    Instr.wf (.bookBay .site { tag := 0, kind := 2, cls := 1, body := [] }) = false := by decide
theorem test_wf_unknown_kind_boundaries :
    Instr.wf (.unknownRequest .site { tag := 0, kind := 36, cls := 1, body := [] }) = false ∧
    Instr.wf (.unknownRequest .site { tag := 0, kind := 37, cls := 1, body := [] }) = true ∧
    Instr.wf (.unknownRequest .site { tag := 0, kind := 0, cls := 1, body := [] }) = true := by decide
theorem test_wf_body_too_long :
    Instr.wf (.identify .site { tag := 0, kind := 36, cls := 1, body := List.replicate 513 0 }) = false ∧
    Instr.wf (.identify .site { tag := 0, kind := 36, cls := 1, body := List.replicate 512 0 }) = true := by
  decide +kernel
theorem test_wf_ramp_class :
    Instr.wf (.cancel .ramp { tag := 0, kind := 5, cls := 2, body := [] }) = false := by decide
theorem test_wf_bad_transfer_is_no_write_nor_read :
    Instr.wf (.siteBadTransfer [1]) = false ∧ Instr.wf (.siteBadTransfer [2, 0]) = false ∧
    Instr.wf (.siteBadTransfer [3]) = true ∧ Instr.wf (.siteBadTransfer []) = true := by decide
theorem test_wf_ramp_frame_length :
    Instr.wf (.rampFrame [1, 5, 0, 0, 0]) = false ∧ Instr.wf (.rampFrame [1, 5, 0]) = false ∧
    Instr.wf (.rampFrame [1, 5, 0, 0, 0, 0]) = true ∧ Instr.wf (.rampFrame [1, 5, 2, 1]) = true ∧
    Instr.wf (.rampFrame [1, 5, 2, 1, 0]) = false := by decide
theorem test_wf_restart_scopes :
    Instr.wf (.restartLevel .site { tag := 0, kind := 32, cls := 3, body := [2] }) = false ∧
    Instr.wf (.restartAllocation .site { tag := 0, kind := 32, cls := 3, body := [1] }) = false := by decide
theorem test_wf_session_draw :
    Instr.wf (.sessionRequest 0 5) = false ∧ Instr.wf (.sessionRequest 0 6) = true ∧
    Instr.wf (.sessionRequest 0 80) = true ∧ Instr.wf (.sessionRequest 0 81) = false := by decide
theorem test_wf_removal_ticket :
    Instr.wf (.removeRecordEntry { slot := 640, gen := 0 }) = false ∧
    Instr.wf (.removeRecordEntry { slot := 0, gen := 64 }) = false ∧
    Instr.wf (.removeRecordEntry { slot := 639, gen := 63 }) = true := by decide

/-! ## Fixtures -/

/-- A request with tag 5AH. -/
def req (k : Nat) (c : Class) (body : List Byte) : Request :=
  { tag := 0x5A#8, kind := BitVec.ofNat 8 k, cls := BitVec.ofNat 8 c.code, body }

/-- The machine with these blocks and that request waiting at the site port, its turn the next. -/
def ask (k : Nat) (c : Class) (body : List Byte) (p : Blocks) : State :=
  { State.reset with blocks := p, site := { SitePort.powerOn with slot := some { request := req k c body, served := false } } }

/-- The same at the ramp port. -/
def askRamp (k : Nat) (body : List Byte) (p : Blocks) : State :=
  { State.reset with blocks := p, ramp := { RampPort.powerOn with slot := some { request := req k .pub body, served := false } } }

/-- The machine with these blocks and nothing at the ports. -/
def idle (p : Blocks) : State := { State.reset with blocks := p }

theorem test_ask_serves (k : Nat) (hk : k < 256) (c : Class) (body : List Byte) (p : Blocks) :
    (ask k c body p).Serves k .site c (req k c body) := by
  refine ⟨?_, ?_, ?_⟩
  · simp [State.turnDue, State.nextTurn, ask, State.reset, rotation, State.sourceWaits, State.waitingAt, unserved, sourceOf]
  · simp [req, Nat.mod_eq_of_lt hk]
  · cases c <;> rfl

theorem test_askRamp_serves (k : Nat) (hk : k < 256) (body : List Byte) (p : Blocks) :
    (askRamp k body p).Serves k .ramp .pub (req k .pub body) := by
  refine ⟨?_, ?_, rfl⟩
  · simp [State.turnDue, State.nextTurn, askRamp, State.reset, rotation, State.sourceWaits, State.waitingAt, unserved,
      sourceOf, SitePort.powerOn]
  · simp [req, Nat.mod_eq_of_lt hk]

/-- A bay in service with no vehicle. -/
def vacant : Bay := { Bay.powerOn with state := .vacant, sign := .free }

/-- A bay with a vehicle that has claimed nothing. -/
def unclaimed (window : Nat) : Bay :=
  { Bay.powerOn with state := .unclaimed, presence := true, window, origin := some .vacant, sign := .inUse }

/-- A bay that serves. -/
def serving : Bay := { Bay.powerOn with state := .serving, presence := true, sign := .inUse }

/-- The level open at minute 100 in MAINS with 100 A on F0; module 0 ONLINE; bays 0 and 1 VACANT; for PUBLIC zone 0 the
bays 0 and 1 to book, zone 1 the bays 95 and beyond to view. -/
def base : Blocks :=
  { Blocks.powerOn true false false with
    clock := { minute := 100, isSet := true, phase := 0 }
    level := .opened
    zones := { ZoneMap.powerOn with
      descriptors := setAt (setAt ZoneMap.powerOn.descriptors 0
        { base := 0, length := 2, direction := .up, access := .book, used := false }) 1
        { base := 95, length := 2, direction := .up, access := .view, used := false } }
    bays := { BayUnit.powerOn with
      bays := setAt (setAt BayUnit.powerOn.bays 0 vacant) 1 vacant
      modules := setAt BayUnit.powerOn.modules 0 (.online 0) }
    alloc := { Allocator.powerOn with
      feeders := setAt Allocator.powerOn.feeders 0 { Feeder.powerOn with budget := 100 }, supply := .mains }
    supply := { SupplyUnit.powerOn true false false with state := .mains } }

/-- Bay `b` rewritten. -/
def withBay (b : BayNo) (x : Bay) (p : Blocks) : Blocks := p.setBay b x

/-- A record of token 7 and class PUBLIC, one hour at 20 A. -/
def car (st : RecState) (b : BayNo) (start : Nat) : Record :=
  { ticket := { slot := 0, gen := 0 }, token := 7, bay := b, originClass := .pub, originZone := .zone 0, originPort := .site
    accessible := false, start, length := 60, grace := 15, draw := 20, state := st, moves := 0, relocPending := false
    outcome := none, cause := none, arrival := none, departure := none, dwell := none, overstay := none }

/-- The record created in the book. -/
def withCar (x : Record) (p : Blocks) : Blocks := p.withBook (((p.book.create x).map (·.1)).getD p.book)

/-- The body that names ticket (0, 0) and token 7. -/
def named : List Byte := be 2 0 ++ be 1 0 ++ be 8 7

/-- The body that names ticket (0, 0) with its token left out. -/
def bare : List Byte := be 2 0 ++ be 1 0 ++ be 8 0

theorem test_base_book_sound : base.book.Sound := powerOn_bookSound

theorem test_withCar_sound (p : Blocks) (h : p.book.Sound) (st : RecState) (hs : st ≠ .settled) (b : BayNo) (m : Nat) :
    (withCar (car st b m) p).book.Sound := by
  cases hc : p.book.create (car st b m) with
  | none => simpa [withCar, hc] using h
  | some kr =>
    have := Book.Sound.create h (r := car st b m) hs rfl hc
    simpa [withCar, hc] using this

/-! ## Witnesses: the machine and the ports

Premises that only give a name to an expression are met by that expression and are left out here. -/

/-- The level with minute phase `ph` and the silence count of module 0 at `n`. -/
def ticking (ph n : Nat) : State :=
  idle { base with
    clock := { base.clock with phase := ph }
    bays := { base.bays with modules := setAt base.bays.modules 0 (.online n) } }

theorem test_hyps_empty_queue (ph n : Nat) (hn : n ≤ 163838) :
    (ticking ph n).pending = [] ∧ (ticking ph n).resetLow = false ∧
    (∀ (k : ModuleNo) (m : Nat), (ticking ph n).blocks.moduleState k = .online m → m + 1 < Config.silencePeriods) ∧
    (ph = 1966078 → (ticking ph n).blocks.clock.phase + 1 < Config.minutePeriods) ∧
    (ph = 1966079 → Config.minutePeriods ≤ (ticking ph n).blocks.clock.phase + 1) := by
  refine ⟨rfl, rfl, fun k m h => ?_, ?_, ?_⟩
  · have h' : (setAt (setAt BayUnit.powerOn.modules 0 (.online 0)) 0 (.online n))[k] = .online m := h
    by_cases hk : k = 0
    · subst hk
      have : (ModuleState.online n) = .online m := by simpa [setAt] using h'
      cases this; unfold Config.silencePeriods; omega
    · have hk' : (0 : Nat) ≠ k.val := fun e => hk (Fin.ext e.symm)
      simp [setAt, BayUnit.powerOn, hk'] at h'
  · rintro rfl; show 1966078 + 1 < _; decide
  · rintro rfl; show _ ≤ 1966079 + 1; decide

/-- A count in its last period. -/
theorem test_hyps_silence_expires (ph : Nat) :
    (ticking ph 163839).pending = [] ∧ (ticking ph 163839).resetLow = false ∧
    (ticking ph 163839).blocks.moduleState 0 = .online 163839 ∧ ¬163839 + 1 < Config.silencePeriods := by
  refine ⟨rfl, rfl, ?_, by decide⟩
  show (setAt (setAt BayUnit.powerOn.modules 0 (.online 0)) 0 (.online 163839))[(0 : ModuleNo)] = _
  simp [setAt]

theorem test_hyps_reset_line :
    { State.reset with resetLow := true }.ResetHeld ∧ Instr.modulePoll ≠ .powerOnReset ∧
    ∀ m d a, Instr.modulePoll ≠ .resetRelease m d a := ⟨fun _ => ⟨rfl, rfl, rfl, rfl⟩, by decide, by simp⟩

/-- The frame of IDENTIFY as it follows 0x01 at the site port; its bytes are those of R159 and R171 written out. -/
def identifyFrame : List Byte :=
  [0x5A#8, 36#8, 1#8, 0#8, 0#8] ++ be 2 (crc16 [0x5A#8, 36#8, 1#8, 0#8, 0#8]).toNat

/-- The same request's frame at the ramp port. -/
def rampIdentify : List Byte := [0x5A#8, 36#8, 0#8, 0#8] ++ be 2 (crc16 [0x5A#8, 36#8, 0#8, 0#8]).toNat

theorem test_hyps_booking_bodies :
    Booking.inRange { token := 1, start := 0, length := 15, grace := none, draw := 6, accessible := false } = true ∧
    Booking.inRange
      { token := 1, start := 4294967295, length := 720, grace := some 60, draw := 80, accessible := true } = true ∧
    Booking.inRange { token := 0, start := 0, length := 15, grace := none, draw := 6, accessible := false } = false := by
  decide +kernel

/-- A ticket and token by their bytes at the ends of their ranges, a token left out, and the least and greatest extension. -/
theorem test_hyps_named_bodies :
    ticketFields .pub [0x02#8, 0x7F#8, 0x3F#8, 0#8, 0#8, 0#8, 0#8, 0#8, 0#8, 0#8, 1#8] = some ({ slot := 639, gen := 63 }, 1) ∧
    (Class.operator = .operator ∨ (0 : Token) ≠ 0) ∧ ¬(Class.pub = .operator ∨ (0 : Token) ≠ 0) ∧
    ticketFields .pub bare = none ∧ ticketFields .operator bare = some ({ slot := 0, gen := 0 }, 0) ∧
    extendFields .pub (named ++ [0#8, 5#8]) = some ({ slot := 0, gen := 0 }, 7, 5) ∧
    extendFields .pub (named ++ [0#8, 240#8]) = some ({ slot := 0, gen := 0 }, 7, 240) ∧ 240 % 5 = 0 ∧
    endSessionFields bare = some { slot := 0, gen := 0 } ∧
    listBayFields [7#8, 255#8] = some (.zone 7 255) ∧ listBayFields [255#8, 95#8] = some (.direct 95) := by decide +kernel

theorem test_hyps_site_write :
    parseSite identifyFrame = some (req 36 .pub []) ∧ parseSite (identifyFrame ++ [0]) = none ∧ parseSite [] = none ∧
    (idle base).resetLow = false ∧ (idle base).site.slot = none ∧ (ask 36 .pub [] base).site.slot ≠ none ∧
    [3#8].head? ≠ some 1#8 ∧ [3#8].head? ≠ some 2#8 := by decide +kernel

/-- A response to IDENTIFY with an empty body waits, READY high: its frame has 7 bytes. -/
def answered : State :=
  { idle base with site :=
    { slot := some { request := req 36 .pub [], served := true }
      response := some { tag := 0x5A#8, kind := 36#8, status := 0#8, body := [] }, ready := true, spiOut := [] } }

theorem test_hyps_site_read :
    (idle base).site.ready = false ∧ answered.resetLow = false ∧ answered.site.ready = true ∧
    answered.site.response = some { tag := 0x5A#8, kind := 36#8, status := 0#8, body := [] } ∧
    ∀ x ∈ answered.site.response, 6 < x.frame.length ∧ x.frame.length ≤ 7 := by decide +kernel

theorem test_hyps_ramp_port :
    parseRamp rampIdentify = some (req 36 .pub []) ∧ rampComplete rampIdentify = true ∧
    rampComplete [1, 5, 2, 1] = true ∧ parseRamp [1, 5, 2, 1] = none ∧ (askRamp 36 [] base).ramp.slot ≠ none ∧
    ({ idle base with ramp := { RampPort.powerOn with receiving := true } } : State).ramp.receiving = true ∧
    (({ idle base with ramp := { RampPort.powerOn with tx := some [0x7E#8] } } : State).ramp.tx ≠ none) := by decide +kernel

theorem test_hyps_arbiter :
    (ask 36 .pub [] base).lastServed = .relocation ∧ ({ idle base with lastServed := .site } : State).lastServed = .site ∧
    ({ idle base with lastServed := .ramp } : State).lastServed = .ramp := ⟨rfl, rfl, rfl⟩

theorem test_hyps_turn :
    Instr.wf (.identify .site (req 36 .pub [])) = true ∧
    Instr.request (.identify .site (req 36 .pub [])) = some (.site, req 36 .pub []) ∧
    (ask 36 .pub [] base).turnDue .site (req 36 .pub []) = true ∧
    (idle base).turnDue .site (req 36 .pub []) = false ∧
    Instr.wf (.cancel .ramp (req 5 .pub [])) = true ∧ (askRamp 5 [] base).turnDue .ramp (req 5 .pub []) = true := by
  decide +kernel

theorem test_hyps_class_denied :
    (Instr.wf (.endSession .site (req 10 .pub [])) = true ∧
      (ask 10 .pub [] base).turnDue .site (req 10 .pub []) = true ∧
      classAt .site (req 10 .pub []) = some .pub ∧ permitted 10 .site .pub = false) ∧
    (Instr.wf (.identify .ramp (req 36 .pub [])) = true ∧
      (askRamp 36 [] base).turnDue .ramp (req 36 .pub []) = true ∧ permitted 36 .ramp .pub = false) ∧
    classAt .site { tag := 0, kind := 1, cls := 0, body := [] } = none ∧
    classAt .site { tag := 0, kind := 1, cls := 4, body := [] } = none := by decide +kernel

theorem test_hyps_unknown_kind :
    (ask 0 .pub [] base).turnDue .site (req 0 .pub []) = true ∧ (req 0 .pub []).kind.toNat = 0 ∧
    (askRamp 37 [] base).turnDue .ramp (req 37 .pub []) = true ∧ 36 < (req 37 .pub []).kind.toNat := by decide +kernel

theorem test_hyps_wrong_length :
    ((ask 1 .pub [] base).Serves 1 .site .pub (req 1 .pub []) ∧ permitted 1 .site .pub = true ∧
      Instr.wf (.bookBay .site (req 1 .pub [])) = true ∧ (req 1 .pub []).body.length ≠ bodyLength 1 ∧
      base.level = .opened) ∧
    ((ask 29 .operator [] (Blocks.powerOn true false false)).Serves 29 .site .operator (req 29 .operator []) ∧
      permitted 29 .site .operator = true ∧ Instr.wf (.setClock .site (req 29 .operator [])) = true ∧
      (req 29 .operator []).body.length ≠ bodyLength 29) ∧
    ((ask 36 .pub [0] base).Serves 36 .site .pub (req 36 .pub [0]) ∧ (req 36 .pub [0]).body.length ≠ bodyLength 36) :=
  ⟨⟨test_ask_serves _ (by decide) _ _ _, by decide +kernel⟩, ⟨test_ask_serves _ (by decide) _ _ _, by decide +kernel⟩,
    test_ask_serves _ (by decide) _ _ _, by decide +kernel⟩

/-- Bodies of the right length with one field just out of its range, and the premises that depend on the kind: BOOK BAY
with token zero and with DIRECT to bay 96, LIST BAY of zone 8, EXTEND by 245, READ BAY 96, RESTART with scope 3. -/
theorem test_hyps_field_out_of_range :
    (∀ off n : Nat, field (be 1 96) off n = beNat (((be 1 96).drop off).take n)) ∧
    ((ask 1 .operator (be 8 7 ++ be 1 255 ++ be 1 96 ++ be 12 0) base).Serves 1 .site .operator
        (req 1 .operator (be 8 7 ++ be 1 255 ++ be 1 96 ++ be 12 0)) ∧
      (be 8 7 ++ be 1 255 ++ be 1 96 ++ be 12 0).length = bodyLength 1 ∧
      fieldOutOfRange 1 .operator (field (be 8 7 ++ be 1 255 ++ be 1 96 ++ be 12 0))) ∧
    ((be 8 0 ++ be 14 0).length = bodyLength 1 ∧ fieldOutOfRange 1 .pub (field (be 8 0 ++ be 14 0)) ∧
      field (be 8 0 ++ be 14 0) 8 1 ≠ 255) ∧
    ((be 1 8 ++ be 1 0).length = bodyLength 9 ∧ fieldOutOfRange 9 .pub (field (be 1 8 ++ be 1 0)) ∧
      field (be 1 8 ++ be 1 0) 0 1 ≠ 255) ∧
    ((named ++ be 2 245).length = bodyLength 4 ∧ fieldOutOfRange 4 .pub (field (named ++ be 2 245)) ∧
      ¬fieldOutOfRange 4 .pub (field (named ++ be 2 240)) ∧ fieldOutOfRange 4 .pub (field (bare ++ be 2 240)) ∧
      ¬fieldOutOfRange 4 .operator (field (bare ++ be 2 240))) ∧
    ((ask 21 .operator (be 1 96) base).Serves 21 .site .operator (req 21 .operator (be 1 96)) ∧
      Instr.wf (.readBay .site (req 21 .operator (be 1 96))) = true ∧ (be 1 96).length = bodyLength 21 ∧
      fieldOutOfRange 21 .operator (field (be 1 96)) ∧ ¬fieldOutOfRange 21 .operator (field (be 1 95))) ∧
    (Instr.wf (.restartLevel .site (req 32 .operator [3])) = true ∧ fieldOutOfRange 32 .operator (field [3])) ∧
    (∀ v : Nat, v = 65535 → v < 256 ^ 2) := by
  refine ⟨fun _ _ => rfl, ⟨test_ask_serves _ (by decide) _ _ _, ?_⟩, ?_, ?_, ?_,
    ⟨test_ask_serves _ (by decide) _ _ _, ?_⟩, ?_, by omega⟩ <;>
    (simp only [fieldOutOfRange, badBayRef, badOption, badLength, badDraw, noCode]; decide +kernel)

/-! ## Witnesses: tickets and bookings -/

theorem test_hyps_ticket_cases :
    let k := (withCar (car .held 0 90) base).book
    k.gens[(0 : Slot)] = 0 ∧ k.rec? 0 = some (car .held 0 90) ∧ k.rec? 639 = none ∧ (car .held 0 90).token = 7 ∧
    k.resolve .pub { slot := 640, gen := 0 } 7 = .error .noSuchTicket ∧
    k.resolve .pub { slot := 0, gen := 1 } 7 = .error .staleTicket ∧
    k.resolve .operator { slot := 639, gen := 0 } 0 = .error .noSuchTicket ∧
    k.resolve .fleet { slot := 0, gen := 0 } 8 = .error .noSuchTicket ∧
    k.resolve .pub { slot := 0, gen := 0 } 7 = .ok (0, car .held 0 90) ∧
    k.resolve .operator { slot := 0, gen := 0 } 0 = .ok (0, car .held 0 90) := by decide +kernel

theorem test_hyps_unresolved :
    (ask 5 .pub named base).Serves 5 .site .pub (req 5 .pub named) ∧
    (askRamp 6 named base).Serves 6 .ramp .pub (req 6 .pub named) ∧
    (ask 7 .pub named base).Serves 7 .site .pub (req 7 .pub named) ∧
    (ask 11 .fleet named base).Serves 11 .site .fleet (req 11 .fleet named) ∧ permitted 11 .site .fleet = true ∧
    ticketFields .pub named = some ({ slot := 0, gen := 0 }, 7) ∧
    base.book.resolve .pub { slot := 0, gen := 0 } 7 = .error .noSuchTicket ∧
    base.book.resolve .fleet { slot := 0, gen := 0 } 7 = .error .noSuchTicket ∧
    (ask 4 .pub (named ++ be 2 5) base).Serves 4 .site .pub (req 4 .pub (named ++ be 2 5)) ∧
    extendFields .pub (named ++ be 2 5) = some ({ slot := 0, gen := 0 }, 7, 5) ∧
    (ask 10 .operator bare base).Serves 10 .site .operator (req 10 .operator bare) ∧
    permitted 10 .site .operator = true ∧ endSessionFields bare = some { slot := 0, gen := 0 } :=
  ⟨test_ask_serves _ (by decide) _ _ _, test_askRamp_serves _ (by decide) _ _, test_ask_serves _ (by decide) _ _ _,
    test_ask_serves _ (by decide) _ _ _, by decide, by decide +kernel, by decide +kernel, by decide +kernel,
    test_ask_serves _ (by decide) _ _ _, by decide +kernel, test_ask_serves _ (by decide) _ _ _, by decide, by decide +kernel⟩

/-- A descriptor of 32 bays. -/
def run32 (base : BayNo) (direction : Direction) (access : Access) : Descriptor :=
  { base, length := 32, direction, access, used := false }

theorem test_hyps_translation :
    (run32 0 .up .closed).access = .closed ∧
    (run32 64 .up .book).translate Access.allowsBooking 31 = .ok 95 ∧
    (run32 65 .up .book).translate Access.allowsBooking 31 = .error .outOfZone ∧
    (run32 64 .up .book).translate Access.allowsBooking 32 = .error .outOfZone ∧
    (run32 31 .down .book).translate Access.allowsBooking 31 = .ok 0 ∧
    (run32 30 .down .book).translate Access.allowsBooking 31 = .error .outOfZone ∧
    (run32 0 .up .view).translate Access.allowsBooking 0 = .error .readOnly ∧
    [car .booked 0 100, car .booked 0 170].Pairwise fun x y => x.start + x.length + 10 ≤ y.start := by decide +kernel

/-- Bodies of the three booking requests of token 7, one hour at 20 A. -/
def bayBody (zone sel start : Nat) : List Byte :=
  be 8 7 ++ be 1 zone ++ be 1 sel ++ be 4 start ++ be 2 60 ++ optNum 2 none ++ be 2 20 ++ flag false
def zoneBody (zone start : Nat) (accessible : Bool) : List Byte :=
  be 8 7 ++ be 1 zone ++ be 4 start ++ be 2 60 ++ optNum 2 none ++ be 2 20 ++ flag accessible
def nowBody (zone sel : Nat) : List Byte := be 8 7 ++ be 1 zone ++ be 1 sel ++ be 2 60 ++ be 2 20 ++ flag false

/-- The booking those bodies carry. -/
def booking (start : Nat) (accessible : Bool) : Booking :=
  { token := 7, start, length := 60, grace := none, draw := 20, accessible }

theorem test_hyps_zone_fault :
    (ask 1 .pub (bayBody 1 0 105) base).Serves 1 .site .pub (req 1 .pub (bayBody 1 0 105)) ∧
    (ask 3 .pub (nowBody 1 1) base).Serves 3 .site .pub (req 3 .pub (nowBody 1 1)) ∧
    (ask 9 .pub [2, 0] base).Serves 9 .site .pub (req 9 .pub [2, 0]) ∧
    (ask 2 .pub (zoneBody 1 105 false) base).Serves 2 .site .pub (req 2 .pub (zoneBody 1 105 false)) ∧
    base.level = .opened ∧ bookBayFields (bayBody 1 0 105) = some (.zone 1 0, booking 105 false) ∧
    (base.zones.descriptor .pub 1).translate Access.allowsBooking 0 = .error .readOnly ∧
    bookNowFields base.now (nowBody 1 1) = some (.zone 1 1, booking 100 false) ∧
    (base.zones.descriptor .pub 1).translate Access.allowsBooking 1 = .error .outOfZone ∧
    listBayFields [2, 0] = some (.zone 2 0) ∧
    (base.zones.descriptor .pub 2).translate Access.allowsList 0 = .error .notMapped ∧
    bookZoneFields (zoneBody 1 105 false) = some (1, booking 105 false) ∧ (base.zones.descriptor .pub 1).access = .view ∧
    bookZoneFields (zoneBody 2 105 false) = some (2, booking 105 false) ∧ (base.zones.descriptor .pub 2).access = .closed :=
  ⟨test_ask_serves _ (by decide) _ _ _, test_ask_serves _ (by decide) _ _ _, test_ask_serves _ (by decide) _ _ _,
    test_ask_serves _ (by decide) _ _ _, by decide +kernel⟩

theorem test_hyps_refusals_direct_level_fields :
    (ask 1 .fleet (bayBody 255 0 105) base).Serves 1 .site .fleet (req 1 .fleet (bayBody 255 0 105)) ∧
    (bayBody 255 0 105).length = 22 ∧ field (bayBody 255 0 105) 8 1 = 255 ∧
    (ask 3 .pub (nowBody 255 95) base).Serves 3 .site .pub (req 3 .pub (nowBody 255 95)) ∧
    (nowBody 255 95).length = 15 ∧ field (nowBody 255 95) 8 1 = 255 ∧
    (Blocks.powerOn true false false).level = .configuring ∧ field (bayBody 0 0 105) 8 1 ≠ 255 ∧
    bookBayFields (bayBody 8 0 105) = none ∧ bookBayFields (bayBody 0 0 101) = none ∧
    bookNowFields 100 (nowBody 8 0) = none ∧ bookZoneFields (zoneBody 255 105 false) = none :=
  ⟨test_ask_serves _ (by decide) _ _ _, by decide +kernel, by decide +kernel, test_ask_serves _ (by decide) _ _ _,
    by decide +kernel⟩

theorem test_hyps_refusals_later :
    bookBayFields (bayBody 0 0 95) = some (.zone 0 0, booking 95 false) ∧
    resolveBay base .pub Access.allowsBooking (.zone 0 0) = .ok 0 ∧
    base.bayRefusal .pub 0 (booking 95 false) = some .tooLate ∧
    base.bayRefusal .pub 0 (booking 10185 false) = some .tooFar ∧
    resolveBay base .operator Access.allowsBooking (.direct 2) = .ok 2 ∧
    base.nowRefusal .operator 2 (booking 100 false) = some .bayUnavailable ∧
    (withBay 0 serving base).nowRefusal .pub 0 (booking 100 false) = some .bayOccupied ∧
    (base.zones.descriptor .pub 0).access = .book ∧ base.startRefusal (booking 95 false) = some .tooLate ∧
    base.startRefusal (booking 105 true) = none ∧
    (∀ b ∈ (base.zones.descriptor .pub 0).run, fits .pub true (base.bay b).config.cls = false) := by decide +kernel

theorem test_hyps_book_bay :
    (ask 1 .pub (bayBody 0 0 115) base).Serves 1 .site .pub (req 1 .pub (bayBody 0 0 115)) ∧
    (askRamp 1 (bayBody 0 1 120) base).Serves 1 .ramp .pub (req 1 .pub (bayBody 0 1 120)) ∧
    base.level = .opened ∧ bookBayFields (bayBody 0 0 115) = some (.zone 0 0, booking 115 false) ∧
    bookBayFields (bayBody 0 1 120) = some (.zone 0 1, booking 120 false) ∧
    bookBayFields (bayBody 255 1 10180) = some (.direct 1, booking 10180 false) ∧
    resolveBay base .pub Access.allowsBooking (.zone 0 1) = .ok 1 ∧ base.bayRefusal .pub 0 (booking 115 false) = none ∧
    base.bayRefusal .pub 1 (booking 120 false) = none ∧ base.bayRefusal .operator 1 (booking 10180 false) = none :=
  ⟨test_ask_serves _ (by decide) _ _ _, test_askRamp_serves _ (by decide) _ _, by decide +kernel⟩

theorem test_hyps_book_zone :
    let p := withBay 0 Bay.powerOn base
    (ask 2 .pub (zoneBody 0 105 false) p).Serves 2 .site .pub (req 2 .pub (zoneBody 0 105 false)) ∧
    p.level = .opened ∧ bookZoneFields (zoneBody 0 105 false) = some (0, booking 105 false) ∧
    (p.zones.descriptor .pub 0).access = .book ∧ p.startRefusal (booking 105 false) = none ∧
    (p.zones.descriptor .pub 0).run = [0] ++ 1 :: [] ∧ p.available 0 = false ∧ p.available 1 = true ∧
    fits .pub false (p.bay 1).config.cls = true ∧ p.timelineRefusal 1 (booking 105 false) = none :=
  ⟨test_ask_serves _ (by decide) _ _ _, by decide +kernel⟩

theorem test_hyps_book_now :
    let p := withBay 1 (unclaimed 5) base
    (ask 3 .pub (nowBody 0 0) p).Serves 3 .site .pub (req 3 .pub (nowBody 0 0)) ∧ p.level = .opened ∧
    bookNowFields p.now (nowBody 0 0) = some (.zone 0 0, booking 100 false) ∧
    resolveBay p .pub Access.allowsBooking (.zone 0 0) = .ok 0 ∧ p.nowRefusal .pub 0 (booking 100 false) = none ∧
    (p.bay 0).state = .vacant ∧ (ask 3 .pub (nowBody 0 1) p).Serves 3 .site .pub (req 3 .pub (nowBody 0 1)) ∧
    resolveBay p .pub Access.allowsBooking (.zone 0 1) = .ok 1 ∧ p.nowRefusal .pub 1 (booking 100 false) = none ∧
    (p.bay 1).state = .unclaimed :=
  ⟨test_ask_serves _ (by decide) _ _ _, by decide +kernel, by decide +kernel, by decide +kernel, by decide +kernel,
    by decide +kernel, test_ask_serves _ (by decide) _ _ _, by decide +kernel⟩

/-! ## Witnesses: requests on records -/

/-- A record of token 7 stands in slot 0 and is named. -/
theorem test_hyps_resolved :
    ∀ st ∈ [RecState.booked, .held, .session, .parked, .overstay],
      (withCar (car st 0 90) base).book.resolve .pub { slot := 0, gen := 0 } 7 = .ok (0, car st 0 90) ∧
      (withCar (car st 0 90) base).book.resolve .operator { slot := 0, gen := 0 } 0 = .ok (0, car st 0 90) := by
  decide +kernel

theorem test_hyps_extend :
    let body := named ++ be 2 5
    let two := fun (b : BayNo) (start : Nat) => withCar (car .booked b start) (withCar (car .held 0 90) base)
    (∀ p : Blocks, (ask 4 .pub body p).Serves 4 .site .pub (req 4 .pub body)) ∧
    extendFields .pub body = some ({ slot := 0, gen := 0 }, 7, 5) ∧ (car .overstay 0 90).state = .overstay ∧
    720 < ({ car .held 0 90 with length := 720 } : Record).length + 5 ∧
    (two 0 160).book.resolve .pub { slot := 0, gen := 0 } 7 = .ok (0, car .held 0 90) ∧
    ((((two 0 160).book.timeline 0).filter fun y => decide (90 < y.start)).head?.any fun y => y.start < 90 + 60 + 5 + 10) ∧
    (((two 1 150).book.tokenSlots 7).filter fun y => y != 0).length = 1 ∧
    ((((two 1 150).book.tokenSlots 7).filter fun y => y != 0).filterMap (two 1 150).book.rec?).any
      (fun y => 90 < y.start + y.length && y.start < 90 + 60 + 5) ∧
    ((two 1 155).book.timeline 0).filter (fun y => decide (90 < y.start)) = [] :=
  ⟨fun _ => test_ask_serves _ (by decide) _ _ _, by decide +kernel⟩

theorem test_hyps_cancel_and_end (p : Blocks) :
    (ask 5 .pub named p).Serves 5 .site .pub (req 5 .pub named) ∧
    (askRamp 5 named p).Serves 5 .ramp .pub (req 5 .pub named) ∧
    ticketFields .pub named = some ({ slot := 0, gen := 0 }, 7) ∧
    (ask 10 .operator bare p).Serves 10 .site .operator (req 10 .operator bare) ∧
    endSessionFields bare = some { slot := 0, gen := 0 } :=
  ⟨test_ask_serves _ (by decide) _ _ _, test_askRamp_serves _ (by decide) _ _, by decide +kernel,
    test_ask_serves _ (by decide) _ _ _, by decide +kernel⟩

theorem test_hyps_claim :
    (∀ p : Blocks, (askRamp 6 named p).Serves 6 .ramp .pub (req 6 .pub named)) ∧
    ticketFields .pub named = some ({ slot := 0, gen := 0 }, 7) ∧ (car .booked 0 90).state = .booked ∧
    (car .session 0 90).state ≠ .held ∧ (base.bay 0).presence = false ∧
    ((withBay 0 serving base).bay 0).state = .serving ∧ ((withBay 0 serving base).bay 0).presence = true ∧
    ((withBay 0 { unclaimed 5 with action := .close } base).bay 0).action = .close ∧
    ((withBay 0 (unclaimed 5) base).bay 0).presence = true ∧ ((withBay 0 (unclaimed 5) base).bay 0).action ≠ .close :=
  ⟨fun _ => test_askRamp_serves _ (by decide) _ _, by decide +kernel⟩

theorem test_hyps_collect :
    let p := (withCar (car .held 0 90) base).settle false 0 .cancelled none
    (∀ (c : Class) (q : Blocks), (ask 11 c named q).Serves 11 .site c (req 11 c named)) ∧
    ticketFields .fleet named = some ({ slot := 0, gen := 0 }, 7) ∧
    p.book.resolve .fleet { slot := 0, gen := 0 } 7 =
      .ok (0, { car .settled 0 90 with outcome := some .cancelled }) ∧
    (car .settled 0 90).originClass ≠ .fleet ∧
    p.book.resolve .operator { slot := 0, gen := 0 } 7 =
      .ok (0, { car .settled 0 90 with outcome := some .cancelled }) ∧ p.book.gens[(0 : Slot)] = 0 :=
  ⟨fun _ _ => test_ask_serves _ (by decide) _ _ _, by decide +kernel⟩

theorem test_withCar_tokensSound (p : Blocks) (h : p.TokensSound) (st : RecState) (hs : st ≠ .settled) (b : BayNo)
    (m : Nat) (room : p.book.tokenHasRoom 7 = true) (free : p.book.tokenIsFree 7 m 60 = true) :
    (withCar (car st b m) p).TokensSound := by
  cases hc : p.book.create (car st b m) with
  | none =>
    have e : withCar (car st b m) p = p := by simp [withCar, hc, Blocks.withBook]
    rw [e]; exact h
  | some kr =>
    have e : (withCar (car st b m) p).book = kr.1 := by simp [withCar, hc]
    have hx := Book.IndexSound.create h.1 h.2.1 h.2.2 (r := car st b m) hs hc room free (by decide : 0 < 60)
    obtain ⟨sl, _, _, er, _, _, _, _, rd, _⟩ := Book.create_spec hc
    refine ⟨test_withCar_sound p h.1 st hs b m, by rw [e]; exact hx, fun x r hr => ?_⟩
    rw [e, rd x] at hr
    split at hr
    · cases hr; rw [er]; exact (by decide : 0 < 60)
    · exact h.2.2 x r hr

theorem test_hyps_find_token :
    (withCar (car .held 0 90) base).TokensSound ∧
    (∀ (body : List Byte) (p : Blocks), (ask 8 .pub body p).Serves 8 .site .pub (req 8 .pub body)) ∧
    beNat (be 8 0) = 0 ∧ (be 8 (7 : Token).toNat).length = 8 ∧ (7 : Token) ≠ 0 :=
  ⟨test_withCar_tokensSound base (powerOn_tokensSound true false false) _ (by decide) _ _ (by decide +kernel)
      (by decide +kernel),
    fun _ _ => test_ask_serves _ (by decide) _ _ _, by decide, by decide, by decide⟩

/-! ## Witnesses: zones, bays, feeders -/

theorem test_hyps_zone_requests (p : Blocks) :
    (∀ (k : Nat) (_ : k < 256) (body : List Byte), (ask k .operator body p).Serves k .site .operator (req k .operator body)) ∧
    (run32 95 .down .view).used = false ∧ 1 ≤ (run32 95 .down .view).length ∧ (run32 95 .down .view).length ≤ 32 ∧
    (base.zones.descriptor .pub 0).length = 2 := ⟨fun _ hk _ => test_ask_serves _ hk _ _ _, by decide +kernel⟩

/-- Curtailment group C1 at CLEAR, bay 2 closed by it, and with that the copies of its action. -/
def closed2 : Bay :=
  { Bay.powerOn with
    config := { BayConfig.powerOn with groups := #v[true, false, false], clear := .close }, action := .close }
def closedBay : Blocks :=
  { base with
    bays := { base.bays with bays := setAt base.bays.bays 2 closed2 }
    alloc := { base.alloc with actions := setAt base.alloc.actions 2 .close }
    supply := { base.supply with actions := setAt base.supply.actions 2 .close, sites := #v[.clear, .normal, .normal] } }

theorem test_base_bays_sound : base.BaysSound ∧ closedBay.BaysSound := by
  unfold Blocks.BaysSound Bay.Sound
  decide +kernel

theorem test_base_actions :
    base.ActionCopies ∧ base.ActionsFollowGroups ∧ closedBay.ActionCopies ∧ closedBay.ActionsFollowGroups := by
  unfold Blocks.ActionCopies Blocks.ActionsFollowGroups
  decide +kernel

/-- CONFIGURE BAY of a bay on F3 with 80 A at most, in group C1, and the action that CLEAR maps to. -/
def configureBody (b : Nat) (clear : Nat) : List Byte := [BitVec.ofNat 8 b, 3, 1, 0, 80, 1, 1, BitVec.ofNat 8 clear, 1, 0]

/-- The configuration it carries. -/
def configured (clear : Action) : BayConfig :=
  { feeder := 3, cls := .standard, maxDraw := 80, groups := #v[true, false, false], quiet := .continue, clear
    autocut := true, rejoin := false }

theorem test_hyps_configure :
    configureFields (configureBody 0 4) = some (0, configured .close) ∧
    configureFields (configureBody 3 4) = some (3, configured .close) ∧
    configureFields (configureBody 2 1) = some (2, configured .continue) ∧
    (closedBay.bay 0).state ≠ .disabled ∧ (closedBay.bay 3).state = .disabled ∧ (closedBay.bay 2).state = .disabled ∧
    closedBay.supply.actionFor (configured .close) = .close ∧ (closedBay.bay 3).action ≠ .close ∧
    closedBay.supply.actionFor (configured .continue) = .continue ∧ (closedBay.bay 2).action = .close ∧
    closedBay.supply.actionFor (configured .close) = (closedBay.bay 2).action ∧ closedBay.alloc.session 2 = none := by
  decide +kernel

theorem test_hyps_enable_and_clear :
    let p := withBay 0 { Bay.powerOn with state := .faulted, faultCause := some .postFault, sticky := true } base
    ((p.withReloc [.bay 3 .closed]).bayEntry 3).isSome = true ∧ (p.bayEntry 2).isSome = false ∧
    (p.bay 1).state ≠ .disabled ∧ (p.bay 2).state = .disabled ∧ p.moduleState (moduleOf 8) = .offline ∧
    p.moduleState (moduleOf 7) ≠ .offline ∧ (p.bay 2).faultLine = false ∧ (p.bay 0).state = .faulted := by decide +kernel

/-- A vehicle served in bay 0, and a booking of bay 1. -/
def busy : Blocks := withBay 0 serving (withCar (car .session 0 90) base)
def busier : Blocks := withCar (car .booked 1 200) busy

theorem test_withBay_book (b : BayNo) (x : Bay) (p : Blocks) : (withBay b x p).book = p.book := rfl

theorem test_busy_sound : busy.book.Sound ∧ busier.book.Sound := by
  have h : busy.book.Sound := by
    rw [busy, test_withBay_book]
    exact test_withCar_sound _ test_base_book_sound _ (by decide) _ _
  exact ⟨h, test_withCar_sound _ h _ (by decide) _ _⟩

theorem test_hyps_disable :
    (∀ p : Blocks, (ask 19 .operator [0] p).Serves 19 .site .operator (req 19 .operator [0])) ∧
    (busy.bay 2).state = .disabled ∧ (busy.bay 0).state ≠ .disabled ∧ busy.book.servingOn 0 = some 0 ∧
    (busy.bay 1).state ≠ .disabled ∧ busy.book.servingOn 1 = none ∧ busy.book.pendingOn 1 = [] ∧
    busier.book.pendingOn 1 = [1] := ⟨fun _ => test_ask_serves _ (by decide) _ _ _, by decide +kernel⟩

theorem test_hyps_readers :
    beNat [2#8, 0x7F#8] = 639 ∧ beNat [2#8, 0x80#8] = 640 ∧ listBayFields [0, 1] = some (.zone 0 1) ∧
    listBayFields [255, 95] = some (.direct 95) ∧
    resolveBay base .pub Access.allowsList (.zone 0 1) = .ok 1 ∧
    resolveBay base .pub Access.allowsList (.zone 1 0) = .ok 95 ∧
    resolveBay base .operator Access.allowsList (.direct 95) = .ok 95 := by decide +kernel

/-- A session with its request taken, one with its request on its way, a record not in SESSION; an access fault record
empty and full; a first slot that hides no settled record, and one beyond it. -/
theorem test_hyps_reports :
    (car .session 0 90).state = .session ∧ busy.mail.toAlloc = [] ∧
    .sessionRequest 0 20 ∈ ({ busy.mail with toAlloc := [.sessionRequest 0 20] } : Mail).toAlloc ∧
    (car .booked 1 200).state ≠ .session ∧ base.zones.captured = none ∧
    ((withCar (car .held 0 90) base).settle false 0 .cancelled none).book.settled = [0] ∧
    (0 ≤ (0 : Slot).val ∧ ¬1 ≤ (0 : Slot).val) := by decide +kernel

/-- A session of bay `b` on F0 that draws 32 A, and the allocator that has placed sessions at the given bays under a
budget and a reserve ceiling of F0. -/
def session32 : Session := { feeder := 0, draw := 32, cap := 32, grant := 0, phase := .suspended }
def placed (supply : SupplyState) (budget reserve : Nat) (bs : List BayNo) : Allocator :=
  Allocator.rebuild
    { Allocator.powerOn with
      feeders := setAt Allocator.powerOn.feeders 0 { Feeder.powerOn with budget, reserve }
      sessions := bs.foldl (fun v b => setAt v b (some session32)) Allocator.powerOn.sessions
      supply } fun _ => BayConfig.powerOn

theorem test_placed_sound (x : SupplyState) (m n : Nat) (bs : List BayNo) : (placed x m n bs).Sound :=
  Allocator.rebuild_tame _ _

theorem test_placed :
    ((placed .mains 40 0 [0, 1, 2]).feeder 0).grants = [0, 1] ∧ ((placed .mains 40 0 [0, 1, 2]).feeder 0).queue = [2] ∧
    (placed .mains 40 0 [0, 1, 2]).grantOf 0 = 32 ∧ (placed .mains 40 0 [0, 1, 2]).grantOf 1 = 8 := by decide +kernel

/-- Reserve in force with F0 at 40 A of its reserve ceiling. -/
def reserve40 : Allocator := placed .reserve 100 40 [0, 1, 2]

theorem test_hyps_budget :
    reserve40.Sound ∧ (0 ≤ 1000 ∧ 1000 ≤ 1000) ∧
    ({ reserve40 with feeders := setAt reserve40.feeders 0 { reserve40.feeder 0 with reserve := 10 } } : Allocator).ceiling 0 <
      reserve40.granted 0 ∧
    reserve40.ceiling 0 <
      ({ reserve40 with feeders := setAt reserve40.feeders 0 { reserve40.feeder 0 with reserve := 60 } } : Allocator).ceiling 0 ∧
    reserve40.granted 3 ≤ reserve40.ceiling 3 ∧
    reserve40.granted 0 =
      ({ reserve40 with feeders := setAt reserve40.feeders 0 { reserve40.feeder 0 with reserve := 40 } } : Allocator).ceiling 0 :=
  ⟨test_placed_sound _ _ _ _, by decide +kernel⟩

/-! ## Witnesses: supply, level, notices -/

theorem test_hyps_levels_and_lines (p : Blocks) :
    (ask 25 .operator [1, 3] p).Serves 25 .site .operator (req 25 .operator [1, 3]) ∧
    [1#8, 3#8] = be 1 ((0 : GroupNo).val + 1) ++ be 1 GroupLevel.clear.code ∧
    [3#8, 1#8] = be 1 ((2 : GroupNo).val + 1) ++ be 1 GroupLevel.normal.code ∧ (idle p).resetLow = false :=
  ⟨test_ask_serves _ (by decide) _ _ _, by decide, by decide, rfl⟩

/-- Every row of R129's table at a session in the phase it speaks of: CHARGING, QUEUED or SUSPENDED under CONTINUE, and the
same with bay 0 at TRICKLE or STOP. -/
theorem test_hyps_curtailed :
    let a := placed .mains 40 0 [0, 1, 2]
    let h := placed .halt 40 0 [0]
    let at0 : Action → Allocator := fun x => { a with actions := setAt a.actions 0 x }
    a.ListsSound ∧ a.actions[(0 : BayNo)] = .continue ∧ a.actions[(2 : BayNo)] = .continue ∧
    ((a.session 0).map (·.phase) = some .charging ∧ (a.session 2).map (·.phase) = some .queued ∧ a.session 3 = none) ∧
    (h.session 0).map (·.phase) = some .suspended ∧
    ((at0 .trickle).actions[(0 : BayNo)] = .trickle ∧ ((at0 .trickle).session 0).map (·.phase) = some .charging) ∧
    (({ h with actions := setAt h.actions 0 .stop } : Allocator).actions[(0 : BayNo)] = .stop) :=
  ⟨(test_placed_sound _ _ _ _).1, by decide +kernel⟩

theorem test_hyps_recomputed :
    (placed .mains 40 0 [0, 1, 2]).ListsSound ∧
    ({ closedBay.supply with sites := #v[.normal, .normal, .normal] } : SupplyUnit).actionFor (closedBay.bay 2).config =
      .continue ∧ closedBay.supply.actions[(2 : BayNo)] = .close ∧
    ({ closedBay.supply with dr := true } : SupplyUnit).actionFor (closedBay.bay 2).config = .close ∧
    base.supply.actions[(2 : BayNo)] ≠ .close :=
  ⟨(test_placed_sound _ _ _ _).1, by decide +kernel⟩

theorem test_hyps_select_supply (p : Blocks) :
    (askRamp 26 [1] p).Serves 26 .ramp .pub (req 26 .pub [1]) ∧
    (ask 26 .fleet [1] p).Serves 26 .site .fleet (req 26 .fleet [1]) ∧
    (ask 26 .operator [3] p).Serves 26 .site .operator (req 26 .operator [3]) ∧
    (∀ t ∈ [Target.mains, .reserve, .halt], [0#8] ≠ [BitVec.ofNat 8 t.code] ∧ [4#8] ≠ [BitVec.ofNat 8 t.code]) ∧
    [3#8] = [BitVec.ofNat 8 Target.halt.code] ∧ base.supply.target = .mains :=
  ⟨test_askRamp_serves _ (by decide) _ _, test_ask_serves _ (by decide) _ _ _, test_ask_serves _ (by decide) _ _ _,
    by decide, by decide, rfl⟩

/-- The supply unit RETURNING with `n` boundaries to go, one boundary waiting. -/
def returning (n : Nat) : Blocks :=
  { base with
    supply := { base.supply with state := .returning, counter := n }
    alloc := { base.alloc with supply := .returning }, boundaries := { base.boundaries with supply := [101] } }

theorem test_hyps_supply_changes :
    (ask 27 .operator [] base).Serves 27 .site .operator (req 27 .operator []) ∧
    (base.supply.target = .mains ∧ base.supply.state = .mains) ∧
    ((returning 3).supply.target = .mains ∧ (returning 3).supply.state ≠ .mains) ∧
    (returning 2).boundaries.supply = 101 :: [] ∧ (returning 2).supply.mainsOk = true ∧
    1 < (returning 2).supply.counter ∧ (returning 1).supply.counter ≤ 1 ∧ base.supply.mainsOk = true ∧
    base.supply.state ≠ .returning ∧ base.supply.state = .mains ∧ (returning 1).supply.state = .returning ∧
    (Blocks.powerOn true false false).supply.state = .halt :=
  ⟨test_ask_serves _ (by decide) _ _ _, by decide +kernel⟩

/-- The four cases of a change at the allocator: into HALT, out of it with a session to place, between two others with a
ceiling that rises and one that falls below the granted total, between RETURNING and RESERVE. -/
theorem test_hyps_supply_at_the_allocator :
    let m := placed .mains 60 20 [0, 1, 2]
    let r := placed .reserve 60 20 [0, 1, 2]
    (m.Sound ∧ r.Sound) ∧ m.supply ≠ .halt ∧ SupplyState.returning ≠ .halt ∧
    (placed .halt 60 20 [0]).supply = .halt ∧ (placed .halt 60 20 [0]).session 0 = some session32 ∧
    (placed .halt 60 20 [0]).actions[(0 : BayNo)] = .continue ∧
    ({ m with supply := .returning } : Allocator).ceiling 0 < m.granted 0 ∧
    r.ceiling 0 < ({ r with supply := .mains } : Allocator).ceiling 0 ∧ (r.feeder 0).queue ≠ [] ∧
    ({ m with supply := .returning } : Allocator).ceiling 3 = m.ceiling 3 ∧ r.supply = .reserve ∧
    (returning 3).alloc.supply = .returning :=
  ⟨⟨test_placed_sound _ _ _ _, test_placed_sound _ _ _ _⟩, by decide +kernel⟩

theorem test_hyps_clock_parameters_open (p : Blocks) :
    (ask 29 .operator (be 4 4000000000) p).Serves 29 .site .operator (req 29 .operator (be 4 4000000000)) ∧
    (ask 29 .operator (be 4 4000000001) p).Serves 29 .site .operator (req 29 .operator (be 4 4000000001)) ∧
    (∀ body, (ask 30 .operator body p).Serves 30 .site .operator (req 30 .operator body)) ∧
    (ask 31 .operator [] p).Serves 31 .site .operator (req 31 .operator []) ∧
    (∀ x ∈ some 60, x < 65536 ∧ ¬60 < x) ∧ (∀ x ∈ some 61, x < 65536 ∧ 60 < x) ∧ (∀ x ∈ some 15, x < 256) ∧
    (Blocks.powerOn true false false).level ≠ .opened ∧ (Blocks.powerOn true false false).clock.isSet = false ∧
    ({ base with level := .configuring } : Blocks).clock.isSet = true ∧ base.level = .opened :=
  ⟨test_ask_serves _ (by decide) _ _ _, test_ask_serves _ (by decide) _ _ _, fun _ => test_ask_serves _ (by decide) _ _ _,
    test_ask_serves _ (by decide) _ _ _, by simp, by simp, by simp, by decide, by decide, rfl, rfl⟩

theorem test_hyps_restart :
    let rejoins : Bay → Bay := fun x => { x with config := { x.config with rejoin := true } }
    let p := withBay 0 (rejoins vacant) (withBay 1 (rejoins (unclaimed 3)) (withBay 2 (rejoins Bay.powerOn) base))
    (ask 32 .operator [1] p).Serves 32 .site .operator (req 32 .operator [1]) ∧
    (ask 32 .operator [2] p).Serves 32 .site .operator (req 32 .operator [2]) ∧ p.params.poolLow < 640 ∧
    (p.bay 3).config.rejoin = false ∧ (p.bay 2).config.rejoin = true ∧ (p.bay 2).state = .disabled ∧
    (p.bay 1).config.rejoin = true ∧ (p.bay 1).state ≠ .disabled ∧ (p.bay 1).state ≠ .faulted ∧
    (p.bay 1).presence = true ∧ (p.bay 0).config.rejoin = true ∧ (p.bay 0).presence = false ∧
    (placed .mains 40 0 [0]).session 0 = some { session32 with grant := 32, phase := .charging } ∧
    (placed .mains 40 0 [0]).session 1 = none :=
  ⟨test_ask_serves _ (by decide) _ _ _, test_ask_serves _ (by decide) _ _ _, by decide +kernel⟩

theorem test_hyps_notices (p : Blocks) :
    (∀ body, (ask 34 .operator body p).Serves 34 .site .operator (req 34 .operator body)) ∧ 16383 < 16384 ∧
    (ask 35 .operator (be 2 16384) p).Serves 35 .site .operator (req 35 .operator (be 2 (16384#16).toNat)) ∧
    (ask 35 .operator (be 2 16383) p).Serves 35 .site .operator (req 35 .operator (be 2 (16383#16).toNat)) ∧
    (askRamp 35 (be 2 0) p).Serves 35 .ramp .pub (req 35 .pub (be 2 (0#16).toNat)) ∧
    16384 ≤ (16384#16).toNat ∧ (16383#16).toNat < 16384 ∧
    (ask 36 .fleet [] p).Serves 36 .site .fleet (req 36 .fleet []) ∧
    (ask 36 .fleet [0] p).Serves 36 .site .fleet (req 36 .fleet [0]) ∧
    (askRamp 36 [] p).Serves 36 .ramp .pub (req 36 .pub []) :=
  ⟨fun _ => test_ask_serves _ (by decide) _ _ _, by decide, test_ask_serves _ (by decide) _ _ _,
    test_ask_serves _ (by decide) _ _ _, test_askRamp_serves _ (by decide) _ _, by decide, by decide,
    test_ask_serves _ (by decide) _ _ _, test_ask_serves _ (by decide) _ _ _, test_askRamp_serves _ (by decide) _ _⟩

/-! ## Witnesses: relocation -/

theorem test_hyps_relocation_bay :
    let p := (withCar (car .booked 0 200) base).withReloc [.bay 0 .closed]
    (idle p).relocationDue = true ∧ p.reloc = .bay 0 .closed :: [] ∧ p.book.pendingOn 0 = 0 :: [] ∧
    p.book.rec? 0 = some (car .booked 0 200) ∧ p.targets (car .booked 0 200) = [] ++ 1 :: [] ∧
    p.Takes (car .booked 0 200) 1 ∧ (withBay 1 Bay.powerOn p).targets (car .booked 0 200) = [1] ∧
    ¬(withBay 1 Bay.powerOn p).Takes (car .booked 0 200) 1 ∧ (base.withReloc [.bay 0 .closed]).book.pendingOn 0 = [] := by
  unfold Blocks.Takes
  decide +kernel

/-- A HELD record on an occupied bay under a RECORD entry. -/
def blocked : Blocks :=
  (withBay 0 (unclaimed 5) (withCar (car .held 0 90) base)).withReloc [.record { slot := 0, gen := 0 }]

theorem test_withReloc_book (xs : List Entry) (p : Blocks) : (p.withReloc xs).book = p.book := rfl

theorem test_blocked_sound : blocked.book.Sound := by
  rw [blocked, test_withReloc_book, test_withBay_book]
  exact test_withCar_sound _ test_base_book_sound _ (by decide) _ _

theorem test_hyps_relocation_record :
    (idle blocked).relocationDue = true ∧ blocked.reloc = .record { slot := 0, gen := 0 } :: [] ∧
    blocked.book.rec? 0 = some (car .held 0 90) ∧ (blocked.bay 0).state.occupied = true ∧
    blocked.targets (car .held 0 90) = [] ++ 1 :: [] ∧ blocked.Takes (car .held 0 90) 1 ∧
    ¬(withBay 1 (unclaimed 5) blocked).Takes (car .held 0 90) 1 ∧
    ((withBay 0 vacant blocked).bay 0).state.occupied = false := by
  unfold Blocks.Takes
  decide +kernel

theorem test_base_has_no_record (sl : Slot) : base.book.rec? sl = none := Book.rec_empty sl

/-! ## Witnesses: the bay link and the bays -/

theorem test_hyps_polls_and_reports :
    ({ base with bays := { base.bays with nextPoll := 11 } } : Blocks).bays.nextPoll = 11 ∧
    (0 : ModuleNo).val = ((11 : ModuleNo).val + 1) % 12 ∧ base.moduleState 11 = .offline ∧ base.moduleState 0 = .online 0 ∧
    (∀ i : Fin 8, (base.bay (bayAt 0 i)).presence = (0#8).getLsbD i ∧ (base.bay (bayAt 0 i)).faultLine = (0#8).getLsbD i) := by
  decide +kernel

theorem test_hyps_bay_events :
    (vacant.Sound ∧ (unclaimed 1).Sound ∧ (unclaimed 15).Sound ∧ serving.Sound) ∧ vacant.presence = !true ∧
    (unclaimed 1).presence = !false ∧ (busy.bay 0).state = .serving ∧ busy.book.servingOn 0 = some 0 ∧
    busy.book.rec? 0 = some (car .session 0 90) ∧ (withBay 0 serving base).book.servingOn 0 = none ∧
    (base.bay 2).state = .disabled ∧ (base.bay 1).state ≠ .faulted ∧ (base.bay 1).config.autocut = true ∧
    ({ serving with state := .faulted } : Bay).state = .faulted ∧ busy.alloc.posts[(0 : BayNo)].enabled = false ∧ (placed .mains 40 0 [0]).posts[(0 : BayNo)].enabled = true :=
  ⟨⟨by unfold Bay.Sound; decide, by unfold Bay.Sound; decide, by unfold Bay.Sound; decide, by unfold Bay.Sound; decide⟩,
    by decide +kernel⟩

theorem test_hyps_module_loss :
    (idle busier).resetLow = false ∧ busier.moduleState 0 = .online 0 ∧ (busier.bay (bayAt 0 2)).state = .disabled ∧
    (busier.bay (bayAt 0 1)).state ≠ .disabled ∧ (busier.bay (bayAt 0 1)).state ≠ .faulted ∧
    busier.book.pendingOn (bayAt 0 1) ≠ [] ∧ busier.book.servingOn (bayAt 0 0) = some 0 ∧
    busier.book.rec? 0 = some (car .session 0 90) ∧ (∀ i : Fin 8, (8 : BayNo) ≠ bayAt 0 i) ∧
    ((withBay 3 { Bay.powerOn with state := .faulted } busier).bay (bayAt 0 3)).state = .faulted := by decide +kernel

/-! ## Witnesses: boundaries, the allocator, messages -/

theorem test_hyps_minute_and_windows :
    let p := withBay 0 (unclaimed 1) (withBay 1 (unclaimed 2) { base with boundaries := { base.boundaries with bays := [101] } })
    (idle p).resetLow = false ∧ p.boundaries.bays = 101 :: [] ∧ (p.bay 0).state = .unclaimed ∧ (p.bay 0).window ≤ 1 ∧
    (p.bay 1).state = .unclaimed ∧ ¬(p.bay 1).window ≤ 1 ∧ min (4294967295 + 1) 4294967295 = 4294967295 := by decide +kernel

/-- A minute boundary waits for the book and the rebalance for the allocator. -/
def due (p : Blocks) (a : Allocator) : Blocks :=
  { p with alloc := a, boundaries := { p.boundaries with book := [105], alloc := [105] } }

theorem test_due_fields (p : Blocks) (a : Allocator) :
    (due p a).book = p.book ∧ (due p a).alloc = a ∧ (due p a).boundaries.book = 105 :: [] ∧
    (due p a).boundaries.alloc = 105 :: [] ∧ (idle (due p a)).resetLow = false := ⟨rfl, rfl, rfl, rfl, rfl⟩

theorem test_hyps_deadline_pass :
    (withCar (car .held 0 90) base).level = .opened ∧ (Blocks.powerOn true false false).level = .configuring ∧
    (withCar (car .held 0 90) base).book.rec? 0 = some (car .held 0 90) ∧
    (car .held 0 90).start + (car .held 0 90).grace ≤ 105 ∧ (car .session 0 45).start + (car .session 0 45).length ≤ 105 ∧
    105 < (car .booked 0 125).start - base.params.holdLead ∧ (car .booked 0 120).start - base.params.holdLead = 105 ∧
    105 < (car .booked 0 120).start ∧ (withCar (car .booked 0 120) base).book.rec? 0 = some (car .booked 0 120) := by
  decide +kernel

/-- A held record whose start has come on a bay where a vehicle stands, in its first minute and in its last of grace. -/
theorem test_hyps_handed_over :
    let p := fun m => due (withBay 0 (unclaimed 1) (withCar (car .held 0 m) base)) base.alloc
    (∀ m : Nat, m = 105 ∨ m = 91 → (car .held 0 m).start ≤ 105 ∧ 105 < (car .held 0 m).start + (car .held 0 m).grace) ∧
    (∀ m : Nat, (car .held 0 m).relocPending = false) ∧
    (p 105).book.rec? 0 = some (car .held 0 105) ∧ (p 91).book.rec? 0 = some (car .held 0 91) ∧
    ((p 105).bay (car .held 0 105).bay).state.occupied = true ∧ (p 105).bayEntry (car .held 0 105).bay = none ∧
    ¬105 < (car .held 0 90).start + (car .held 0 90).grace := by
  refine ⟨fun m h => ?_, fun _ => rfl, by decide +kernel⟩
  have e : (car .held 0 m).start = m := rfl
  have g : (car .held 0 m).grace = 15 := rfl
  omega

/-- The placed sessions with a budget of 20 A staged under the granted total of 40 A. -/
def stagedCut : Allocator :=
  Allocator.rebuild
    { placed .mains 40 0 [0, 1, 2] with
      feeders := setAt Allocator.powerOn.feeders 0 { Feeder.powerOn with budget := 40, staged := 20, switchPending := true } }
    fun _ => BayConfig.powerOn

theorem test_hyps_rebalance :
    let ceil : FeederNo → Nat := fun f =>
      { stagedCut.feeder f with
        budget := if (stagedCut.feeder f).switchPending then (stagedCut.feeder f).staged else (stagedCut.feeder f).budget }.ceiling
        stagedCut.supply
    (idle (due base stagedCut)).resetLow = false ∧ (due base stagedCut).alloc = stagedCut ∧ stagedCut.Sound ∧
    (due base stagedCut).boundaries.alloc = 105 :: [] ∧ 105 % 5 = 0 ∧ ceil 0 = 20 ∧
    ceil 0 < stagedCut.granted 0 ∧ (stagedCut.feeder 0).queue ≠ [] ∧ (stagedCut.feeder 1).switchPending = false :=
  ⟨(test_due_fields _ _).2.2.2.2, (test_due_fields _ _).2.1, Allocator.rebuild_tame _ _, (test_due_fields _ _).2.2.2.1, by decide,
    by decide +kernel⟩

theorem test_hyps_cut :
    let a := (placed .mains 40 0 [0, 1, 2]).setFeeder 0 { (placed .mains 40 0 [0, 1, 2]).feeder 0 with budget := 11 }
    a.ceiling 0 < a.granted 0 ∧ (∀ b ∈ (a.feeder 0).grants, 6 ≤ a.grantOf b) ∧ a.ListsSound := by
  refine ⟨by decide +kernel, by decide +kernel, ?_⟩
  have h := (test_placed_sound .mains 40 0 [0, 1, 2]).1
  generalize placed .mains 40 0 [0, 1, 2] = a at h
  have e : ∀ f, ((a.setFeeder 0 { a.feeder 0 with budget := 11 }).feeder f).grants = (a.feeder f).grants ∧
      ((a.setFeeder 0 { a.feeder 0 with budget := 11 }).feeder f).queue = (a.feeder f).queue := fun f => by
    by_cases hf : f = 0
    · subst hf; simp [Allocator.setFeeder, Allocator.feeder, setAt]
    · have hf' : (0 : Nat) ≠ f.val := fun e => hf (Fin.ext e.symm)
      simp [Allocator.setFeeder, Allocator.feeder, setAt, hf']
  exact ⟨fun f => by rw [(e f).1, (e f).2]; exact h.1 f, fun f b => by rw [(e f).1]; exact h.2.1 f b,
    fun f b => by rw [(e f).2]; exact h.2.2.1 f b, h.2.2.2⟩

/-- Messages on their way to the allocator. -/
def mailed (p : Blocks) (a : Allocator) (ms : List AllocMsg) : Blocks :=
  { p with alloc := a, mail := { p.mail with toAlloc := ms } }

theorem test_mailed_fields (p : Blocks) (a : Allocator) (ms : List AllocMsg) :
    (mailed p a ms).alloc = a ∧ (mailed p a ms).mail.toAlloc = ms ∧ (idle (mailed p a ms)).resetLow = false :=
  ⟨rfl, rfl, rfl⟩

theorem test_hyps_session_request_and_release :
    base.alloc.session 0 = none ∧ (base.alloc.feeder 0).queue = [] ∧ 6 ≤ base.alloc.ceiling 0 - base.alloc.granted 0 ∧
    base.alloc.actions[(0 : BayNo)] = .continue ∧ (placed .halt 40 0 [1]).session 1 = some session32 ∧
    session32.phase = .suspended ∧ ((placed .mains 40 0 [0, 1, 2]).feeder 0).queue ≠ [] ∧
    (placed .mains 40 0 [0, 1, 2]).session 3 = none ∧ (placed .mains 40 0 [0, 1, 2]).ListsSound ∧
    (placed .mains 40 0 [0, 1, 2]).session 0 = some { session32 with grant := 32, phase := .charging } :=
  ⟨by decide +kernel, by decide +kernel, by decide +kernel, by decide +kernel, by decide +kernel, by decide,
    by decide +kernel, by decide +kernel, (test_placed_sound _ _ _ _).1, by decide +kernel⟩

theorem test_hyps_messages :
    let p := { base with mail := { base.mail with
      toBays := [.hold 0, .unhold 0, .endServing 0], toReloc := [{ slot := 0, gen := 0 }]
      raises := [(.sitePort, .frameError), (.book, .stranded), (.book, .relocated)] } }
    (idle p).resetLow = false ∧ p.mail.toBays = .hold 0 :: [.unhold 0, .endServing 0] ∧
    p.mail.toReloc = { slot := 0, gen := 0 } :: [] ∧ (p.bay 0).state = .vacant ∧
    p.mail.raises = [(.sitePort, .frameError)] ++ (.book, .stranded) :: [(.book, .relocated)] ∧
    (∀ z ∈ [(Sender.sitePort, Raise.frameError)], z.1 ≠ .book) := by decide +kernel

/-! ## Witnesses: the invariants, at states with something in them -/

theorem test_step_answers (s : State) : ∃ t, step s = .next t := by
  obtain ⟨u, rest, hu, _⟩ := step_effect s
  exact ⟨_, hu⟩

theorem test_hyps_invariants :
    answered.ResetHeld ∧ answered.PortsSound ∧ base.SupplySound ∧ (returning 1).SupplySound ∧ base.NoticesAgree ∧
    (base.withReloc [.bay 0 .closed, .record { slot := 0, gen := 0 }]).RelocSound := by
  refine ⟨fun h => by simp [answered, idle, State.reset] at h, ?_, ?_, ?_, ?_, ?_⟩
  · unfold State.PortsSound; decide +kernel
  · unfold Blocks.SupplySound; decide +kernel
  · unfold Blocks.SupplySound; decide +kernel
  · unfold Blocks.NoticesAgree; decide +kernel
  · unfold Blocks.RelocSound; decide +kernel

/-- A HELD record marked for relocation under its RECORD entry. -/
def marked : Blocks :=
  (withBay 0 (unclaimed 5) (withCar { car .held 0 90 with relocPending := true } base)).withReloc
    [.record { slot := 0, gen := 0 }]

theorem test_hyps_record_entries : marked.book.Sound ∧ marked.RecordEntriesSound ∧ marked.NextTicketClear := by
  have hl : marked.mail.toReloc = [] := rfl
  have hr : marked.reloc = [.record { slot := 0, gen := 0 }] := rfl
  have h0 : marked.book.rec? 0 = some { car .held 0 90 with relocPending := true } := by decide +kernel
  have hb : marked.book.Sound ∧ ∀ sl : Slot, sl ≠ 0 → marked.book.rec? sl = none := by
    rw [marked, test_withReloc_book, test_withBay_book]
    cases hc : base.book.create { car .held 0 90 with relocPending := true } with
    | none => exact absurd hc (by decide +kernel)
    | some kr =>
      have e : (withCar { car .held 0 90 with relocPending := true } base).book = kr.1 := by simp [withCar, hc]
      obtain ⟨sl, rest, hf, _, _, _, _, _, rd, _⟩ := Book.create_spec hc
      have h1 : sl = 0 := by
        have : base.book.free.head? = some sl := by rw [hf]; rfl
        exact (Option.some.inj ((by decide +kernel : base.book.free.head? = some 0).symm.trans this)).symm
      refine ⟨by rw [e]; exact Book.Sound.create test_base_book_sound (by decide) rfl hc, fun x hx => ?_⟩
      rw [e, rd x, if_neg (by rw [h1]; exact fun h => hx h.symm)]
      exact test_base_has_no_record x
  refine ⟨hb.1, ⟨fun t => ?_, fun sl r h _ => ?_, fun t h => .inr ⟨0, _, h0, by decide, ?_⟩⟩, fun sl rest _ => by rw [hl]; simp⟩
  · rw [hr]; exact List.count_le_length
  · by_cases hs : sl = 0
    · rw [hs, h0] at h; cases h; rw [hl, hr]; simp [car]
    · rw [hb.2 sl hs] at h; cases h
  · rw [hr] at h; cases List.mem_singleton.1 h; rfl

theorem test_hyps_step_keeps :
    (∃ t, step State.reset = .next t) ∧ State.reset.ResetHeld ∧ State.reset.blocks.CountsInRange ∧
    State.reset.blocks.TimelinesSound ∧ State.reset.blocks.GrantsSound ∧ (Allocator.powerOn).Sound ∧
    (placed .mains 40 0 [0, 1, 2]).Sound ∧ Allocator.powerOn.PostsAgree :=
  ⟨test_step_answers _, fun h => (by cases h), powerOn_countsInRange false false false,
    powerOn_timelinesSound false false false, powerOn_grantsSound false false false,
    powerOn_allocSound false false false, test_placed_sound _ _ _ _, powerOn_postsAgree⟩

/-! ## One step each -/

/-- The state a command gives. -/
def after (c : Instr) (s : State) : State :=
  match exec c s with
  | .next t => t
  | .fault _ => s
  | .refused _ => s

theorem test_crc_check_value : crc16 ((List.range 9).map fun i => BitVec.ofNat 8 (0x31 + i)) = 0x29B1#16 := by
  decide +kernel

theorem test_step_identify :
    (after (.identify .site (req 36 .pub [])) (ask 36 .pub [] base)).site.response =
      some { tag := 0x5A#8, kind := 36#8, status := 0#8, body := [0x25#8, 0x80#8, 0#8, 3#8, 0#8, 96#8, 2#8, 0x80#8] } := by
  decide +kernel

theorem test_step_book_bay :
    ((after (.bookBay .site (req 1 .pub (bayBody 0 0 115))) (ask 1 .pub (bayBody 0 0 115) base)).blocks.book.rec? 0).map
      (fun x => (x.state, x.bay, x.start, x.grace)) = some (.held, 0, 115, 15) := by decide +kernel

theorem test_step_no_show :
    ((after .deadlinePass (idle (due (withCar (car .held 0 90) base) base.alloc))).blocks.book.rec? 0).map
      (fun x => (x.state, x.outcome)) = some (.settled, some .noShow) := by decide +kernel

theorem test_step_hands_over :
    let q := (after .deadlinePass (idle (due (withBay 0 (unclaimed 1) (withCar (car .held 0 105) base)) base.alloc))).blocks
    q.reloc = [.record { slot := 0, gen := 0 }] ∧ q.mail.toBays = [.hold 0] ∧
    (q.book.rec? 0).map (fun x => (x.state, x.relocPending)) = some (.held, true) := by decide +kernel

theorem test_step_session_request :
    ((after (.sessionRequest 0 20) (idle (mailed base base.alloc [.sessionRequest 0 20]))).blocks.alloc.session 0).map
      (fun x => (x.cap, x.grant, x.phase)) = some (20, 20, .charging) := by decide +kernel

theorem test_step_window_expires :
    (after .claimWindowCount (idle (withBay 0 (unclaimed 1)
      { base with boundaries := { base.boundaries with bays := [101] } }))).blocks.mail.raises =
      [(.bayUnit, .unregistered 0)] := by decide +kernel

theorem test_step_tick_ends_the_minute :
    ((match step (ticking 1966079 0) with | .next t => t | .fault _ => idle base | .refused _ => idle base).blocks.clock) =
      { minute := 101, isSet := true, phase := 0 } := by decide +kernel

end Sys2Proof.Machine.Tests
end

section
/-! PROOFS. The record pool right after reset (R22), and FIND TOKEN over a sound token index (R15). -/

namespace Sys2Proof.Machine

/-! ## The book right after power-on -/

theorem gens_powerOn (sl : Slot) : Book.powerOn.gens[sl] = 0 := by simp [Book.powerOn]

theorem free_powerOn : Book.powerOn.free = List.finRange Config.poolSize := by simp only [Book.powerOn]

theorem poolLow_powerOn {threshold : Nat} (h : threshold < Config.poolSize) : Book.powerOn.poolLow threshold = false := by
  rw [Book.poolLow, free_powerOn, List.length_finRange]
  exact decide_eq_false (Nat.not_le_of_lt h)

/-- The first record created after power-on takes slot 0 with generation 0. -/
theorem create_powerOn (r : Record) :
    ∃ (l : Book) (r' : Record), Book.powerOn.create r = some (l, r') ∧ r'.ticket = { slot := 0, gen := 0 } ∧
      l.rec? 0 = some r' := by
  have hhead : Book.powerOn.free = (0 : Slot) :: (List.finRange 639).map Fin.succ :=
    free_powerOn.trans List.finRange_succ
  obtain ⟨l, r', hc⟩ := create_of_free (k := Book.powerOn) (by simp [hhead]) r
  obtain ⟨sl, hfree, -, ⟨-, hticket, hrec, -⟩, -⟩ := create_created hc
  obtain rfl : sl = 0 := (List.cons.inj (hfree.symm.trans hhead)).1
  exact ⟨l, r', hc, by rw [hticket, gens_powerOn]; rfl, hrec⟩

/-- Settles O5: the book of State.reset is the one of power-on, whose parts the lemmas above and those of Laws/Book give. -/
theorem poolRightAfterReset : Obligations.PoolRightAfterReset := by
  unfold Obligations.PoolRightAfterReset
  rintro k rfl
  have hthreshold : (Blocks.powerOn false false false).params.poolLow < Config.poolSize := by decide
  rw [reset_blocks, powerOn_book]
  refine ⟨fun sl => ⟨Book.rec_empty sl, gens_powerOn sl⟩, free_powerOn, rfl, Book.slotsOn_empty, rfl, ?_, rfl,
    poolLow_powerOn hthreshold, rfl, rfl, rfl, create_powerOn⟩
  rw [free_powerOn, List.length_finRange]

/-! ## The token field of FIND TOKEN -/

/-- A body of another length, or of eight zero bytes, names no token. -/
theorem findTokenFields_none {body : List Byte} (h : body.length ≠ 8 ∨ beNat body = 0) : findTokenFields body = none := by
  refine if_neg ?_
  rintro ⟨hlen, ht⟩
  rcases h with h | h
  · exact h hlen
  · have hfield : field body 0 8 = beNat body := by rw [field, List.drop_zero, List.take_of_length_le hlen.le]
    exact ht (tokenField_zero (hfield.trans h))

/-- A token written is read back. -/
theorem findTokenFields_be {t : Token} (ht : t ≠ 0) : findTokenFields (be 8 t.toNat) = some t := by
  have hfield : field (be 8 t.toNat) 0 8 = t.toNat := by
    simpa using field_be [] [] (k := 8) (v := t.toNat) (by simpa using t.isLt)
  have htoken : tokenField (be 8 t.toNat) 0 = t := by rw [tokenField, hfield, BitVec.ofNat_toNat, BitVec.setWidth_eq]
  rw [findTokenFields, htoken, if_pos ⟨be_length 8 _, ht⟩]

/-! ## The records a token's entry lists -/

/-- The slots listed for a token are those of its entry, and none where it has no entry. -/
theorem Book.IndexSound.tokenSlots_cases {k : Book} (h : k.IndexSound) (t : Token) :
    (∃ e ∈ k.tokens, e.token = t ∧ k.tokenSlots t = e.slots) ∨
      (∀ e ∈ k.tokens, e.token ≠ t) ∧ k.tokenSlots t = [] := by
  by_cases ht : ∃ e ∈ k.tokens, e.token = t
  · obtain ⟨e, he, rfl⟩ := ht
    exact .inl ⟨e, he, rfl, h.tokenSlots he⟩
  · have hnone : ∀ e ∈ k.tokens, e.token ≠ t := fun e he het => ht ⟨e, he, het⟩
    have hfind : k.tokens.find? (fun e => e.token == t) = none :=
      List.find?_eq_none.2 fun e he => by simpa using hnone e he
    exact .inr ⟨hnone, by rw [Book.tokenSlots, hfind]; rfl⟩

/-- A slot is listed for a token exactly if it holds a live record of the token. -/
theorem Book.IndexSound.mem_tokenSlots {k : Book} (h : k.IndexSound) {t : Token} {sl : Slot} :
    sl ∈ k.tokenSlots t ↔ ∃ r, k.rec? sl = some r ∧ r.state ≠ .settled ∧ r.token = t := by
  have hcases := h.tokenSlots_cases t
  obtain ⟨-, hentry, hlive⟩ := h
  rcases hcases with ⟨e, he, rfl, hslots⟩ | ⟨hnone, hslots⟩
  · obtain ⟨-, -, -, hmem, -⟩ := hentry e he
    rw [hslots, hmem]
  · have habsent : ¬ ∃ r, k.rec? sl = some r ∧ r.state ≠ .settled ∧ r.token = t := by
      rintro ⟨r, hr, hl, hrt⟩
      obtain ⟨e, he, het⟩ := hlive sl r hr hl
      exact hnone e he (het.trans hrt)
    simpa [hslots] using habsent

/-- The records listed for a token are its live records (R15, R27). -/
theorem Book.IndexSound.mem_tokenRecords {k : Book} (h : k.IndexSound) {t : Token} {x : Record} :
    x ∈ k.tokenRecords t ↔ ∃ sl, k.rec? sl = some x ∧ x.state ≠ .settled ∧ x.token = t := by
  rw [Book.tokenRecords, List.mem_filterMap]
  constructor
  · rintro ⟨sl, hsl, hx⟩
    obtain ⟨r, hr, hl, ht⟩ := h.mem_tokenSlots.1 hsl
    obtain rfl : r = x := Option.some.inj (hr.symm.trans hx)
    exact ⟨sl, hx, hl, ht⟩
  · rintro ⟨sl, hx, hl, ht⟩
    exact ⟨sl, h.mem_tokenSlots.2 ⟨x, hx, hl, ht⟩, hx⟩

/-- A token has at most 3 live records (R27). -/
theorem Book.IndexSound.tokenRecords_length {k : Book} (h : k.IndexSound) (t : Token) :
    (k.tokenRecords t).length ≤ 3 := by
  have hslots : (k.tokenSlots t).length ≤ 3 := by
    rcases h.tokenSlots_cases t with ⟨e, he, -, hslots⟩ | ⟨-, hslots⟩
    · obtain ⟨-, -, hlength, -⟩ := h.2.1 e he
      rw [hslots]
      exact hlength
    · simp [hslots]
  exact (List.length_filterMap_le ..).trans hslots

/-- The windows of a token's live records stand in order, one after the other (R27). -/
theorem Book.IndexSound.tokenRecords_windows {k : Book} (h : k.IndexSound) (t : Token) :
    (k.tokenRecords t).Pairwise fun x y => x.endMinute ≤ y.start := by
  rcases h.tokenSlots_cases t with ⟨e, he, -, hslots⟩ | ⟨-, hslots⟩
  · obtain ⟨-, -, -, -, hwindows⟩ := h.2.1 e he
    rw [Book.tokenRecords, hslots]
    exact hwindows
  · simp [Book.tokenRecords, hslots]

/-- Since no window is empty, the starts of a token's live records ascend strictly. -/
theorem Blocks.TokensSound.tokenRecords_starts {p : Blocks} (h : p.TokensSound) (t : Token) :
    (p.book.tokenRecords t).Pairwise fun x y => x.start < y.start := by
  obtain ⟨-, hindex, hpos⟩ := h
  refine (hindex.tokenRecords_windows t).imp_of_mem fun {x y} hx _ hxy => ?_
  obtain ⟨sl, hrec, -, -⟩ := hindex.mem_tokenRecords.1 hx
  have hlength := hpos sl x hrec
  unfold Record.endMinute at hxy
  omega

/-! ## FIND TOKEN -/

/-- A FIND TOKEN in its turn is answered by its judgement, whatever its class and port (R50). -/
theorem exec_findToken {s : State} {port : Port} {c : Machine.Class} {r : Request} (h : s.Serves 8 port c r) :
    exec (.findToken port r) s = .next (s.finishTurn port r (judgeFindToken port c r.body s.blocks)) :=
  serve_of_serves h everyone noBody judgeFindToken rfl

theorem judgeFindToken_refused {port : Port} {c : Machine.Class} {body : List Byte} {p : Blocks}
    (h : findTokenFields body = none) : judgeFindToken port c body p = refuse p .badField := by
  rw [judgeFindToken, h]

theorem judgeFindToken_accepted {port : Port} {c : Machine.Class} {body : List Byte} {p : Blocks} {t : Token}
    (h : findTokenFields body = some t) : judgeFindToken port c body p = accept p (tokenReport p t) := by
  rw [judgeFindToken, h]

/-- The token report, byte by byte (R15). -/
theorem tokenReport_eq (p : Blocks) (t : Token) :
    tokenReport p t = be 1 (p.book.tokenRecords t).length ++ ((p.book.tokenRecords t).map fun x =>
      be 2 x.ticket.slot ++ be 1 x.ticket.gen ++ be 1 x.bay.val ++ be 4 x.start ++ be 2 x.length ++
        be 1 x.state.code).flatten := rfl

/-- Settles O35: the list is the token's entry, which a sound index keeps equal to the token's live records. -/
theorem findTokenListsLiveRecords : Obligations.FindTokenListsLiveRecords := by
  unfold Obligations.FindTokenListsLiveRecords
  intro s port c r hsound hserves
  have hindex : s.blocks.book.IndexSound := hsound.2.1
  rw [exec_findToken hserves]
  refine ⟨fun hbad => ?_, fun t hbody ht => ⟨s.blocks.book.tokenRecords t, ?_, hindex.tokenRecords_length t,
    hsound.tokenRecords_starts t, fun x => hindex.mem_tokenRecords⟩⟩
  · rw [judgeFindToken_refused (findTokenFields_none hbad), refuse]
  · rw [hbody, judgeFindToken_accepted (findTokenFields_be ht), accept, tokenReport_eq]

end Sys2Proof.Machine
end

section
/-! PROOFS. SELECT SUPPLY (R136): its target field, who may send it, and the target that two of them leave. -/

namespace Sys2Proof.Machine

/-! ## The target field -/

/-- A number names a target exactly if it is the target's code (R170). -/
theorem Target.ofCode_eq_some_iff {n : Nat} {t : Target} : Target.ofCode n = some t ↔ n = t.code := by
  constructor
  · unfold Target.ofCode
    split <;> intro h <;> cases h <;> rfl
  · rintro rfl
    cases t <;> rfl

theorem Target.code_lt (t : Target) : t.code < 2 ^ 8 := by cases t <;> decide

/-- A body names a target exactly if it is the one byte of the target's code. -/
theorem targetFields_eq_some_iff {body : List Byte} {t : Target} :
    targetFields body = some t ↔ body = [BitVec.ofNat 8 t.code] := by
  unfold targetFields
  by_cases hlen : body.length = 1
  · obtain ⟨b, rfl⟩ := List.length_eq_one_iff.1 hlen
    have hfield : field [b] 0 1 = b.toNat := by simp [field, beNat]
    have hcode : (BitVec.ofNat 8 t.code).toNat = t.code := by rw [BitVec.toNat_ofNat, Nat.mod_eq_of_lt t.code_lt]
    rw [if_pos hlen, hfield, Target.ofCode_eq_some_iff, List.singleton_inj, ← BitVec.toNat_inj, hcode]
  · rw [if_neg hlen]
    constructor
    · rintro ⟨⟩
    · rintro rfl
      exact absurd rfl hlen

/-! ## The turn of a SELECT SUPPLY -/

/-- Whom a request for the operator alone is denied to: every class on the ramp port, and every other class (R50). -/
theorem operatorOnly_eq_false_iff {port : Port} {c : Machine.Class} :
    operatorOnly port c = false ↔ port = .ramp ∨ c ≠ .operator := by
  cases port <;> cases c <;> decide

theorem exec_selectSupply_denied {s : State} {port : Port} {c : Machine.Class} {r : Request} (h : s.Serves 26 port c r)
    (hdenied : port = .ramp ∨ c ≠ .operator) : exec (.selectSupply port r) s = .next (s.finishTurn port r
      { blocks := s.blocks, status := .classDenied, body := [] }) :=
  serve_of_denied h operatorOnly noBody judgeSelectSupply (operatorOnly_eq_false_iff.2 hdenied)

theorem exec_selectSupply_operator {s : State} {r : Request} (h : s.Serves 26 .site .operator r) :
    exec (.selectSupply .site r) s =
      .next (s.finishTurn .site r (judgeSelectSupply .site .operator r.body s.blocks)) :=
  serve_of_serves h operatorOnly noBody judgeSelectSupply rfl

/-- A body that is no target's one byte is refused. -/
theorem judgeSelectSupply_refused {port : Port} {c : Machine.Class} {body : List Byte} {p : Blocks}
    (h : ∀ t : Target, body ≠ [BitVec.ofNat 8 t.code]) : judgeSelectSupply port c body p = refuse p .badField := by
  have hnone : targetFields body = none :=
    Option.eq_none_iff_forall_ne_some.2 fun t ht => h t (targetFields_eq_some_iff.1 ht)
  rw [judgeSelectSupply, hnone]

theorem judgeSelectSupply_accepted {port : Port} {c : Machine.Class} {p : Blocks} (t : Target) :
    judgeSelectSupply port c [BitVec.ofNat 8 t.code] p = accept (p.selectSupply t) (supplyReport (p.selectSupply t)) := by
  rw [judgeSelectSupply, targetFields_eq_some_iff.2 rfl]

/-! ## The target written -/

/-- The target is all that is written (R136). -/
theorem Blocks.selectSupply_eq (p : Blocks) (t : Target) :
    p.selectSupply t = { p with supply := { p.supply with target := t } } := rfl

@[simp] theorem Blocks.selectSupply_supply (p : Blocks) (t : Target) :
    (p.selectSupply t).supply = { p.supply with target := t } := by
  simp [Blocks.selectSupply]

/-- Selecting the target that stands changes nothing. -/
theorem Blocks.selectSupply_target (p : Blocks) : p.selectSupply p.supply.target = p := rfl

/-- Of two targets selected the later stands. -/
theorem Blocks.selectSupply_selectSupply (p : Blocks) (t t' : Target) :
    (p.selectSupply t).selectSupply t' = p.selectSupply t' := rfl

/-- A switch applies the target selected last to the state as it was before the selection (R137). -/
theorem Blocks.switchSupply_selectSupply (p : Blocks) (t : Target) :
    (p.selectSupply t).switchSupply = (p.selectSupply t).setSupply (switched t p.supply.state) := by
  simp only [Blocks.switchSupply, Blocks.selectSupply_supply]

/-- Settles O43: the class check, the target field and the write of the target, one lemma each; a second write is laid over
the first, and the switch that follows reads what the second wrote. -/
theorem selectSupplyWritesTheTarget : Obligations.SelectSupplyWritesTheTarget := by
  unfold Obligations.SelectSupplyWritesTheTarget
  intro s port c r hserves
  refine ⟨exec_selectSupply_denied hserves, ?_⟩
  rintro rfl rfl
  rw [exec_selectSupply_operator hserves]
  refine ⟨fun hbad => ?_, fun t q hbody hq => ?_⟩
  · rw [judgeSelectSupply_refused hbad, refuse]
  · rw [← Blocks.selectSupply_eq] at hq
    subst hq
    refine ⟨?_, by simp, by simp, by simp, ?_, fun t' q' hq' => ?_⟩
    · rw [hbody, judgeSelectSupply_accepted, accept]
    · rintro rfl
      exact s.blocks.selectSupply_target
    · rw [← Blocks.selectSupply_eq, Blocks.selectSupply_selectSupply] at hq'
      subst hq'
      exact ⟨s.blocks.selectSupply_eq t', s.blocks.switchSupply_selectSupply t'⟩

end Sys2Proof.Machine
end

section
/-! PROOFS. SET NOTICE MASK (R169): the mask's field, when ATTN is high (R165), and the mask alone replaced. -/

namespace Sys2Proof.Machine

/-! ## The mask's field -/

/-- A number selects causes exactly if it has no bit beyond the fourteen. -/
theorem causesOf_toNat (m : BitVec 16) : causesOf m.toNat = if m.toNat < 16384 then some m else none := by
  simp [causesOf]

/-- The two bytes of a mask are read back. -/
theorem maskFields_be (m : BitVec 16) : maskFields (be 2 m.toNat) = if m.toNat < 16384 then some m else none := by
  have hfield : field (be 2 m.toNat) 0 2 = m.toNat := by
    simpa using field_be [] [] (k := 2) (v := m.toNat) m.isLt
  rw [maskFields, if_pos (be_length 2 _), hfield, causesOf_toNat]

/-! ## ATTN -/

theorem Notices.causes_length (n : Notices) : n.causes.length = 14 := rfl

/-- The bit of a cause in the summary tells whether the cause is set (R172). -/
theorem Notices.summary_getLsbD (n : Notices) (i : Nat) : n.summary.getLsbD i = true ↔ n.causes[i]? = some true := by
  have hlt : n.causes[i]? = some true → i < 16 := fun hset => by
    obtain ⟨hi, -⟩ := List.getElem?_eq_some_iff.1 hset
    rw [n.causes_length] at hi
    omega
  rw [Notices.summary, BitVec.getLsbD_ofNat, Bool.and_eq_true, decide_eq_true_eq, bits_testBit]
  exact and_iff_right_of_imp hlt

/-- ATTN is to be high exactly while one of the fourteen causes is both set and enabled (R165). -/
theorem Notices.wantsAttn_iff (n : Notices) :
    n.wantsAttn = true ↔ ∃ i : Fin 14, n.causes[i.val]? = some true ∧ n.mask.getLsbD i.val = true := by
  rw [Notices.wantsAttn, bne_iff_ne]
  constructor
  · intro hne
    by_contra hnone
    refine hne (BitVec.eq_of_getLsbD_eq (y := 0#16) fun i _ => ?_)
    rw [BitVec.getLsbD_zero, BitVec.getLsbD_and, Bool.and_eq_false_imp, Notices.summary_getLsbD]
    intro hset
    obtain ⟨hi, -⟩ := List.getElem?_eq_some_iff.1 hset
    exact Bool.eq_false_iff.2 fun hon => hnone ⟨⟨i, hi⟩, hset, hon⟩
  · rintro ⟨i, hset, hon⟩ hzero
    have hbit : (n.summary &&& n.mask).getLsbD i.val = true := by
      rw [BitVec.getLsbD_and, (n.summary_getLsbD i).2 hset, hon, Bool.and_self]
    rw [hzero] at hbit
    exact absurd hbit (by simp)

/-! ## The mask replaced -/

/-- Only the notice unit is written. -/
theorem Blocks.setMask_eq (p : Blocks) (m : BitVec 16) :
    p.setMask m = { p with notices := (p.setMask m).notices } := rfl

/-- In the notice unit only the mask and ATTN are written. -/
theorem Blocks.setMask_notices (p : Blocks) (m : BitVec 16) :
    (p.setMask m).notices = { p.notices with mask := m, attn := (p.setMask m).notices.attn } := rfl

@[simp] theorem Blocks.setMask_mask (p : Blocks) (m : BitVec 16) : (p.setMask m).notices.mask = m := rfl

@[simp] theorem Blocks.setMask_causes (p : Blocks) (m : BitVec 16) :
    (p.setMask m).notices.causes = p.notices.causes := rfl

/-- ATTN is recomputed from the new mask: a cause set while it was disabled shows as soon as it is enabled (R169). -/
theorem Blocks.setMask_attn_iff (p : Blocks) (m : BitVec 16) :
    (p.setMask m).notices.attn = true ↔
      ∃ i : Fin 14, p.notices.causes[i.val]? = some true ∧ m.getLsbD i.val = true := by
  have hattn : (p.setMask m).notices.attn = (p.setMask m).notices.wantsAttn := rfl
  rw [hattn, Notices.wantsAttn_iff, p.setMask_causes, p.setMask_mask]

/-! ## The turn of a SET NOTICE MASK -/

theorem exec_setNoticeMask_denied {s : State} {port : Port} {c : Machine.Class} {r : Request} (h : s.Serves 35 port c r)
    (hdenied : port = .ramp ∨ c ≠ .operator) : exec (.setNoticeMask port r) s = .next (s.finishTurn port r
      { blocks := s.blocks, status := .classDenied, body := [] }) :=
  serve_of_denied h operatorOnly noBody judgeSetMask (operatorOnly_eq_false_iff.2 hdenied)

theorem exec_setNoticeMask_operator {s : State} {r : Request} (h : s.Serves 35 .site .operator r) :
    exec (.setNoticeMask .site r) s = .next (s.finishTurn .site r (judgeSetMask .site .operator r.body s.blocks)) :=
  serve_of_serves h operatorOnly noBody judgeSetMask rfl

theorem judgeSetMask_refused {port : Port} {c : Machine.Class} {p : Blocks} {m : BitVec 16} (h : 16384 ≤ m.toNat) :
    judgeSetMask port c (be 2 m.toNat) p = refuse p .badField := by
  rw [judgeSetMask, maskFields_be, if_neg h.not_gt]

theorem judgeSetMask_accepted {port : Port} {c : Machine.Class} {p : Blocks} {m : BitVec 16} (h : m.toNat < 16384) :
    judgeSetMask port c (be 2 m.toNat) p = accept (p.setMask m) (noticeReport (p.setMask m).notices) := by
  rw [judgeSetMask, maskFields_be, if_pos h]

/-- Settles O49: the class check, the mask's field and the write of the mask, one lemma each; ATTN is high by the bits
that the cause summary and the mask share. -/
theorem setNoticeMaskReplacesTheMask : Obligations.SetNoticeMaskReplacesTheMask := by
  unfold Obligations.SetNoticeMaskReplacesTheMask
  intro s port c r m hserves hbody
  refine ⟨exec_setNoticeMask_denied hserves, ?_⟩
  rintro rfl rfl
  rw [exec_setNoticeMask_operator hserves, hbody]
  refine ⟨fun hbeyond => ?_, fun hcauses => ⟨(s.blocks.setMask m).notices, ?_,
    s.blocks.setMask_notices m, s.blocks.setMask_attn_iff m⟩⟩
  · rw [judgeSetMask_refused hbeyond, refuse]
  · rw [judgeSetMask_accepted hcauses, accept, ← s.blocks.setMask_eq m]

end Sys2Proof.Machine
end

section
/-! PROOFS. The invariants of the other statements hold right after reset, and every step keeps them. -/

namespace Sys2Proof.Machine

/-! ## The resetting and the ports -/

/-- What a step keeps of the whole machine: the queue's rest is no part of either invariant. -/
theorem step_keepsResetAndPorts {s t : State} (h : s.ResetHeld ∧ s.PortsSound) (ht : step s = .next t) :
    t.ResetHeld ∧ t.PortsSound := by
  obtain ⟨t', rest, hstep, heffect⟩ := step_effect s
  obtain rfl : t' = t := Host.Outcome.next.inj (hstep.symm.trans ht)
  exact ⟨effect_resetHeld heffect h.1, effect_ports heffect h.2⟩

/-- Settles O8: what a command can do to the ports and to the power-on state held low is said once, by `Effect`. -/
theorem stepKeepsPortsAndResetSound : Obligations.StepKeepsPortsAndResetSound := by
  unfold Obligations.StepKeepsPortsAndResetSound
  intro s t hsound hstep
  exact step_keepsResetAndPorts hsound hstep

/-! ## One invariant of the blocks each -/

/-- Settles O9: each half is kept by every change, and holds at power-on. -/
theorem stepKeepsSupplyAndCounts : Obligations.StepKeepsSupplyAndCounts := by
  unfold Obligations.StepKeepsSupplyAndCounts
  exact ⟨fun _ _ => step_keeps change_supplySound powerOn_supplySound,
    fun _ _ => step_keeps change_counts powerOn_countsInRange⟩

/-- Settles O10: every change keeps the entries sound, and they are sound at power-on. -/
theorem stepKeepsBayEntriesSound : Obligations.StepKeepsBayEntriesSound := by
  unfold Obligations.StepKeepsBayEntriesSound
  exact fun _ _ => step_keeps change_baysSound powerOn_baysSound

/-- Settles O12: every change keeps the book sound, and the book of power-on is sound. -/
theorem stepKeepsBookSound : Obligations.StepKeepsBookSound := by
  unfold Obligations.StepKeepsBookSound
  exact fun _ _ => step_keeps (P := fun p => p.book.Sound) change_bookSound fun m d a => by
    rw [powerOn_book]
    exact powerOn_bookSound

/-- Settles O13: either half is kept by every change, and holds at power-on. -/
theorem stepKeepsTimelinesAndTokens : Obligations.StepKeepsTimelinesAndTokens := by
  unfold Obligations.StepKeepsTimelinesAndTokens
  exact ⟨fun _ _ => step_keeps change_timelines powerOn_timelinesSound,
    fun _ _ => step_keeps change_tokens powerOn_tokensSound⟩

/-- Settles O14: every change keeps the allocator sound, and it is sound at power-on. -/
theorem stepKeepsGrantsWithinCeilings : Obligations.StepKeepsGrantsWithinCeilings := by
  unfold Obligations.StepKeepsGrantsWithinCeilings
  exact fun _ _ => step_keeps (P := fun p => p.alloc.Sound) change_allocSound powerOn_allocSound

/-- Settles O15: every change keeps the grants in range with all they are computed from, and so they are at power-on. -/
theorem stepKeepsGrantsInRange : Obligations.StepKeepsGrantsInRange := by
  unfold Obligations.StepKeepsGrantsInRange
  exact fun _ _ => step_keeps change_grantsSound powerOn_grantsSound

/-! ## The invariants with more than one part -/

/-- The book with every copy and every derived output: what each of them follows is itself kept. -/
def Blocks.CopiesAndActionsSound (p : Blocks) : Prop := p.book.Sound ∧ p.CopiesAgree ∧ p.ActionsFollowGroups

/-- The level flags stay right because a settled record of a sound book is never marked for relocation (R10). -/
theorem change_copiesAndActions {p q : Blocks} (h : Change p q) (hp : p.CopiesAndActionsSound) :
    q.CopiesAndActionsSound := by
  obtain ⟨hbook, ⟨hsupply, hcopies, hposts, hnotices⟩, hgroups⟩ := hp
  obtain ⟨hcopies', hgroups'⟩ := change_actions h ⟨hcopies, hgroups⟩
  exact ⟨change_bookSound h hbook, ⟨change_supplyCopied h hsupply, hcopies', change_posts h hposts,
    change_notices hbook.unmarked h hnotices⟩, hgroups'⟩

theorem powerOn_copiesAgree (m d a : Bool) : (Blocks.powerOn m d a).CopiesAgree :=
  ⟨rfl, powerOn_actionCopies m d a, powerOn_postsAgree, powerOn_noticesAgree m d a⟩

theorem powerOn_copiesAndActions (m d a : Bool) : (Blocks.powerOn m d a).CopiesAndActionsSound :=
  ⟨powerOn_bookSound, powerOn_copiesAgree m d a, powerOn_actionsFollowGroups m d a⟩

/-- Settles O11: the copies, the post commands, ATTN, the level flags and the actions are kept together, over a sound
book. -/
theorem stepKeepsCopiesAndActions : Obligations.StepKeepsCopiesAndActions := by
  unfold Obligations.StepKeepsCopiesAndActions
  exact fun _ _ => step_keeps change_copiesAndActions powerOn_copiesAndActions

/-- Settles O16: the bounds of the list are kept by every change; its RECORD entries follow the records by every change
from a state in which the next ticket is clear, as `Tracks` says. -/
theorem stepKeepsRelocationListSound : Obligations.StepKeepsRelocationListSound := by
  unfold Obligations.StepKeepsRelocationListSound
  exact ⟨fun _ _ => step_keeps change_relocSound powerOn_relocSound,
    fun _ _ => step_keeps_where (Q := Blocks.NextTicketClear) change_tracks powerOn_tracked⟩

/-! ## Right after reset -/

theorem reset_resetHeld : State.reset.ResetHeld := fun h => by cases h

theorem reset_portsSound : State.reset.PortsSound := ⟨rfl, rfl, rfl⟩

/-- Settles O7: the blocks of State.reset are those of power-on, for which each invariant has its lemma. -/
theorem invariantsHoldRightAfterReset : Obligations.InvariantsHoldRightAfterReset := by
  unfold Obligations.InvariantsHoldRightAfterReset
  rw [reset_blocks]
  exact ⟨reset_resetHeld, reset_portsSound, powerOn_supplySound .., powerOn_countsInRange .., powerOn_baysSound ..,
    powerOn_copiesAgree .., powerOn_actionsFollowGroups _ _ _, powerOn_timelinesSound .., powerOn_tokensSound ..,
    powerOn_allocSound .., powerOn_grantsSound .., powerOn_relocSound .., powerOn_recordEntriesSound ..⟩

end Sys2Proof.Machine
end

section
/-! PROOFS. A step of the machine: the command in front, or one period of the crystal; no command stops the machine. -/

namespace Sys2Proof.Machine

/-! ## A step -/

/-- Settles O1: on a queue that is not empty a step is `exec` by definition. -/
theorem stepTakesTheFront : Obligations.StepTakesTheFront := by
  unfold Obligations.StepTakesTheFront
  intro c rest s
  rfl

/-- Settles O2: every command has one of the effects, and no effect touches the queue. -/
theorem everyCommandGivesANextState : Obligations.EveryCommandGivesANextState := by
  unfold Obligations.EveryCommandGivesANextState
  refine ⟨fun c s => ?_, fun s => ?_⟩
  · obtain ⟨t, hexec, heffect⟩ := exec_effect c s
    exact ⟨t, hexec, effect_pending heffect⟩
  · obtain ⟨t, -, hstep, -⟩ := step_effect s
    exact ⟨t, hstep⟩

/-! ## One period of the crystal -/

theorem step_of_empty {s : State} (h : s.pending = []) : step s = .next (tick s) := by
  rw [step, h]

theorem tick_low {s : State} (h : s.resetLow = true) : tick s = s := if_pos h

theorem tick_high {s : State} (h : s.resetLow = false) : tick s = { s with blocks := s.blocks.tick } := by
  rw [tick, if_neg (by simp [h])]
  rfl

/-- The blocks after the silence counts of one period, and before the minute phase. -/
def Blocks.silenceCounted (p : Blocks) : Blocks :=
  (List.finRange Config.moduleCount).foldl Blocks.tickModule p

@[simp] theorem Blocks.silenceCounted_clock (p : Blocks) : p.silenceCounted.clock = p.clock := by
  rw [Blocks.silenceCounted]
  exact foldl_leaves Blocks.clock _ _ _ fun q k _ => q.tickModule_clock k

@[simp] theorem Blocks.silenceCounted_boundaries (p : Blocks) : p.silenceCounted.boundaries = p.boundaries := by
  rw [Blocks.silenceCounted]
  exact foldl_leaves Blocks.boundaries _ _ _ fun q k _ => q.tickModule_boundaries k

theorem Blocks.tick_eq_ite (p : Blocks) :
    p.tick = if Config.minutePeriods ≤ p.silenceCounted.clock.phase + 1 then p.silenceCounted.minuteBoundary
      else p.silenceCounted.withClock { p.silenceCounted.clock with phase := p.silenceCounted.clock.phase + 1 } := by
  unfold Blocks.silenceCounted
  exact Eq.refl _

theorem Blocks.tick_within {p : Blocks} (h : p.clock.phase + 1 < Config.minutePeriods) :
    p.tick = p.silenceCounted.withClock { p.clock with phase := p.clock.phase + 1 } := by
  rw [Blocks.tick_eq_ite, p.silenceCounted_clock, if_neg h.not_ge]

theorem Blocks.tick_boundary {p : Blocks} (h : Config.minutePeriods ≤ p.clock.phase + 1) :
    p.tick = p.silenceCounted.minuteBoundary := by
  rw [Blocks.tick_eq_ite, p.silenceCounted_clock, if_pos h]

/-- The minute phase is the clock's, and a boundary is told on the clock's ways alone. -/
theorem Blocks.tick_eq (p : Blocks) :
    p.tick = { p.silenceCounted with clock := p.tick.clock, boundaries := p.tick.boundaries } := by
  rw [Blocks.tick_eq_ite]
  generalize p.silenceCounted = q
  split <;> rfl

/-- What a minute boundary leaves on the clock's ways: the new minute at each block that keeps time, and at the allocator
where it is a multiple of 5 (R67, R126). -/
theorem Blocks.minuteBoundary_eq (p : Blocks) {m : Nat} (hm : m = min (p.clock.minute + 1) 4294967295) :
    p.minuteBoundary = { p with
      clock := { p.clock with minute := m, phase := 0 }
      boundaries :=
        { book := p.boundaries.book ++ [m], bays := p.boundaries.bays ++ [m], supply := p.boundaries.supply ++ [m]
          alloc := p.boundaries.alloc ++ if m % 5 = 0 then [m] else [] } } := by
  have halloc : (if m % Config.rebalancePeriod = 0 then p.boundaries.alloc ++ [m] else p.boundaries.alloc) =
      p.boundaries.alloc ++ if m % 5 = 0 then [m] else [] := by
    rw [Config.rebalancePeriod]
    split <;> simp
  rw [← halloc, hm]
  rfl

theorem exec_moduleLost {s : State} (h : s.resetLow = false) (k : ModuleNo) :
    exec (.moduleLost k) s = .next { s with blocks := s.blocks.loseModule k } :=
  atBlocks_high (fun p => p.loseModule k) h

/-- One module's silence count in one period; the expiry is the event MODULE_LOST (R101). -/
theorem tickModule_silenceCounted {s : State} (h : s.resetLow = false) (k : ModuleNo) (p : Blocks) :
    s.SilenceCounted k p (p.tickModule k) := by
  unfold State.SilenceCounted Blocks.tickModule
  cases p.moduleState k with
  | offline => rfl
  | online n =>
    rcases Nat.lt_or_ge (n + 1) Config.silencePeriods with hlt | hge
    · simp only [if_pos hlt, if_neg hlt.not_ge]
      rfl
    · simp only [if_neg hge.not_gt, if_pos hge]
      exact exec_moduleLost (s := { s with blocks := p }) h k

theorem silenceCounted_inTurn {s : State} (h : s.resetLow = false) :
    InTurn s.SilenceCounted (List.finRange 12) s.blocks s.blocks.silenceCounted := by
  rw [Blocks.silenceCounted]
  exact inTurn_foldl (fun _ => True) _ (fun p _ k _ => ⟨tickModule_silenceCounted h k p, trivial⟩) _ trivial

/-- Settles O3: the period is the silence counts in turn, and then the minute phase or the boundary. -/
theorem emptyQueueIsOneCrystalPeriod : Obligations.EmptyQueueIsOneCrystalPeriod := by
  unfold Obligations.EmptyQueueIsOneCrystalPeriod
  intro s hempty
  rw [step_of_empty hempty]
  refine ⟨fun hlow => by rw [tick_low hlow], fun hhigh => ?_⟩
  rw [tick_high hhigh]
  refine ⟨s.blocks.silenceCounted, s.blocks.tick, rfl, silenceCounted_inTurn hhigh, by simp, by simp, s.blocks.tick_eq,
    fun hsilent => ?_, fun hwithin => ?_, fun hfull => ?_⟩
  · obtain ⟨hstates, hrest⟩ := tickModule_fold (List.finRange Config.moduleCount) (List.nodup_finRange _) s.blocks
      fun k _ n => hsilent k n
    rw [Blocks.silenceCounted]
    exact ⟨hrest, fun k => (hstates k).trans (if_pos (List.mem_finRange k))⟩
  · rw [Blocks.tick_within hwithin]
    simp
  · refine ⟨_, rfl, ?_⟩
    rw [Blocks.tick_boundary hfull, Blocks.minuteBoundary_eq _ rfl]
    simp

end Sys2Proof.Machine
end

section
/-! PROOFS. The rows of the requests: one table of the kinds, and with it the service turn, the port and class check, the
kinds that name no request, and the RESET line. -/

namespace Sys2Proof.Machine

/-! ## The table of the kinds (10 section 10.4) -/

/-- What judges the request of kind `k` once its port and class have been checked. -/
def judgeOf : Nat → Port → Machine.Class → List Byte → Blocks → Answer
  | 1 => judgeBookBay
  | 2 => judgeBookZone
  | 3 => judgeBookNow
  | 4 => judgeExtend
  | 5 => judgeCancel
  | 6 => judgeClaim
  | 7 => judgeLookup
  | 8 => judgeFindToken
  | 9 => judgeListBay
  | 10 => judgeEndSession
  | 11 => judgeCollect
  | 12 => judgePoolStatus
  | 13 => judgeWriteZone
  | 14 => judgeReadZone
  | 15 => withNoField noBody judgeReadAccessFault
  | 16 => withNoField noBody judgeClearAccessFault
  | 17 => judgeConfigureBay
  | 18 => judgeEnableBay
  | 19 => judgeDisableBay
  | 20 => judgeClearFault
  | 21 => judgeReadBay
  | 22 => judgeSetBudget
  | 23 => judgeSetReserveCeiling
  | 24 => judgeReadFeeder
  | 25 => judgeSetGroupLevel
  | 26 => judgeSelectSupply
  | 27 => withNoField noBody judgeSwitchSupply
  | 28 => withNoField noBody judgeReadSupply
  | 29 => judgeSetClock
  | 30 => judgeSetParameters
  | 31 => withNoField levelReport judgeOpenLevel
  | 32 => fun _ _ => judgeRestart
  | 33 => withNoField noBody judgeReadNotices
  | 34 => judgeClearNotices
  | 35 => judgeSetMask
  | 36 => withNoField noBody judgeIdentify
  | _ => fun _ _ _ p => refuse p .unknownRequest

/-- A well-formed request row holds a request of the kind its row names. -/
theorem Instr.kind_of_wf {i : Instr} {port : Port} {r : Request} {kind : Nat → Bool}
    (hr : i.request = some (port, r)) (hk : i.kindOk = some kind) (hw : i.wf = true) : kind r.kind.toNat = true := by
  unfold Instr.wf at hw
  rw [hr, hk] at hw
  simp only [Bool.and_eq_true] at hw
  obtain ⟨⟨hkind, -⟩, -⟩ := hw
  exact hkind

/-- Command `i` is the row of the requests of kind `k`: `isRow` is the condition on the request that `wf` gives. -/
def RowOf (i : Instr) (port : Port) (r : Request) (k : Nat) (isRow : Request → Bool) : Prop :=
  (i.wf = true → isRow r = true ∧ r.kind.toNat = k) ∧
  ∀ s : State, exec i s = serve isRow (permitted k) (refusalBody k) (judgeOf k) port r s

/-- The row of a kind whose requests have no other row. -/
theorem rowOf_kind {i : Instr} {port : Port} {r : Request} {k : Nat} (hr : i.request = some (port, r))
    (hk : i.kindOk = some (· == k))
    (he : ∀ s : State, exec i s = serve (ofKind k) (permitted k) (refusalBody k) (judgeOf k) port r s) :
    ∃ k isRow, RowOf i port r k isRow :=
  ⟨k, ofKind k, fun hw => ⟨Instr.kind_of_wf hr hk hw, by simpa using Instr.kind_of_wf hr hk hw⟩, he⟩

/-- One of the two rows of RESTART (log 21): `other` is the scope that the other row serves. -/
theorem restart_wf {i : Instr} {port : Port} {r : Request} {other : Byte} (hr : i.request = some (port, r))
    (hk : i.kindOk = some (· == 32)) (hw : i.wf = true) (hbody : (r.body != [other]) = true) :
    (r.kind.toNat == 32 && r.body != [other]) = true ∧ r.kind.toNat = 32 := by
  have hkind := Instr.kind_of_wf hr hk hw
  exact ⟨Bool.and_eq_true_iff.2 ⟨hkind, hbody⟩, by simpa using hkind⟩

/-- Every request row is the row of one kind, but for the row of the kinds that name no request. -/
theorem request_row {i : Instr} {port : Port} {r : Request} (h : i.request = some (port, r)) :
    (∃ k isRow, RowOf i port r k isRow) ∨ i = .unknownRequest port r := by
  cases i with
  | bookBay => cases h; exact .inl (rowOf_kind (k := 1) rfl rfl fun _ => rfl)
  | bookZone => cases h; exact .inl (rowOf_kind (k := 2) rfl rfl fun _ => rfl)
  | bookNow => cases h; exact .inl (rowOf_kind (k := 3) rfl rfl fun _ => rfl)
  | extendRecord => cases h; exact .inl (rowOf_kind (k := 4) rfl rfl fun _ => rfl)
  | cancel => cases h; exact .inl (rowOf_kind (k := 5) rfl rfl fun _ => rfl)
  | claim => cases h; exact .inl (rowOf_kind (k := 6) rfl rfl fun _ => rfl)
  | lookupTicket => cases h; exact .inl (rowOf_kind (k := 7) rfl rfl fun _ => rfl)
  | findToken => cases h; exact .inl (rowOf_kind (k := 8) rfl rfl fun _ => rfl)
  | listBay => cases h; exact .inl (rowOf_kind (k := 9) rfl rfl fun _ => rfl)
  | endSession => cases h; exact .inl (rowOf_kind (k := 10) rfl rfl fun _ => rfl)
  | collect => cases h; exact .inl (rowOf_kind (k := 11) rfl rfl fun _ => rfl)
  | poolStatus => cases h; exact .inl (rowOf_kind (k := 12) rfl rfl fun _ => rfl)
  | writeZone => cases h; exact .inl (rowOf_kind (k := 13) rfl rfl fun _ => rfl)
  | readZone => cases h; exact .inl (rowOf_kind (k := 14) rfl rfl fun _ => rfl)
  | readAccessFault => cases h; exact .inl (rowOf_kind (k := 15) rfl rfl fun _ => rfl)
  | clearAccessFault => cases h; exact .inl (rowOf_kind (k := 16) rfl rfl fun _ => rfl)
  | configureBay => cases h; exact .inl (rowOf_kind (k := 17) rfl rfl fun _ => rfl)
  | enableBay => cases h; exact .inl (rowOf_kind (k := 18) rfl rfl fun _ => rfl)
  | disableBay => cases h; exact .inl (rowOf_kind (k := 19) rfl rfl fun _ => rfl)
  | clearFault => cases h; exact .inl (rowOf_kind (k := 20) rfl rfl fun _ => rfl)
  | readBay => cases h; exact .inl (rowOf_kind (k := 21) rfl rfl fun _ => rfl)
  | setBudget => cases h; exact .inl (rowOf_kind (k := 22) rfl rfl fun _ => rfl)
  | setReserveCeiling => cases h; exact .inl (rowOf_kind (k := 23) rfl rfl fun _ => rfl)
  | readFeeder => cases h; exact .inl (rowOf_kind (k := 24) rfl rfl fun _ => rfl)
  | setGroupLevel => cases h; exact .inl (rowOf_kind (k := 25) rfl rfl fun _ => rfl)
  | selectSupply => cases h; exact .inl (rowOf_kind (k := 26) rfl rfl fun _ => rfl)
  | switchSupply => cases h; exact .inl (rowOf_kind (k := 27) rfl rfl fun _ => rfl)
  | readSupply => cases h; exact .inl (rowOf_kind (k := 28) rfl rfl fun _ => rfl)
  | setClock => cases h; exact .inl (rowOf_kind (k := 29) rfl rfl fun _ => rfl)
  | setParameters => cases h; exact .inl (rowOf_kind (k := 30) rfl rfl fun _ => rfl)
  | openLevel => cases h; exact .inl (rowOf_kind (k := 31) rfl rfl fun _ => rfl)
  | restartLevel =>
    cases h
    exact .inl ⟨32, restartLevelRow, fun hw => restart_wf rfl rfl hw (Bool.and_eq_true_iff.1 hw).2, fun _ => rfl⟩
  | restartAllocation =>
    cases h
    exact .inl ⟨32, restartAllocationRow, fun hw => restart_wf rfl rfl hw (Bool.and_eq_true_iff.1 hw).2, fun _ => rfl⟩
  | readNotices => cases h; exact .inl (rowOf_kind (k := 33) rfl rfl fun _ => rfl)
  | clearNotices => cases h; exact .inl (rowOf_kind (k := 34) rfl rfl fun _ => rfl)
  | setNoticeMask => cases h; exact .inl (rowOf_kind (k := 35) rfl rfl fun _ => rfl)
  | identify => cases h; exact .inl (rowOf_kind (k := 36) rfl rfl fun _ => rfl)
  | unknownRequest => cases h; exact .inr rfl
  | _ => cases h

/-! ## A turn that is due, and one that is not -/

theorem serve_notDue {port : Port} {r : Request} {s : State} (h : s.turnDue port r = false)
    (isRow : Request → Bool) (may : Permission) (refused : Blocks → List Byte)
    (judge : Port → Machine.Class → List Byte → Blocks → Answer) : serve isRow may refused judge port r s = .next s := by
  rw [serve, h, Bool.false_and, if_neg Bool.false_ne_true]

theorem serve_due {isRow : Request → Bool} {port : Port} {r : Request} {s : State} (h : s.turnDue port r = true)
    (hrow : isRow r = true) (may : Permission) (refused : Blocks → List Byte)
    (judge : Port → Machine.Class → List Byte → Blocks → Answer) :
    serve isRow may refused judge port r s = .next (s.finishTurn port r (judged may refused judge port r s.blocks)) := by
  rw [serve, h, hrow, Bool.and_self, if_pos rfl]

/-- A request row whose turn is not due changes nothing (log 1). -/
theorem exec_notDue {i : Instr} {s : State} {port : Port} {r : Request} (hr : i.request = some (port, r))
    (hd : s.turnDue port r = false) : exec i s = .next s := by
  rcases request_row hr with ⟨k, isRow, -, hexec⟩ | rfl
  · rw [hexec, serve_notDue hd]
  · change execUnknownRequest port r s = .next s
    rw [execUnknownRequest, hd, Bool.false_and, if_neg Bool.false_ne_true]

/-- A request of a known kind, well-formed and in its turn, is judged by its kind. -/
theorem exec_known {i : Instr} {s : State} {port : Port} {r : Request} (hw : i.wf = true)
    (hr : i.request = some (port, r)) (hd : s.turnDue port r = true) (hlow : 1 ≤ r.kind.toNat)
    (hhigh : r.kind.toNat ≤ 36) :
    exec i s = .next (s.finishTurn port r
      (judged (permitted r.kind.toNat) (refusalBody r.kind.toNat) (judgeOf r.kind.toNat) port r s.blocks)) := by
  rcases request_row hr with ⟨k, isRow, hrow, hexec⟩ | rfl
  · obtain ⟨hisRow, rfl⟩ := hrow hw
    rw [hexec, serve_due hd hisRow]
  · have hkind := Instr.kind_of_wf hr rfl hw
    simp only [Bool.or_eq_true, beq_iff_eq, decide_eq_true_eq] at hkind
    omega

/-- A kind that names no request is judged before its port and class (R163). -/
theorem exec_unknown {s : State} {port : Port} {r : Request} (hd : s.turnDue port r = true)
    (hk : r.kind.toNat = 0 ∨ 36 < r.kind.toNat) :
    exec (.unknownRequest port r) s = .next (s.finishTurn port r (refuse s.blocks .unknownRequest)) := by
  have hrow : (s.turnDue port r && unknownKind r) = true := by
    rw [hd, unknownKind, Bool.true_and, Bool.or_eq_true, beq_iff_eq, decide_eq_true_eq]
    exact hk
  exact if_pos hrow

/-- A well-formed request in its turn is answered. -/
theorem exec_answered {i : Instr} {s : State} {port : Port} {r : Request} (hw : i.wf = true)
    (hr : i.request = some (port, r)) (hd : s.turnDue port r = true) :
    ∃ a : Answer, exec i s = .next (s.finishTurn port r a) := by
  rcases request_row hr with ⟨k, isRow, hrow, hexec⟩ | rfl
  · obtain ⟨hisRow, -⟩ := hrow hw
    exact ⟨_, by rw [hexec, serve_due hd hisRow]⟩
  · have hkind := Instr.kind_of_wf hr rfl hw
    simp only [Bool.or_eq_true, beq_iff_eq, decide_eq_true_eq] at hkind
    exact ⟨_, exec_unknown hd hkind⟩

/-- Settles O22: the answer of the row's judgement is what the turn ends with. -/
theorem requestsActInTheirTurn : Obligations.RequestsActInTheirTurn := by
  unfold Obligations.RequestsActInTheirTurn
  refine ⟨fun i s port r hw hr hd => ?_, fun i s port r hr hd => exec_notDue hr hd⟩
  obtain ⟨a, hexec⟩ := exec_answered hw hr hd
  obtain ⟨q, x, htag, hkind, hshape⟩ := finishTurn_shape s port r a
  exact ⟨q, x, htag, hkind, hexec.trans (congrArg Host.Outcome.next hshape)⟩

/-! ## The port and class check -/

theorem judged_denied {may : Permission} {refused : Blocks → List Byte}
    {judge : Port → Machine.Class → List Byte → Blocks → Answer} {port : Port} {r : Request} {p : Blocks}
    (h : ∀ c, classAt port r = some c → may port c = false) :
    judged may refused judge port r p = { blocks := p, status := .classDenied, body := refused p } := by
  unfold judged
  cases hc : classAt port r with
  | none => rfl
  | some c => exact if_neg (Bool.eq_false_iff.1 (h c hc))

/-- Settles O23: the check is that of every known kind's row, and the row of the unknown kinds has none. -/
theorem classDeniedAndUnknownKind : Obligations.ClassDeniedAndUnknownKind := by
  unfold Obligations.ClassDeniedAndUnknownKind
  refine ⟨fun i s port r hw hr hlow hhigh hd hdenied => ?_, fun s port r hd hk => exec_unknown hd hk⟩
  rw [exec_known hw hr hd hlow hhigh, judged_denied hdenied]

/-! ## The RESET line (R157) -/

theorem turnDue_low {s : State} (h : s.resetLow = true) (port : Port) (r : Request) : s.turnDue port r = false := by
  rw [State.turnDue, h]
  rfl

theorem relocationDue_low {s : State} (h : s.resetLow = true) : s.relocationDue = false := by
  rw [State.relocationDue, h]
  rfl

theorem relocationStepBayEntry_notDue {s : State} (h : s.relocationDue = false) :
    exec .relocationStepBayEntry s = .next s := by
  change execRelocationStepBayEntry s = .next s
  rw [execRelocationStepBayEntry, h]

theorem relocationStepRecordEntry_notDue {s : State} (h : s.relocationDue = false) :
    exec .relocationStepRecordEntry s = .next s := by
  change execRelocationStepRecordEntry s = .next s
  rw [execRelocationStepRecordEntry, h]

/-- While RESET is low a command acts only if it is one of the two of the RESET line. -/
theorem exec_low {c : Instr} {s : State} (h : s.resetLow = true) (hreset : c ≠ .powerOnReset)
    (hrelease : ∀ m d a, c ≠ .resetRelease m d a) : exec c s = .next s := by
  cases hr : c.request with
  | some pr => exact exec_notDue hr (turnDue_low h ..)
  | none =>
    cases c with
    | powerOnReset => exact absurd rfl hreset
    | resetRelease m d a => exact absurd rfl (hrelease m d a)
    | relocationStepBayEntry => exact relocationStepBayEntry_notDue (relocationDue_low h)
    | relocationStepRecordEntry => exact relocationStepRecordEntry_notDue (relocationDue_low h)
    | bookBay | bookZone | bookNow | extendRecord | cancel | claim | lookupTicket | findToken | listBay | endSession
    | collect | poolStatus | writeZone | readZone | readAccessFault | clearAccessFault | configureBay | enableBay
    | disableBay | clearFault | readBay | setBudget | setReserveCeiling | readFeeder | setGroupLevel | selectSupply
    | switchSupply | readSupply | setClock | setParameters | openLevel | restartLevel | restartAllocation | readNotices
    | clearNotices | setNoticeMask | identify | unknownRequest => cases hr
    | siteWrite | siteRead | siteBadTransfer | rampFrame | rampByteTimeout | rampResponseSent | rampFrameStart =>
      exact whileRunning_low _ h
    | modulePoll => exact atBlocks_low Blocks.poll h
    | moduleReport k rep => exact atBlocks_low (fun p => p.takeReport k rep) h
    | moduleFound k rep => exact atBlocks_low (fun p => p.takeReport k rep) h
    | moduleLost k => exact atBlocks_low (fun p => p.loseModule k) h
    | sessionRequest b draw => exact atBlocks_low (fun p => p.takeRequest b draw) h
    | release b => exact atBlocks_low (fun p => p.takeRelease b) h
    | hold b => exact atBlocks_low (fun p => p.takeHold b) h
    | unhold b => exact atBlocks_low (fun p => p.takeUnhold b) h
    | endServing b => exact atBlocks_low (fun p => p.takeEnd b) h
    | removeRecordEntry t => exact atBlocks_low (fun p => p.takeRemoval t) h
    | noticeRaise sender what => exact atBlocks_low (fun p => p.takeRaise sender what) h
    | claimWindowExpiry b => exact atBlocks_low (fun p => if (p.bay b).windowExpires then p.bayBoundary else p) h
    | minuteBoundary => exact atBlocks_low Blocks.minuteBoundary h
    | deadlinePass => exact atBlocks_low Blocks.bookBoundary h
    | claimWindowCount => exact atBlocks_low Blocks.bayBoundary h
    | settleCount => exact atBlocks_low Blocks.supplyBoundary h
    | settleExpiry => exact atBlocks_low (fun p => if p.settleExpires then p.supplyBoundary else p) h
    | rebalanceBoundary => exact atBlocks_low Blocks.allocBoundary h
    | mainsOkFall => exact atBlocks_low Blocks.mainsOkFall h
    | mainsOkRise => exact atBlocks_low Blocks.mainsOkRise h
    | drChange high => exact atBlocks_low (fun p => p.drChange high) h
    | alarmChange high => exact atBlocks_low (fun p => p.alarmChange high) h

/-- The blocks of the power-on state, once the lines have been read. -/
theorem powerOn_lines (m d a : Bool) :
    ((Blocks.powerOn false false false).withSupply
      { (Blocks.powerOn false false false).supply with mainsOk := m, dr := d, alarm := a }).withClock
      { (Blocks.powerOn false false false).clock with phase := 0 } = Blocks.powerOn m d a := rfl

theorem resetRelease_held {s : State} (h : s.resetLow = true) (hheld : s.ResetHeld) (m d a : Bool) :
    resetRelease m d a s =
      { blocks := Blocks.powerOn m d a, site := SitePort.powerOn, ramp := RampPort.powerOn
        lastServed := .relocation, resetLow := false, pending := s.pending } := by
  obtain ⟨hblocks, hsite, hramp, hserved⟩ := hheld h
  rw [← powerOn_lines m d a, ← hblocks, ← hsite, ← hramp, ← hserved]
  exact if_pos h

theorem resetRelease_high {s : State} (h : s.resetLow = false) (m d a : Bool) : resetRelease m d a s = s :=
  if_neg (by simp [h])

/-- Settles O4: the line low is `powerOnReset`, its return `resetRelease`, and between them `exec_low`. -/
theorem resetLineHoldsAndReleases : Obligations.ResetLineHoldsAndReleases := by
  unfold Obligations.ResetLineHoldsAndReleases
  refine ⟨⟨fun s => rfl, fun s m d a hlow hheld => ?_, fun s m d a hhigh => ?_⟩,
    fun c s hlow hreset hrelease => ⟨exec_low hlow hreset hrelease, fun hheld => ?_⟩⟩
  · exact congrArg Host.Outcome.next (resetRelease_held hlow hheld m d a)
  · exact congrArg Host.Outcome.next (resetRelease_high hhigh m d a)
  · obtain ⟨hblocks, hsite, -, -⟩ := hheld hlow
    rw [hblocks, hsite]
    exact ⟨rfl, rfl⟩

end Sys2Proof.Machine
end

section
/-! PROOFS. The power-on state, the wire and the ports: the frames, the bodies, the transfers and the arbiter. -/

namespace Sys2Proof.Machine

/-! ## The power-on state -/

/-- Settles O6. -/
theorem otherBlocksRightAfterReset : Obligations.OtherBlocksRightAfterReset := by
  unfold Obligations.OtherBlocksRightAfterReset
  rintro s rfl
  have hbay (b : BayNo) : (Blocks.powerOn false false false).bay b = Bay.powerOn ∧
      Allocator.powerOn.posts[b] = { enabled := false, limit := 0 } ∧ Allocator.powerOn.session b = none ∧
      (SupplyUnit.powerOn false false false).actions[b] = .continue ∧ Allocator.powerOn.actions[b] = .continue ∧
      Book.powerOn.heldReport[b] = false :=
    ⟨powerOn_bay _ _ _ b, by simp [Allocator.powerOn], powerOn_session b, by simp [SupplyUnit.powerOn],
      by simp [Allocator.powerOn], by simp [Book.powerOn]⟩
  have hzone (c : Machine.Class) (z : ZoneNo) : ZoneMap.powerOn.descriptor c z = Descriptor.powerOn := by
    cases c <;> simp [ZoneMap.powerOn, ZoneMap.descriptor]
  exact ⟨rfl, rfl, rfl, hzone, rfl, rfl, rfl, hbay, powerOn_moduleState _ _ _, rfl, rfl, rfl, rfl, rfl,
    fun f => ⟨powerOn_feeder f, powerOn_ceiling f⟩, rfl, rfl, rfl, rfl, rfl, rfl, rfl, rfl, rfl, rfl, rfl, rfl, rfl, rfl,
    rfl, rfl⟩

/-! ## The frames of the wire -/

/-- A frame that passes the site port's check has a tag, a kind, a class byte and a body (R159, R171). -/
theorem parseSite_iff (bytes : List Byte) (r : Request) :
    parseSite bytes = some r ↔ r.body.length ≤ 512 ∧ bytes = siteFrame r := by
  constructor
  · intro h
    unfold parseSite at h
    split at h
    · next tag kind cls rest =>
      obtain ⟨body, hbody, rfl⟩ := Option.map_eq_some_iff.1 h
      obtain ⟨hsize, head, hhead, hbytes⟩ := frameBody_iff.1 hbody
      obtain ⟨a, b, c, rfl⟩ := List.length_eq_three.1 hhead
      simp only [sealed, List.cons_append, List.cons.injEq] at hbytes
      obtain ⟨rfl, rfl, rfl, rfl⟩ := hbytes
      exact ⟨hsize, rfl⟩
    · cases h
  · rintro ⟨hsize, rfl⟩
    have hbody := (frameBody_iff (n := 3)).2 ⟨hsize, [r.tag, r.kind, r.cls], rfl, rfl⟩
    change (frameBody 3 (siteFrame r)).map _ = some r
    rw [siteFrame, hbody]
    rfl

/-- A frame that passes the ramp port's check has a tag, a kind and a body, and is of class PUBLIC (R49, R161, R171). -/
theorem parseRamp_iff (bytes : List Byte) (r : Request) :
    parseRamp bytes = some r ↔ r.cls = 1#8 ∧ r.body.length ≤ 512 ∧ bytes = rampFrameBytes r := by
  constructor
  · intro h
    unfold parseRamp at h
    split at h
    · next tag kind rest =>
      obtain ⟨body, hbody, rfl⟩ := Option.map_eq_some_iff.1 h
      obtain ⟨hsize, head, hhead, hbytes⟩ := frameBody_iff.1 hbody
      obtain ⟨a, b, rfl⟩ := List.length_eq_two.1 hhead
      simp only [sealed, List.cons_append, List.cons.injEq] at hbytes
      obtain ⟨rfl, rfl, rfl⟩ := hbytes
      exact ⟨rfl, hsize, rfl⟩
    · cases h
  · rintro ⟨hcls, hsize, rfl⟩
    have hbody := (frameBody_iff (n := 2)).2 ⟨hsize, [r.tag, r.kind], rfl, rfl⟩
    change (frameBody 2 (rampFrameBytes r)).map _ = some r
    rw [rampFrameBytes, hbody, ← hcls]
    rfl

/-- A ramp frame with a body within the bound is whole (R161). -/
theorem rampComplete_rampFrameBytes {r : Request} (h : r.body.length ≤ 512) :
    rampComplete (rampFrameBytes r) = true := by
  have hlen : ((rampFrameBytes r).drop 2).take 2 = be 2 r.body.length := by
    simp [rampFrameBytes, sealed, List.append_assoc]
  have hbody : beNat (be 2 r.body.length) = r.body.length := beNat_be (by norm_num; omega)
  have hsize : (rampFrameBytes r).length = 4 + r.body.length + 2 := by
    simp [rampFrameBytes, sealed, crcBytes]; omega
  unfold rampComplete
  simp only [hlen, hbody, hsize, if_pos (show r.body.length ≤ Config.bodyMax from h)]
  simp
  omega

/-- The check value of the nine digits (R159). -/
theorem crc16_digits :
    crc16 [0x31#8, 0x32#8, 0x33#8, 0x34#8, 0x35#8, 0x36#8, 0x37#8, 0x38#8, 0x39#8] = 0x29B1#16 := by
  decide +kernel

/-- Settles O17. -/
theorem frameCheckPassesExactlyTheFrames : Obligations.FrameCheckPassesExactlyTheFrames := by
  unfold Obligations.FrameCheckPassesExactlyTheFrames
  refine ⟨parseSite_iff, parseRamp_iff, fun bytes r h => ?_, crc16_digits⟩
  obtain ⟨-, hsize, rfl⟩ := (parseRamp_iff bytes r).1 h
  exact rampComplete_rampFrameBytes hsize

/-! ## Reading a body, part by part (R170) -/

theorem flag_length (b : Bool) : (flag b).length = 1 := rfl

theorem optNum_length (k : Nat) (o : Option Nat) : (optNum k o).length = k + 1 := by
  rw [optNum, List.length_append, be_length, flag_length, Nat.add_comm]

theorem field_skip {pre rest : List Byte} {n off k : Nat} (hpre : pre.length = n) (h : n ≤ off) :
    field (pre ++ rest) off k = field rest (off - n) k := by
  rw [field, field, List.drop_append, hpre, List.drop_eq_nil_of_le (hpre.trans_le h), List.nil_append]

theorem field_skipBe (j v : Nat) (rest : List Byte) {off k : Nat} (h : j ≤ off) :
    field (be j v ++ rest) off k = field rest (off - j) k := field_skip (be_length j v) h

theorem field_skipFlag (b : Bool) (rest : List Byte) {off k : Nat} (h : 1 ≤ off) :
    field (flag b ++ rest) off k = field rest (off - 1) k := field_skip (flag_length b) h

theorem field_skipOptNum (j : Nat) (o : Option Nat) (rest : List Byte) {off k : Nat} (h : j + 1 ≤ off) :
    field (optNum j o ++ rest) off k = field rest (off - (j + 1)) k := field_skip (optNum_length j o) h

theorem field_read (rest : List Byte) {k v : Nat} (h : v < 256 ^ k) : field (be k v ++ rest) 0 k = v :=
  field_be [] rest h

theorem field_readLast {k v : Nat} (h : v < 256 ^ k) : field (be k v) 0 k = v := by
  rw [← List.append_nil (be k v), field_read [] h]

theorem optField_skipBe (j v : Nat) (rest : List Byte) {off k : Nat} (h : j ≤ off) :
    optField (be j v ++ rest) off k = optField rest (off - j) k := by
  rw [optField, optField, field_skipBe _ _ _ h, field_skipBe _ _ _ (Nat.le_add_right_of_le h), Nat.sub_add_comm h]

theorem optField_read (rest : List Byte) {k : Nat} {o : Option Nat} (h : ∀ g ∈ o, g < 256 ^ k) :
    optField (optNum k o ++ rest) 0 k = some o := by
  have hthere : field (optNum k o ++ rest) 0 1 = beNat (flag o.isSome) :=
    field_of_parts (pre := []) (post := be k (o.getD 0) ++ rest) (by rw [optNum, List.append_assoc]; rfl) rfl rfl
  have hnum : field (optNum k o ++ rest) 1 k = beNat (be k (o.getD 0)) :=
    field_of_parts (pre := flag o.isSome) (post := rest) (by rw [optNum, List.append_assoc]) rfl (be_length _ _)
  rw [optField, hthere, hnum, optional_read k o h]

theorem yesNo_read (b : Bool) (rest : List Byte) : yesNo (field (flag b ++ rest) 0 1) = some b := by cases b <;> rfl

theorem yesNo_readLast (b : Bool) : yesNo (field (flag b) 0 1) = some b := by cases b <;> rfl

theorem tokenField_skipBe (j v : Nat) (rest : List Byte) {off : Nat} (h : j ≤ off) :
    tokenField (be j v ++ rest) off = tokenField rest (off - j) := by rw [tokenField, tokenField, field_skipBe _ _ _ h]

theorem tokenField_read (t : Token) (rest : List Byte) : tokenField (be 8 t.toNat ++ rest) 0 = t := by
  rw [tokenField, field_read rest (by simpa using t.isLt), BitVec.ofNat_toNat, BitVec.setWidth_eq]

theorem tokenField_readLast (t : Token) : tokenField (be 8 t.toNat) 0 = t := by
  rw [← List.append_nil (be 8 t.toNat), tokenField_read]

/-! ## The bodies of the bookings (02 section 2.4) -/

theorem bayRef_zone (z : ZoneNo) (i : Nat) : bayRef z.val i = some (.zone z i) := dif_pos z.isLt

theorem bayRef_direct (b : BayNo) : bayRef 255 b.val = some (.direct b) := by
  have hb : bayOf b.val = some b := dif_pos b.isLt
  rw [bayRef, dif_neg (by decide), if_pos (show 255 = directCode from rfl), hb]
  rfl

/-- The default grace stands for the one BOOK NOW does not send (R38). -/
theorem inRange_now {f : Booking} (h : f.inRange = true) (m : Nat) :
    ({ f with start := m - m % 5, grace := none } : Booking).inRange = true := by
  simp only [Booking.inRange, Bool.and_eq_true, beq_iff_eq, Option.all_none] at h ⊢
  obtain ⟨⟨⟨⟨⟨htoken, -⟩, hlength⟩, hstep⟩, -⟩, hdraw⟩ := h
  exact ⟨⟨⟨⟨⟨htoken, by omega⟩, hlength⟩, hstep⟩, trivial⟩, hdraw⟩

section
variable {f : Booking} (h : f.inRange = true)
include h

theorem bookBayFields_read (hstart : f.start < 4294967296) {zone sel : Nat} (hzone : zone < 256) (hsel : sel < 256) :
    bookBayFields (be 8 f.token.toNat ++ be 1 zone ++ be 1 sel ++ be 4 f.start ++ be 2 f.length ++ optNum 2 f.grace ++
      be 2 f.draw ++ flag f.accessible) = (bayRef zone sel).map fun ref => (ref, f) := by
  obtain ⟨hlength, hdraw, hgrace, -⟩ := inRange_bounds h
  have hopt := fun rest => optField_read (k := 2) rest hgrace
  simp [bookBayFields, field_skipBe, field_skipOptNum, field_read, optField_skipBe, tokenField_read, yesNo_readLast,
    optNum_length, flag_length, *]
  cases bayRef zone sel <;> rfl

theorem bookZoneFields_read (hstart : f.start < 4294967296) (z : ZoneNo) :
    bookZoneFields (be 8 f.token.toNat ++ be 1 z.val ++ be 4 f.start ++ be 2 f.length ++ optNum 2 f.grace ++
      be 2 f.draw ++ flag f.accessible) = some (z, f) := by
  obtain ⟨hlength, hdraw, hgrace, -⟩ := inRange_bounds h
  have hopt := fun rest => optField_read (k := 2) rest hgrace
  have hzone : z.val < 256 := z.isLt.trans (by decide)
  simp [bookZoneFields, field_skipBe, field_skipOptNum, field_read, optField_skipBe, tokenField_read, yesNo_readLast,
    optNum_length, flag_length, *]

theorem bookNowFields_read (m : Nat) {zone sel : Nat} (hzone : zone < 256) (hsel : sel < 256) :
    bookNowFields m (be 8 f.token.toNat ++ be 1 zone ++ be 1 sel ++ be 2 f.length ++ be 2 f.draw ++ flag f.accessible) =
      (bayRef zone sel).map fun ref => (ref, { f with start := m - m % 5, grace := none }) := by
  obtain ⟨hlength, hdraw, -, -⟩ := inRange_bounds h
  have hnow := inRange_now h m
  simp [bookNowFields, field_skipBe, field_read, tokenField_read, yesNo_readLast, flag_length, *]
  cases bayRef zone sel <;> rfl

end

/-! ## The body of CONFIGURE BAY (R81) -/

theorem bayClass_ofCode (x : BayClass) : BayClass.ofCode x.code = some x := by cases x <;> rfl

theorem action_ofCode (x : Action) : Action.ofCode x.code = some x := by cases x <;> rfl

/-- The group byte, bit for bit (R170). -/
def groupByte (v : Vector Bool 3) : Nat := (if v[0] then 1 else 0) + (if v[1] then 2 else 0) + (if v[2] then 4 else 0)

theorem groupsOf_groupByte (v : Vector Bool 3) : groupByte v < 8 ∧ groupsOf (groupByte v) = some v := by
  obtain ⟨a, b, c, rfl⟩ : ∃ a b c, v = #v[a, b, c] := ⟨v[0], v[1], v[2], by ext i hi; interval_cases i <;> rfl⟩
  cases a <;> cases b <;> cases c <;> decide

theorem configureFields_read (b : BayNo) (x : BayConfig) (hlow : 6 ≤ x.maxDraw) (hhigh : x.maxDraw ≤ 80) :
    configureFields (be 1 b.val ++ be 1 x.feeder.val ++ be 1 x.cls.code ++ be 2 x.maxDraw ++ be 1 (groupByte x.groups) ++
      be 1 x.quiet.code ++ be 1 x.clear.code ++ flag x.autocut ++ flag x.rejoin) = some (b, x) := by
  obtain ⟨hbyte, hgroups⟩ := groupsOf_groupByte x.groups
  have hdraw : x.maxDraw < 65536 := by omega
  have hbyte : groupByte x.groups < 256 := by omega
  have hbay : b.val < 256 := b.isLt.trans (by decide)
  have hfeeder : x.feeder.val < 256 := x.feeder.isLt.trans (by decide)
  have hcls : x.cls.code < 256 := by cases x.cls <;> decide
  have hquiet : x.quiet.code < 256 := by cases x.quiet <;> decide
  have hclear : x.clear.code < 256 := by cases x.clear <;> decide
  have hbayOf : bayOf b.val = some b := dif_pos b.isLt
  have hfeederOf : feederOf x.feeder.val = some x.feeder := dif_pos x.feeder.isLt
  simp [configureFields, field_skipBe, field_skipFlag, field_read, yesNo_read, yesNo_readLast, flag_length,
    bayClass_ofCode, action_ofCode, *]

/-! ## The bodies that name a ticket (R7) -/

theorem ticketField_read {t : Ticket} (hslot : t.slot < 65536) (hgen : t.gen < 256) (rest : List Byte) :
    ticketField (be 2 t.slot ++ (be 1 t.gen ++ rest)) 0 = t := by
  simp [ticketField, field_skipBe, field_read, *]

theorem tokenOk_of {c : Machine.Class} {token : Token} (h : c = .operator ∨ token ≠ 0) : tokenOk c token = true := by
  rw [tokenOk, Bool.or_eq_true, beq_iff_eq, bne_iff_ne]
  exact h

/-- Settles O18. -/
theorem requestBodiesAreReadBack : Obligations.RequestBodiesAreReadBack := by
  unfold Obligations.RequestBodiesAreReadBack
  have hdirect (b : BayNo) : b.val < 256 := b.isLt.trans (by decide)
  have hzone (z : ZoneNo) : z.val < 256 := z.isLt.trans (by decide)
  refine ⟨fun f h hstart => ⟨fun z i hi => ?_, fun b => ?_, bookZoneFields_read h hstart, fun m z i hi => ?_,
    fun m b => ?_⟩, configureFields_read, fun t token named hslot hgen hnamed => ⟨?_, fun c hc => ⟨?_, ?_⟩⟩,
    fun z i hi => ?_, fun b => ?_⟩
  · rw [bookBayFields_read h hstart (hzone z) hi, bayRef_zone]; rfl
  · rw [bookBayFields_read h hstart (by decide) (hdirect b), bayRef_direct]; rfl
  · rw [bookNowFields_read h m (hzone z) hi, bayRef_zone]; rfl
  · rw [bookNowFields_read h m (by decide) (hdirect b), bayRef_direct]; rfl
  · subst hnamed
    simp [endSessionFields, ticketField_read hslot hgen]
  · subst hnamed
    simp [ticketFields, ticketField_read hslot hgen, tokenField_skipBe, tokenField_readLast, tokenOk_of hc]
  · intro ext hlow hhigh hstep
    subst hnamed
    have hext : ext < 65536 := by omega
    simp [extendFields, ticketField_read hslot hgen, tokenField_skipBe, tokenField_read, tokenOk_of hc, field_skipBe,
      field_readLast, *]
  · simp [listBayFields, field_skipBe, field_read, field_readLast, hzone, hi, bayRef_zone]
  · simp [listBayFields, field_skipBe, field_read, field_readLast, hdirect, bayRef_direct]

/-! ## The site port (R159, R160) -/

theorem siteWrite_bad {bytes : List Byte} (h : parseSite bytes = none) (s : State) :
    siteWrite bytes s =
      (s.withSite { s.site with spiOut := List.replicate (bytes.length + 1) 0#8 }).raise .sitePort .frameError := by
  unfold siteWrite
  rw [h]

theorem siteWrite_good {bytes : List Byte} {r : Request} (h : parseSite bytes = some r) (s : State) :
    siteWrite bytes s =
      if s.site.slot.isSome then
        (s.withSite { s.site with spiOut := List.replicate (bytes.length + 1) 0#8 }).raise .sitePort .portOverrun
      else s.withSite { s.site with
        slot := some { request := r, served := false }, spiOut := List.replicate (bytes.length + 1) 0#8 } := by
  unfold siteWrite
  rw [h]
  rfl

theorem siteBadTransfer_bad {bytes : List Byte} (hwrite : bytes.head? ≠ some 1#8) (hread : bytes.head? ≠ some 2#8)
    (s : State) : siteBadTransfer bytes s = s.raise .sitePort .frameError := by
  have hbad : isTransfer bytes = false := by
    cases bytes with
    | nil => rfl
    | cons b bs =>
      rw [List.head?_cons, ne_eq, Option.some_inj] at hwrite hread
      rw [isTransfer, Bool.or_eq_false_iff, beq_eq_false_iff_ne, beq_eq_false_iff_ne]
      exact ⟨hwrite, hread⟩
  rw [siteBadTransfer, hbad, if_neg Bool.false_ne_true]

theorem siteRead_idle {s : State} (h : s.site.ready = false) (n : Nat) :
    siteRead n s = s.withSite { s.site with spiOut := shiftedOut Response.empty.frame n } := by
  unfold siteRead
  rw [h]

theorem siteRead_ready {s : State} {x : Response} (h : s.site.ready = true) (hx : s.site.response = some x) (n : Nat) :
    siteRead n s =
      if x.frame.length ≤ n then
        s.withSite { slot := none, response := none, ready := false, spiOut := shiftedOut x.frame n }
      else s.withSite { s.site with spiOut := shiftedOut x.frame n } := by
  unfold siteRead
  rw [h, hx]

theorem shiftedOut_part {frame : List Byte} {n : Nat} (h : n < frame.length) : shiftedOut frame n = frame.take n := by
  rw [shiftedOut, Nat.sub_eq_zero_of_le h.le, List.replicate_zero, List.append_nil]

theorem shiftedOut_whole {frame : List Byte} {n : Nat} (h : frame.length ≤ n) :
    shiftedOut frame n = frame ++ List.replicate (n - frame.length) 0#8 := by
  rw [shiftedOut, List.take_of_length_le h]

/-- Settles O19. -/
theorem siteTransfersAct : Obligations.SiteTransfersAct := by
  unfold Obligations.SiteTransfersAct
  have run {f : State → State} {s t : State} (hlow : s.resetLow = false) (h : f s = t) : whileRunning f s = .next t :=
    (whileRunning_high f hlow).trans (congrArg Host.Outcome.next h)
  refine ⟨fun s bytes hlow => ⟨fun hbad => ?_, fun r hgood hslot => ?_, fun r hgood hslot => ?_, fun hwrite hread => ?_⟩,
    fun s n hlow => ⟨fun hready e he => ?_, fun x hready hx e he => ⟨fun hn => ?_, fun hn => ?_⟩⟩⟩
  · exact run hlow (siteWrite_bad hbad s)
  · exact run hlow ((siteWrite_good hgood s).trans (if_pos (Option.isSome_iff_ne_none.2 hslot)))
  · exact run hlow ((siteWrite_good hgood s).trans (if_neg (by simp [hslot])))
  · exact run hlow (siteBadTransfer_bad hwrite hread s)
  · subst he
    exact run hlow (siteRead_idle hready n)
  · replace he : e = x.frame := he
    subst he
    rw [← shiftedOut_part hn]
    exact run hlow ((siteRead_ready hready hx n).trans (if_neg hn.not_ge))
  · replace he : e = x.frame := he
    subst he
    rw [← shiftedOut_whole hn]
    exact run hlow ((siteRead_ready hready hx n).trans (if_pos hn))

/-! ## The ramp port (R161) -/

theorem rampFrame_bad {bytes : List Byte} {s : State} (hrec : s.ramp.receiving = true)
    (hwhole : rampComplete bytes = true) (h : parseRamp bytes = none) :
    rampFrame bytes s = (s.withRamp { s.ramp with receiving := false }).raise .rampPort .frameError := by
  unfold rampFrame
  rw [hrec, hwhole, Bool.and_self, if_pos rfl, h]

theorem rampFrame_good {bytes : List Byte} {s : State} {r : Request} (hrec : s.ramp.receiving = true)
    (hwhole : rampComplete bytes = true) (h : parseRamp bytes = some r) :
    rampFrame bytes s =
      if s.ramp.slot.isSome then (s.withRamp { s.ramp with receiving := false }).raise .rampPort .portOverrun
      else s.withRamp { s.ramp with receiving := false, slot := some { request := r, served := false } } := by
  unfold rampFrame
  rw [hrec, hwhole, Bool.and_self, if_pos rfl, h]
  rfl

/-- Settles O20. -/
theorem rampPortTakesFrames : Obligations.RampPortTakesFrames := by
  unfold Obligations.RampPortTakesFrames
  intro s hlow
  have run {f : State → State} {t : State} (h : f s = t) : whileRunning f s = .next t :=
    (whileRunning_high f hlow).trans (congrArg Host.Outcome.next h)
  refine ⟨run (f := rampFrameStart) rfl, fun hrec => ⟨fun bytes hwhole => ⟨fun hbad => ?_, fun r hgood hslot => ?_,
    fun r hgood hslot => ?_⟩, ?_⟩, fun htx => ?_⟩
  · exact run (rampFrame_bad hrec hwhole hbad)
  · exact run ((rampFrame_good hrec hwhole hgood).trans (if_pos (Option.isSome_iff_ne_none.2 hslot)))
  · exact run ((rampFrame_good hrec hwhole hgood).trans (if_neg (by simp [hslot])))
  · exact run (f := rampByteTimeout) (if_pos hrec)
  · exact run (f := rampResponseSent) (if_pos (Option.isSome_iff_ne_none.2 htx))

/-! ## The arbiter (R162) -/

theorem nextTurn_of_rotation {s : State} {x y z : Source} (h : rotation s.lastServed = [x, y, z]) :
    s.nextTurn =
      if s.sourceWaits x then some x
      else if s.sourceWaits y then some y
      else if s.sourceWaits z then some z
      else none := by
  rw [State.nextTurn, h]
  cases hx : s.sourceWaits x <;> cases hy : s.sourceWaits y <;> cases hz : s.sourceWaits z <;> simp [*]

/-- Settles O21. -/
theorem arbiterRotates : Obligations.ArbiterRotates := by
  unfold Obligations.ArbiterRotates
  intro s
  refine ⟨unserved_isSome s.site.slot, unserved_isSome s.ramp.slot, ?_, fun x y z h => nextTurn_of_rotation ?_⟩
  · rw [State.sourceWaits, Bool.not_eq_true', List.isEmpty_eq_false_iff]
  · rcases h with ⟨hlast, rfl, rfl, rfl⟩ | ⟨hlast, rfl, rfl, rfl⟩ | ⟨hlast, rfl, rfl, rfl⟩ <;> rw [hlast] <;> rfl

end Sys2Proof.Machine
end

section
/-! PROOFS. A body of the wrong length, or with a field out of its range, refuses its request. -/

namespace Sys2Proof.Machine

/-! ## The field check of a request (R163) -/

/-- The body of a request of kind `k` and class `c` is not as long as its fields call for, or is and holds a field out of
its range. -/
def BadBody (k : Nat) (c : Machine.Class) (body : List Byte) : Prop :=
  body.length ≠ bodyLength k ∨ body.length = bodyLength k ∧ fieldOutOfRange k c (field body)

/-- A parser that reads no body of another length and no field out of its range reads no bad body. -/
theorem BadBody.none {k : Nat} {c : Machine.Class} {body : List Byte} (h : BadBody k c body) {α : Type} {fields : Option α}
    (hlength : body.length ≠ bodyLength k → fields = none)
    (hrange : ∀ x, fields = some x → ¬fieldOutOfRange k c (field body)) : fields = .none := by
  rcases h with h | ⟨-, h⟩
  · exact hlength h
  · exact refused_of hrange h

/-- DIRECT is named by OPERATOR alone, in the requests that can name it (R51). -/
def DirectByOperator (k : Nat) (c : Machine.Class) (body : List Byte) : Prop :=
  body.length = bodyLength k →
    (k = 1 ∨ k = 3 → field body 8 1 = 255 → c = .operator) ∧ (k = 9 → field body 0 1 = 255 → c = .operator)

theorem not_classDenied {n off : Nat} {c : Machine.Class} {body : List Byte}
    (h : body.length = n → field body off 1 = 255 → c = .operator) : ¬(c ≠ .operator ∧ namesDirect n off body = true) := by
  rintro ⟨hc, hn⟩
  rw [namesDirect, Bool.and_eq_true, beq_iff_eq, beq_iff_eq] at hn
  exact hc (h hn.1 hn.2)

theorem withNoField_badBody {k : Nat} {c : Machine.Class} {body : List Byte} (h : BadBody k c body)
    (hk : bodyLength k = 0) (hrange : fieldOutOfRange k c (field body) → False) (bad : Blocks → List Byte)
    (judge : Port → Machine.Class → Blocks → Answer) (port : Port) (p : Blocks) :
    withNoField bad judge port c body p = { blocks := p, status := .badField, body := bad p } := by
  rcases h with h | ⟨-, h⟩
  · rw [hk, ne_eq, List.length_eq_zero_iff, ← List.isEmpty_iff] at h
    exact if_neg h
  · exact (hrange h).elim

/-- A bad body is refused BAD_FIELD, once the checks before that of the fields have passed: no kind's parser reads it. -/
theorem judgeOf_badBody {k : Nat} {c : Machine.Class} {body : List Byte} (h : BadBody k c body) (hlow : 1 ≤ k)
    (hhigh : k ≤ 36) {p : Blocks} (hopened : k ≤ 3 → p.level = .opened)
    (hconfiguring : k = 29 ∨ k = 30 → p.level = .configuring) (hdirect : DirectByOperator k c body) (port : Port) :
    judgeOf k port c body p = { blocks := p, status := .badField, body := refusalBody k p } := by
  interval_cases k
  · have hn : bookBayFields body = .none := h.none (fun hl => if_pos hl) fun _ hx => bookBayFields_some hx
    change judgeBookBay port c body p = _
    rw [judgeBookBay, if_neg (not_classDenied (n := 22) fun hl => (hdirect hl).1 (.inl rfl)), if_neg (not_not.2 (hopened (by decide))), hn]
    rfl
  · have hn : bookZoneFields body = .none := h.none (fun hl => if_pos hl) fun _ hx => bookZoneFields_some hx
    change judgeBookZone port c body p = _
    rw [judgeBookZone, if_neg (not_not.2 (hopened (by decide))), hn]
    rfl
  · have hn : bookNowFields p.now body = .none := h.none (fun hl => if_pos hl) fun _ hx => bookNowFields_some hx
    change judgeBookNow port c body p = _
    rw [judgeBookNow, if_neg (not_classDenied (n := 15) fun hl => (hdirect hl).1 (.inr rfl)), if_neg (not_not.2 (hopened (by decide))), hn]
    rfl
  · have hn : extendFields c body = .none := h.none (fun hl => if_neg fun hc => hl hc.1) fun _ hx => extendFields_some hx
    change judgeExtend port c body p = _
    rw [judgeExtend, hn]
    rfl
  · have hn : ticketFields c body = .none := h.none (fun hl => if_neg fun hc => hl hc.1) fun _ hx => ticketFields_some hx 5 (by decide)
    change judgeCancel port c body p = _
    rw [judgeCancel, hn]
    rfl
  · have hn : ticketFields c body = .none := h.none (fun hl => if_neg fun hc => hl hc.1) fun _ hx => ticketFields_some hx 6 (by decide)
    change judgeClaim port c body p = _
    rw [judgeClaim, hn]
    rfl
  · have hn : ticketFields c body = .none := h.none (fun hl => if_neg fun hc => hl hc.1) fun _ hx => ticketFields_some hx 7 (by decide)
    change judgeLookup port c body p = _
    rw [judgeLookup, hn]
    rfl
  · have hn : findTokenFields body = .none := h.none (fun hl => if_neg fun hc => hl hc.1) fun _ hx => findTokenFields_some hx
    change judgeFindToken port c body p = _
    rw [judgeFindToken, hn]
    rfl
  · have hn : listBayFields body = .none := h.none (fun hl => if_neg hl) fun _ hx => listBayFields_some hx
    change judgeListBay port c body p = _
    rw [judgeListBay, if_neg (not_classDenied (n := 2) fun hl => (hdirect hl).2 rfl), hn]
    rfl
  · have hn : endSessionFields body = .none := h.none (fun hl => if_neg hl) fun _ hx => not_false
    change judgeEndSession port c body p = _
    rw [judgeEndSession, hn]
    rfl
  · have hn : ticketFields c body = .none := h.none (fun hl => if_neg fun hc => hl hc.1) fun _ hx => ticketFields_some hx 11 (by decide)
    change judgeCollect port c body p = _
    rw [judgeCollect, hn]
    rfl
  · have hn : poolStatusFields body = .none := h.none (fun hl => if_neg fun hc => hl hc.1) fun _ hx => poolStatusFields_some hx
    change judgePoolStatus port c body p = _
    rw [judgePoolStatus, hn]
    rfl
  · have hn : writeZoneFields body = .none := h.none (fun hl => if_pos hl) fun _ hx => writeZoneFields_some hx
    change judgeWriteZone port c body p = _
    rw [judgeWriteZone, hn]
    rfl
  · have hn : readZoneFields body = .none := h.none (fun hl => if_pos hl) fun _ hx => readZoneFields_some hx
    change judgeReadZone port c body p = _
    rw [judgeReadZone, hn]
    rfl
  · exact withNoField_badBody h rfl id noBody judgeReadAccessFault port p
  · exact withNoField_badBody h rfl id noBody judgeClearAccessFault port p
  · have hn : configureFields body = .none := h.none (fun hl => if_pos hl) fun _ hx => configureFields_some hx
    change judgeConfigureBay port c body p = _
    rw [judgeConfigureBay, hn]
    rfl
  · have hn : bayFields body = .none := h.none (fun hl => if_neg hl) fun _ hx => bayFields_some hx 18 (by decide)
    change judgeEnableBay port c body p = _
    rw [judgeEnableBay, hn]
    rfl
  · have hn : bayFields body = .none := h.none (fun hl => if_neg hl) fun _ hx => bayFields_some hx 19 (by decide)
    change judgeDisableBay port c body p = _
    rw [judgeDisableBay, hn]
    rfl
  · have hn : bayFields body = .none := h.none (fun hl => if_neg hl) fun _ hx => bayFields_some hx 20 (by decide)
    change judgeClearFault port c body p = _
    rw [judgeClearFault, hn]
    rfl
  · have hn : bayFields body = .none := h.none (fun hl => if_neg hl) fun _ hx => bayFields_some hx 21 (by decide)
    change judgeReadBay port c body p = _
    rw [judgeReadBay, hn]
    rfl
  · have hn : feederAmps body = .none := h.none (fun hl => if_neg fun hc => hl hc.1) fun _ hx => feederAmps_some hx 22 (by decide)
    change judgeSetBudget port c body p = _
    rw [judgeSetBudget, hn]
    rfl
  · have hn : feederAmps body = .none := h.none (fun hl => if_neg fun hc => hl hc.1) fun _ hx => feederAmps_some hx 23 (by decide)
    change judgeSetReserveCeiling port c body p = _
    rw [judgeSetReserveCeiling, hn]
    rfl
  · have hn : feederFields body = .none := h.none (fun hl => if_neg hl) fun _ hx => feederFields_some hx
    change judgeReadFeeder port c body p = _
    rw [judgeReadFeeder, hn]
    rfl
  · have hn : groupFields body = .none := h.none (fun hl => if_pos hl) fun _ hx => groupFields_some hx
    change judgeSetGroupLevel port c body p = _
    rw [judgeSetGroupLevel, hn]
    rfl
  · have hn : targetFields body = .none := h.none (fun hl => if_neg hl) fun _ hx => targetFields_some hx
    change judgeSelectSupply port c body p = _
    rw [judgeSelectSupply, hn]
    rfl
  · exact withNoField_badBody h rfl id noBody judgeSwitchSupply port p
  · exact withNoField_badBody h rfl id noBody judgeReadSupply port p
  · have hn : clockFields body = .none := h.none (fun hl => if_neg fun hc => hl hc.1) fun _ hx => clockFields_some hx
    change judgeSetClock port c body p = _
    rw [judgeSetClock, if_neg (not_not.2 (hconfiguring (by decide))), hn]
    rfl
  · have hn : parameterFields p.params body = .none := h.none (fun hl => if_pos hl) fun _ hx => parameterFields_some hx
    change judgeSetParameters port c body p = _
    rw [judgeSetParameters, if_neg (not_not.2 (hconfiguring (by decide))), hn]
    rfl
  · exact withNoField_badBody h rfl id levelReport judgeOpenLevel port p
  · have hn : scopeFields body = .none := h.none (fun hl => if_pos hl) fun _ hx => scopeFields_some hx
    change judgeRestart body p = _
    rw [judgeRestart, hn]
    rfl
  · exact withNoField_badBody h rfl id noBody judgeReadNotices port p
  · have hn : clearFields body = .none := h.none (fun hl => if_pos hl) fun _ hx => clearFields_some hx
    change judgeClearNotices port c body p = _
    rw [judgeClearNotices, hn]
    rfl
  · have hn : maskFields body = .none := h.none (fun hl => if_neg hl) fun _ hx => maskFields_some hx
    change judgeSetMask port c body p = _
    rw [judgeSetMask, hn]
    rfl
  · exact withNoField_badBody h rfl id noBody judgeIdentify port p

/-- A permitted request in its turn whose body is bad is refused BAD_FIELD. -/
theorem exec_badBody {i : Instr} {s : State} {port : Port} {r : Request} {c : Machine.Class} (hw : i.wf = true)
    (hr : i.request = some (port, r)) (hlow : 1 ≤ r.kind.toNat) (hhigh : r.kind.toNat ≤ 36)
    (hs : s.Serves r.kind.toNat port c r) (hmay : permitted r.kind.toNat port c = true)
    (hopened : r.kind.toNat ≤ 3 → s.blocks.level = .opened)
    (hconfiguring : r.kind.toNat = 29 ∨ r.kind.toNat = 30 → s.blocks.level = .configuring)
    (hdirect : DirectByOperator r.kind.toNat c r.body) (hbad : BadBody r.kind.toNat c r.body) :
    exec i s = .next (s.finishTurn port r
      { blocks := s.blocks, status := .badField, body := refusalBody r.kind.toNat s.blocks }) := by
  obtain ⟨hdue, -, hclass⟩ := hs
  rw [exec_known hw hr hdue hlow hhigh, judged_allowed hclass hmay,
    judgeOf_badBody hbad hlow hhigh hopened hconfiguring hdirect]

/-- Settles O24. -/
theorem wrongBodyLengthIsBadField : Obligations.WrongBodyLengthIsBadField := by
  unfold Obligations.WrongBodyLengthIsBadField
  refine ⟨fun i s port r c num hw hr hlow hhigh hs hmay hopened hconfiguring hnum => ?_,
    fun k v h => ⟨be_length k v, beNat_be h⟩⟩
  obtain rfl : num = field r.body := funext fun off => funext (hnum off)
  exact ⟨fun hl => exec_badBody hw hr hlow hhigh hs hmay hopened hconfiguring (fun hl' => absurd hl' hl) (.inl hl),
    fun hl hrange hbook hlist =>
      exec_badBody hw hr hlow hhigh hs hmay hopened hconfiguring (fun _ => ⟨hbook, hlist⟩) (.inr ⟨hl, hrange⟩)⟩

end Sys2Proof.Machine
end

section
/-! PROOFS. Tickets, translation, availability, fit and gap, and the zone fault that is captured. -/

namespace Sys2Proof.Machine

/-- A request in its turn that its port and class may send is answered by its row's judgement. -/
theorem State.Serves.answered {s : State} {k : Nat} {port : Port} {c : Machine.Class} {r : Request}
    (h : s.Serves k port c r) {may : Permission} {refused : Blocks → List Byte}
    {judge : Port → Machine.Class → List Byte → Blocks → Answer} (hmay : may port c = true) {a : Answer}
    (hjudge : judge port c r.body s.blocks = a) :
    serve (ofKind k) may refused judge port r s = .next (s.finishTurn port r a) := by
  rw [serve_of_serves h may refused judge hmay, hjudge]

/-! ## Tickets (R6, R7) -/

theorem slotOf_val (sl : Slot) : slotOf sl.val = some sl := dif_pos sl.isLt

theorem slotOf_none {n : Nat} (h : 640 ≤ n) : slotOf n = none := dif_neg h.not_gt

theorem resolve_noSlot (k : Book) (c : Machine.Class) {t : Ticket} (token : Token) (h : 640 ≤ t.slot) :
    k.resolve c t token = .error .noSuchTicket := by
  unfold Book.resolve
  rw [slotOf_none h]

section
variable {k : Book} {c : Machine.Class} {t : Ticket} {token : Token} {sl : Slot}

theorem resolve_stale (hsl : t.slot = sl.val) (hgen : t.gen ≠ k.gens[sl]) :
    k.resolve c t token = .error .staleTicket := by
  unfold Book.resolve
  rw [hsl, slotOf_val]
  exact if_pos hgen

theorem resolve_empty (hsl : t.slot = sl.val) (hgen : t.gen = k.gens[sl]) (hr : k.rec? sl = none) :
    k.resolve c t token = .error .noSuchTicket := by
  unfold Book.resolve
  rw [hsl, slotOf_val]
  refine (if_neg (not_not.2 hgen)).trans ?_
  rw [hr]

theorem resolve_record {r : Record} (hsl : t.slot = sl.val) (hgen : t.gen = k.gens[sl]) (hr : k.rec? sl = some r) :
    k.resolve c t token = if c ≠ .operator ∧ token ≠ r.token then .error .noSuchTicket else .ok (sl, r) := by
  unfold Book.resolve
  rw [hsl, slotOf_val]
  refine (if_neg (not_not.2 hgen)).trans ?_
  rw [hr]

end

section
variable {p : Blocks} {c : Machine.Class} {body : List Byte} {t : Ticket} {token : Token} {st : Status} (port : Port)

theorem judgeCancel_unresolved (hf : ticketFields c body = some (t, token)) (h : p.book.resolve c t token = .error st) :
    judgeCancel port c body p = refuse p st := by
  unfold judgeCancel
  simp only [hf, h]

theorem judgeClaim_unresolved (hf : ticketFields c body = some (t, token)) (h : p.book.resolve c t token = .error st) :
    judgeClaim port c body p = refuse p st := by
  unfold judgeClaim
  simp only [hf, h]

theorem judgeLookup_unresolved (hf : ticketFields c body = some (t, token)) (h : p.book.resolve c t token = .error st) :
    judgeLookup port c body p = refuse p st := by
  unfold judgeLookup
  simp only [hf, h]

theorem judgeCollect_unresolved (hf : ticketFields c body = some (t, token)) (h : p.book.resolve c t token = .error st) :
    judgeCollect port c body p = refuse p st := by
  unfold judgeCollect
  simp only [hf, h]

theorem judgeExtend_unresolved {n : Nat} (hf : extendFields c body = some (t, token, n))
    (h : p.book.resolve c t token = .error st) : judgeExtend port c body p = refuse p st := by
  unfold judgeExtend
  simp only [hf, h]

theorem judgeEndSession_unresolved (hf : endSessionFields body = some t) (h : p.book.resolve c t 0 = .error st) :
    judgeEndSession port c body p = refuse p st := by
  unfold judgeEndSession
  simp only [hf, h]

end

/-- OPERATOR's requests compare no token (R7). -/
theorem resolve_operator (k : Book) (t : Ticket) (token token' : Token) :
    k.resolve .operator t token = k.resolve .operator t token' := by
  unfold Book.resolve
  simp only [ne_eq, not_true_eq_false, false_and, if_false]

/-- END SESSION is OPERATOR's (R16). -/
theorem operator_of_permitted {port : Port} {c : Machine.Class} (h : operatorOnly port c = true) : c = .operator := by
  rw [operatorOnly, Bool.and_eq_true, beq_iff_eq, beq_iff_eq] at h
  exact h.2

/-- Settles O25. -/
theorem ticketsResolveOrRefuse : Obligations.TicketsResolveOrRefuse := by
  unfold Obligations.TicketsResolveOrRefuse
  refine ⟨fun k c t token => ⟨resolve_noSlot k c token, fun sl hsl => ⟨resolve_stale hsl, fun hgen =>
    ⟨resolve_empty hsl hgen, fun r hr => ⟨fun h => ?_, fun h => ?_⟩⟩⟩⟩, ?_⟩
  · rw [resolve_record hsl hgen hr, if_pos h]
  · rw [resolve_record hsl hgen hr, if_neg (by tauto)]
  · rintro s port c r t token st hst a rfl
    refine ⟨fun hf => ⟨fun h => ?_, fun h => ?_, fun h => ?_, fun h hmay => ?_⟩, fun n hf h => ?_, fun hf h hmay => ?_⟩
    · exact h.answered rfl (judgeCancel_unresolved port hf hst)
    · exact h.answered rfl (judgeClaim_unresolved port hf hst)
    · exact h.answered rfl (judgeLookup_unresolved port hf hst)
    · exact h.answered hmay (judgeCollect_unresolved port hf hst)
    · exact h.answered rfl (judgeExtend_unresolved port hf hst)
    · obtain rfl := operator_of_permitted hmay
      exact h.answered hmay (judgeEndSession_unresolved port hf ((resolve_operator _ _ _ _).trans hst))

/-! ## Translation (R53) -/

theorem bayOf_none {n : Nat} (h : 96 ≤ n) : bayOf n = none := dif_neg h.not_gt

theorem bayOf_val (b : BayNo) : bayOf b.val = some b := dif_pos b.isLt

theorem bayAt_up {d : Descriptor} (h : d.direction = .up) (i : Nat) : d.bayAt i = bayOf (d.base.val + i) := by
  unfold Descriptor.bayAt
  rw [h]

theorem bayAt_down {d : Descriptor} (h : d.direction = .down) (i : Nat) :
    d.bayAt i = if i ≤ d.base.val then bayOf (d.base.val - i) else none := by
  unfold Descriptor.bayAt
  rw [h]

theorem translate_outside {d : Descriptor} (allows : Access → Bool) {i : Nat} (h : d.access ≠ .closed) (hi : i < d.length)
    (hbay : d.bayAt i = none) : d.translate allows i = .error .outOfZone := by
  unfold Descriptor.translate
  rw [if_neg h, if_neg hi.not_ge, hbay]

theorem translate_inside {d : Descriptor} (allows : Access → Bool) {i : Nat} (h : d.access ≠ .closed) (hi : i < d.length)
    {b : BayNo} (hbay : d.bayAt i = some b) :
    d.translate allows i = if allows d.access then .ok b else .error .readOnly := by
  unfold Descriptor.translate
  rw [if_neg h, if_neg hi.not_ge, hbay]

theorem bayAt_eq {d : Descriptor} {i : Nat} {b : BayNo}
    (h : d.direction = .up ∧ b.val = d.base.val + i ∨ d.direction = .down ∧ b.val + i = d.base.val) :
    d.bayAt i = some b := by
  rcases h with ⟨hup, hb⟩ | ⟨hdown, hb⟩
  · rw [bayAt_up hup, ← hb, bayOf_val]
  · rw [bayAt_down hdown, if_pos (by omega), show d.base.val - i = b.val by omega, bayOf_val]

/-! ## The tests of checks 5, 6 and 12 (R25, R28, R31) -/

theorem bayEntry_eq_none_iff (p : Blocks) (b : BayNo) : p.bayEntry b = none ↔ ∀ x : Reason, Entry.bay b x ∉ p.reloc := by
  rw [Blocks.bayEntry, List.findSome?_eq_none_iff]
  constructor
  · intro h x hx
    have := h _ hx
    simp [Entry.reasonFor] at this
  · intro h e he
    cases e with
    | record t => rfl
    | bay b' x =>
      refine if_neg ?_
      rintro rfl
      exact h x he

theorem outOfService_eq_false_iff (st : BayState) : st.outOfService = false ↔ st ≠ .disabled ∧ st ≠ .faulted := by
  cases st <;> decide

theorem available_iff (p : Blocks) (b : BayNo) :
    p.available b = true ↔ (p.bay b).state ≠ .disabled ∧ (p.bay b).state ≠ .faulted ∧ (p.bay b).action ≠ .close ∧
      ∀ x : Reason, Entry.bay b x ∉ p.reloc := by
  rw [Blocks.available, Bool.and_eq_true, Bool.and_eq_true, Bool.not_eq_true', outOfService_eq_false_iff, bne_iff_ne,
    Option.isNone_iff_eq_none, bayEntry_eq_none_iff, and_assoc, and_assoc]

/-- The gap to the two neighbours is the gap to every record, since the records keep it among themselves. -/
theorem fitsGap_iff {gap start len : Nat} {tl : List Record} (hlen : 0 < len)
    (htl : tl.Pairwise fun x y => x.start + x.length + gap ≤ y.start) :
    fitsGap gap start len tl = true ↔ ∀ x ∈ tl, x.start + x.length + gap ≤ start ∨ start + len + gap ≤ x.start := by
  constructor
  · intro h x hx
    obtain ⟨hbefore, hafter⟩ := fitsGap_spec h htl hx
    exact (Nat.lt_or_ge start x.start).elim (fun hs => .inr (hafter hs)) fun hs => .inl (hbefore hs)
  · intro h
    rw [fitsGap, Bool.and_eq_true, Option.all_eq_true, Option.all_eq_true]
    constructor
    · intro x hx
      obtain ⟨hmem, hs⟩ := List.mem_filter.1 (List.mem_of_getLast? hx)
      rw [decide_eq_true_eq] at hs ⊢
      exact (h x hmem).resolve_right (by omega)
    · intro x hx
      obtain ⟨hmem, hs⟩ := List.mem_filter.1 (List.mem_of_head? hx)
      rw [decide_eq_true_eq] at hs ⊢
      exact (h x hmem).resolve_left (by omega)

/-- Settles O26. -/
theorem translationAvailabilityFitAndGap : Obligations.TranslationAvailabilityFitAndGap := by
  unfold Obligations.TranslationAvailabilityFitAndGap
  refine ⟨fun d allows i => ⟨fun hclosed => if_pos hclosed, fun hopen => ⟨fun hi => ?_, fun hi => ⟨fun hup hout => ?_, fun hdown hout => ?_,
    fun b hb => translate_inside allows hopen hi (bayAt_eq hb)⟩⟩⟩, available_iff, fun c need => ?_,
    fun gap start len tl hlen htl => fitsGap_iff hlen htl⟩
  · exact (if_neg hopen).trans (if_pos hi)
  · exact translate_outside allows hopen hi ((bayAt_up hup i).trans (bayOf_none hout))
  · exact translate_outside allows hopen hi ((bayAt_down hdown i).trans (if_neg hout.not_ge))
  · cases c <;> cases need <;> decide

end Sys2Proof.Machine
end

section
/-! PROOFS. Bookings: the zone fault that is captured, the refusals in their order, the record created. -/

namespace Sys2Proof.Machine

/-! ## The judgements of the bookings, check by check (R30, R36, R38) -/

section
variable {port : Port} {c : Machine.Class} {body : List Byte} {p : Blocks}

theorem notOpen_of_configuring (h : p.level = .configuring) : p.level ≠ .opened := by
  rw [h]
  decide

section
variable (hdirect : ¬(c ≠ .operator ∧ namesDirect 22 8 body = true))
include hdirect

theorem judgeBookBay_notOpen (h : p.level = .configuring) : judgeBookBay port c body p = refuse p .notOpen := by
  rw [judgeBookBay, if_neg hdirect, if_pos (notOpen_of_configuring h)]

variable (hopened : p.level = .opened)
include hopened

theorem judgeBookBay_badField (hf : bookBayFields body = none) : judgeBookBay port c body p = refuse p .badField := by
  rw [judgeBookBay, if_neg hdirect, if_neg (not_not.2 hopened), hf]

variable {ref : BayRef} {f : Booking} (hf : bookBayFields body = some (ref, f))
include hf

theorem judgeBookBay_fault {x : ZoneFault} (hx : resolveBay p c Access.allowsBooking ref = .error x) :
    judgeBookBay port c body p = accessAbort p (captureOf p .bookBay port c ref x) := by
  rw [judgeBookBay, if_neg hdirect, if_neg (not_not.2 hopened), hf]
  simp only [hx]

theorem judgeBookBay_refused {b : BayNo} (hb : resolveBay p c Access.allowsBooking ref = .ok b) {st : Status}
    (hst : p.bayRefusal c b f = some st) : judgeBookBay port c body p = refuse p st := by
  rw [judgeBookBay, if_neg hdirect, if_neg (not_not.2 hopened), hf]
  simp only [hb, bookBayChecks_refusal, hst]

theorem judgeBookBay_admitted {b : BayNo} (hb : resolveBay p c Access.allowsBooking ref = .ok b)
    (hst : p.bayRefusal c b f = none) :
    judgeBookBay port c body p =
      admitHeld p (newRecord port c ref.originZone b f (f.grace.getD p.params.defaultGrace)
        (p.stateAtBooking f.start) none) := by
  rw [judgeBookBay, if_neg hdirect, if_neg (not_not.2 hopened), hf]
  simp only [hb, bookBayChecks_refusal, hst]

end

section
variable (hdirect : ¬(c ≠ .operator ∧ namesDirect 15 8 body = true))
include hdirect

theorem judgeBookNow_notOpen (h : p.level = .configuring) : judgeBookNow port c body p = refuse p .notOpen := by
  rw [judgeBookNow, if_neg hdirect, if_pos (notOpen_of_configuring h)]

variable (hopened : p.level = .opened)
include hopened

theorem judgeBookNow_badField (hf : bookNowFields p.now body = none) :
    judgeBookNow port c body p = refuse p .badField := by
  rw [judgeBookNow, if_neg hdirect, if_neg (not_not.2 hopened), hf]

variable {ref : BayRef} {f : Booking} (hf : bookNowFields p.now body = some (ref, f))
include hf

theorem judgeBookNow_fault {x : ZoneFault} (hx : resolveBay p c Access.allowsBooking ref = .error x) :
    judgeBookNow port c body p = accessAbort p (captureOf p .bookNow port c ref x) := by
  rw [judgeBookNow, if_neg hdirect, if_neg (not_not.2 hopened), hf]
  simp only [hx]

theorem judgeBookNow_refused {b : BayNo} (hb : resolveBay p c Access.allowsBooking ref = .ok b) {st : Status}
    (hst : p.nowRefusal c b f = some st) : judgeBookNow port c body p = refuse p st := by
  rw [judgeBookNow, if_neg hdirect, if_neg (not_not.2 hopened), hf]
  simp only [hb, bookNowChecks_refusal, hst]

theorem judgeBookNow_admitted {b : BayNo} (hb : resolveBay p c Access.allowsBooking ref = .ok b)
    (hst : p.nowRefusal c b f = none) :
    judgeBookNow port c body p =
      if (p.bay b).state.occupied then
        admitServing p (newRecord port c ref.originZone b f p.params.defaultGrace .session (some p.now))
      else admitHeld p (newRecord port c ref.originZone b f p.params.defaultGrace .held none) := by
  rw [judgeBookNow, if_neg hdirect, if_neg (not_not.2 hopened), hf]
  simp only [hb, bookNowChecks_refusal, hst]

end

theorem judgeBookZone_notOpen (h : p.level = .configuring) : judgeBookZone port c body p = refuse p .notOpen := by
  rw [judgeBookZone, if_pos (notOpen_of_configuring h)]

section
variable (hopened : p.level = .opened)
include hopened

theorem judgeBookZone_badField (hf : bookZoneFields body = none) :
    judgeBookZone port c body p = refuse p .badField := by
  rw [judgeBookZone, if_neg (not_not.2 hopened), hf]

variable {z : ZoneNo} {f : Booking} (hf : bookZoneFields body = some (z, f))
include hf

theorem judgeBookZone_fault {x : ZoneFault} (hx : (p.zones.descriptor c z).wholeFault = some x) :
    judgeBookZone port c body p =
      accessAbort p { cause := x, request := .bookZone, cls := c, zone := z, index := none, port, minute := p.now } := by
  rw [judgeBookZone, if_neg (not_not.2 hopened), hf]
  simp only [hx]

variable (hbook : (p.zones.descriptor c z).access = .book)
include hbook

theorem judgeBookZone_refused {st : Status} (hst : p.startRefusal f = some st) :
    judgeBookZone port c body p = refuse p st := by
  have hwhole : (p.zones.descriptor c z).wholeFault = none := by rw [Descriptor.wholeFault, hbook]
  rw [judgeBookZone, if_neg (not_not.2 hopened), hf]
  simp only [hwhole, startChecks_refusal, hst]

variable (hst : p.startRefusal f = none)
include hst

theorem judgeBookZone_noFit (hfind : (p.zones.descriptor c z).run.find? (zoneCandidate p c f) = none) :
    judgeBookZone port c body p = refuse p .noFit := by
  have hwhole : (p.zones.descriptor c z).wholeFault = none := by rw [Descriptor.wholeFault, hbook]
  rw [judgeBookZone, if_neg (not_not.2 hopened), hf]
  simp only [hwhole, startChecks_refusal, hst, hfind]

theorem judgeBookZone_admitted {b : BayNo}
    (hfind : (p.zones.descriptor c z).run.find? (zoneCandidate p c f) = some b) :
    judgeBookZone port c body p =
      admitHeld p (newRecord port c (.zone z) b f (f.grace.getD p.params.defaultGrace) (p.stateAtBooking f.start)
        none) := by
  have hwhole : (p.zones.descriptor c z).wholeFault = none := by rw [Descriptor.wholeFault, hbook]
  rw [judgeBookZone, if_neg (not_not.2 hopened), hf]
  simp only [hwhole, startChecks_refusal, hst, hfind]

end

theorem judgeListBay_fault (hdirect : ¬(c ≠ .operator ∧ namesDirect 2 0 body = true)) {ref : BayRef}
    (hf : listBayFields body = some ref) {x : ZoneFault} (hx : resolveBay p c Access.allowsList ref = .error x) :
    judgeListBay port c body p = accessAbort p (captureOf p .listBay port c ref x) := by
  rw [judgeListBay, if_neg hdirect, hf]
  simp only [hx]

end

/-! ## Who may name DIRECT (R51) -/

theorem notDenied_of_direct {n off : Nat} {c : Machine.Class} {body : List Byte} {ref : BayRef}
    (hshape : body.length = n ∧ (field body off 1 = 255 ↔ ∃ b, ref = .direct b)) (h : ∀ b, ref = .direct b → c = .operator) :
    ¬(c ≠ .operator ∧ namesDirect n off body = true) :=
  not_classDenied fun _ hfield => (hshape.2.1 hfield).elim h

theorem notDenied_of_zone {n off : Nat} {c : Machine.Class} {body : List Byte} {z : ZoneNo} {i : Nat}
    (hshape : body.length = n ∧ (field body off 1 = 255 ↔ ∃ b, BayRef.zone z i = .direct b)) :
    ¬(c ≠ .operator ∧ namesDirect n off body = true) :=
  notDenied_of_direct hshape fun _ h => by cases h

/-! ## The access fault record (R55, R56) -/

/-- Settles O27. -/
theorem zoneFaultIsCaptured : Obligations.ZoneFaultIsCaptured := by
  unfold Obligations.ZoneFaultIsCaptured
  intro s port c r z x q hq
  have offered (k : ZoneRequest) (i : Option Nat) : s.blocks.offerFault
      { cause := x, request := k, cls := c, zone := z, index := i, port := port, minute := s.blocks.clock.minute } =
      q k i := by
    rw [hq, Blocks.offerFault]
    cases s.blocks.zones.captured <;> rfl
  have aborted {k : ZoneRequest} {i : Option Nat} {a : Answer} (ha : a = accessAbort s.blocks
      { cause := x, request := k, cls := c, zone := z, index := i, port := port, minute := s.blocks.clock.minute }) :
      a = { blocks := q k i, status := .accessAbort, body := [BitVec.ofNat 8 x.code] } := by
    rw [ha, accessAbort, offered]
    rfl
  refine ⟨fun i f hopened hx => ⟨fun h hf => ?_, fun h hf => ?_⟩, fun i hx h hf => ?_, fun f hopened h hf hwhole => ?_⟩
  · exact h.answered rfl (aborted (judgeBookBay_fault (notDenied_of_zone (bookBayFields_shape hf)) hopened hf hx))
  · exact h.answered rfl (aborted (judgeBookNow_fault (notDenied_of_zone (bookNowFields_shape hf)) hopened hf hx))
  · exact h.answered rfl (aborted (judgeListBay_fault (notDenied_of_zone (listBayFields_shape hf)) hf hx))
  · refine h.answered rfl (aborted (judgeBookZone_fault hopened hf ?_))
    rcases hwhole with ⟨hd, rfl⟩ | ⟨hd, rfl⟩ <;> rw [Descriptor.wholeFault, hd]

/-! ## The refusals, in the order of the checks -/

theorem timelineRefusal_eq_none_iff (p : Blocks) (b : BayNo) (f : Booking) :
    p.timelineRefusal b f = none ↔
      p.book.bayHasRoom b = true ∧ fitsGap p.params.turnoverGap f.start f.length (p.book.timeline b) = true := by
  rw [← timelineChecks_refusal, firstRefusal_none]
  simp [timelineChecks]

theorem zoneCandidate_iff (p : Blocks) (c : Machine.Class) (f : Booking) (b : BayNo) :
    zoneCandidate p c f b = true ↔
      p.available b = true ∧ fits c f.accessible (p.bay b).config.cls = true ∧ p.timelineRefusal b f = none := by
  rw [timelineRefusal_eq_none_iff, zoneCandidate, Bool.and_eq_true, Bool.and_eq_true, Bool.and_eq_true, and_assoc,
    and_assoc]

theorem zoneCandidate_failed {p : Blocks} {c : Machine.Class} {f : Booking} {b : BayNo}
    (h : p.available b = false ∨ fits c f.accessible (p.bay b).config.cls = false ∨ p.timelineRefusal b f ≠ none) :
    ¬zoneCandidate p c f b = true := by
  rw [zoneCandidate_iff]
  rintro ⟨havail, hfits, htimeline⟩
  rcases h with h | h | h
  · exact Bool.false_ne_true (h.symm.trans havail)
  · exact Bool.false_ne_true (h.symm.trans hfits)
  · exact h htimeline

/-- Settles O28. -/
theorem bookingsAreRefusedInOrder : Obligations.BookingsAreRefusedInOrder := by
  unfold Obligations.BookingsAreRefusedInOrder
  intro s port c r refused hrefused
  obtain rfl : refused = fun st => s.finishTurn port r (refuse s.blocks st) := funext hrefused
  have notDenied {n : Nat} (h : c = .operator ∨ field r.body 8 1 ≠ 255) :
      ¬(c ≠ .operator ∧ namesDirect n 8 r.body = true) := not_classDenied fun _ hfield => h.resolve_right (not_not.2 hfield)
  refine ⟨fun h => ⟨fun hc hl hfield => ?_, fun hd => ⟨fun hlevel => ?_, fun hlevel => ⟨fun hf => ?_,
      fun ref f b st hf hb hst => ?_⟩⟩⟩,
    fun h => ⟨fun hc hl hfield => ?_, fun hd => ⟨fun hlevel => ?_, fun hlevel => ⟨fun hf => ?_,
      fun ref f b st hf hb hst => ?_⟩⟩⟩,
    fun h => ⟨fun hlevel => ?_, fun hlevel => ⟨fun hf => ?_, fun z f hf hbook => ⟨fun st hst => ?_,
      fun hst hnone => ?_⟩⟩⟩⟩
  · exact h.answered rfl (if_pos ⟨hc, (namesDirect_iff _ _ _).2 ⟨hl, hfield⟩⟩)
  · exact h.answered rfl (judgeBookBay_notOpen (notDenied hd) hlevel)
  · exact h.answered rfl (judgeBookBay_badField (notDenied hd) hlevel hf)
  · exact h.answered rfl (judgeBookBay_refused (notDenied hd) hlevel hf hb hst)
  · exact h.answered rfl (if_pos ⟨hc, (namesDirect_iff _ _ _).2 ⟨hl, hfield⟩⟩)
  · exact h.answered rfl (judgeBookNow_notOpen (notDenied hd) hlevel)
  · exact h.answered rfl (judgeBookNow_badField (notDenied hd) hlevel hf)
  · exact h.answered rfl (judgeBookNow_refused (notDenied hd) hlevel hf hb hst)
  · exact h.answered rfl (judgeBookZone_notOpen hlevel)
  · exact h.answered rfl (judgeBookZone_badField hlevel hf)
  · exact h.answered rfl (judgeBookZone_refused hlevel hf hbook hst)
  · exact h.answered rfl (judgeBookZone_noFit hlevel hf hbook hst
      (List.find?_eq_none.2 fun b hb => zoneCandidate_failed (hnone b hb)))

/-! ## The record created (R34, R35, R37, R39) -/

theorem tokenRefusal_of_startRefusal {p : Blocks} {f : Booking} (h : p.startRefusal f = none) :
    p.tokenRefusal f = none := by
  unfold Blocks.startRefusal at h
  split at h
  · cases h
  · split at h
    · cases h
    · exact h

theorem free_of_bayRefusal {p : Blocks} {c : Machine.Class} {b : BayNo} {f : Booking} (h : p.bayRefusal c b f = none) :
    p.book.free ≠ [] := by
  unfold Blocks.bayRefusal at h
  split at h
  · cases h
  · split at h
    · cases h
    · exact free_of_tokenRefusal (tokenRefusal_of_startRefusal (or_none_both h).1)

theorem free_of_nowRefusal {p : Blocks} {c : Machine.Class} {b : BayNo} {f : Booking} (h : p.nowRefusal c b f = none) :
    p.book.free ≠ [] ∧ (p.bay b).state ≠ .serving := by
  unfold Blocks.nowRefusal at h
  split at h
  · cases h
  · split at h
    · cases h
    · next hserving =>
      split at h
      · cases h
      · exact ⟨free_of_tokenRefusal (or_none_both h).1, hserving⟩

/-- A booking admitted in turn creates its record. -/
theorem admitHeld_created {p : Blocks} (hfree : p.book.free ≠ []) {x : Record} {a : Answer} (ha : a = admitHeld p x) :
    ∃ (q : Blocks) (sl : Slot) (y : Record), a = { blocks := q, status := .ok, body := recordReport q y } ∧
      y = { x with ticket := y.ticket } ∧ p.Admitted q sl y := by
  rw [ha]
  exact admitHeld_spec hfree x

/-- Settles O29. -/
theorem bookBayAndBookZoneCreateTheRecord : Obligations.BookBayAndBookZoneCreateTheRecord := by
  unfold Obligations.BookBayAndBookZoneCreateTheRecord
  refine ⟨fun s port c r ref f b h hopened hf hd hb hst => ?_,
    fun s port c r z f b before after h hopened hf hbook hst hrun hbefore havail hfits htimeline => ?_⟩
  · obtain ⟨q, sl, x, ha, hx, hadmitted⟩ := admitHeld_created (free_of_bayRefusal hst)
      (judgeBookBay_admitted (port := port) (notDenied_of_direct (bookBayFields_shape hf) hd) hopened hf hb hst)
    exact ⟨q, sl, x, h.answered rfl ha, hx, hadmitted⟩
  · have hfind : (s.blocks.zones.descriptor c z).run.find? (zoneCandidate s.blocks c f) = some b := by
      rw [hrun, List.find?_append, List.find?_eq_none.2 fun b' hb' => zoneCandidate_failed (hbefore b' hb'),
        Option.none_or, List.find?_cons_of_pos ((zoneCandidate_iff _ _ _ _).2 ⟨havail, hfits, htimeline⟩)]
    obtain ⟨q, sl, x, ha, hx, hadmitted⟩ :=
      admitHeld_created (free_of_tokenRefusal (tokenRefusal_of_startRefusal hst))
        (judgeBookZone_admitted (port := port) hopened hf hbook hst hfind)
    exact ⟨q, sl, x, h.answered rfl ha, hx, hadmitted⟩

theorem occupied_iff (st : BayState) : st.occupied = true ↔ st = .unclaimed ∨ st = .serving ∨ st = .squatted := by
  cases st <;> decide

/-- Settles O30. -/
theorem bookNowCreatesTheRecord : Obligations.BookNowCreatesTheRecord := by
  unfold Obligations.BookNowCreatesTheRecord
  intro s port c r ref f b h hopened hf hd hb hst
  obtain ⟨hfree, hserving⟩ := free_of_nowRefusal hst
  have hjudge := judgeBookNow_admitted (port := port) (notDenied_of_direct (bookNowFields_shape hf) hd) hopened hf hb hst
  have hstart := bookNowFields_start hf
  have hoccupied : ((s.blocks.bay b).state.occupied = true) ↔
      ((s.blocks.bay b).state = .unclaimed ∨ (s.blocks.bay b).state = .squatted) := by
    rw [occupied_iff]; tauto
  by_cases hvehicle : (s.blocks.bay b).state = .unclaimed ∨ (s.blocks.bay b).state = .squatted
  · rw [if_pos (hoccupied.2 hvehicle)] at hjudge
    obtain ⟨q, sl, x, ha, hx, hadmitted⟩ := admitServing_spec hfree
      (newRecord port c ref.originZone b f s.blocks.params.defaultGrace .session (some s.blocks.now))
    refine ⟨q, sl, x, h.answered rfl (hjudge.trans ha), ?_, ?_⟩
    · rw [if_pos hvehicle, if_pos hvehicle, hx, newRecord, hstart]
      rfl
    · exact (if_pos hvehicle).mpr hadmitted
  · rw [if_neg (hoccupied.not.2 hvehicle)] at hjudge
    obtain ⟨q, sl, x, ha, hx, hadmitted⟩ := admitHeld_spec hfree
      (newRecord port c ref.originZone b f s.blocks.params.defaultGrace .held none)
    refine ⟨q, sl, x, h.answered rfl (hjudge.trans ha), ?_, ?_⟩
    · rw [if_neg hvehicle, if_neg hvehicle, hx, newRecord, hstart]
      rfl
    · exact (if_neg hvehicle).mpr hadmitted

end Sys2Proof.Machine
end

section
/-! PROOFS. The requests on a record: EXTEND, CANCEL, END SESSION, CLAIM, COLLECT. -/

namespace Sys2Proof.Machine

/-! ## A ticket resolved, and a record written -/

/-- A ticket that resolves names a slot and the record in it. -/
theorem rec_of_resolve {k : Book} {c : Machine.Class} {t : Ticket} {token : Token} {sl : Slot} {x : Record}
    (h : k.resolve c t token = .ok (sl, x)) : k.rec? sl = some x := by
  unfold Book.resolve at h
  split at h
  · cases h
  · split at h
    · cases h
    · split at h
      · cases h
      · next hr =>
        split at h
        · cases h
        · cases h
          exact hr

theorem slotReport_rec {p : Blocks} {sl : Slot} {x : Record} (h : p.book.rec? sl = some x) :
    slotReport p sl = recordReport p x := by
  unfold slotReport
  rw [h]

/-! ## Checks in order, by what fails -/

theorem firstRefusal_fails {ok : Bool} {P : Prop} [Decidable P] (h : ok = true ↔ ¬P) (st : Status)
    (rest : List (Bool × Status)) :
    firstRefusal ((ok, st) :: rest) = if P then some st else firstRefusal rest := by
  rw [firstRefusal_cons]
  by_cases hP : P
  · rw [if_pos hP, if_neg (h.not.2 (not_not.2 hP))]
  · rw [if_neg hP, if_pos (h.2 hP)]

/-! ## EXTEND (R43) -/

theorem extendChecks_refusal (p : Blocks) (sl : Slot) (x : Record) (n : Nat) :
    firstRefusal (extendChecks p sl x n) =
      if x.state = .overstay ∨ x.state = .settled then some .wrongState
      else if 720 < x.length + n then some .badField
      else if ∃ y ∈ ((p.book.timeline x.bay).filter fun z : Record => decide (x.start < z.start)).head?,
          y.start < x.start + x.length + n + p.params.turnoverGap then some .conflict
      else if ∃ y ∈ ((p.book.tokenSlots x.token).filter fun z : Slot => z != sl).filterMap p.book.rec?,
          x.start < y.start + y.length ∧ y.start < x.start + x.length + n then some .tokenConflict
      else none := by
  rw [extendChecks, firstRefusal_fails (P := x.state = .overstay ∨ x.state = .settled) (by simp),
    firstRefusal_fails (P := 720 < x.length + n) (by simp),
    firstRefusal_fails (P := ∃ y ∈ ((p.book.timeline x.bay).filter fun z : Record => decide (x.start < z.start)).head?,
      y.start < x.start + x.length + n + p.params.turnoverGap) ?_,
    firstRefusal_fails (P := ∃ y ∈ ((p.book.tokenSlots x.token).filter fun z : Slot => z != sl).filterMap p.book.rec?,
      x.start < y.start + y.length ∧ y.start < x.start + x.length + n) ?_, firstRefusal_nil]
  · simp only [List.all_eq_true, overlaps, Bool.not_eq_true', Bool.and_eq_false_iff, decide_eq_false_iff_not,
      ← not_and_or, not_exists, not_and]
    exact Iff.rfl
  · simp only [Option.all_eq_true, decide_eq_true_eq, not_exists, not_and, not_lt]
    exact Iff.rfl

theorem judgeExtend_resolved {c : Machine.Class} {body : List Byte} {p : Blocks} {t : Ticket} {token : Token} {n : Nat}
    {sl : Slot} {x : Record} (hf : extendFields c body = some (t, token, n)) (h : p.book.resolve c t token = .ok (sl, x))
    (port : Port) :
    judgeExtend port c body p =
      (firstRefusal (extendChecks p sl x n)).elim (accept (p.extend sl x n) (slotReport (p.extend sl x n) sl))
        (refuse p) := by
  unfold judgeExtend
  simp only [hf, h]
  cases firstRefusal (extendChecks p sl x n) <;> rfl

/-- Settles O31. -/
theorem extendLengthensTheWindow : Obligations.ExtendLengthensTheWindow := by
  unfold Obligations.ExtendLengthensTheWindow
  rintro s port c r t token n sl x h hf hr next others rfl rfl
  refine h.answered rfl ((judgeExtend_resolved hf hr port).trans ?_)
  rw [extendChecks_refusal, slotReport_rec (p := s.blocks.extend sl x n) (rec_put_same _ _ _)]
  split_ifs <;> rfl

/-! ## CANCEL and END SESSION (R16, R45) -/

theorem pending_iff (st : RecState) : st.pending = true ↔ st = .booked ∨ st = .held := by cases st <;> decide

theorem judgeCancel_resolved {c : Machine.Class} {body : List Byte} {p : Blocks} {t : Ticket} {token : Token}
    {sl : Slot} {x : Record} (hf : ticketFields c body = some (t, token)) (h : p.book.resolve c t token = .ok (sl, x))
    (port : Port) :
    judgeCancel port c body p =
      if x.state.pending then
        accept (p.settle false sl .cancelled none) (slotReport (p.settle false sl .cancelled none) sl)
      else refuse p .wrongState := by
  unfold judgeCancel
  simp only [hf, h]

theorem judgeEndSession_resolved {body : List Byte} {p : Blocks} {t : Ticket} {sl : Slot} {x : Record}
    (hf : endSessionFields body = some t) (h : p.book.resolve .operator t 0 = .ok (sl, x)) (port : Port) :
    judgeEndSession port .operator body p =
      if x.state = .settled then refuse p .wrongState
      else accept (p.settle false sl .revoked none) (slotReport (p.settle false sl .revoked none) sl) := by
  unfold judgeEndSession
  simp only [hf, h]

/-- Only a COMPLETED record gets its times at settlement (R9, R10). -/
theorem settledWith_of_ne {o : Result} (h : o ≠ .completed) (x : Record) (c : Option Cause) (m : Nat) :
    x.settledWith o c m = { x with state := .settled, outcome := some o, cause := c, relocPending := false } := by
  rw [Record.settledWith, if_neg h, if_neg h, if_neg h]

/-- A live record settled by a request: the blocks after it and the report that answers it. -/
theorem settle_reported {p : Blocks} {sl : Slot} {x : Record} (hr : p.book.rec? sl = some x) (hl : x.state ≠ .settled)
    {o : Result} (ho : o ≠ .completed) :
    ∃ (q : Blocks) (y : Record), y = { x with state := .settled, outcome := some o, cause := none, relocPending := false } ∧
      accept (p.settle false sl o none) (slotReport (p.settle false sl o none) sl) =
        { blocks := q, status := .ok, body := recordReport q y } ∧ p.SettledAs q sl x y := by
  have hsettled := settle_settledAs hr hl o none _ (settledWith_of_ne ho x none _).symm
  obtain ⟨⟨hrec, -⟩, -⟩ := id hsettled
  exact ⟨_, _, rfl, congrArg (accept _) (slotReport_rec hrec), hsettled⟩

/-- Settles O32. -/
theorem cancelAndEndSessionSettle : Obligations.CancelAndEndSessionSettle := by
  unfold Obligations.CancelAndEndSessionSettle
  intro s port c r t token sl x hres
  have hr := rec_of_resolve hres
  refine ⟨fun h hf => ⟨fun hpending => ?_, fun hbooked hheld => ?_⟩,
    fun h hport hc hf => ⟨fun hlive => ?_, fun hsettled => ?_⟩⟩
  · have hlive : x.state ≠ .settled := by rcases hpending with h | h <;> rw [h] <;> decide
    obtain ⟨q, y, hy, ha, hq⟩ := settle_reported hr hlive (o := .cancelled) (by decide)
    refine ⟨q, y, hy, h.answered rfl ?_, hq⟩
    rw [judgeCancel_resolved hf hres, if_pos ((pending_iff _).2 hpending), ha]
  · refine h.answered rfl ?_
    rw [judgeCancel_resolved hf hres, if_neg ((pending_iff _).not.2 (not_or.2 ⟨hbooked, hheld⟩))]
    rfl
  · subst hport hc
    obtain ⟨q, y, hy, ha, hq⟩ := settle_reported hr hlive (o := .revoked) (by decide)
    refine ⟨q, y, hy, h.answered rfl ?_, hq⟩
    rw [judgeEndSession_resolved hf ((resolve_operator _ _ _ _).trans hres), if_neg hlive, ha]
  · subst hport hc
    refine h.answered rfl ?_
    rw [judgeEndSession_resolved hf ((resolve_operator _ _ _ _).trans hres), if_pos hsettled]
    rfl

/-! ## CLAIM (R90) -/

theorem claimChecks_refusal (p : Blocks) (x : Record) :
    firstRefusal (claimChecks p x) =
      if x.state = .booked then some .tooEarly
      else if x.state ≠ .held then some .wrongState
      else if (p.bay x.bay).presence = false then some .noVehicle
      else if (p.bay x.bay).state = .serving then some .bayOccupied
      else if (p.bay x.bay).state = .disabled ∨ (p.bay x.bay).state = .faulted ∨ (p.bay x.bay).action = .close then
        some .bayUnavailable
      else none := by
  rw [claimChecks, firstRefusal_fails (P := x.state = .booked) (by simp),
    firstRefusal_fails (P := x.state ≠ .held) (by simp),
    firstRefusal_fails (P := (p.bay x.bay).presence = false) (by simp),
    firstRefusal_fails (P := (p.bay x.bay).state = .serving) (by simp),
    firstRefusal_fails (P := (p.bay x.bay).state = .disabled ∨ (p.bay x.bay).state = .faulted ∨
      (p.bay x.bay).action = .close) (by simp [outOfService_eq_false_iff, and_assoc]), firstRefusal_nil]

theorem judgeClaim_resolved {c : Machine.Class} {body : List Byte} {p : Blocks} {t : Ticket} {token : Token}
    {sl : Slot} {x : Record} (hf : ticketFields c body = some (t, token)) (h : p.book.resolve c t token = .ok (sl, x))
    (port : Port) :
    judgeClaim port c body p =
      (firstRefusal (claimChecks p x)).elim (accept (p.claim sl x) (slotReport (p.claim sl x) sl)) (refuse p) := by
  unfold judgeClaim
  simp only [hf, h]
  cases firstRefusal (claimChecks p x) <;> rfl

/-- The blocks after a claim: the record, its RECORD entry, the bay and the session request. -/
theorem claim_eq (p : Blocks) (sl : Slot) (x : Record) :
    p.claim sl x = { p with
      book := p.book.put sl { x with state := .session, arrival := some p.clock.minute, relocPending := false }
      reloc := if x.relocPending then p.reloc.filter (· != .record x.ticket) else p.reloc
      bays := { p.bays with bays := setAt p.bays.bays x.bay (p.bay x.bay).served }
      mail := { p.mail with toAlloc := p.mail.toAlloc ++ [.sessionRequest x.bay x.draw] } } := by
  cases h : x.relocPending <;> simp only [Blocks.claim, h] <;> rfl

/-- Settles O33. -/
theorem claimOpensTheSession : Obligations.ClaimOpensTheSession := by
  unfold Obligations.ClaimOpensTheSession
  intro s port c r t token sl x y q h hf hr hy hq
  have hclaim : s.blocks.claim sl x = q := by rw [claim_eq, hq, hy]
  have hrec : q.book.rec? sl = some y := by
    rw [hq]
    exact rec_put_same _ _ _
  refine h.answered rfl ((judgeClaim_resolved hf hr port).trans ?_)
  rw [claimChecks_refusal, hclaim, slotReport_rec hrec]
  split_ifs <;> rfl

/-! ## COLLECT (R18) -/

theorem judgeCollect_resolved {c : Machine.Class} {body : List Byte} {p : Blocks} {t : Ticket} {token : Token}
    {sl : Slot} {x : Record} (hf : ticketFields c body = some (t, token)) (h : p.book.resolve c t token = .ok (sl, x))
    (port : Port) :
    judgeCollect port c body p =
      if c = .fleet ∧ x.originClass ≠ .fleet then refuse p .noSuchTicket
      else if x.state ≠ .settled then refuse p .notSettled
      else accept (p.collect sl) (recordReport p x) := by
  unfold judgeCollect
  simp only [hf, h]

theorem rec_collect (k : Book) (sl y : Slot) : (k.collect sl).rec? y = if y = sl then none else k.rec? y := by
  simp only [Book.collect, Book.rec?, Fin.getElem_fin, setAt_get, eq_comm (a := sl)]

theorem gens_collect (k : Book) (sl y : Slot) :
    (k.collect sl).gens[y] = if y = sl then (if k.gens[sl] < 63 then k.gens[sl] + 1 else 0) else k.gens[y] := by
  have hnext : nextGen k.gens[sl] = if k.gens[sl] < 63 then k.gens[sl] + 1 else 0 := if_congr Nat.succ_lt_succ_iff rfl rfl
  rw [← hnext]
  simp only [Book.collect, Fin.getElem_fin, setAt_get, eq_comm (a := sl)]

/-- Settles O34. -/
theorem collectFreesTheSlot : Obligations.CollectFreesTheSlot := by
  unfold Obligations.CollectFreesTheSlot
  intro s port c r t token sl x h hport hc hf hr
  have hmay : fleetAndOperator port c = true := by
    subst hport
    rw [fleetAndOperator, Bool.and_eq_true, bne_iff_ne]
    exact ⟨rfl, hc⟩
  have hjudge := judgeCollect_resolved hf hr port
  refine ⟨fun hhidden => h.answered hmay (hjudge.trans (if_pos hhidden)), fun hseen => ⟨fun hlive => ?_, fun hsettled => ?_⟩⟩
  · exact h.answered hmay (hjudge.trans ((if_neg hseen).trans (if_pos hlive)))
  · exact ⟨s.blocks.book.collect sl, _,
      h.answered hmay (hjudge.trans ((if_neg hseen).trans (if_neg (not_not.2 hsettled)))), rfl, rfl,
      rec_collect s.blocks.book sl, gens_collect s.blocks.book sl⟩

end Sys2Proof.Machine
end

section
/-! PROOFS. The zone map's requests and the requests at a bay: WRITE ZONE to CLEAR ACCESS FAULT, CONFIGURE BAY to CLEAR
FAULT. -/

namespace Sys2Proof.Machine

/-! ## The zone map (R57, R59, R61) -/

theorem class_ofCode (x : Machine.Class) : Class.ofCode x.code = some x := by cases x <;> rfl

theorem direction_ofCode (x : Direction) : Direction.ofCode x.code = some x := by cases x <;> rfl

theorem access_ofCode (x : Access) : Access.ofCode x.code = some x := by cases x <;> rfl

theorem writeZoneFields_read (c : Machine.Class) (z : ZoneNo) {d : Descriptor} (hused : d.used = false)
    (hlow : 1 ≤ d.length) (hhigh : d.length ≤ 32) :
    writeZoneFields (be 1 c.code ++ be 1 z.val ++ be 1 d.base.val ++ be 2 d.length ++ be 1 d.direction.code ++
      be 1 d.access.code) = some (c, z, d) := by
  have hclass : c.code < 256 := by cases c <;> decide
  have hzone : z.val < 256 := z.isLt.trans (by decide)
  have hbase : d.base.val < 256 := d.base.isLt.trans (by decide)
  have hlength : d.length < 65536 := by omega
  have hdirection : d.direction.code < 256 := by cases d.direction <;> decide
  have haccess : d.access.code < 256 := by cases d.access <;> decide
  simp [writeZoneFields, field_skipBe, field_read, field_readLast, class_ofCode, direction_ofCode, access_ofCode,
    bayOf_val, *]
  exact hused ▸ rfl

theorem readZoneFields_read (c : Machine.Class) (z : ZoneNo) :
    readZoneFields (be 1 c.code ++ be 1 z.val) = some (c, z) := by
  have hclass : c.code < 256 := by cases c <;> decide
  have hzone : z.val < 256 := z.isLt.trans (by decide)
  simp [readZoneFields, field_skipBe, field_read, field_readLast, class_ofCode, *]

/-- Settles O36. -/
theorem zoneRequestsActOnTheZoneMap : Obligations.ZoneRequestsActOnTheZoneMap := by
  unfold Obligations.ZoneRequestsActOnTheZoneMap
  intro s r
  refine ⟨fun c z d hused hlow hhigh h hbody => ?_, fun c z d hd h hbody => ?_, fun h hbody => ?_, fun h hbody => ?_⟩
  · refine ⟨s.blocks.zones.setDescriptor c z d, h.answered rfl (judge := judgeWriteZone) ?_, rfl, rfl,
      fun c' z' => descriptor_setDescriptor _ _ _ _ _ _⟩
    have hclear : flag d.used = [0#8] := by rw [hused]; rfl
    rw [judgeWriteZone, hbody, writeZoneFields_read c z hused hlow hhigh, ← hclear]
    rfl
  · refine h.answered rfl (judge := judgeReadZone) ?_
    rw [judgeReadZone, hbody, readZoneFields_read, hd]
    rfl
  · refine h.answered rfl (judge := withNoField noBody judgeReadAccessFault) ?_
    rw [hbody]
    rfl
  · refine h.answered rfl (judge := withNoField noBody judgeClearAccessFault) ?_
    rw [hbody]
    rfl

/-! ## CONFIGURE BAY (R81, R144 to R146) -/

theorem setAction_same {p : Blocks} {b : BayNo} {a : Action} (h : p.supply.actions[b] = a) : p.setAction b a = p :=
  if_pos h

/-- A bay with no session: the allocator notes the action. -/
theorem setAction_alloc_noSession {p : Blocks} {b : BayNo} (h : p.alloc.session b = none) (a : Action) :
    (p.setAction b a).alloc = { p.alloc with actions := (p.setAction b a).alloc.actions } := by
  have hcurtail (m : Nat) : p.alloc.curtail b a m = { p.alloc with actions := (p.alloc.curtail b a m).actions } := by
    unfold Allocator.curtail
    dsimp only
    split
    · rfl
    · next x hx => cases h.symm.trans hx
  by_cases hsame : p.supply.actions[b] = a
  · rw [setAction_same hsame]
  · have halloc : (p.setAction b a).alloc = p.alloc.curtail b a (p.bay b).config.maxDraw := by
      unfold Blocks.setAction
      dsimp only
      rw [if_neg hsame]
      split
      · rw [Blocks.bayEntryDue_alloc]
        rfl
      · split <;> rfl
    rw [halloc, ← hcurtail]

/-- A close lifted: the BAY entry of reason CLOSED leaves the list (R146). -/
theorem setAction_reloc_lifted {p : Blocks} {b : BayNo} {a : Action} (ha : a ≠ .close)
    (hold : p.supply.actions[b] = .close) : (p.setAction b a).reloc = p.reloc.filter (· != .bay b .closed) := by
  unfold Blocks.setAction
  dsimp only
  rw [if_neg (hold ▸ ha.symm), if_neg ha, if_pos hold]
  rfl

/-- The sign of a bay out of service does not follow its action (R83). -/
theorem setAction_disabled {x : Bay} (hstate : x.state = .disabled) (hsign : x.sign = signOf x.state x.action)
    (a : Action) : x.setAction a = { x with action := a } := by
  have hout (a : Action) : signOf x.state a = .out := by
    rw [hstate]
    rfl
  rw [Bay.setAction, Bay.resign, hout, ← hout x.action, ← hsign]

theorem judgeConfigureBay_eq {body : List Byte} {b : BayNo} {x : BayConfig} (hf : configureFields body = some (b, x))
    (port : Port) (c : Machine.Class) (p : Blocks) :
    judgeConfigureBay port c body p =
      if (p.bay b).state ≠ .disabled then refuse p .bayActive
      else accept (p.configure b x) (bayReport (p.configure b x) b) := by
  unfold judgeConfigureBay
  rw [hf]

/-- Settles O37. -/
theorem configureBayReplacesTheFields : Obligations.ConfigureBayReplacesTheFields := by
  unfold Obligations.ConfigureBayReplacesTheFields
  intro s r b x a hbays hcopies h hf ha
  have hjudge := judgeConfigureBay_eq hf .site .operator s.blocks
  refine ⟨fun hactive => h.answered rfl (hjudge.trans (if_pos hactive)), fun hdisabled => ?_⟩
  refine ⟨_, h.answered rfl (hjudge.trans (if_neg (not_not.2 hdisabled))), ?_⟩
  clear h hjudge
  generalize s.blocks = p at *
  obtain ⟨hallocCopy, hbayCopy⟩ := hcopies
  obtain ⟨hsound, -⟩ := hbays
  obtain ⟨-, -, -, -, -, -, -, hsign⟩ := hsound b
  have hq : p.configure b x = (p.setBay b { p.bay b with config := x }).setAction b a := by
    rw [Blocks.configure, Blocks.recompute, Blocks.bay_setBay_same, ha]
    rfl
  generalize hm : p.setBay b { p.bay b with config := x } = m at hq
  have hmbay : m.bay b = { p.bay b with config := x } := by rw [← hm, Blocks.bay_setBay_same]
  have hold : m.supply.actions[b] = (p.bay b).action := by rw [← hm]; exact (hbayCopy b).symm
  have hentry (b' : BayNo) : (m.setAction b a).bay b' = if b = b' then (m.bay b).setAction a else m.bay b' :=
    Blocks.setAction_bay b a b' (by rw [hold, hmbay]) (by rw [hmbay]; exact hsign)
  rw [hq]
  refine ⟨?_, fun b' hne => ?_, ?_, ?_, fun hsame => ?_, fun hnone => ?_, fun m' hm' => ?_, fun hopen hclosed => ?_,
    fun hnoClose => ?_, ?_⟩
  · rw [hentry, if_pos rfl, hmbay]
    exact setAction_disabled (x := { p.bay b with config := x }) hdisabled hsign a
  · rw [hentry, if_neg hne.symm, ← hm, Blocks.bay_setBay, if_neg hne.symm]
  · rw [Blocks.setAction_supply, ← hm]
    rfl
  · rw [Blocks.setAction_alloc_actions (by rw [← hm]; exact hallocCopy), Blocks.setAction_supply, hallocCopy, ← hm]
    rfl
  · rw [setAction_same (hold.trans hsame.symm), ← hm]
    rfl
  · have halloc := setAction_alloc_noSession (p := m) (b := b) (by rw [← hm]; exact hnone) a
    rw [← hm] at halloc ⊢
    exact halloc
  · obtain rfl : m' = m := hm'.trans hm
    exact setAction_taken _ _ _
  · rw [setAction_reloc_lifted hopen (hold.trans hclosed), ← hm]
    rfl
  · have hframe := setAction_noClose m b (x := a) fun hclose => hold.trans (hnoClose.resolve_left (not_not.2 hclose))
    rw [← hm] at hframe ⊢
    exact hframe
  · have hframe := setAction_frame m b a
    rw [← hm] at hframe ⊢
    exact hframe

/-! ## ENABLE BAY and CLEAR FAULT (R96, R97) -/

theorem isOnline_eq_false_iff (m : ModuleState) : m.isOnline = false ↔ m = .offline := by
  cases m <;> simp [ModuleState.isOnline]

theorem fieldFault_eq (p : Blocks) (b : BayNo) :
    p.fieldFault b = ((p.bay b).faultLine || p.moduleState (moduleOf b) == .offline) := by
  rw [Blocks.fieldFault, Bool.eq_iff_iff, Bool.or_eq_true, Bool.or_eq_true, Bool.not_eq_true', isOnline_eq_false_iff,
    beq_iff_eq]

theorem judgeEnableBay_eq (port : Port) (c : Machine.Class) (p : Blocks) (b : BayNo) :
    judgeEnableBay port c (be 1 b.val) p =
      if (p.bayEntry b).isSome then refuse p .relocating
      else if (p.bay b).state ≠ .disabled then refuse p .bayActive
      else if p.fieldFault b then refuse p .faultActive
      else accept (p.enable b) (bayReport (p.enable b) b) := by
  unfold judgeEnableBay
  rw [bayFields_be]
  simp only [firstRefusal_fails (P := (p.bayEntry b).isSome = true) (ok := (p.bayEntry b).isNone) (by simp),
    firstRefusal_fails (P := (p.bay b).state ≠ .disabled) (ok := (p.bay b).state == .disabled) (by simp),
    firstRefusal_fails (P := p.fieldFault b = true) (ok := !p.fieldFault b) (by simp), firstRefusal_nil]
  split_ifs <;> rfl

theorem judgeClearFault_eq (port : Port) (c : Machine.Class) (p : Blocks) (b : BayNo) :
    judgeClearFault port c (be 1 b.val) p =
      if (p.bayEntry b).isSome then refuse p .relocating
      else if (p.bay b).state = .disabled then refuse p .wrongState
      else if p.fieldFault b then refuse p .faultActive
      else accept (p.clearFault b) (bayReport (p.clearFault b) b) := by
  unfold judgeClearFault
  rw [bayFields_be]
  simp only [firstRefusal_fails (P := (p.bayEntry b).isSome = true) (ok := (p.bayEntry b).isNone) (by simp),
    firstRefusal_fails (P := (p.bay b).state = .disabled) (ok := (p.bay b).state != .disabled) (by simp),
    firstRefusal_fails (P := p.fieldFault b = true) (ok := !p.fieldFault b) (by simp), firstRefusal_nil]
  split_ifs <;> rfl

theorem clearFault_eq (p : Blocks) (b : BayNo) :
    p.clearFault b = p.setBay b
      (if (p.bay b).state = .faulted then { p.bay b with sticky := false }.atRest p.params.claimWindow
       else { p.bay b with sticky := false }) := by
  rw [Blocks.clearFault, ← rest_eq_atRest]

/-- Settles O38. -/
theorem enableBayAndClearFault : Obligations.EnableBayAndClearFault := by
  unfold Obligations.EnableBayAndClearFault
  intro s r b noField win set hbody hwin hfield hset
  obtain rfl : set = s.blocks.setBay b := funext hset
  rw [← fieldFault_eq] at hfield
  subst hwin hfield
  refine ⟨fun h => h.answered rfl (judge := judgeEnableBay) ?_, fun h => h.answered rfl (judge := judgeClearFault) ?_⟩
  · rw [hbody, judgeEnableBay_eq, Blocks.enable, rest_eq_atRest]
    rfl
  · rw [hbody, judgeClearFault_eq, clearFault_eq]
    split_ifs <;> rfl

/-! ## DISABLE BAY (R98) -/

/-- What DISABLE BAY does before it clears the bay's members. -/
def Blocks.disableLost (p : Blocks) (b : BayNo) : Blocks :=
  if (p.bay b).state = .disabled then p else (p.setBay b { p.bay b with sticky := false }).loseBay b .disabled

theorem disable_eq (p : Blocks) (b : BayNo) :
    p.disable b = (p.disableLost b).withNotices ((p.disableLost b).notices.clearBay b) := by
  unfold Blocks.disable Blocks.disableLost
  split
  · rfl
  · have hentry : (p.loseBay b .disabled).bay b = (p.bay b).lost .disabled := by
      obtain ⟨hbays, -⟩ := loseBay_spec p b .disabled
      rw [Blocks.bay, hbays]
      exact setAt_same _ _ _
    dsimp only
    rw [loseBay_setBay, hentry]
    rfl

theorem disableLost_sameButLevels (p : Blocks) (b : BayNo) : SameButLevels p.notices (p.disableLost b).notices := by
  unfold Blocks.disableLost
  split
  · exact rfl
  · exact loseBay_sameButLevels (p.setBay b _) b .disabled

/-- The bay's members leave the four bay sets (R98). -/
theorem clearBay_eq {n m : Notices} (h : SameButLevels n m) (b : BayNo) :
    (∀ b' : BayNo,
      (m.clearBay b).intruder.getLsbD b' = (n.intruder.getLsbD b' && b' != b) ∧
      (m.clearBay b).unregistered.getLsbD b' = (n.unregistered.getLsbD b' && b' != b) ∧
      (m.clearBay b).postFault.getLsbD b' = (n.postFault.getLsbD b' && b' != b) ∧
      (m.clearBay b).overstay.getLsbD b' = (n.overstay.getLsbD b' && b' != b)) ∧
    m.clearBay b = { n with
      intruder := (m.clearBay b).intruder, unregistered := (m.clearBay b).unregistered
      postFault := (m.clearBay b).postFault, overstay := (m.clearBay b).overstay
      poolLow := (m.clearBay b).poolLow, settledWaiting := (m.clearBay b).settledWaiting
      attn := (m.clearBay b).wantsAttn } := by
  unfold SameButLevels at h
  rw [h]
  exact ⟨fun b' => ⟨clearBay_bits _ _ _, clearBay_bits _ _ _, clearBay_bits _ _ _, clearBay_bits _ _ _⟩, rfl⟩

/-- Settles O39. -/
theorem disableBayLosesTheBay : Obligations.DisableBayLosesTheBay := by
  unfold Obligations.DisableBayLosesTheBay
  intro s r b hsound h hbody
  refine ⟨s.blocks.disable b, h.answered rfl (judge := judgeDisableBay) ?_, ?_⟩
  · rw [judgeDisableBay, hbody, bayFields_be]
    rfl
  · generalize s.blocks = p at *
    obtain ⟨hbits, hnotices⟩ := clearBay_eq (disableLost_sameButLevels p b) b
    rw [disable_eq]
    refine ⟨hbits, hnotices, fun hdisabled => ?_, fun hactive => ?_⟩
    · rw [Blocks.disableLost, if_pos hdisabled]
      exact ⟨rfl, rfl, rfl⟩
    · have hlost : p.disableLost b = (p.setBay b { p.bay b with sticky := false }).loseBay b .disabled :=
        if_neg hactive
      have hentry : (p.setBay b { p.bay b with sticky := false }).setBay b
          (((p.setBay b { p.bay b with sticky := false }).bay b).lost .disabled) = p.setBay b
          ({ p.bay b with sticky := false }.lost .disabled) := by
        rw [Blocks.bay_setBay_same, setBay_twice]
      obtain ⟨hbays, hquiet, hframe⟩ := loseBay_spec (p.setBay b { p.bay b with sticky := false }) b .disabled
      have hlostBays := congrArg Blocks.bays hentry
      rw [hlost]
      refine ⟨hbays.trans hlostBays, ⟨_, loseBay_bayLost hentry, rfl, rfl, rfl⟩, fun hserving hpending => ?_, ?_⟩
      · exact congrArg (Blocks.withNotices · _) (hquiet hserving hpending)
      · exact congrArg (Blocks.withNotices · _) hframe

end Sys2Proof.Machine
end

section
/-! PROOFS. The requests that only report, and the reports byte by byte. -/

namespace Sys2Proof.Machine

/-! ## The reading requests (R14, R19, R47, R99, R131, R141, R167) -/

theorem fleetAndOperator_site {c : Machine.Class} (h : c ≠ .pub) : fleetAndOperator .site c = true := by
  rw [fleetAndOperator, Bool.and_eq_true, bne_iff_ne]
  exact ⟨rfl, h⟩

theorem poolStatusFields_eq {body : List Byte} (h : body.length = 2) :
    poolStatusFields body = if beNat body < 640 then some (beNat body) else none := by
  have hfield : field body 0 2 = beNat body := by rw [field, List.drop_zero, List.take_of_length_le h.le]
  rw [poolStatusFields, hfield]
  exact if_congr (and_iff_right h) rfl rfl

theorem judgePoolStatus_eq {body : List Byte} (h : body.length = 2) (port : Port) (c : Machine.Class) (p : Blocks) :
    judgePoolStatus port c body p =
      if beNat body < 640 then accept p (poolReport p c (beNat body)) else refuse p .badField := by
  unfold judgePoolStatus
  rw [poolStatusFields_eq h]
  split_ifs <;> rfl

theorem judgeLookup_resolved {c : Machine.Class} {body : List Byte} {p : Blocks} {t : Ticket} {token : Token}
    {sl : Slot} {x : Record} (hf : ticketFields c body = some (t, token)) (h : p.book.resolve c t token = .ok (sl, x))
    (port : Port) : judgeLookup port c body p = accept p (recordReport p x) := by
  unfold judgeLookup
  simp only [hf, h]

theorem judgeListBay_listed {c : Machine.Class} {body : List Byte} {p : Blocks}
    (hdirect : ¬(c ≠ .operator ∧ namesDirect 2 0 body = true)) {ref : BayRef} (hf : listBayFields body = some ref)
    {b : BayNo} (hb : resolveBay p c Access.allowsList ref = .ok b) (port : Port) :
    judgeListBay port c body p = accept p (timelineReport p c b) := by
  rw [judgeListBay, if_neg hdirect, hf]
  simp only [hb]

/-! ## Encodings (R170) -/

theorem be_one (v : Nat) : be 1 v = [BitVec.ofNat 8 v] := by
  rw [be, be, Nat.pow_zero, Nat.div_one]

theorem items_eq {α : Type} (item : α → List Byte) (xs : List α) (pre : List Byte) :
    pre ++ items item xs = pre ++ be 1 xs.length ++ (xs.map item).flatten := by
  rw [items, List.append_assoc]

/-! ## The record report (R172) -/

theorem opens_any (b : BayNo) (xs : List AllocMsg) :
    xs.any (AllocMsg.opens b) = true ↔ ∃ n, AllocMsg.sessionRequest b n ∈ xs := by
  rw [List.any_eq_true]
  constructor
  · rintro ⟨m, hm, hopens⟩
    cases m with
    | sessionRequest b' n =>
      rw [AllocMsg.opens, beq_iff_eq] at hopens
      exact ⟨n, hopens ▸ hm⟩
    | release b' => cases hopens
  · rintro ⟨n, hn⟩
    exact ⟨_, hn, beq_self_eq_true b⟩

theorem sessionOf_eq {p : Blocks} {r : Record} {x : Option Session}
    (hshown : r.state = .session → (∀ n, .sessionRequest r.bay n ∉ p.mail.toAlloc) → x = p.alloc.session r.bay)
    (habsent : r.state ≠ .session ∨ (∃ n, .sessionRequest r.bay n ∈ p.mail.toAlloc) → x = none) :
    p.sessionOf r = x := by
  have hnone : (!p.mail.toAlloc.any (AllocMsg.opens r.bay)) = true ↔ ¬∃ n, .sessionRequest r.bay n ∈ p.mail.toAlloc := by
    rw [Bool.not_eq_true', ← Bool.not_eq_true, opens_any]
  rw [Blocks.sessionOf]
  split_ifs with h
  · exact (hshown h.1 (not_exists.1 (hnone.1 h.2))).symm
  · rw [hnone, not_and_or, not_not] at h
    exact (habsent h).symm

/-! ## The bay, timeline and pool reports (R19, R48, R99) -/

theorem bits_groups (v : Vector Bool 3) : bits v.toList = groupByte v := by
  obtain ⟨a, b, c, rfl⟩ : ∃ a b c, v = #v[a, b, c] := ⟨v[0], v[1], v[2], by ext i hi; interval_cases i <;> rfl⟩
  cases a <;> cases b <;> cases c <;> decide

theorem isOnline_eq (m : ModuleState) : m.isOnline = decide (m ≠ .offline) := by
  cases m <;> rfl

theorem timelineItem_eq (c : Machine.Class) (r : Record) :
    timelineItem c r =
      be 4 r.start ++ be 2 r.length ++ be 1 r.state.code ++
      (if c = .operator ∨ c = .fleet ∧ r.originClass = .fleet then 1#8 :: (be 2 r.ticket.slot ++ be 1 r.ticket.gen)
        else [0#8, 0#8, 0#8, 0#8]) ++
      (if c = .operator then be 1 r.originClass.code ++ 1#8 :: be 8 r.token.toNat else List.replicate 10 0#8) := by
  have hticket : present (c == .operator || (c == .fleet && r.originClass == .fleet)) (ticketBytes r.ticket) =
      if c = .operator ∨ c = .fleet ∧ r.originClass = .fleet then 1#8 :: (be 2 r.ticket.slot ++ be 1 r.ticket.gen)
      else [0#8, 0#8, 0#8, 0#8] := by
    by_cases h : c = .operator ∨ c = .fleet ∧ r.originClass = .fleet
    · rw [if_pos h, show (c == .operator || (c == .fleet && r.originClass == .fleet)) = true by simpa using h]
      rfl
    · rw [if_neg h, show (c == .operator || (c == .fleet && r.originClass == .fleet)) = false by simpa using h]
      rfl
  have htoken : enum Class.code (if c = .operator then some r.originClass else none) ++
      present (c == .operator) (tokenBytes r.token) =
      if c = .operator then be 1 r.originClass.code ++ 1#8 :: be 8 r.token.toNat else List.replicate 10 0#8 := by
    by_cases h : c = .operator
    · rw [if_pos h, if_pos h, beq_iff_eq.2 h, be_one]
      rfl
    · rw [if_neg h, if_neg h, beq_eq_false_iff_ne.2 h]
      rfl
  rw [timelineItem, hticket, List.append_assoc, htoken]

theorem shownSettled_eq (k : Book) (c : Machine.Class) (n : Nat) :
    k.shownSettled c n =
      ((k.settled.filter fun sl => decide (n ≤ sl.val)).filterMap k.rec?).filter
        (fun r => decide (c ≠ .fleet ∨ r.originClass = .fleet)) := by
  rw [Book.shownSettled, List.filter_filterMap]
  refine List.filterMap_congr fun sl _ => ?_
  cases k.rec? sl with
  | none => rfl
  | some r => by_cases hc : c = .fleet <;> by_cases hr : r.originClass = .fleet <;> simp [Option.filter, hc, hr]

theorem poolReport_eq (p : Blocks) (c : Machine.Class) (n : Nat) (shown : List Record)
    (hshown : p.book.shownSettled c n = shown) :
    poolReport p c n =
      be 2 p.book.free.length ++ be 2 (p.book.countIn .booked) ++ be 2 (p.book.countIn .held) ++
      be 2 (p.book.countIn .session) ++ be 2 (p.book.countIn .parked) ++ be 2 (p.book.countIn .overstay) ++
      be 2 p.book.settled.length ++ be 2 p.params.poolLow ++
      flag (decide (p.book.free.length ≤ p.params.poolLow)) ++ flag (decide (p.book.settled ≠ [])) ++
      be 1 (shown.take 64).length ++ ((shown.take 64).map fun r => be 2 r.ticket.slot ++ be 1 r.ticket.gen).flatten ++
      optNum 2 (if shown.length ≤ 64 then none else (shown.take 64).getLast?.map fun r => r.ticket.slot + 1) := by
  have hsettled : p.book.settledWaiting = decide (p.book.settled ≠ []) := by
    rw [Book.settledWaiting]
    cases p.book.settled <;> simp
  unfold poolReport
  dsimp only
  rw [hshown, hsettled, items_eq]
  rfl

/-! ## The access fault, feeder and notice reports (R131, R167) -/

theorem accessFaultReport_captured {m : ZoneMap} {x : Capture} (h : m.captured = some x) :
    accessFaultReport m =
      1#8 :: (be 1 x.cause.code ++ be 1 x.request.code ++ be 1 x.cls.code ++ optNum 1 (some x.zone.val) ++
        optNum 1 x.index ++ be 1 (portCode x.port) ++ optNum 4 (some x.minute) ++ flag m.more) := by
  unfold accessFaultReport
  rw [h]
  simp only [be_one]
  rfl

theorem grantItem_false (a : Allocator) (b : BayNo) :
    grantItem a false b = be 1 b.val ++ be 2 (((a.session b).map (·.cap)).getD 0) := by
  rw [grantItem, if_neg Bool.false_ne_true, List.append_nil]
  rfl

theorem feederReport_eq (a : Allocator) (f : FeederNo) {cap : BayNo → Nat}
    (hcap : ∀ b, cap b = ((a.session b).map (·.cap)).getD 0) {x : Feeder} (hx : x = a.feeder f) :
    feederReport a f =
      be 1 f.val ++ be 2 x.budget ++ be 2 x.staged ++ flag x.switchPending ++ be 2 x.reserve ++ be 1 a.supply.code ++
      be 2 (a.ceiling f) ++ be 2 (a.granted f) ++ be 2 (a.ceiling f - a.granted f) ++
      (be 1 x.grants.length ++ (x.grants.map fun b => be 1 b.val ++ be 2 (a.grantOf b) ++ be 2 (cap b)).flatten) ++
      (be 1 x.queue.length ++ (x.queue.map fun b => be 1 b.val ++ be 2 (cap b)).flatten) ++
      (be 1 (a.suspendedOn f).length ++ ((a.suspendedOn f).map fun b => be 1 b.val ++ be 2 (cap b)).flatten) := by
  obtain rfl : cap = fun b => ((a.session b).map (·.cap)).getD 0 := funext hcap
  have hitem : grantItem a false = fun b => be 1 b.val ++ be 2 (((a.session b).map (·.cap)).getD 0) :=
    funext (grantItem_false a)
  subst hx
  unfold feederReport
  simp only [items, hitem]
  rfl

theorem summary_eq (n : Notices) (i : Nat) : n.summary.getLsbD i = (n.causes[i]?).getD false := by
  rw [Bool.eq_iff_iff, Notices.summary_getLsbD]
  cases n.causes[i]? <;> simp

/-- Settles O40. -/
theorem readersChangeNothing : Obligations.ReadersChangeNothing := by
  unfold Obligations.ReadersChangeNothing
  refine ⟨fun s port c r => ⟨fun t token sl x h hf hr => h.answered rfl (judgeLookup_resolved hf hr port),
      fun h hport hc hlength => ?_, fun ref b h hf hd hb =>
        h.answered rfl (judgeListBay_listed (notDenied_of_direct (listBayFields_shape hf) hd) hf hb port)⟩,
    fun s r => ⟨fun b h hbody => ?_, fun f h hbody => ?_, fun h hbody => ?_, fun h hbody => ?_⟩,
    ⟨fun k v => ⟨rfl, rfl⟩, fun k v => ⟨rfl, rfl⟩, fun b => rfl, fun k v => ⟨rfl, rfl⟩,
      fun code x => ⟨rfl, (be_one _).symm⟩, rfl, rfl, rfl, rfl, rfl, rfl, rfl, rfl, rfl, rfl, rfl, rfl, rfl, rfl, rfl, rfl,
      rfl, rfl, rfl, rfl, rfl, rfl⟩,
    fun p r x hshown habsent => ?_, fun p b x hx => ?_, fun p c b => ?_, fun p c n shown count hcount hshown => ?_,
    fun m => ⟨fun hnone => ?_, fun x hx => accessFaultReport_captured hx⟩,
    fun a f x susp cap hx hsusp hcap => ?_, fun p u group count hu hgroup hcount => ?_, fun p => ⟨rfl, rfl⟩,
    fun n => ⟨rfl, fun i => summary_eq n i.val, rfl⟩⟩
  · subst hport
    have hjudge := judgePoolStatus_eq hlength .site c s.blocks
    exact ⟨fun hout => h.answered (fleetAndOperator_site hc) (hjudge.trans (if_neg hout.not_gt)),
      fun hin => h.answered (fleetAndOperator_site hc) (hjudge.trans (if_pos hin))⟩
  · refine h.answered rfl (judge := judgeReadBay) ?_
    rw [judgeReadBay, hbody, bayFields_be]
    rfl
  · refine h.answered rfl (judge := judgeReadFeeder) ?_
    rw [judgeReadFeeder, hbody, feederFields_be]
    rfl
  · refine h.answered rfl (judge := withNoField noBody judgeReadSupply) ?_
    rw [hbody]
    rfl
  · refine h.answered rfl (judge := withNoField noBody judgeReadNotices) ?_
    rw [hbody]
    rfl
  · obtain rfl := sessionOf_eq hshown habsent
    rfl
  · subst hx
    unfold bayReport
    dsimp only
    rw [bits_groups, isOnline_eq]
    rfl
  · have hitem : timelineItem c = _ := funext (timelineItem_eq c)
    unfold timelineReport
    rw [items_eq, hitem]
    rfl
  · obtain rfl : count = p.book.countIn := funext hcount
    exact poolReport_eq p c n shown ((shownSettled_eq _ _ _).trans hshown.symm)
  · unfold accessFaultReport
    rw [hnone]
    rfl
  · obtain rfl : susp = a.suspendedOn f := hsusp
    exact feederReport_eq a f hcap hx
  · subst hu
    obtain rfl : group = groupReport p := funext hgroup
    obtain rfl : count = p.countAction := funext hcount
    rfl

end Sys2Proof.Machine
end

section
/-! PROOFS. The power allocator's ceilings, the group levels and lines, and the supply state. -/

namespace Sys2Proof.Machine

/-- An event at the blocks, taken while RESET is high. -/
theorem atBlocks_next {s : State} (h : s.resetLow = false) {f : Blocks → Blocks} {q : Blocks} (hf : f s.blocks = q) :
    atBlocks f s = .next { s with blocks := q } := by
  rw [atBlocks_high f h, hf]
  rfl

/-! ## SET BUDGET and SET RESERVE CEILING (R127, R128) -/

/-- A changed ceiling leaves the settings of every feeder and the lists of the others. -/
theorem ceilingChanged_feeders {p : Blocks} (h : p.alloc.ListsSound) (f : FeederNo) (old : Nat) :
    SameFeederSettings p.alloc (p.ceilingChanged f old).alloc ∧
    ∀ g, g ≠ f → (p.ceilingChanged f old).alloc.feeder g = p.alloc.feeder g := by
  unfold Blocks.ceilingChanged
  split
  · obtain ⟨served, rest, -, -, -, -, -, hothers, -⟩ := Allocator.serveQueue_served h f
    exact ⟨.serve _ _, hothers⟩
  · split
    · unfold Blocks.cutFeeder
      split
      · exact ⟨.cut _ _, (cut_feeder f p.alloc).1⟩
      · exact ⟨.refl _, fun _ _ => rfl⟩
    · exact ⟨.refl _, fun _ _ => rfl⟩

/-- A changed ceiling is the allocator's work, and at most one message. -/
theorem ceilingChanged_frame (p : Blocks) (f : FeederNo) (old : Nat) :
    p.ceilingChanged f old =
      { p with alloc := (p.ceilingChanged f old).alloc, mail := (p.ceilingChanged f old).mail } := by
  unfold Blocks.ceilingChanged Blocks.cutFeeder
  (repeat' split) <;> rfl

/-- Settles O41. -/
theorem budgetAndReserveRequests : Obligations.BudgetAndReserveRequests := by
  unfold Obligations.BudgetAndReserveRequests
  intro s r f n hn hbody
  refine ⟨fun h a ha => h.answered rfl (judge := judgeSetBudget) ?_, fun h hsound => ?_⟩
  · rw [judgeSetBudget, hbody, feederAmps_be f n hn, ha]
    rfl
  · refine ⟨s.blocks.setReserve f n, s.blocks.alloc.setFeeder f { s.blocks.alloc.feeder f with reserve := n },
      h.answered rfl (judge := judgeSetReserveCeiling) ?_, rfl, ?_⟩
    · rw [judgeSetReserveCeiling, hbody, feederAmps_be f n hn]
      rfl
    · clear h
      generalize s.blocks = p at *
      obtain ⟨hlists, hwithin⟩ := hsound
      obtain ⟨hdLists, hdGranted⟩ := Allocator.setFeeder_lists hlists f { p.alloc.feeder f with reserve := n } rfl rfl
      generalize hd : p.alloc.setFeeder f { p.alloc.feeder f with reserve := n } = d at hdLists hdGranted
      have hq : p.setReserve f n = (p.withAlloc d).ceilingChanged f (p.alloc.ceiling f) := by rw [← hd]; rfl
      have hold : (p.withAlloc d).alloc.granted f ≤ p.alloc.ceiling f := (hdGranted f).trans_le (hwithin f)
      obtain ⟨⟨hserved, hcut, hkept, hsame⟩, hmail⟩ := ceilingChanged_changed hdLists f hold
      obtain ⟨-, -, hfinal, -⟩ := Blocks.ceilingChanged_spec hdLists f _ hold
      obtain ⟨hsettings, hothers⟩ := ceilingChanged_feeders (p := p.withAlloc d) hdLists f (p.alloc.ceiling f)
      rw [hq]
      refine ⟨fun g => ?_, hfinal, fun hover => ⟨hcut (hover.trans_le hold) hover, ?_⟩, fun hin => ?_, fun hin hle => ?_,
        hserved, ceilingChanged_frame (p.withAlloc d) f _⟩
      · obtain ⟨hbudget, hreserve, hstaged, hpending⟩ := hsettings g
        exact ⟨hreserve, hbudget, hstaged, hpending, hothers g⟩
      · rw [hmail, Blocks.withAlloc_alloc, if_pos hover]
        rfl
      · rw [hmail, Blocks.withAlloc_alloc, if_neg hin.not_gt, List.append_nil]
        rfl
      · exact hle.lt_or_eq.elim (fun hlt => hkept hlt hin) hsame

/-! ## Group levels, DR and ALARM (R142 to R146) -/

/-- Settles O42. -/
theorem groupLevelsAndLinesSetActions : Obligations.GroupLevelsAndLinesSetActions := by
  unfold Obligations.GroupLevelsAndLinesSetActions
  refine ⟨level_eq, actionFor_strictest, fun s hcopies hfollow => ⟨fun r g l h hbody => ?_, fun hhigh high => ⟨?_, ?_⟩⟩⟩
  · refine ⟨s.blocks.setGroupLevel g l, h.answered rfl (judge := judgeSetGroupLevel) ?_,
      recomputeMembers_recomputed hcopies hfollow _ _ rfl fun g' hg' => ?_⟩
    · rw [judgeSetGroupLevel, hbody, groupFields_be]
      rfl
    · have hsite : (setAt s.blocks.supply.sites g l)[g'] = s.blocks.supply.sites[g'] :=
        setAt_other _ _ fun hgg => beq_eq_false_iff_ne.1 hg' hgg.symm
      rw [level_eq, level_eq, hsite]
  · refine ⟨s.blocks.drChange high, atBlocks_next (f := fun p => p.drChange high) hhigh rfl,
      recomputeMembers_recomputed hcopies hfollow _ _ rfl fun g' hg' => ?_⟩
    have hne : g' ≠ 0 := beq_eq_false_iff_ne.1 hg'
    simp only [level_eq, hne, false_and, or_false]
  · exact ⟨s.blocks.alarmChange high, atBlocks_next (f := fun p => p.alarmChange high) hhigh rfl,
      recomputeMembers_recomputed hcopies hfollow _ _ rfl fun g' hg' => absurd hg' (by decide)⟩

/-! ## The supply state (R134, R137 to R139) -/

theorem setSupply_same {p : Blocks} {new : SupplyState} (h : p.supply.state = new) : p.setSupply new = p := if_pos h

/-- SWITCH SUPPLY's table (R137). -/
theorem switched_eq {t : Target} {st new : SupplyState}
    (h : t = .mains ∧ (st = .mains ∧ new = .mains ∨ st ≠ .mains ∧ new = .returning) ∨ t = .reserve ∧ new = .reserve ∨
      t = .halt ∧ new = .halt) : switched t st = new := by
  rcases h with ⟨rfl, ⟨rfl, rfl⟩ | ⟨hst, rfl⟩⟩ | ⟨rfl, rfl⟩ | ⟨rfl, rfl⟩
  · rfl
  · cases st with
    | mains => exact absurd rfl hst
    | returning | reserve | halt => rfl
  · rfl
  · rfl

theorem supplyBoundary_cons {p : Blocks} {m : Nat} {rest : List Nat} (h : p.boundaries.supply = m :: rest) :
    p.supplyBoundary =
      if p.supply.state = .returning ∧ p.supply.mainsOk = true then
        if p.supply.counter ≤ 1 then (p.withBoundaries { p.boundaries with supply := rest }).setSupply .mains
        else (p.withBoundaries { p.boundaries with supply := rest }).withSupply
          { p.supply with counter := p.supply.counter - 1 }
      else p.withBoundaries { p.boundaries with supply := rest } := by
  unfold Blocks.supplyBoundary
  rw [h]
  rfl

theorem mainsOkFall_high {p : Blocks} (h : p.supply.mainsOk = true) (st : SupplyState) (hst : p.supply.state = st) :
    p.mainsOkFall =
      if st = .mains then (p.withSupply { p.supply with mainsOk := false }).setSupply .returning
      else if st = .returning then p.withSupply { p.supply with mainsOk := false, counter := p.params.settle }
      else p.withSupply { p.supply with mainsOk := false } := by
  unfold Blocks.mainsOkFall
  rw [if_pos h]
  dsimp only [Blocks.withSupply]
  rw [hst]
  cases st <;> rfl

/-- Settles O44. -/
theorem supplyStateChanges : Obligations.SupplyStateChanges := by
  unfold Obligations.SupplyStateChanges
  intro s
  refine ⟨fun r new h hbody htable => ?_, fun hhigh => ⟨fun m rest p hbound hp => ?_, fun p hp hmains => ?_,
    atBlocks_next (f := Blocks.mainsOkRise) hhigh rfl⟩⟩
  · have hswitch : s.blocks.switchSupply = s.blocks.setSupply new := by
      rw [Blocks.switchSupply, switched_eq htable]
    refine ⟨s.blocks.setSupply new, h.answered rfl (judge := withNoField noBody judgeSwitchSupply) ?_, setSupply_same,
      setSupply_changedTo _ _⟩
    rw [hbody, ← hswitch]
    rfl
  · have hstep := supplyBoundary_cons hbound
    subst hp
    refine ⟨fun hidle => ?_, fun hreturning hmains => ⟨fun hlong => ?_, fun hlast => ?_⟩⟩
    · refine atBlocks_next (f := Blocks.supplyBoundary) hhigh (hstep.trans (if_neg ?_))
      rintro ⟨hreturning, hmains⟩
      exact hidle.elim (fun hne => hne hreturning) fun hlow => Bool.false_ne_true (hlow.symm.trans hmains)
    · exact atBlocks_next (f := Blocks.supplyBoundary) hhigh
        (hstep.trans ((if_pos ⟨hreturning, hmains⟩).trans (if_neg hlong.not_ge)))
    · have hmainsIn := hstep.trans ((if_pos ⟨hreturning, hmains⟩).trans (if_pos hlast))
      have hexpires : s.blocks.settleExpires = true := by
        rw [Blocks.settleExpires, Bool.and_eq_true, Bool.and_eq_true, beq_iff_eq, decide_eq_true_eq]
        exact ⟨⟨hreturning, hmains⟩, hlast⟩
      refine ⟨_, setSupply_changedTo _ _ ?_, atBlocks_next (f := Blocks.supplyBoundary) hhigh hmainsIn,
        atBlocks_next (f := fun p => if p.settleExpires then p.supplyBoundary else p) hhigh
          ((if_pos hexpires).trans hmainsIn)⟩
      exact fun hne => by cases hreturning.symm.trans hne
  · subst hp
    refine ⟨fun hst => ⟨_, setSupply_changedTo _ _ ?_, ?_⟩, fun hst => ?_, fun hst => ?_⟩
    · exact fun hne => by cases hst.symm.trans hne
    · exact atBlocks_next (f := Blocks.mainsOkFall) hhigh (mainsOkFall_high hmains _ hst)
    · exact atBlocks_next (f := Blocks.mainsOkFall) hhigh (mainsOkFall_high hmains _ hst)
    · rcases hst with hst | hst
      · exact atBlocks_next (f := Blocks.mainsOkFall) hhigh (mainsOkFall_high hmains _ hst)
      · exact atBlocks_next (f := Blocks.mainsOkFall) hhigh (mainsOkFall_high hmains _ hst)

end Sys2Proof.Machine
end

section
/-! PROOFS. The level clock, the parameters and the level; RESTART; the notices; the identity. -/

namespace Sys2Proof.Machine

/-! ## SET CLOCK and OPEN LEVEL (R65, R150) -/

theorem clockFields_read {m : Nat} (h : m < 4294967296) :
    clockFields (be 4 m) = if 4000000000 < m then none else some m := by
  rw [clockFields, field_be4 m h, be_length]
  by_cases hm : 4000000000 < m
  · rw [if_pos hm, if_neg fun hc => hm.not_ge hc.2]
  · rw [if_neg hm, if_pos ⟨rfl, not_lt.1 hm⟩]

theorem level_ne_configuring {l : LevelState} : l ≠ .configuring ↔ l = .opened := by cases l <;> decide

theorem judgeSetClock_eq (port : Port) (c : Machine.Class) {body : List Byte} (p : Blocks) :
    judgeSetClock port c body p =
      if p.level = .opened then refuseWith p .wrongLevelState (clockReport p)
      else (clockFields body).elim (refuseWith p .badField (clockReport p)) fun m =>
        accept (p.setClock m) (clockReport (p.setClock m)) := by
  rw [judgeSetClock]
  refine if_congr level_ne_configuring rfl ?_
  cases clockFields body <;> rfl

theorem judgeOpenLevel_eq (port : Port) (c : Machine.Class) (p : Blocks) :
    judgeOpenLevel port c p =
      if p.level = .opened then refuseWith p .wrongLevelState (levelReport p)
      else if p.clock.isSet = false then refuseWith p .clockUnset (levelReport p)
      else accept (p.withLevel .opened) (levelReport (p.withLevel .opened)) := by
  unfold judgeOpenLevel
  rw [firstRefusal_fails (P := p.level = .opened) (by rw [beq_iff_eq, ← level_ne_configuring, not_not]),
    firstRefusal_fails (P := p.clock.isSet = false) (by simp), firstRefusal_nil]
  split_ifs <;> rfl

/-! ## SET PARAMETERS (R151) -/

theorem optField_skipOptNum (j : Nat) (o : Option Nat) (rest : List Byte) {off k : Nat} (h : j + 1 ≤ off) :
    optField (optNum j o ++ rest) off k = optField rest (off - (j + 1)) k := by
  rw [optField, optField, field_skipOptNum _ _ _ h, field_skipOptNum _ _ _ (Nat.le_add_right_of_le h),
    Nat.sub_add_comm h]

theorem optField_readLast {k : Nat} {o : Option Nat} (h : ∀ g ∈ o, g < 256 ^ k) : optField (optNum k o) 0 k = some o := by
  rw [← List.append_nil (optNum k o), optField_read [] h]

theorem bind_ite_none {α β : Type} {P : Prop} [Decidable P] (o : Option α) (f : α → Option β) :
    (if P then none else o).bind f = if P then none else o.bind f := by
  split <;> rfl

/-- What SET PARAMETERS reads from the six optional numbers of its body (R151, R170). -/
theorem parameterFields_read (old : Params) {lead gap grace win settle low : Option Nat} (hlead : ∀ x ∈ lead, x < 65536)
    (hgap : ∀ x ∈ gap, x < 65536) (hgrace : ∀ x ∈ grace, x < 65536) (hwin : ∀ x ∈ win, x < 256)
    (hsettle : ∀ x ∈ settle, x < 65536) (hlow : ∀ x ∈ low, x < 65536) :
    parameterFields old (optNum 2 lead ++ optNum 2 gap ++ optNum 2 grace ++ optNum 1 win ++ optNum 2 settle ++
      optNum 2 low) =
      if (∃ x ∈ lead, 60 < x) ∨ (∃ x ∈ gap, 30 < x) ∨ (∃ x ∈ grace, 60 < x) ∨ (∃ x ∈ win, x < 1 ∨ 15 < x) ∨
          (∃ x ∈ settle, x < 1 ∨ 15 < x) ∨ (∃ x ∈ low, 255 < x) then none
      else some
        { holdLead := lead.getD old.holdLead, turnoverGap := gap.getD old.turnoverGap
          defaultGrace := grace.getD old.defaultGrace, claimWindow := win.getD old.claimWindow
          settle := settle.getD old.settle, poolLow := low.getD old.poolLow } := by
  have hreadLead := fun rest => optField_read (k := 2) rest hlead
  have hreadGap := fun rest => optField_read (k := 2) rest hgap
  have hreadGrace := fun rest => optField_read (k := 2) rest hgrace
  have hreadWin := fun rest => optField_read (k := 1) rest hwin
  have hreadSettle := fun rest => optField_read (k := 2) rest hsettle
  have hreadLow := optField_readLast (k := 2) hlow
  simp only [ite_or]
  simp only [parameterFields, List.append_assoc, List.length_append, optNum_length, optField_skipOptNum, Nat.reduceAdd,
    Nat.reduceLeDiff, Nat.reduceSub, hreadLead, hreadGap, hreadGrace, hreadWin, hreadSettle, hreadLow, optIn_eq,
    bind_ite_none, Option.bind_some, Nat.not_lt_zero, false_or, ne_eq, not_true_eq_false, if_false]
  rw [apply_ite (Option.map _)]
  rfl

theorem judgeSetParameters_eq (port : Port) (c : Machine.Class) (body : List Byte) (p : Blocks) :
    judgeSetParameters port c body p =
      if p.level = .opened then refuseWith p .wrongLevelState (levelReport p)
      else (parameterFields p.params body).elim (refuseWith p .badField (levelReport p)) fun q =>
        accept (p.setParams q) (levelReport (p.setParams q)) := by
  rw [judgeSetParameters]
  refine if_congr level_ne_configuring rfl ?_
  cases parameterFields p.params body <;> rfl

/-- Settles O45. -/
theorem clockParametersAndOpening : Obligations.ClockParametersAndOpening := by
  unfold Obligations.ClockParametersAndOpening
  intro s r
  refine ⟨fun m h hbody hm => h.answered rfl (judge := judgeSetClock) ?_,
    fun lead gap grace win settle low q n h hbody hlead hgap hgrace hwin hsettle hlow hq hn =>
      h.answered rfl (judge := judgeSetParameters) ?_,
    fun h hbody => h.answered rfl (judge := withNoField levelReport judgeOpenLevel) ?_⟩
  · rw [judgeSetClock_eq, hbody, clockFields_read hm]
    split_ifs <;> rfl
  · have hset : s.blocks.setParams q = { s.blocks with params := q, notices := n } := by
      rw [hn]
      rfl
    rw [judgeSetParameters_eq, hbody, parameterFields_read _ hlead hgap hgrace hwin hsettle hlow, ← hset, hq]
    split_ifs <;> rfl
  · rw [hbody]
    refine (judgeOpenLevel_eq .site .operator s.blocks).trans ?_
    split_ifs <;> rfl

/-! ## RESTART with scope LEVEL (R23, R63, R103, R133, R148, R154) -/

theorem restart_gens (k : Book) (sl : Slot) :
    k.restart.gens[sl] =
      if k.rec? sl = none then k.gens[sl] else if k.gens[sl] < 63 then k.gens[sl] + 1 else 0 := by
  have hnext : nextGen k.gens[sl] = if k.gens[sl] < 63 then k.gens[sl] + 1 else 0 := if_congr Nat.succ_lt_succ_iff rfl rfl
  have hgen : k.restart.gens[sl] = if (k.rec? sl).isSome then nextGen k.gens[sl] else k.gens[sl] := by
    simp [Book.restart]
  rw [hgen, hnext]
  cases k.rec? sl <;> rfl

theorem restart_free (k : Book) : k.restart.free = List.finRange 640 := by
  simp only [Book.restart, Book.powerOn]

theorem restart_descriptor (m : ZoneMap) (c : Machine.Class) (z : ZoneNo) :
    m.restart.descriptor c z = { m.descriptor c z with used := false } := by
  simp [ZoneMap.restart, ZoneMap.descriptor]

theorem restart_session (a : Allocator) (actions : Vector Action Config.bayCount) (b : BayNo) :
    (a.restart actions).session b = none ∧ (a.restart actions).posts[b] = { enabled := false, limit := 0 } := by
  simp [Allocator.restart, Allocator.session, postFor]

theorem restart_feeder (a : Allocator) (actions : Vector Action Config.bayCount) (f : FeederNo) :
    (a.restart actions).feeder f = { a.feeder f with switchPending := false, grants := [], queue := [] } := by
  simp [Allocator.restart, Allocator.feeder]

theorem restart_actions (u : SupplyUnit) (bays : Vector Bay Config.bayCount) (b : BayNo) :
    (u.restart bays).actions[b] = (u.restart bays).actionFor bays[b].config := by
  rw [SupplyUnit.restart, SupplyUnit.actionFor_actions]
  exact Vector.getElem_map _ _

theorem restartLevel_bay (p : Blocks) (b : BayNo) :
    p.restartLevel.bay b = (p.bay b).restart (p.supply.restart p.bays.bays).actions[b] p.params.claimWindow := by
  simp [Blocks.restartLevel, Blocks.bay, Blocks.evalPool, Blocks.withNotices]

/-- What RESTART LEVEL makes of a bay entry, by rejoin and by the bay's state (R103). -/
theorem restart_bay (x : Bay) (a : Action) (win : Nat) :
    (x.restart a win).presence = x.presence ∧ (x.restart a win).faultLine = x.faultLine ∧
    (x.restart a win).heldMark = false ∧ (x.restart a win).sign = signOf (x.restart a win).state a ∧
    (x.config.rejoin = false → (x.restart a win).state = .disabled ∧ (x.restart a win).sticky = false ∧
      (x.restart a win).faultCause = none) ∧
    (x.config.rejoin = true → x.state = .disabled ∨ x.state = .faulted →
      (x.restart a win).state = x.state ∧ (x.restart a win).sticky = x.sticky ∧
      (x.restart a win).faultCause = x.faultCause) ∧
    (x.config.rejoin = true → x.state ≠ .disabled → x.state ≠ .faulted →
      (x.restart a win).sticky = x.sticky ∧
      (x.presence = true → (x.restart a win).state = .unclaimed ∧ (x.restart a win).origin = some .vacant ∧
        (x.restart a win).window = win) ∧
      (x.presence = false → (x.restart a win).state = .vacant ∧ (x.restart a win).origin = none ∧
        (x.restart a win).window = 0)) := by
  unfold Bay.restart
  dsimp only
  split
  · next hrejoin =>
    exact ⟨rfl, rfl, rfl, rfl, fun _ => ⟨rfl, rfl, rfl⟩, fun h => absurd (hrejoin.symm.trans h) Bool.false_ne_true,
      fun h => absurd (hrejoin.symm.trans h) Bool.false_ne_true⟩
  · next hrejoin =>
    split
    · next hout =>
      have hstate : x.state = .disabled ∨ x.state = .faulted := by
        by_contra h
        rw [(outOfService_eq_false_iff _).2 (not_or.1 h)] at hout
        cases hout
      exact ⟨rfl, rfl, rfl, rfl, fun h => absurd h hrejoin, fun _ _ => ⟨rfl, rfl, rfl⟩,
        fun _ hdisabled hfaulted => absurd hstate (not_or.2 ⟨hdisabled, hfaulted⟩)⟩
    · next hin =>
      have hstate : ¬(x.state = .disabled ∨ x.state = .faulted) := by
        rintro (h | h) <;> rw [h] at hin <;> exact hin rfl
      rw [rest_eq_atRest]
      refine ⟨rfl, rfl, rfl, rfl, fun h => absurd h hrejoin, fun _ h => absurd h hstate, fun _ _ _ =>
        ⟨rfl, fun hpresence => ?_, fun hpresence => ?_⟩⟩
      · simp [Bay.atRest, hpresence]
      · simp [Bay.atRest, hpresence]

theorem restartLevel_notices (p : Blocks) (h : p.params.poolLow < 640) :
    p.restartLevel.notices = { Notices.powerOn with mask := p.notices.mask }.setLevels false false := by
  have hlow : p.book.restart.poolLow p.params.poolLow = false := by
    rw [Book.poolLow, restart_free, List.length_finRange, decide_eq_false_iff_not, not_le]
    exact h
  change p.notices.restart.setLevels (p.book.restart.poolLow p.params.poolLow) p.book.restart.settledWaiting = _
  rw [hlow]
  rfl

theorem restartLevel_polls (p : Blocks) :
    p.restartLevel.bays.nextPoll = p.bays.nextPoll ∧ p.restartLevel.bays.lastPoll = p.bays.lastPoll := by
  simp [Blocks.restartLevel]

theorem judgeRestart_level (p : Blocks) :
    judgeRestart [1#8] p = accept p.restartLevel (levelReport p.restartLevel) := rfl

theorem judgeRestart_allocation (p : Blocks) :
    judgeRestart [2#8] p = accept { p with alloc := p.alloc.rebuild p.configs } (levelReport p) := by
  have hreport : levelReport p.restartAllocation = levelReport p := by
    simp only [levelReport, Blocks.restartAllocation_level, Blocks.restartAllocation_clock,
      Blocks.restartAllocation_params]
  rw [← hreport]
  rfl

/-- A permitted request in its turn is answered by a row that takes it, beside its kind. -/
theorem State.Serves.answeredRow {s : State} {k : Nat} {port : Port} {c : Machine.Class} {r : Request}
    (h : s.Serves k port c r) {isRow : Request → Bool} (hrow : isRow r = true) {may : Permission}
    {refused : Blocks → List Byte} {judge : Port → Machine.Class → List Byte → Blocks → Answer}
    (hmay : may port c = true) {a : Answer} (hjudge : judge port c r.body s.blocks = a) :
    serve isRow may refused judge port r s = .next (s.finishTurn port r a) := by
  obtain ⟨hdue, -, hclass⟩ := h
  rw [serve_allowed hdue hrow hclass hmay, hjudge]

/-- Settles O46. -/
theorem restartLevelResetsEachBlock : Obligations.RestartLevelResetsEachBlock := by
  unfold Obligations.RestartLevelResetsEachBlock
  intro s r h hbody hlow
  refine ⟨s.blocks.restartLevel, ?_, ?_⟩
  · obtain ⟨-, hkind, -⟩ := id h
    refine h.answeredRow (judge := fun _ _ => judgeRestart) ?_ rfl (by rw [hbody, judgeRestart_level]; rfl)
    rw [restartLevelRow, hkind, hbody]
    rfl
  · obtain ⟨hcauses, hattn⟩ := causes_after_restart s.blocks.notices.mask
    have hnotices := restartLevel_notices s.blocks hlow
    obtain ⟨hnext, hlast⟩ := restartLevel_polls s.blocks
    clear h
    generalize s.blocks = p at *
    refine ⟨rfl, rfl, rfl, rfl, restart_descriptor p.zones, rfl, rfl,
      fun sl => ⟨Book.rec_restart p.book sl, restart_gens p.book sl⟩, restart_free p.book, rfl, rfl,
      fun b => ⟨Book.slotsOn_restart p.book b, ?_⟩, rfl, restart_session p.alloc _, restart_feeder p.alloc _, rfl, rfl,
      rfl, restartLevel_modules p, hnext, hlast, fun b x hx => ?_, ?_, ?_, ?_, rfl⟩
    · simp [Blocks.restartLevel, Book.restart, Book.powerOn, Blocks.evalPool, Blocks.withNotices]
    · subst hx
      rw [restartLevel_bay]
      exact ⟨restart_actions _ _ b, Bay.restart_action _ _ _, Bay.restart_config _ _ _,
        by simpa only [Bay.restart_action] using restart_bay (p.bay b) _ p.params.claimWindow⟩
    · rw [hnotices]; rfl
    · rw [hnotices]; exact hcauses
    · rw [hnotices]; exact hattn

/-! ## RESTART with scope ALLOCATION (R132, R156) -/

theorem givenBack_session (a : Allocator) (b : BayNo) :
    a.givenBack.session b = (a.session b).map fun x => { x with grant := 0, phase := .suspended } := by
  simp [Allocator.givenBack, Allocator.session]

theorem givenBack_feeder (a : Allocator) (f : FeederNo) :
    a.givenBack.feeder f = { a.feeder f with grants := [], queue := [] } := by
  simp [Allocator.givenBack, Allocator.feeder]

/-- What the rebuild leaves of the allocator, and what it makes of each session (R132). -/
theorem rebuild_sessions (a : Allocator) (cfg : BayNo → BayConfig) :
    (a.rebuild cfg).actions = a.actions ∧ (a.rebuild cfg).supply = a.supply ∧
    SameFeederSettings a.givenBack (a.rebuild cfg) ∧
    ∀ b, (a.session b = none → (a.rebuild cfg).session b = none) ∧
      ∀ x, a.session b = some x → ∃ y : Session, (a.rebuild cfg).session b = some y ∧ y.feeder = x.feeder ∧
        y.draw = x.draw ∧ y.cap = capFor (a.action b) x.draw (cfg b).maxDraw ∧
        (y.phase = .suspended ↔ (a.action b).runs = false ∨ a.supply = .halt) := by
  have hrebuild : a.rebuild cfg =
      (List.finRange Config.bayCount).foldl (Allocator.resumeOne cfg fun _ => true) a.givenBack := by
    rw [Allocator.rebuild, Allocator.suspendAll_givenBack]
  obtain ⟨hactions, hsupply, hsame, hsessions⟩ :=
    resumeOne_fold cfg (List.finRange Config.bayCount) (List.nodup_finRange _) a.givenBack
  rw [← hrebuild] at hactions hsupply hsame hsessions
  refine ⟨hactions, hsupply, hsame, fun b => ?_⟩
  obtain ⟨hnone, hsome⟩ := (hsessions b).2 (List.mem_finRange b)
  rw [givenBack_session] at hnone hsome
  refine ⟨fun h => hnone (by rw [h]; rfl), fun x hx => ?_⟩
  rw [hx] at hsome
  obtain ⟨g, ph, hy, hph⟩ := hsome _ rfl rfl
  exact ⟨_, hy, rfl, rfl, rfl, hph⟩

/-- Settles O47. -/
theorem restartAllocationRebuildsTheLists : Obligations.RestartAllocationRebuildsTheLists := by
  unfold Obligations.RestartAllocationRebuildsTheLists
  intro s r h hbody
  refine ⟨s.blocks.alloc.rebuild s.blocks.configs, ?_, Allocator.rebuild_placedBy _ _, Allocator.rebuild_tame _ _, ?_⟩
  · obtain ⟨-, hkind, -⟩ := id h
    refine h.answeredRow (judge := fun _ _ => judgeRestart) ?_ rfl (by rw [hbody, judgeRestart_allocation]; rfl)
    rw [restartAllocationRow, hkind, hbody]
    rfl
  · clear h
    generalize s.blocks = p at *
    obtain ⟨hactions, hsupply, hsame, hsessions⟩ := rebuild_sessions p.alloc p.configs
    refine ⟨hsupply, hactions, fun f => ?_, fun b => (hsessions b).1, fun b x hx => ?_⟩
    · obtain ⟨hbudget, hreserve, hstaged, hpending⟩ := hsame f
      rw [givenBack_feeder] at hbudget hreserve hstaged hpending
      generalize (p.alloc.rebuild p.configs).feeder f = y at *
      cases y
      cases hbudget
      cases hreserve
      cases hstaged
      cases hpending
      rfl
    · obtain ⟨y, hy, hfeeder, hdraw, hcap, hphase⟩ := (hsessions b).2 x hx
      refine ⟨y, hy, hfeeder, hdraw, ?_, ?_⟩
      · rw [hactions, hcap]
        rfl
      · rw [hphase, Action.runs_false, or_assoc, hactions, hsupply]
        rfl

/-! ## CLEAR NOTICES (R168) -/

theorem optField_skip {pre rest : List Byte} {n off k : Nat} (hpre : pre.length = n) (h : n ≤ off) :
    optField (pre ++ rest) off k = optField rest (off - n) k := by
  rw [optField, optField, field_skip hpre h, field_skip hpre (Nat.le_add_right_of_le h), Nat.sub_add_comm h]

theorem baysField_skipBe (j v : Nat) (rest : List Byte) {off : Nat} (h : j ≤ off) :
    baysField (be j v ++ rest) off = baysField rest (off - j) := by
  rw [baysField, baysField, field_skipBe _ _ _ h, List.drop_append, be_length,
    List.drop_eq_nil_of_le ((be_length j v).trans_le (Nat.le_succ_of_le h)), List.nil_append, Nat.sub_add_comm h]

theorem baysField_read (o : Option (BitVec 96)) (rest : List Byte) :
    baysField (flag o.isSome ++ (le 12 ((o.map (·.toNat)).getD 0) ++ rest)) 0 = some o := by
  rw [baysField, yesNo_read]
  cases o with
  | none => rfl
  | some v =>
    have hv : leNat (le 12 v.toNat) = v.toNat := leNat_le (by simpa using v.isLt)
    have htake : ((flag true ++ (le 12 v.toNat ++ rest)).drop 1).take 12 = le 12 v.toNat :=
      List.take_left' (le_length 12 _)
    simp only [Option.isSome_some, Option.map_some, Option.getD_some, if_true, Nat.zero_add, htake, hv,
      BitVec.ofNat_toNat, BitVec.setWidth_eq]

theorem modulesField_read (o : Option (BitVec 12)) :
    modulesField (optNum 2 (o.map (·.toNat))) 0 = some o := by
  have hbound : ∀ g ∈ o.map (·.toNat), g < 2 ^ 12 := by
    intro g hg
    obtain ⟨v, -, rfl⟩ := Option.map_eq_some_iff.1 hg
    exact v.isLt
  rw [modulesField, optField_readLast fun g hg => (hbound g hg).trans (by decide), Option.bind_some, if_pos]
  · cases o with
    | none => rfl
    | some v => simp
  · rw [Option.all_eq_true]
    exact fun g hg => decide_eq_true (hbound g hg)

theorem clearFields_read {sel : Nat} (hsel : sel < 2 ^ 14) (bays : Option (BitVec 96)) (modules : Option (BitVec 12)) :
    clearFields (be 2 sel ++ (flag bays.isSome ++ le 12 ((bays.map (·.toNat)).getD 0)) ++
      (flag modules.isSome ++ be 2 ((modules.map (·.toNat)).getD 0))) = some (BitVec.ofNat 16 sel, bays, modules) := by
  have hopt : flag modules.isSome ++ be 2 ((modules.map (·.toNat)).getD 0) = optNum 2 (modules.map (·.toNat)) := by
    rw [optNum, Option.isSome_map]
  have hselField : field (be 2 sel ++ (flag bays.isSome ++ (le 12 ((bays.map (·.toNat)).getD 0) ++
      optNum 2 (modules.map (·.toNat))))) 0 2 = sel := field_read _ (hsel.trans (by decide))
  have hmodules : modulesField (be 2 sel ++ (flag bays.isSome ++ (le 12 ((bays.map (·.toNat)).getD 0) ++
      optNum 2 (modules.map (·.toNat))))) 15 = some modules := by
    rw [modulesField, optField_skip (be_length 2 sel) (by decide), optField_skip (flag_length _) (by decide),
      optField_skip (le_length 12 _) (by decide)]
    exact modulesField_read modules
  rw [hopt, List.append_assoc, List.append_assoc, clearFields, if_neg (by simp [flag_length, optNum_length]), hselField,
    causesOf, if_pos hsel, baysField_skipBe _ _ _ le_rfl, baysField_read, hmodules]
  rfl

/-- Settles O48. -/
theorem clearNoticesClearsWhatIsNamed : Obligations.ClearNoticesClearsWhatIsNamed := by
  unfold Obligations.ClearNoticesClearsWhatIsNamed
  intro s r sel bays modules h hsel hbody
  have hbit (i : Nat) (hi : i < 16) : (BitVec.ofNat 16 sel).getLsbD i = sel.testBit i := ofNat16_bit hi
  refine ⟨s.blocks.notices.clearNamed (BitVec.ofNat 16 sel) bays modules, h.answered rfl (judge := judgeClearNotices) ?_,
    fun b => ?_, fun k => ?_, ?_⟩
  · rw [judgeClearNotices, hbody, clearFields_read hsel]
    rfl
  · exact ⟨(clearMembers_bit _ _ _ _ b.isLt).trans (by rw [hbit 0 (by decide)]),
      (clearMembers_bit _ _ _ _ b.isLt).trans (by rw [hbit 1 (by decide)]),
      (clearMembers_bit _ _ _ _ b.isLt).trans (by rw [hbit 2 (by decide)]),
      (clearMembers_bit _ _ _ _ b.isLt).trans (by rw [hbit 3 (by decide)])⟩
  · exact (clearMembers_bit _ _ _ _ k.isLt).trans (by rw [hbit 4 (by decide)])
  · rw [← hbit 5 (by decide), ← hbit 6 (by decide), ← hbit 7 (by decide), ← hbit 8 (by decide), ← hbit 9 (by decide),
      ← hbit 10 (by decide), ← hbit 11 (by decide)]
    rfl

/-! ## IDENTIFY (R158) -/

/-- Settles O50. -/
theorem identifyAnswersTheIdentity : Obligations.IdentifyAnswersTheIdentity := by
  unfold Obligations.IdentifyAnswersTheIdentity
  intro s port c r h
  refine ⟨fun hport hbody => ?_, fun hport hbody => ?_, fun hport => ?_⟩
  · subst hport
    refine h.answered rfl (judge := withNoField noBody judgeIdentify) ?_
    rw [hbody]
    rfl
  · subst hport
    exact h.answered rfl (judge := withNoField noBody judgeIdentify) (if_neg (mt List.isEmpty_iff.1 hbody))
  · subst hport
    exact serve_of_denied h siteOnly noBody (withNoField noBody judgeIdentify) rfl

end Sys2Proof.Machine
end

section
/-! PROOFS. The relocation engine's turns: a record moved, or settled where no bay takes it. -/

namespace Sys2Proof.Machine

/-! ## A record moved or settled (R111 to R113) -/

theorem relocate_moved {p : Blocks} {sl : Slot} {x : Record} {b : BayNo} {before after : List BayNo}
    (htargets : p.targets x = before ++ b :: after) (hbefore : ∀ d ∈ before, ¬p.Takes x d) (hb : p.Takes x b) :
    p.MovedTo (p.relocate sl x) sl x b := by
  obtain ⟨htarget, hne⟩ := target_of_first htargets hbefore hb
  unfold Blocks.relocate
  rw [htarget]
  exact moveRecord_movedTo p sl x b hne

theorem relocate_stranded {p : Blocks} {sl : Slot} {x : Record} (hr : p.book.rec? sl = some x) (hl : x.state ≠ .settled)
    (hnone : ∀ d ∈ p.targets x, ¬p.Takes x d) : p.SettledAs (p.relocate sl x) sl x (lostRecord x) := by
  unfold Blocks.relocate
  rw [target_of_none hnone]
  exact settle_settledAs hr hl .cancelled (some .bayLost) _ (settledWith_bayLost x _).symm

/-! ## The step on a BAY entry (R109) -/

theorem exec_stepBay {s : State} {b : BayNo} {why : Reason} {rest : List Entry} (hd : s.relocationDue = true)
    (hreloc : s.blocks.reloc = .bay b why :: rest) :
    exec .relocationStepBayEntry s = .next { s with blocks := s.blocks.stepBay b, lastServed := .relocation } := by
  change execRelocationStepBayEntry s = _
  unfold execRelocationStepBayEntry
  rw [hd, hreloc]
  rfl

theorem stepBay_done {p : Blocks} {b : BayNo} (h : p.book.pendingOn b = []) :
    p.stepBay b = p.withReloc p.reloc.tail := by
  unfold Blocks.stepBay
  rw [h]

theorem stepBay_first {p : Blocks} {b : BayNo} {sl : Slot} {more : List Slot} {x : Record}
    (h : p.book.pendingOn b = sl :: more) (hr : p.book.rec? sl = some x) : p.stepBay b = p.relocate sl x := by
  unfold Blocks.stepBay
  simp only [h, hr]

/-! ## The step on a RECORD entry (R110) -/

theorem exec_stepRecord {s : State} {t : Ticket} {rest : List Entry} (hd : s.relocationDue = true)
    (hreloc : s.blocks.reloc = .record t :: rest) :
    exec .relocationStepRecordEntry s = .next { s with blocks := s.blocks.stepRecord t, lastServed := .relocation } := by
  change execRelocationStepRecordEntry s = _
  unfold execRelocationStepRecordEntry
  rw [hd, hreloc]
  rfl

theorem byTicket_none {k : Book} {t : Ticket} (h : ∀ (sl : Slot) (x : Record), k.rec? sl = some x → x.ticket ≠ t) :
    k.byTicket t = none := by
  rw [Book.byTicket, Option.bind_eq_none_iff]
  intro sl _
  rw [Option.bind_eq_none_iff]
  exact fun x hx => if_neg (h sl x hx)

theorem stepRecord_unnamed {p : Blocks} {t : Ticket} (h : p.book.byTicket t = none) :
    p.stepRecord t = p.withReloc p.reloc.tail := by
  unfold Blocks.stepRecord
  rw [h]

theorem stepRecord_named {p : Blocks} {t : Ticket} {sl : Slot} {x : Record} (h : p.book.byTicket t = some (sl, x)) :
    p.stepRecord t =
      if x.state = .held ∧ (p.bay x.bay).state.occupied = true then
        (p.relocate sl x).withReloc ((p.relocate sl x).reloc.filter (· != .record t))
      else (p.putRecord sl { x with relocPending := false }).withReloc p.reloc.tail := by
  unfold Blocks.stepRecord
  rw [h]

/-- Settles O51. -/
theorem relocationStepsMoveOrSettle : Obligations.RelocationStepsMoveOrSettle := by
  unfold Obligations.RelocationStepsMoveOrSettle
  refine ⟨fun s b why rest hd hreloc => ⟨fun hnone => ?_, fun sl more x hpending hr =>
      ⟨fun b' before after htargets hbefore hb' => ?_, fun hnone => ?_⟩⟩,
    fun s t rest p hd hsound hreloc hp => ⟨fun hnone => ?_, fun sl x hr ht => ⟨fun hstale => ?_, fun hheld hocc =>
      ⟨fun b' before after htargets hbefore hb' => ?_, fun hnone => ?_⟩⟩⟩⟩
  · rw [exec_stepBay hd hreloc, stepBay_done hnone, hreloc]
    rfl
  · exact ⟨_, by rw [exec_stepBay hd hreloc, stepBay_first hpending hr], relocate_moved htargets hbefore hb'⟩
  · obtain ⟨x', hr', hl⟩ := pendingOn_live (hpending ▸ List.mem_cons_self)
    obtain rfl : x = x' := Option.some_inj.1 (hr.symm.trans hr')
    exact ⟨_, _, rfl, by rw [exec_stepBay hd hreloc, stepBay_first hpending hr], relocate_stranded hr hl hnone⟩
  · rw [exec_stepRecord hd hreloc, stepRecord_unnamed (byTicket_none hnone), hreloc]
    rfl
  · have hnot : ¬(x.state = .held ∧ (s.blocks.bay x.bay).state.occupied = true) := by
      rintro ⟨hheld, hocc⟩
      exact hstale.elim (fun h => h hheld) fun h => Bool.false_ne_true (h.symm.trans hocc)
    rw [exec_stepRecord hd hreloc, ← ht, stepRecord_named (byTicket_of_rec hsound hr), if_neg hnot, hreloc]
    rfl
  · refine ⟨_, ?_, movedTo_dropEntry (relocate_moved (sl := sl) htargets hbefore hb') hp ht⟩
    rw [exec_stepRecord hd hreloc, ← ht, stepRecord_named (byTicket_of_rec hsound hr), if_pos ⟨hheld, hocc⟩]
  · have hl : x.state ≠ .settled := by
      rw [hheld]
      decide
    refine ⟨_, _, rfl, ?_, settledAs_dropEntry (relocate_stranded hr hl hnone) hp⟩
    rw [exec_stepRecord hd hreloc, ← ht, stepRecord_named (byTicket_of_rec hsound hr), if_pos ⟨hheld, hocc⟩]

end Sys2Proof.Machine
end

section
/-! PROOFS. The bay link: polls and reports, the events of a bay, the loss of a module, the claim windows. -/

namespace Sys2Proof.Machine

/-! ## Polls and reports (R100, R102) -/

/-- What is written for the bays of one module, after its state, leaves every other bay and module. -/
theorem OnlyAtModule.afterSetModule {k : ModuleNo} {m : ModuleState} {p q : Blocks}
    (h : OnlyAtModule k (p.setModule k m) q) :
    (∀ k', q.moduleState k' = if k' = k then m else p.moduleState k') ∧
    (∀ b, (∀ i, b ≠ bayAt k i) → q.bay b = p.bay b) ∧
    q = { p with
      bays := { p.bays with modules := q.bays.modules, bays := q.bays.bays }
      book := q.book, reloc := q.reloc, notices := q.notices, mail := q.mail } := by
  obtain ⟨hbay, hbays, hq⟩ := h
  have hmodules : q.bays.modules = setAt p.bays.modules k m := congrArg BayUnit.modules hbays
  have hunit : q.bays = { p.bays with modules := q.bays.modules, bays := q.bays.bays } := by rw [hbays]; rfl
  refine ⟨fun k' => ?_, fun b hb => hbay b hb, hq.trans (congrArg (fun v => { p with
    bays := v, book := q.book, reloc := q.reloc, notices := q.notices, mail := q.mail }) hunit)⟩
  rw [Blocks.moduleState, hmodules]
  exact (setAt_get _ _ _ _).trans (if_congr eq_comm rfl rfl)

theorem poll_eq (p : Blocks) {k next : ModuleNo} (hk : p.bays.nextPoll = k) (hnext : next.val = (k.val + 1) % 12) :
    p.poll = { p with bays := { p.bays with
      nextPoll := next
      lastPoll := some
        { target := k
          commands := (List.finRange 8).map fun i => p.alloc.posts[bayAt k i]
          signs := (List.finRange 8).map fun i => (p.bay (bayAt k i)).sign } } } := by
  have hturn : k + 1 = next := Fin.ext (by rw [Fin.val_add, hnext]; rfl)
  unfold Blocks.poll
  simp only [hk, hturn, moduleBays_eq, List.map_map]
  rfl

theorem takeReport_online {p : Blocks} {k : ModuleNo} {n : Nat} (h : p.moduleState k = .online n) (rep : ModuleReport) :
    p.takeReport k rep = p.onlineReport k rep := by rw [Blocks.takeReport, h]

theorem takeReport_offline {p : Blocks} {k : ModuleNo} (h : p.moduleState k = .offline) (rep : ModuleReport) :
    p.takeReport k rep = p.foundReport k rep := by rw [Blocks.takeReport, h]

/-- What a report does to its module, whatever the module's state is. -/
theorem takeReport_onlyAtModule (p : Blocks) (k : ModuleNo) (rep : ModuleReport) :
    OnlyAtModule k (p.setModule k (.online 0)) (p.takeReport k rep) ∧
    ∀ i, ((p.takeReport k rep).bay (bayAt k i)).presence = rep.presence.getLsbD i ∧
      ((p.takeReport k rep).bay (bayAt k i)).faultLine = rep.fault.getLsbD i := by
  cases h : p.moduleState k with
  | online n =>
    rw [takeReport_online h]
    obtain ⟨honly, hlevels, -⟩ := reportBay_fold k rep _ (List.nodup_finRange 8) (p.setModule k (.online 0))
    exact ⟨honly, fun i => (hlevels i).1 (List.mem_finRange i)⟩
  | offline =>
    rw [takeReport_offline h]
    obtain ⟨hbay, hbays, hq, hwritten⟩ := foundBay_fold k rep _ (List.nodup_finRange 8) (p.setModule k (.online 0))
    have hlevels := fun i => (hwritten i).trans (if_pos (List.mem_finRange i))
    unfold Blocks.foundReport
    generalize List.foldl _ (p.setModule k (.online 0)) _ = q at *
    refine ⟨⟨hbay, hbays, ?_⟩, fun i => ?_⟩
    · rw [hq]
    · rw [hlevels i]
      exact ⟨rfl, rfl⟩

/-- The found event writes the levels and nothing else (R102). -/
theorem foundReport_levels (p : Blocks) (k : ModuleNo) (rep : ModuleReport) :
    p.foundReport k rep = { p with bays := (p.foundReport k rep).bays } ∧
    ∀ i, (p.foundReport k rep).bay (bayAt k i) =
      { p.bay (bayAt k i) with presence := rep.presence.getLsbD i, faultLine := rep.fault.getLsbD i } := by
  obtain ⟨-, -, hq, hwritten⟩ := foundBay_fold k rep _ (List.nodup_finRange 8) (p.setModule k (.online 0))
  exact ⟨hq, fun i => (hwritten i).trans (if_pos (List.mem_finRange i))⟩

theorem setBay_bay (p : Blocks) (b : BayNo) : p.setBay b (p.bay b) = p :=
  congrArg (fun v => p.withBays { p.bays with bays := v }) (setAt_self p.bays.bays b)

/-- A report that repeats the levels held, with no post done, restarts the silence count and does nothing else. -/
theorem takeReport_repeated (p : Blocks) (k : ModuleNo) (rep : ModuleReport) (hdone : rep.done = 0)
    (hsame : ∀ i, (p.bay (bayAt k i)).presence = rep.presence.getLsbD i ∧
      (p.bay (bayAt k i)).faultLine = rep.fault.getLsbD i) :
    p.takeReport k rep = p.setModule k (.online 0) := by
  cases h : p.moduleState k with
  | online n =>
    rw [takeReport_online h]
    exact (reportBay_fold k rep _ (List.nodup_finRange 8) (p.setModule k (.online 0))).2.2 hdone fun i _ => hsame i
  | offline =>
    rw [takeReport_offline h]
    refine foldl_keeps (fun q => q = p.setModule k (.online 0)) _ _ _ rfl fun q hq i _ => ?_
    obtain ⟨hpresence, hfault⟩ := hsame i
    rw [hq, Blocks.bay_setModule, ← hpresence, ← hfault]
    exact setBay_bay _ _

/-- Settles O52. -/
theorem pollsAndReports : Obligations.PollsAndReports := by
  unfold Obligations.PollsAndReports
  refine ⟨fun s k next h hk hnext => atBlocks_next h (poll_eq s.blocks hk hnext), fun s k rep h => ?_⟩
  refine ⟨s.blocks.takeReport k rep, atBlocks_next h (f := fun p => p.takeReport k rep) rfl,
    atBlocks_next h (f := fun p => p.takeReport k rep) rfl, ?_⟩
  clear h
  generalize s.blocks = p
  obtain ⟨honly, hlevels⟩ := takeReport_onlyAtModule p k rep
  obtain ⟨hmodules, hothers, hframe⟩ := honly.afterSetModule
  refine ⟨hmodules, hlevels, hothers, hframe, fun hoff => ?_, fun n hon => ?_, fun hdone hsame => ?_⟩
  · rw [takeReport_offline hoff]
    exact foundReport_levels p k rep
  · rw [takeReport_online hon]
    exact inTurn_foldl (fun _ => True) _ (fun q _ i _ => ⟨reportBay_reported q k rep i, trivial⟩) _ trivial
  · rw [takeReport_repeated p k rep hdone hsame]
    rfl

/-! ## The loss of a module (R101) -/

theorem loseModule_online {p : Blocks} {k : ModuleNo} {n : Nat} (h : p.moduleState k = .online n) :
    p.loseModule k = ((List.finRange 8).foldl (fun p i => p.loseModuleBay (bayAt k i)) (p.setModule k .offline)).raise
      .bayUnit (.moduleLost k) := by
  rw [Blocks.loseModule, h, moduleBays_eq]
  simp only [List.foldl_map]

theorem OnlyAtModule.raise {k : ModuleNo} {p q : Blocks} (h : OnlyAtModule k p q) (y : Sender) (what : Raise) :
    OnlyAtModule k p (q.raise y what) := by
  obtain ⟨hbay, hbays, hq⟩ := h
  exact ⟨hbay, hbays, congrArg (fun t => t.raise y what) hq⟩

/-- Settles O54. -/
theorem moduleLossTakesItsBays : Obligations.ModuleLossTakesItsBays := by
  unfold Obligations.ModuleLossTakesItsBays
  intro s k n h hon hsound
  refine ⟨(List.finRange 8).foldl (fun p i => p.loseModuleBay (bayAt k i)) (s.blocks.setModule k .offline), _,
    atBlocks_next h (f := fun p => p.loseModule k) (loseModule_online hon), ?_, rfl, ?_⟩
  · exact inTurn_foldl (fun _ => True) _ (fun q _ i _ => ⟨loseModuleBay_linkLost q (bayAt k i), trivial⟩) _ trivial
  clear h
  generalize s.blocks = p at *
  obtain ⟨-, honly, -, -, -, htimelines, hrecords, hlost⟩ :=
    loseModuleBay_fold k _ (List.nodup_finRange 8) (p.setModule k .offline) hsound
  generalize List.foldl _ (p.setModule k .offline) _ = q at *
  obtain ⟨hmodules, hothers, hframe⟩ := (honly.raise .bayUnit (.moduleLost k)).afterSetModule
  refine ⟨hmodules, fun b hb => ⟨hothers b hb, (htimelines b fun i _ => hb i).2⟩, fun sl r hr hne => ?_,
    fun i b x hb hx => ?_, hframe⟩
  · refine (hrecords sl fun i _ hmem => hne i ?_).trans hr
    exact slotsOn_recBay hsound hmem r hr
  · subst hb hx
    obtain ⟨hdisabled, hfaulted, hinService⟩ := hlost i (List.mem_finRange i)
    exact ⟨hdisabled, hfaulted, hinService⟩

/-! ## The claim windows (R87) -/

theorem expiryRaise_eq (b : BayNo) (o : Option Origin) :
    expiryRaise b o = if o = some .awaiting then .intruder b else .unregistered b := by
  rcases o with _ | _ | _ <;> rfl

theorem windowExpires_iff {x : Bay} : x.windowExpires = true ↔ x.state = .unclaimed ∧ x.window ≤ 1 := by
  simp [Bay.windowExpires]

/-- What the bay unit does with its oldest boundary (R87). -/
theorem bayBoundary_counted (p : Blocks) {m : Nat} {rest : List Nat} (h : p.boundaries.bays = m :: rest) :
    (∀ b, p.bayBoundary.bay b = (p.bay b).countWindow) ∧
    p.bayBoundary = { p with
      boundaries := { p.boundaries with bays := rest }, bays := { p.bays with bays := p.bayBoundary.bays.bays }
      mail := { p.mail with
        raises := p.mail.raises ++ (List.finRange 96).filterMap fun b : BayNo =>
          if (p.bay b).state = .unclaimed ∧ (p.bay b).window ≤ 1 then
            some (.bayUnit, if (p.bay b).origin = some .awaiting then .intruder b else .unregistered b)
          else none } } := by
  obtain ⟨hbay, hmail, hframe⟩ := countBay_fold _ (List.nodup_finRange Config.bayCount)
    (p.withBoundaries { p.boundaries with bays := rest })
  have hq : p.bayBoundary =
      (List.finRange Config.bayCount).foldl Blocks.countBay (p.withBoundaries { p.boundaries with bays := rest }) := by
    rw [Blocks.bayBoundary, h]
  rw [← hq] at hbay hmail hframe
  simp only [expiryRaise_eq, windowExpires_iff] at hmail
  refine ⟨fun b => (hbay b).trans (if_pos (List.mem_finRange b)), hframe.trans ?_⟩
  rw [hmail]
  rfl

/-- Settles O55. -/
theorem minuteBoundaryAndClaimWindows : Obligations.MinuteBoundaryAndClaimWindows := by
  unfold Obligations.MinuteBoundaryAndClaimWindows
  intro s h
  refine ⟨fun m hm => atBlocks_next h (f := Blocks.minuteBoundary) (Blocks.minuteBoundary_eq s.blocks hm),
    fun m rest hrest => ⟨s.blocks.bayBoundary, atBlocks_next h (f := Blocks.bayBoundary) rfl,
      fun b hstate hwindow => atBlocks_next h
        (f := fun p => if (p.bay b).windowExpires then p.bayBoundary else p)
        (if_pos (windowExpires_iff.2 ⟨hstate, hwindow⟩)), fun b x hx => ?_, (bayBoundary_counted s.blocks hrest).2⟩⟩
  rw [(bayBoundary_counted s.blocks hrest).1 b, hx]
  rfl

end Sys2Proof.Machine
end

section
/-! PROOFS. The presence events, the fault events and the done reports of one bay. -/

namespace Sys2Proof.Machine

/-! ## Presence events (R85, R92, R4) -/

/-- In a sound entry the presence level tells which states a change of it can meet. -/
theorem Bay.Sound.state_of_presence {x : Bay} (h : x.Sound) :
    (x.presence = false → x.state ≠ .unclaimed ∧ x.state ≠ .squatted ∧ x.state ≠ .serving) ∧
    (x.presence = true → x.state ≠ .vacant ∧ x.state ≠ .awaiting) := by
  obtain ⟨-, -, -, -, hoccupied, hvacant, hawaiting, -⟩ := h
  rw [occupied_iff] at hoccupied
  refine ⟨fun hp => ?_, fun hp => ?_⟩ <;> simp_all

/-- The vehicle comes to a bay at rest, or leaves one that was not serving it: the bay takes its resting state. -/
theorem presenceEvent_atRest {p : Blocks} {b : BayNo} {tl : Bool} {x : Bay} (hsound : (p.bay b).Sound)
    (hpresence : (p.bay b).presence = !tl) (hx : x = { p.bay b with presence := tl }) (hserving : (p.bay b).state ≠ .serving) :
    p.presenceEvent b tl = p.setBay b
      (if (p.bay b).state = .disabled ∨ (p.bay b).state = .faulted then x else x.atRest p.params.claimWindow) := by
  obtain ⟨harrives, hleaves⟩ := hsound.state_of_presence
  obtain ⟨-, -, -, -, -, hvacant, hawaiting, -⟩ := hsound
  rw [presenceEvent_eq p b tl x hx, ← rest_eq_atRest]
  have hstate : x.state = (p.bay b).state := by rw [hx]
  have hlevel : x.presence = tl := by rw [hx]
  have hmark : x.heldMark = (p.bay b).heldMark := by rw [hx]
  clear hx
  cases tl with
  | true =>
    cases h : (p.bay b).state <;> simp_all [Bay.rest]
  | false =>
    cases h : (p.bay b).state <;> simp_all

/-- The vehicle leaves the bay that served it (R92). -/
theorem presenceEvent_departed {p : Blocks} {b : BayNo} {tl : Bool} {x : Bay} (hsound : (p.bay b).Sound)
    (hpresence : (p.bay b).presence = !tl) (hx : x = { p.bay b with presence := tl }) (hserving : (p.bay b).state = .serving) :
    p.presenceEvent b tl = (p.setBay b x).departure b := by
  cases tl with
  | true => exact absurd hserving (hsound.state_of_presence.1 hpresence).2.2
  | false =>
    rw [presenceEvent_eq p b false x hx, hx]
    dsimp only
    rw [hserving]

/-- What a departure does: the bay rests, and its vehicle record is settled COMPLETED. -/
theorem departure_eq (p : Blocks) (b : BayNo) (x : Bay) :
    (p.setBay b x).departure b = (p.book.servingOn b).elim (p.setBay b (x.atRest p.params.claimWindow)) fun sl =>
      (p.setBay b (x.atRest p.params.claimWindow)).settle false sl .completed none := by
  unfold Blocks.departure
  rw [Blocks.bay_setBay_same, rest_eq_atRest, setBay_twice]
  dsimp only
  rw [Blocks.setBay_book, Blocks.setBay_params]
  cases p.book.servingOn b <;> rfl

theorem settledWith_completed (x : Record) (m : Nat) :
    x.settledWith .completed none m =
      { x with
        state := .settled, outcome := some .completed, cause := none, relocPending := false
        departure := some m, dwell := some (m - x.arrival.getD m)
        overstay := some (if x.start + x.length < m then m - (x.start + x.length) else 0) } := by
  have hover : m - x.endMinute = if x.start + x.length < m then m - (x.start + x.length) else 0 := by
    rw [Record.endMinute]
    split <;> omega
  rw [← hover]
  rfl

/-- The presence table, for one event at a sound bay entry. -/
theorem presenceEvent_table {p q : Blocks} {b : BayNo} {tl : Bool} {x : Bay} (hsound : (p.bay b).Sound)
    (hpresence : (p.bay b).presence = !tl) (hq : q = p.presenceEvent b tl) (hx : x = { p.bay b with presence := tl }) :
    q.bay b = (if (p.bay b).state = .disabled ∨ (p.bay b).state = .faulted then x else x.atRest p.params.claimWindow) ∧
    ((p.bay b).state ≠ .serving → q = { p with bays := q.bays }) ∧
    ((p.bay b).state = .serving →
      (p.book.servingOn b = none → q = { p with bays := q.bays }) ∧
      (∀ (sl : Slot) (r : Record), p.book.servingOn b = some sl → p.book.rec? sl = some r →
        { p with bays := q.bays }.SettledAs q sl r
          { r with
            state := .settled, outcome := some .completed, cause := none, relocPending := false
            departure := some p.clock.minute, dwell := some (p.clock.minute - r.arrival.getD p.clock.minute)
            overstay := some (if r.start + r.length < p.clock.minute then p.clock.minute - (r.start + r.length) else 0) })) := by
  by_cases hserving : (p.bay b).state = .serving
  · rw [presenceEvent_departed hsound hpresence hx hserving, departure_eq] at hq
    refine ⟨?_, fun h => absurd hserving h, fun _ => ⟨fun hnone => ?_, fun sl r hsl hr => ?_⟩⟩
    · have hbay : q.bays = (p.setBay b (x.atRest p.params.claimWindow)).bays := by
        rw [hq]
        cases p.book.servingOn b with
        | none => rfl
        | some sl => exact Blocks.settle_bays _ _ _ _ _
      rw [hserving, if_neg (by decide), bay_of_bays hbay, Blocks.bay_setBay_same]
    · rw [hq, hnone]
      rfl
    · rw [hsl] at hq
      have hlive : r.state ≠ .settled := by
        obtain ⟨-, r', hr', hvehicle⟩ := servingOn_rec hsl
        rw [hr] at hr'
        cases hr'
        exact (vehicle_facts hvehicle).1
      have hbays : { p with bays := q.bays } = p.setBay b (x.atRest p.params.claimWindow) := by
        rw [hq]
        exact congrArg (fun v => { p with bays := v }) (Blocks.settle_bays _ _ _ _ _)
      rw [hbays, hq, ← settledWith_completed]
      exact settle_settledAs (p := p.setBay b (x.atRest p.params.claimWindow)) hr hlive .completed none _ rfl
  · rw [presenceEvent_atRest hsound hpresence hx hserving] at hq
    exact ⟨by rw [hq, Blocks.bay_setBay_same], fun _ => by rw [hq]; rfl, fun h => absurd h hserving⟩

/-! ## Fault events (R94, R95) -/

/-- Fault OFF, and any fault level of a DISABLED bay, is a level and no more. -/
theorem faultEvent_level {p : Blocks} {b : BayNo} {tl : Bool} (h : tl = false ∨ (p.bay b).state = .disabled) :
    p.faultEvent b tl = p.setBay b { p.bay b with faultLine := tl } := by
  unfold Blocks.faultEvent
  dsimp only
  rw [Blocks.bay_setBay_same]
  exact if_pos h

/-- Fault ON elsewhere: the sticky flag, POST_FAULT, and with autocut the loss of a bay in service. -/
theorem faultEvent_raised {p : Blocks} {b : BayNo} (h : (p.bay b).state ≠ .disabled) :
    p.faultEvent b true =
      if (p.bay b).state ≠ .faulted ∧ (p.bay b).config.autocut = true then
        ((p.setBay b { p.bay b with faultLine := true, sticky := true }).raise .bayUnit (.postFault b)).loseBay b .postFault
      else (p.setBay b { p.bay b with faultLine := true, sticky := true }).raise .bayUnit (.postFault b) := by
  have hraised : ((p.setBay b { p.bay b with faultLine := true, sticky := true }).raise .bayUnit (.postFault b)).bay b =
      { p.bay b with faultLine := true, sticky := true } := Blocks.bay_setBay_same _ _ _
  unfold Blocks.faultEvent
  dsimp only
  rw [Blocks.bay_setBay_same, setBay_twice, if_neg (by simpa using h), hraised]

/-- The fault table, for one event. -/
theorem faultEvent_table {p q : Blocks} {b : BayNo} {tl : Bool} {x : Bay} (hq : q = p.faultEvent b tl)
    (hx : x = { p.bay b with faultLine := tl }) :
    (tl = false ∨ (p.bay b).state = .disabled → q.bay b = x ∧ q = { p with bays := q.bays }) ∧
    (tl = true → (p.bay b).state ≠ .disabled →
      (.bayUnit, .postFault b) ∈ q.mail.raises ∧
      ((p.bay b).state = .faulted ∨ (p.bay b).config.autocut = false →
        q.bay b = { x with sticky := true } ∧
        q = { p with bays := q.bays, mail := { p.mail with raises := p.mail.raises ++ [(.bayUnit, .postFault b)] } }) ∧
      ((p.bay b).state ≠ .faulted → (p.bay b).config.autocut = true →
        q.bay b = { x with
          sticky := true, state := .faulted, faultCause := some .postFault, origin := none, window := 0, sign := .out } ∧
        Blocks.BayLost { p with mail := { p.mail with raises := p.mail.raises ++ [(.bayUnit, .postFault b)] } } q b { x with
          sticky := true, state := .faulted, faultCause := some .postFault, origin := none, window := 0, sign := .out }
          .postFault .fault ∧
        q = { p with bays := q.bays, book := q.book, reloc := q.reloc, notices := q.notices, mail := q.mail })) := by
  have hframe : q = { p with bays := q.bays, book := q.book, reloc := q.reloc, notices := q.notices, mail := q.mail } := by
    rw [hq]
    exact (faultEvent_levels p b tl).1.2.2
  refine ⟨fun h => ?_, fun htl hstate => ?_⟩
  · rw [hq, faultEvent_level h, Blocks.bay_setBay_same, hx]
    exact ⟨rfl, rfl⟩
  · subst htl
    rw [faultEvent_raised hstate] at hq
    have hraise : (.bayUnit, .postFault b) ∈
        ((p.setBay b { p.bay b with faultLine := true, sticky := true }).raise .bayUnit (.postFault b)).mail.raises :=
      List.mem_append_right _ (List.mem_singleton_self _)
    have hbay : ((p.setBay b { p.bay b with faultLine := true, sticky := true }).raise .bayUnit (.postFault b)).bay b =
        { x with sticky := true } := (Blocks.bay_setBay_same _ _ _).trans (by rw [hx])
    refine ⟨?_, fun hkeep => ?_, fun hfaulted hautocut => ⟨?_, ?_, hframe⟩⟩
    · rw [hq]
      split
      · exact loseBay_keepsRaises _ _ _ _ hraise
      · exact hraise
    · rw [if_neg (by simpa [or_iff_not_imp_left] using hkeep)] at hq
      rw [hq]
      exact ⟨hbay, rfl⟩
    · rw [hq, if_pos ⟨hfaulted, hautocut⟩, Blocks.loseBay_bay, if_pos rfl, hbay]
      rfl
    · rw [hq, if_pos ⟨hfaulted, hautocut⟩]
      refine loseBay_bayLost (l := .postFault) ?_
      rw [hbay]
      exact setBay_twice (p.raise .bayUnit (.postFault b)) b { p.bay b with faultLine := true, sticky := true } _

/-! ## Done reports (R93) -/

theorem doneReport_parked {p : Blocks} {b : BayNo} {sl : Slot} {r : Record} (hstate : (p.bay b).state = .serving)
    (hpost : p.alloc.posts[b].enabled = true) (hsl : p.book.servingOn b = some sl) (hr : p.book.rec? sl = some r)
    (hsession : r.state = .session) :
    p.doneReport b = { p with
      book := p.book.put sl { r with state := .parked }
      mail := { p.mail with toAlloc := p.mail.toAlloc ++ [.release b] } } := by
  unfold Blocks.doneReport
  rw [if_pos ⟨hstate, hpost⟩]
  simp only [hsl, hr, if_pos hsession]
  rfl

theorem doneReport_ignored {p : Blocks} {b : BayNo}
    (h : (p.bay b).state ≠ .serving ∨ p.alloc.posts[b].enabled = false ∨
      ∀ (sl : Slot) (r : Record), p.book.servingOn b = some sl → p.book.rec? sl = some r → r.state ≠ .session) :
    p.doneReport b = p := by
  unfold Blocks.doneReport
  split
  next htaken =>
    obtain ⟨hstate, hpost⟩ := htaken
    have hsession := (h.resolve_left fun hne => hne hstate).resolve_left (by rw [hpost]; decide)
    cases hsl : p.book.servingOn b with
    | none => rfl
    | some sl =>
      cases hr : p.book.rec? sl with
      | none => simp only [hr]
      | some r => simp only [hr, if_neg (hsession sl r hsl hr)]
  next => rfl

/-- Settles O53. -/
theorem bayEventsFollowTheTables : Obligations.BayEventsFollowTheTables := by
  unfold Obligations.BayEventsFollowTheTables
  refine ⟨fun p q b tl x hsound hpresence hq hx => ⟨fun b' hne => ?_, presenceEvent_table hsound hpresence hq hx⟩,
    fun p q b tl x hq hx => ⟨fun b' hne => ?_, faultEvent_table hq hx⟩, fun p b =>
      ⟨fun sl r hstate hpost hsl hr hsession => doneReport_parked hstate hpost hsl hr hsession, doneReport_ignored⟩⟩
  · rw [hq]
    exact (presenceEvent_levels p b tl).1.1 b' hne
  · rw [hq]
    exact (faultEvent_levels p b tl).1.1 b' hne

end Sys2Proof.Machine
end

section
/-! PROOFS. The deadline pass as one event. -/

namespace Sys2Proof.Machine

/-! ## The deadline pass (R68 to R75, R173) -/

theorem bookBoundary_eq {p : Blocks} {m : Nat} {rest : List Nat} (h : p.boundaries.book = m :: rest) :
    p.bookBoundary =
      if p.level = .opened then (p.withBoundaries { p.boundaries with book := rest }).deadlinePass m
      else p.withBoundaries { p.boundaries with book := rest } := by
  rw [Blocks.bookBoundary, h]
  rfl

theorem PastDeadlines.of_settled {m : Nat} {p : Blocks} {y : Record} (h : y.state = .settled) : PastDeadlines m p y := by
  simp [PastDeadlines, h]

theorem PassedFrom.of_settled {m : Nat} {p q : Blocks} {x : Record} (h : x.state = .settled) : PassedFrom m p q x x := by
  simp [PassedFrom, HandedOver, h]

/-- What the pass makes of the record in a slot, settled or standing on a timeline. -/
theorem deadlinePass_rec {m : Nat} {p q : Blocks} (hsound : p.book.Sound) (hq : q = p.deadlinePass m) {sl : Slot} {x : Record}
    (hx : p.book.rec? sl = some x) :
    ∃ y, q.book.rec? sl = some y ∧ PastDeadlines m p y ∧ PassedFrom m p q x y := by
  obtain ⟨-, -, -, hleft, hpassed, -⟩ := passBay_fold m _ (List.nodup_finRange Config.bayCount) p hsound q hq
  obtain ⟨-, -, -, -, -, hmember, -⟩ := hsound
  by_cases hlive : x.state = .settled
  · refine ⟨x, (hleft sl fun b _ hmem => ?_).trans hx, .of_settled hlive, .of_settled hlive⟩
    obtain ⟨x', hx', hne, -⟩ := (hmember b sl).1 hmem
    rw [hx] at hx'
    cases hx'
    exact hne hlive
  · obtain ⟨y, hy, -, hpast, hfrom⟩ :=
      hpassed x.bay (List.mem_finRange _) sl ((hmember x.bay sl).2 ⟨x, hx, hlive, rfl⟩) x hx
    exact ⟨y, hy, hpast, hfrom⟩

/-- The pass makes no record. -/
theorem deadlinePass_rec_none {m : Nat} {p q : Blocks} (hsound : p.book.Sound) (hq : q = p.deadlinePass m) {sl : Slot}
    (hx : p.book.rec? sl = none) : q.book.rec? sl = none := by
  obtain ⟨-, -, -, hleft, -⟩ := passBay_fold m _ (List.nodup_finRange Config.bayCount) p hsound q hq
  obtain ⟨-, -, -, -, -, hmember, -⟩ := hsound
  refine (hleft sl fun b _ hmem => ?_).trans hx
  obtain ⟨x', hx', -⟩ := (hmember b sl).1 hmem
  rw [hx] at hx'
  cases hx'

theorem deadlinePass_past {m : Nat} {p q : Blocks} (hsound : p.book.Sound) (hq : q = p.deadlinePass m) {sl : Slot} {y : Record}
    (hy : q.book.rec? sl = some y) : PastDeadlines m p y := by
  cases hx : p.book.rec? sl with
  | none =>
    rw [deadlinePass_rec_none hsound hq hx] at hy
    cases hy
  | some x =>
    obtain ⟨y', hy', hpast, -⟩ := deadlinePass_rec hsound hq hx
    rw [hy'] at hy
    cases hy
    exact hpast

/-- Settles O56. -/
theorem deadlinePassLeavesNoDeadline : Obligations.DeadlinePassLeavesNoDeadline := by
  unfold Obligations.DeadlinePassLeavesNoDeadline
  intro s m rest h hsound hrest
  refine ⟨fun hlevel => atBlocks_next h (f := Blocks.bookBoundary) ?_, fun hlevel => ?_⟩
  · rw [bookBoundary_eq hrest, hlevel]
    rfl
  obtain ⟨q, hq⟩ : ∃ q, q = (s.blocks.withBoundaries { s.blocks.boundaries with book := rest }).deadlinePass m := ⟨_, rfl⟩
  refine ⟨q, atBlocks_next h (f := Blocks.bookBoundary) (by rw [bookBoundary_eq hrest, if_pos hlevel, hq]), ?_⟩
  clear h hrest hlevel
  generalize s.blocks = p at *
  have hsound : (p.withBoundaries { p.boundaries with book := rest }).book.Sound := hsound
  have hturn := deadlinePass_passed m (p.withBoundaries { p.boundaries with book := rest })
  rw [← hq] at hturn
  obtain ⟨hkeeps, -, -, -, -, hreport, hsent⟩ := passBay_fold m _ (List.nodup_finRange Config.bayCount)
    (p.withBoundaries { p.boundaries with book := rest }) hsound q hq
  refine ⟨fun sl x hx => deadlinePass_past hsound hq hx, fun sl x hx => ?_, fun b => hreport b (List.mem_finRange b), hturn,
    hsent, hkeeps.rl, hkeeps.fg.1, hkeeps.fg.2, hkeeps.nt, hkeeps.fr⟩
  obtain ⟨y, hy, -, hsame, hgrace, hend, hlead, hhanded⟩ := deadlinePass_rec hsound hq hx
  exact ⟨y, hy, hsame, hgrace, hend, hlead, fun hheld hstart hbefore hoccupied hmark hentry =>
    hhanded ⟨hheld, hstart, hoccupied, hmark, hentry⟩ hbefore⟩

end Sys2Proof.Machine
end

section
/-! PROOFS. The rebalance boundary, the cut, the session requests and releases. -/

namespace Sys2Proof.Machine

/-! ## The rebalance boundary (R126) -/

theorem allocBoundary_eq {p : Blocks} {m : Nat} {rest : List Nat} (h : p.boundaries.alloc = m :: rest) :
    p.allocBoundary = (p.withBoundaries { p.boundaries with alloc := rest }).rebalance := by
  rw [Blocks.allocBoundary, h]

/-- Settles O57. -/
theorem rebalanceSwitchesServesAndTopsUp : Obligations.RebalanceSwitchesServesAndTopsUp := by
  unfold Obligations.RebalanceSwitchesServesAndTopsUp
  intro s m rest a ceil h ha hsound hrest _ hceil
  subst ha
  obtain ⟨hturn, hraised, hmail, hsupply, hactions⟩ := rebalance_chain s.blocks.alloc ceil hceil (List.finRange 4)
    (List.nodup_finRange 4) (s.blocks.withBoundaries { s.blocks.boundaries with alloc := rest }) hsound rfl
    fun _ _ => ⟨rfl, rfl⟩
  obtain ⟨hfinal, hfeeders, -, -, hframe⟩ := rebalanceFeeder_fold (List.finRange 4) (List.nodup_finRange 4)
    (s.blocks.withBoundaries { s.blocks.boundaries with alloc := rest }) hsound
  refine ⟨(List.finRange 4).foldl Blocks.rebalanceFeeder (s.blocks.withBoundaries { s.blocks.boundaries with alloc := rest }),
    atBlocks_next h (f := Blocks.allocBoundary) (allocBoundary_eq hrest), ?_⟩
  clear h
  generalize (List.finRange 4).foldl Blocks.rebalanceFeeder _ = q at *
  exact ⟨hturn, hmail, hraised, hfinal, hsupply, hactions, fun f => hfeeders f (List.mem_finRange f), hframe⟩

/-! ## The cut (R123) -/

/-- The two parts a cut divides its grant list into, the grants kept and those taken back, and what becomes of each. -/
structure Allocator.CutInto (a : Allocator) (f : FeederNo) (kept back : List BayNo) : Prop where
  split : (a.feeder f).grants = kept ++ back
  lists : (a.cut f).feeder f = { a.feeder f with grants := kept, queue := back ++ (a.feeder f).queue }
  within : (a.cut f).granted f ≤ a.ceiling f
  exact : back = [] → (a.cut f).granted f = a.ceiling f
  least : back ≠ [] → a.ceiling f < (a.cut f).granted f + 6 ∧ ∀ b ∈ kept, (a.cut f).grantOf b = 6
  lowered : ∀ b ∈ kept, ∃ x : Session, a.session b = some x ∧
    (a.cut f).session b = some { x with grant := (a.cut f).grantOf b } ∧
    6 ≤ (a.cut f).grantOf b ∧ (a.cut f).grantOf b ≤ x.grant
  newest : kept.Pairwise fun older newer => (a.cut f).grantOf older < a.grantOf older → (a.cut f).grantOf newer = 6
  queued : ∀ b ∈ back, ∃ x : Session, a.session b = some x ∧
    (a.cut f).session b = some { x with grant := 0, phase := .queued }

theorem Allocator.grantOf_of_session {a d : Allocator} {b : BayNo} (h : d.session b = a.session b) :
    d.grantOf b = a.grantOf b := by rw [Allocator.grantOf, Allocator.grantOf, h]

/-- The trim, then the requeue: what is kept keeps what the trim left it. -/
theorem Allocator.cut_into {a : Allocator} (h : a.ListsSound) {f : FeederNo} (hover : a.ceiling f < a.granted f)
    (hleast : ∀ b ∈ (a.feeder f).grants, 6 ≤ a.grantOf b) : ∃ kept back, a.CutInto f kept back := by
  obtain ⟨d, hd, hdLists, hdFeeder, hdCeiling, -, hdSession, hdOver, hdEnd, -, hdNewest⟩ :=
    Allocator.trim_fold (f := f) (a.feeder f).grants.reverse a h (List.nodup_reverse.2 (h.1 f).1) (by simp)
      (by simpa using hleast) hover.le
  obtain ⟨e, kept, back, he, hsplit, -, heFeeder, heCeiling, heWithin, heMore, heNone, heQueued, heKept⟩ :=
    Allocator.requeue_fold (f := f) (a.feeder f).grants.reverse d hdLists (by rw [hdFeeder, List.reverse_reverse])
      (hdEnd.imp (fun heq => by rw [hdCeiling, heq]) id)
  have hcut : a.cut f = e := by
    rw [he, Allocator.cut, ← hd, hdFeeder]
  rw [List.reverse_reverse] at hsplit
  rw [hdCeiling] at heWithin heMore
  have hapart : ∀ b ∈ kept, b ∉ back := fun b hk hb =>
    (List.nodup_append.1 (hsplit ▸ (h.1 f).1)).2.2 b hk b hb rfl
  have hkept : ∀ b ∈ kept, e.grantOf b = d.grantOf b := fun b hb => Allocator.grantOf_of_session (heKept b (hapart b hb))
  have hmem : ∀ b ∈ kept ++ back, b ∈ (a.feeder f).grants.reverse := fun b hb => by
    rw [List.mem_reverse, hsplit]
    exact hb
  refine ⟨kept, back, ⟨hsplit, ?_, ?_, fun hnone => ?_, fun hsome => ?_, fun b hb => ?_, ?_, fun b hb => ?_⟩⟩ <;> rw [hcut]
  · rw [heFeeder, if_pos rfl, hdFeeder]
  · exact heWithin
  · rw [heNone hnone] at heWithin ⊢
    exact heWithin.antisymm hdOver
  · obtain ⟨hmore, hnear⟩ := heMore hsome
    exact ⟨hnear, fun b hb => (hkept b hb).trans
      (hdEnd.resolve_left hmore.ne' b (hmem b (List.mem_append_left _ hb)))⟩
  · obtain ⟨x, hx, hdx, hlow, hle⟩ := hdSession b (hmem b (List.mem_append_left _ hb))
    rw [Allocator.grantOf_some hx] at hle
    rw [hkept b hb]
    exact ⟨x, hx, (heKept b (hapart b hb)).trans hdx, hlow, hle⟩
  · have hall := List.pairwise_reverse.1 hdNewest
    rw [hsplit] at hall
    refine (List.pairwise_append.1 hall).1.imp_of_mem fun hold hnew hlowered hlt => ?_
    rw [hkept _ hold] at hlt
    rw [hkept _ hnew]
    exact hlowered hlt
  · obtain ⟨x, hx, hdx, -⟩ := hdSession b (hmem b (List.mem_append_right _ hb))
    obtain ⟨y, hy, hey⟩ := heQueued b hb
    rw [hdx] at hy
    cases hy
    exact ⟨x, hx, hey⟩

/-- Settles O58. -/
theorem cutTakesFromTheNewest : Obligations.CutTakesFromTheNewest := by
  unfold Obligations.CutTakesFromTheNewest
  intro a f h hover hleast
  obtain ⟨kept, back, hcut⟩ := Allocator.cut_into h hover hleast
  have hpost := fun b (hb : b ∈ kept ++ back) => (Allocator.cut_written h f b).1 (hcut.split ▸ hb)
  refine ⟨kept, back, hcut.split, hcut.lists, hcut.within, hcut.exact, hcut.least, hcut.lowered, hcut.newest, hcut.queued,
    fun b hb => ?_, fun b hb => ?_, fun b hb => ⟨(cut_sessions f a b).1 hb, (Allocator.cut_written h f b).2 hb⟩,
    Allocator.cut_supply a f, Allocator.cut_actions a f, (cut_feeder f a).1⟩
  · obtain ⟨x, hx, hlow, -⟩ := hcut.lowered b hb
    obtain ⟨x', hx', -, hcharging⟩ := (h.2.1 f b).1 (hcut.split ▸ List.mem_append_left _ hb)
    rw [hx] at hx'
    cases hx'
    rw [hpost b (List.mem_append_left _ hb), hlow]
    exact if_pos hcharging
  · obtain ⟨x, -, hqueued⟩ := hcut.queued b hb
    rw [hpost b (List.mem_append_right _ hb), hqueued]
    rfl

/-! ## Session requests and releases (R120, R121) -/

theorem takeAlloc_eq {p : Blocks} {m : AllocMsg} {rest : List AllocMsg} (h : p.mail.toAlloc = m :: rest)
    (f : Blocks → Blocks) : p.takeAlloc m f = f (p.withMail { p.mail with toAlloc := rest }) := by
  rw [Blocks.takeAlloc, h]
  exact if_pos rfl

/-- A session request makes or uses the bay's entry, and places it. -/
theorem request_placed {a : Allocator} {b : BayNo} {n : Nat} {config : BayConfig} {x : Session}
    (h : a.session b = none ∧ x.draw = n ∧ x.feeder = config.feeder ∨
      ∃ y, a.session b = some y ∧ y.phase = .suspended ∧ x.draw = y.draw ∧ x.feeder = y.feeder) :
    a.request b n config = a.placedBy b config.maxDraw x := by
  rcases h with ⟨hnone, hdraw, hfeeder⟩ | ⟨y, hy, hsuspended, hdraw, hfeeder⟩
  · rw [Allocator.request, hnone]
    exact (Allocator.place_placedBy _ _ _ _).trans (Allocator.placedBy_congr _ _ _ hfeeder.symm hdraw.symm)
  · rw [Allocator.request, hy]
    dsimp only
    rw [if_pos hsuspended, Allocator.place_placedBy]
    exact Allocator.placedBy_congr _ _ _ hfeeder.symm hdraw.symm

theorem release_none {a : Allocator} {b : BayNo} (h : a.session b = none) : a.release b = a := by
  rw [Allocator.release, h]

theorem release_some {a : Allocator} {b : BayNo} {x : Session} (h : a.session b = some x) :
    a.release b = ((a.leaveLists x.feeder b).putSession b none).serveQueue x.feeder := by
  rw [Allocator.release, h]

/-- Settles O59. -/
theorem sessionRequestAndRelease : Obligations.SessionRequestAndRelease := by
  unfold Obligations.SessionRequestAndRelease
  intro s b a rest p h ha hp
  subst ha hp
  refine ⟨fun n x hmail hx => atBlocks_next h (f := fun p => p.takeRequest b n) ?_, fun hmail hlists =>
    ⟨fun hnone => atBlocks_next h (f := fun p => p.takeRelease b) ?_, fun x hx => ⟨_, _,
      atBlocks_next h (f := fun p => p.takeRelease b) (takeAlloc_eq hmail _), rfl, ?_⟩⟩⟩
  · refine (takeAlloc_eq hmail _).trans ?_
    exact congrArg (fun a => { s.blocks with mail := { s.blocks.mail with toAlloc := rest }, alloc := a }) (request_placed hx)
  · refine (takeAlloc_eq hmail _).trans ?_
    exact congrArg (fun a => { s.blocks with mail := { s.blocks.mail with toAlloc := rest }, alloc := a })
      (release_none hnone)
  · have hleft := (Allocator.leave_sound hlists hx (o := none) fun y hy => by cases hy).1
    have hserved := Allocator.serveQueue_served hleft x.feeder
    rw [← release_some hx] at hserved
    exact hserved

end Sys2Proof.Machine
end

section
/-! PROOFS. The messages on their way and the raises, each taken by the block it is for. -/

namespace Sys2Proof.Machine

/-! ## HOLD, UNHOLD and END (R86, R89) -/

theorem takeHold_eq {p : Blocks} {b : BayNo} {rest : List BayMsg} (h : p.mail.toBays = .hold b :: rest) :
    p.takeHold b = (p.withMail { p.mail with toBays := rest }).setBay b
      (if (p.bay b).state = .vacant then
        { p.bay b with
          heldMark := true, state := .awaiting, origin := none, window := 0, faultCause := none
          sign := signOf .awaiting (p.bay b).action }
      else { p.bay b with heldMark := true }) :=
  takeBay_eq h _

theorem takeUnhold_eq {p : Blocks} {b : BayNo} {rest : List BayMsg} (h : p.mail.toBays = .unhold b :: rest) :
    p.takeUnhold b = (p.withMail { p.mail with toBays := rest }).setBay b
      (if (p.bay b).state = .awaiting then
        { p.bay b with
          heldMark := false, state := .vacant, origin := none, window := 0, faultCause := none
          sign := signOf .vacant (p.bay b).action }
      else { p.bay b with heldMark := false }) :=
  takeBay_eq h _

theorem takeEnd_eq {p : Blocks} {b : BayNo} {rest : List BayMsg} (h : p.mail.toBays = .endServing b :: rest) :
    p.takeEnd b = (p.withMail { p.mail with toBays := rest }).setBay b
      (if (p.bay b).state = .serving then
        { p.bay b with
          state := .unclaimed, origin := some .vacant, window := p.params.claimWindow, faultCause := none
          sign := signOf .unclaimed (p.bay b).action }
      else p.bay b) :=
  takeBay_eq h _

/-! ## The removal of a RECORD entry (R107) and the raises (R164, R165) -/

theorem takeRemoval_eq {p : Blocks} {t : Ticket} {rest : List Ticket} (h : p.mail.toReloc = t :: rest) :
    p.takeRemoval t =
      { p with mail := { p.mail with toReloc := rest }, reloc := p.reloc.filter (· != .record t) } := by
  rw [Blocks.takeRemoval, h]
  exact if_pos rfl

theorem takeRaise_eq {p : Blocks} {y : Sender} {what : Raise} {before after : List (Sender × Raise)}
    (h : p.mail.raises = before ++ (y, what) :: after) (hfirst : ∀ z ∈ before, z.1 ≠ y) :
    p.takeRaise y what =
      { p with mail := { p.mail with raises := before ++ after }, notices := p.notices.take what } := by
  obtain ⟨hfound, herased⟩ := raise_found_and_erased before after y what hfirst
  rw [Blocks.takeRaise, h, if_pos hfound, herased]
  rfl

/-- Settles O60. -/
theorem messagesAndRaisesAreTaken : Obligations.MessagesAndRaisesAreTaken := by
  unfold Obligations.MessagesAndRaisesAreTaken
  refine ⟨fun s b x set h hx hset => ?_, fun s y what before after n h hraises hfirst hn => ?_⟩
  · subst hx
    refine ⟨fun rest hmail => ?_, fun rest hmail => ?_, fun rest hmail => ?_, fun t rest hmail =>
      atBlocks_next h (f := fun p => p.takeRemoval t) (takeRemoval_eq hmail)⟩ <;> rw [hset]
    · exact atBlocks_next h (f := fun p => p.takeHold b) (takeHold_eq hmail)
    · exact atBlocks_next h (f := fun p => p.takeUnhold b) (takeUnhold_eq hmail)
    · exact atBlocks_next h (f := fun p => p.takeEnd b) (takeEnd_eq hmail)
  · refine atBlocks_next h (f := fun p => p.takeRaise y what) ((takeRaise_eq hraises hfirst).trans ?_)
    have htaken : s.blocks.notices.take what = { n with attn := n.wantsAttn } := by
      rw [hn]
      cases what <;> rfl
    rw [htaken]

end Sys2Proof.Machine
end
